-- ==== Sys2Proof/Word.lean ====
section
/-! DEFINITION. The byte, the one machine word of this block: characters of the wand and printer lines, frame bytes and
bytes of the journal array. Every other quantity of the LD-418 is a decimal number with a range and is a `Nat` here. -/

namespace Sys2Proof

/-- One byte of a serial line, of a frame or of the journal array. -/
abbrev Byte := BitVec 8

end Sys2Proof
end

