-- ==== Sys2Proof/Syntax.lean ====
section
/-! DEFINITION. The commands of the LD-418: one constructor per row of spec/opcode_table.json, in the table's order of
families. A row is one whole step of the part. Its operands are what reaches the part from outside with that step (a
desk, a port, the characters on a line); everything else the step needs stands in State. -/

namespace Sys2Proof

/-- The two desk positions (1.2). -/
inductive Desk where
  | a
  | b
  deriving DecidableEq, Repr

/-- The three ports (chapter 12). -/
inductive Port where
  | desk (d : Desk)
  | uplink
  deriving DecidableEq, Repr

/-- What a wand receive line delivers: a character, or a character received with a line error (R3). -/
inductive WandChar where
  | char (b : Byte)
  | lineError
  deriving DecidableEq, Repr

/-- Why a partly received frame is discarded (R187). -/
inductive FrameBreak where
  | gap
  | lineError
  deriving DecidableEq, Repr

/-- The two events of a port inquiry, whose row covers both: the request's frame is taken by the port, and the
circulation store takes the waiting inquiry in the port's turn (R41, R60, R79, R163). -/
inductive Ask where
  | request (tag : Byte) (body : List Byte)
  | turn
  deriving DecidableEq, Repr

/-- The commands. A request carries the port its frame came through, the frame's tag and the frame's body bytes. -/
inductive Instr where
  | wandMessage (d : Desk) (chars : List WandChar)
  | wandPartialTimeout (d : Desk)
  | tonePulseEnd (d : Desk)
  | keyIn (p : Port) (tag : Byte) (body : List Byte)
  | takeEntry (d : Desk)
  | idleTimerExpiry (d : Desk)
  | overrideTimerExpiry (d : Desk)
  | leaveOpen (d : Desk)
  | status (p : Port) (tag : Byte) (body : List Byte)
  | readResult (p : Port) (tag : Byte) (body : List Byte)
  | setMode (p : Port) (tag : Byte) (body : List Byte)
  | close (p : Port) (tag : Byte) (body : List Byte)
  | override (p : Port) (tag : Byte) (body : List Byte)
  | decline (p : Port) (tag : Byte) (body : List Byte)
  | dropSlip (p : Port) (tag : Byte) (body : List Byte)
  | issue (d : Desk)
  | overrideOnLoanElsewhere (d : Desk)
  | overrideHeldForOther (d : Desk)
  | discharge (d : Desk)
  | renew (d : Desk)
  | itemInquiry (d : Desk)
  | borrowerCheck (d : Desk)
  | borrowerInquiry (d : Desk)
  | inquireItem (p : Port) (ask : Ask)
  | inquireBorrower (p : Port) (ask : Ask)
  | payment (p : Port) (tag : Byte) (body : List Byte)
  | paymentTransaction (d : Desk)
  | setLocalBlock (p : Port) (tag : Byte) (body : List Byte)
  | setLocalBlockTransaction (d : Desk)
  | clearLocalBlock (p : Port) (tag : Byte) (body : List Byte)
  | clearLocalBlockTransaction (d : Desk)
  | readSettings (p : Port) (tag : Byte) (body : List Byte)
  | postEdit (p : Port) (tag : Byte) (body : List Byte)
  | setTime (p : Port) (tag : Byte) (body : List Byte)
  | clockTick
  | openLine (high : Bool)
  | refreshRules (p : Port) (tag : Byte) (body : List Byte)
  | applicationStep
  | holdPassVisit
  | sweepVisit
  | rolloverRecord
  | bufferTimer
  | pageProgramStart
  | pageProgramComplete
  | eraseStart
  /-- `left` lists the bytes, by offset in the sector, that the erase did not bring back to all ones (R155). -/
  | eraseComplete (left : List Host.Cell)
  | identify (p : Port) (ask : Ask)
  | readJournal (p : Port) (tag : Byte) (body : List Byte)
  | ackJournal (p : Port) (tag : Byte) (body : List Byte)
  | beginDownload (p : Port) (tag : Byte) (body : List Byte)
  | downloadMarkStale
  | downloadEntry (p : Port) (tag : Byte) (body : List Byte)
  | blockEntry
  | holdEntry
  | endDownload (p : Port) (tag : Byte) (body : List Byte)
  | downloadEnd
  | abortDownload (p : Port) (tag : Byte) (body : List Byte)
  | downloadAbort
  | gapTimerExpiry
  | printerStatus (p : Port) (tag : Byte) (body : List Byte)
  | printerDone
  | printerPaperOut
  | printerReady
  /-- `chars` are the characters that arrive, carriage returns among them (R182). -/
  | printerMessageDiscard (chars : List WandChar)
  | messageSent
  | answerTimerExpiry
  | inquiryTimerExpiry
  /-- `rest` is what arrives after the bytes already held, down to the frame's last check byte (R187). -/
  | frameCheckError (p : Port) (rest : List Byte)
  | frameTimeout (p : Port) (cause : FrameBreak)
  | unknownRequest (p : Port) (tag : Byte) (code : Byte) (body : List Byte)
  | restartArm (p : Port) (tag : Byte) (body : List Byte)
  | restart (p : Port) (tag : Byte) (body : List Byte)
  | unitRestart
  /-- `vbak` is the lowest level of the backup supply, in millivolts, while main power was off; `openHigh` is the level
  of the OPEN line as power comes up (R192, 12.7). -/
  | powerOn (vbak : Nat) (openHigh : Bool)
  /-- What the loss leaves in the array of a page being programmed and of a sector being erased, by offset in that page
  and in that sector; an offset not listed reads all ones (R148, R158). -/
  | powerLoss (page : List Host.Cell) (sector : List Host.Cell)
  | wandCharacter (d : Desk) (c : WandChar)
  /-- A start byte and then the two length bytes `hi` and `lo` (R187). -/
  | strayStartByte (p : Port) (hi : Byte) (lo : Byte)
  | responseSent (p : Port)
  deriving DecidableEq, Repr

end Sys2Proof
end

