-- ==== Sys2Proof/Config.lean ====
section
/-! DEFINITION. What is fixed at manufacture and what the manual gives without a value: constants with no body, so that
no claim can rest on one. -/

namespace Sys2Proof

/-- The 64-bit unit number, fixed at manufacture and unchanged by every reset (R163). -/
opaque Config.unitNumber : BitVec 64

end Sys2Proof
end

