-- ==== Sys2Proof/Machine/State.lean ====
section
/-! DEFINITION. The state of the LD-418 as plain data, block by block, and the state after reset. -/

namespace Sys2Proof.Machine

/-! ### Identities, times and labels (00_scope 4.2, 4.3; R1, R2) -/

/-- A library code and a serial: an item's or a borrower's identity (R2). -/
structure Ident where
  lib : Nat
  serial : Nat
  deriving DecidableEq, Repr

/-- A time is the pair (day, minute) (4.3). -/
structure Time where
  day : Nat
  minute : Nat
  deriving DecidableEq, Repr

inductive LabelKind where
  | borrower
  | item
  deriving DecidableEq, Repr

/-- What intake takes from a valid label (R2). `cls` is the item class or the borrower category. -/
structure Label where
  digits : List Nat
  kind : LabelKind
  cls : Nat
  ident : Ident
  deriving DecidableEq, Repr

/-- A collection with numbered places: pairs of a number and an entry, the numbers strictly rising. The loan table, the
hold list, the borrower table (numbered by identity), the exception list and the journal array are such tables. -/
abbrev Table (α : Type) := List (Nat × α)

/-! ### Sources and claimants (R41, R144) -/

inductive Source where
  | desk (d : Desk)
  | uplink
  | unit
  deriving DecidableEq, Repr

/-- The six claimants of the circulation store (R41). -/
inductive Claimant where
  | engine (d : Desk)
  | port (d : Desk)
  | uplink
  | rollover
  deriving DecidableEq, Repr

/-! ### Operating state, modes and settings (R15, R92 to R101, R128) -/

inductive OpState where
  | unset
  | opened
  | returnsOnly
  | closed
  deriving DecidableEq, Repr

inductive Mode where
  | checkout
  | returns
  | renew
  | inquiry
  deriving DecidableEq, Repr

/-- Open and close minutes of a day (R92). A day's hours are an `Option Hours`, `none` for Closed. -/
structure Hours where
  openMin : Nat
  closeMin : Nat
  deriving DecidableEq, Repr

inductive LoanUnit where
  | day
  | minute
  deriving DecidableEq, Repr

/-- An entry of the rule table (R95); `none` in `cls` or `cat` is Any. -/
structure Rule where
  cls : Option Nat
  cat : Option Nat
  unit : LoanUnit
  length : Nat
  renewals : Nat
  grace : Nat
  rate : Nat
  cap : Nat
  deriving DecidableEq, Repr

/-- An entry of the category table (R97). -/
structure Category where
  limit : Nat
  threshold : Nat
  blockDays : Nat
  renewOverdue : Bool
  deriving DecidableEq, Repr

inductive Policy where
  | returns
  | closed
  deriving DecidableEq, Repr

/-- The unit configuration (R98). -/
structure UnitConfig where
  home : Option Nat
  consortium : List Nat
  policy : Policy
  pickup : Nat
  window : Nat
  deriving DecidableEq, Repr

/-- The edits of PostEdit (R100). -/
inductive Edit where
  | replaceRule (position : Nat) (r : Rule)
  | deleteRule (position : Nat)
  | replaceCategory (cat : Nat) (c : Category)
  | replaceWeekday (weekday : Nat) (h : Option Hours)
  | addException (day : Nat) (h : Option Hours)
  | removeException (day : Nat)
  | setConfig (c : UnitConfig)
  deriving DecidableEq, Repr

/-- The calendar and rule unit (chapter 6). -/
structure Settings where
  week : List (Option Hours)
  exceptions : Table (Option Hours)
  rules : List Rule
  categories : List Category
  config : UnitConfig
  edits : List Edit
  deriving DecidableEq, Repr

/-! ### Circulation store (R39, R63, R82) -/

/-- A loan record (R39). -/
structure Loan where
  item : Ident
  cls : Nat
  borrower : Ident
  unit : LoanUnit
  issued : Time
  due : Time
  renewals : Nat
  source : Desk
  gen : Nat
  overdue : Bool
  overrideUsed : Bool
  foreign : Bool
  deriving DecidableEq, Repr

/-- A LOCAL reason: its code and the desk that set it (R69). -/
structure LocalReason where
  code : Nat
  desk : Desk
  deriving DecidableEq, Repr

/-- A CENTRAL reason: its code and its stale mark (R70). -/
structure CentralReason where
  code : Nat
  stale : Bool
  deriving DecidableEq, Repr

/-- A borrower record (R63). Its identity is the number it stands under in the borrower table. -/
structure Borrower where
  category : Nat
  expiry : Option Nat
  owed : Nat
  clamped : Bool
  loans : Nat
  overdue : Nat
  localBlock : Option LocalReason
  central : Option CentralReason
  deriving DecidableEq, Repr

inductive HoldState where
  | waiting
  | trapped
  deriving DecidableEq, Repr

/-- A hold record (R82). -/
structure Hold where
  item : Ident
  holder : Ident
  state : HoldState
  deadline : Option Nat
  stale : Bool
  deriving DecidableEq, Repr

/-- The store's three collections: loans by slot, borrowers by identity number, holds by place. -/
structure Circ where
  loans : Table Loan
  borrowers : Table Borrower
  holds : Table Hold
  deriving DecidableEq, Repr

/-! ### Results and slips (R31, R178) -/

/-- The reasons of a reasons list (R72). -/
inductive Reason where
  | localBlock (code : Nat)
  | central (code : Nat)
  | fines
  | overdue
  | expired
  deriving DecidableEq, Repr

/-- The outcomes and indications of 12.6, in the order of its table. -/
inductive Verdict where
  | issued
  | returned
  | renewed
  | info
  | borrowerSet
  | sessionClosed
  | declined
  | notOpen
  | noBorrower
  | notOnLoan
  | alreadyIssued
  | onLoanElsewhere
  | heldForOther
  | borrowerBlocked
  | centralBlock
  | limitReached
  | foreignLabel
  | tableFull
  | journalFull
  | noExtension
  | renewLimit
  | renewHeld
  | renewOverdue
  | slipDropped
  | receiptNotPrinted
  deriving DecidableEq, Repr

/-- The borrower figures of INFO (R31, R73). -/
structure Figures where
  loans : Nat
  overdue : Nat
  owed : Nat
  clamped : Bool
  deriving DecidableEq, Repr

/-- An outcome with the optional fields R31 lists for it. -/
structure Fields where
  verdict : Verdict
  due : Option Time := none
  fine : Option Nat := none
  reasons : Option (List Reason) := none
  other : Option Ident := none
  holder : Option Ident := none
  deadline : Option Nat := none
  holdState : Option HoldState := none
  figures : Option Figures := none
  backdated : Bool := false
  deriving DecidableEq, Repr

/-- A result record (R31). -/
structure ResultRec where
  label : List Nat
  fields : Fields
  deriving DecidableEq, Repr

/-- A slip (R178). A due slip's lines are item serials with their dues. -/
inductive Slip where
  | due (desk : Desk) (date : Nat) (last4 : Nat) (lines : List (Nat × Time))
  | hold (desk : Desk) (item : Ident) (last4 : Nat) (deadline : Nat)
  | receipt (desk : Desk) (taken : Nat) (owedAfter : Nat)
  deriving DecidableEq, Repr

/-! ### Desk engine and wand intake (R3 to R10, R15) -/

/-- A scan: the label and its arrival time (R10). -/
structure Scan where
  label : Label
  arrival : Time
  deriving DecidableEq, Repr

/-- The three kinds of scan-queue entry (R10). -/
inductive Entry where
  | scan (sc : Scan)
  | modeMarker (m : Mode) (backdate : Option Nat)
  | closeMarker
  deriving DecidableEq, Repr

/-- An entry of the issued list (R15). -/
structure Issued where
  item : Ident
  due : Time
  deriving DecidableEq, Repr

/-- A session: current borrower, the scan's label and category, issued list and override-used mark (R15, R43). -/
structure Session where
  borrower : Ident
  label : List Nat
  category : Nat
  issued : List Issued
  mark : Bool
  deriving DecidableEq, Repr

/-- A stop with its fields (R26). -/
inductive Stop where
  | blocked (reasons : List Reason)
  | onLoan (other : Ident)
  | held (holder : Ident)
  deriving DecidableEq, Repr

/-- The held scan of AwaitOverride, with the session behind it if there is one (R26). -/
structure HeldScan where
  scan : Scan
  stop : Stop
  session : Option Session
  deriving DecidableEq, Repr

/-- The follow-ons of R25. -/
inductive FollowOn where
  | idle
  | resume (ss : Session)
  | serveBorrower (sc : Scan)
  | closeResumed (ss : Session)
  deriving DecidableEq, Repr

/-- The context states (R15). -/
inductive Ctx where
  | idle
  | session (ss : Session)
  | awaitOverride (h : HeldScan)
  | slipWait (slip : Slip) (follow : FollowOn)
  deriving DecidableEq, Repr

/-- What the engine has in service: a taken scan, or an override it has sent to the store (R16, R27, R28). -/
inductive Service where
  | entry (sc : Scan)
  | overriding
  deriving DecidableEq, Repr

/-- What reaches a context while an entry is in service (R16). -/
inductive CtxEvent where
  | leaveOpen
  | override
  | decline
  | dropSlip
  deriving DecidableEq, Repr

/-- A desk engine (R15). A timer is the milliseconds it has run, `none` while it is stopped. -/
structure Engine where
  queue : List Entry
  mode : Mode
  backdate : Option Nat
  ctx : Ctx
  service : Option Service
  deferred : List CtxEvent
  idleMs : Option Nat
  overrideMs : Option Nat
  late : Bool
  scanLost : Bool
  readEmpty : Bool
  results : List ResultRec
  deriving DecidableEq, Repr

/-- A tone that is sounding: the pulses left with this one, whether the line is in a pulse, ms in this pulse or gap (R4). -/
structure Tone where
  pulses : Nat
  inPulse : Bool
  ms : Nat
  deriving DecidableEq, Repr

/-- The double-read memory's content (R7). -/
structure LastRead where
  digits : List Nat
  reading : Nat
  deriving DecidableEq, Repr

/-- A wand intake (R3, R4, R7). -/
structure Wand where
  buffer : List WandChar
  overLong : Bool
  silentMs : Nat
  memory : Option LastRead
  elapsedMs : Nat
  tone : Option Tone
  deriving DecidableEq, Repr

/-! ### Store transactions (R41, R43) -/

/-- What an Issue or an override transaction carries (R43). -/
structure LoanReq where
  item : Ident
  cls : Nat
  borrower : Ident
  category : Nat
  mark : Bool
  time : Time
  deriving DecidableEq, Repr

/-- A block-list entry (R67). -/
structure BlockEntry where
  borrower : Ident
  category : Nat
  expiry : Option Nat
  code : Nat
  deriving DecidableEq, Repr

inductive ListKind where
  | blocks
  | holds
  deriving DecidableEq, Repr

/-- What brought an abort about (R173, R177). -/
inductive AbortCause where
  | request
  | timer
  | reset
  deriving DecidableEq, Repr

/-- The transactions of the store. The rollover's visits carry their place or slot. -/
inductive Txn where
  | issue (q : LoanReq)
  | overrideLoan (q : LoanReq) (other : Ident)
  | overrideHold (q : LoanReq) (holder : Ident)
  | discharge (item : Ident) (time : Time) (backdate : Option Nat)
  | renew (item : Ident) (time : Time)
  | itemInquiry (item : Ident)
  | borrowerCheck (id : Ident)
  | borrowerInquiry (id : Ident)
  | inquireItem (item : Ident)
  | inquireBorrower (id : Ident)
  | identify
  | payment (id : Ident) (amount : Nat)
  | setLocal (id : Ident) (category : Nat) (code : Nat)
  | clearLocal (id : Ident)
  | markStale (k : ListKind)
  | blockEntry (e : BlockEntry)
  | holdEntry (item : Ident) (holder : Ident)
  | downloadEnd
  | downloadAbort (cause : AbortCause)
  | application
  | holdVisit (place : Nat)
  | sweepVisit (slot : Nat)
  deriving DecidableEq, Repr

/-- The transaction the store holds while the journal makes it wait: who sent it, when it was taken, and whether a
restart has discarded its outcome (R42, R62). -/
structure Held where
  claimant : Claimant
  txn : Txn
  now : Time
  silent : Bool
  deriving DecidableEq, Repr

/-- The store's way of taking work (R41). -/
structure Store where
  last : Claimant
  engA : Option Txn
  engB : Option Txn
  portA : Option Txn
  portB : Option Txn
  uplink : List Txn
  holding : Option Held
  deriving DecidableEq, Repr

/-! ### Journal store (R141 to R154) -/

/-- The five flags of a record header (R144). -/
structure RecFlags where
  overrideUsed : Bool := false
  backdated : Bool := false
  foreign : Bool := false
  aborted : Bool := false
  minute : Bool := false
  deriving DecidableEq, Repr

inductive StartKind where
  | restart
  | warm
  | cold
  deriving DecidableEq, Repr

/-- The fifteen record kinds with their fields (R144, R145). -/
inductive RecBody where
  | issue (item borrower : Ident) (due : Time)
  | discharge (item borrower : Ident) (fine : Nat) (backdate : Option Nat)
  | renew (item borrower : Ident) (due : Time) (fine : Option Nat)
  | payment (borrower : Ident) (taken owedAfter : Nat)
  | localSet (borrower : Ident) (code : Nat)
  | localClear (borrower : Ident) (code : Nat)
  | holdTrap (item holder : Ident)
  | holdPickup (item holder : Ident)
  | holdExpire (item holder : Ident)
  | rollover (gen moved flagsSet flagsCleared expired : Nat)
  | edits (applied discarded : Nat)
  | download (k : ListKind) (stored notStored removed : Nat)
  | clock (old new : Time)
  | ack (u : Nat)
  | restart (k : StartKind) (drops : Nat)
  deriving DecidableEq, Repr

/-- A record as a block offers it: `time` is absent where the asking rule gives none (R144). -/
structure Draft where
  source : Source
  time : Option Time
  flags : RecFlags
  body : RecBody
  deriving DecidableEq, Repr

/-- An accepted record (R144, R146). -/
structure Rec where
  seq : Nat
  source : Source
  time : Time
  flags : RecFlags
  body : RecBody
  deriving DecidableEq, Repr

/-- A page buffer in use: its target (sector, page), absent while it waits for a sector after a power-on (R160), and
its records. -/
structure PageBuf where
  target : Option (Nat × Nat)
  recs : List Rec
  deriving DecidableEq, Repr

inductive SectorState where
  | erased
  | active
  | sealed
  | reclaimable
  | erasing
  deriving DecidableEq, Repr

/-- What the journal keeps of a sector (R142): its state, lap, first sequence, and one past its last record. -/
structure Sector where
  st : SectorState
  lap : Nat
  first : Nat
  stop : Nat
  deriving DecidableEq, Repr

/-- The erase in flight (R155, R156). -/
structure EraseRun where
  sector : Nat
  suspended : Bool
  count : Nat
  deriving DecidableEq, Repr

/-- An acceptance offered to the journal, by the block that asks (R146). An acknowledgement's carries the clamped mark of
its answer (R166), and says whether it brings an ACK record of its own: one made while an ACK was owed already does not,
since one record covers both (R154). -/
inductive Acceptance where
  | store
  | clock (day minute second : Nat)
  | ack (clamped own : Bool)
  | edits
  | rollover
  | restart (k : StartKind)
  | owed
  deriving DecidableEq, Repr

/-- The journal store. The two page buffers stand by their state: at most one Filling, the Waiting in the order they were
closed, at most one Programming; what is left of two is Free (R147). -/
structure Journal where
  array : List Host.Cell
  sectors : List Sector
  active : Option Nat
  page : Nat
  seedSector : Nat
  seedLap : Nat
  filling : Option PageBuf
  fillMs : Nat
  waiting : List PageBuf
  programming : Option PageBuf
  head : Nat
  u : Nat
  tail : Nat
  next : Nat
  owedAck : Bool
  drops : Nat
  erase : Option EraseRun
  eraseFrom : Nat
  queue : List Acceptance
  deriving DecidableEq, Repr

/-! ### Clock, rollover, exchange and printer (R124, R130, R162, R183) -/

/-- The clock, with the crystal's milliseconds inside the second (R124, R125). -/
structure Clock where
  day : Nat
  minute : Nat
  second : Nat
  ms : Nat
  valid : Bool
  deriving DecidableEq, Repr

inductive Phase where
  | none
  | applying
  | holdPass
  | sweep
  | recording
  deriving DecidableEq, Repr

/-- The rollover activity (R130). `taken` holds the edits its application step has taken from the pending list, until
they have been applied (R101, R102), and those a lost step left no room for in the list, until the next step takes the
list (log entry 27). -/
structure Rollover where
  gen : Nat
  phase : Phase
  taken : List Edit
  day : Nat
  place : Nat
  cursor : Nat
  moved : Nat
  flagsSet : Nat
  flagsCleared : Nat
  expired : Nat
  pending : Bool
  deriving DecidableEq, Repr

/-- The uplink exchange (R162, R168, R177). The counts are those of the session, or of the last one once it is None
(R163, R174). `expired` says that the session is over for every request and only its abort is still to come; `shut` that
the uplink port waits for the abort of a retained session to be taken. -/
structure Exchange where
  session : Option ListKind
  stored : Nat
  notStored : Nat
  gapMs : Option Nat
  late : Bool
  tablesLost : Bool
  expired : Bool
  shut : Bool
  deriving DecidableEq, Repr

inductive PrinterState where
  | ready
  | printing
  | paperOut
  | offline
  deriving DecidableEq, Repr

/-- The two messages to the printer (R182). -/
inductive PrinterMsg where
  | slip
  | inquiry
  deriving DecidableEq, Repr

/-- The slip printer controller (R180 to R183). `sending` holds the characters of a message until the last is sent; `rx`
the characters received since the last carriage return. -/
structure Printer where
  st : PrinterState
  rx : List Byte
  queue : List Slip
  waitList : List Desk
  outstanding : Option PrinterMsg
  sending : Option (List Byte)
  answerMs : Option Nat
  inquiryMs : Option Nat
  deriving DecidableEq, Repr

/-! ### Ports and responses (R187 to R190, 12.6) -/

/-- The requests of 12.6, in the order of their codes 1 to 27. -/
inductive ReqKind where
  | identify
  | status
  | readResult
  | keyIn
  | setMode
  | close
  | override
  | decline
  | dropSlip
  | inquireItem
  | inquireBorrower
  | payment
  | setLocalBlock
  | clearLocalBlock
  | readSettings
  | printerStatus
  | postEdit
  | setTime
  | refreshRules
  | readJournal
  | ackJournal
  | beginDownload
  | downloadEntry
  | endDownload
  | abortDownload
  | restartArm
  | restart
  deriving DecidableEq, Repr

/-- The response codes of 12.6, in the order of their codes 0 to 13. -/
inductive RespCode where
  | ok
  | empty
  | busy
  | notPermitted
  | badRequest
  | wrongState
  | tooLate
  | queueFull
  | notFound
  | tableFull
  | journalFull
  | timeBackward
  | notArmed
  | unitUnset
  deriving DecidableEq, Repr

inductive SlipKind where
  | due
  | hold
  | receipt
  deriving DecidableEq, Repr

/-- The context part of a Status answer (R33). -/
inductive CtxReport where
  | idle
  | session (label : List Nat) (mark : Bool) (issued : Nat) (left : Nat)
  | awaitOverride (label : List Nat) (stop : Stop) (behind : Bool) (left : Nat)
  | slipWait (kind : SlipKind) (follow : FollowOn)
  deriving DecidableEq, Repr

/-- A Status answer (R33). -/
structure StatusReport where
  opState : OpState
  mode : Mode
  backdate : Option Nat
  entries : Nat
  markers : Nat
  inService : Bool
  ctx : CtxReport
  results : Nat
  late : Bool
  scanLost : Bool
  readEmpty : Bool
  deriving DecidableEq, Repr

/-- An Identify answer (R163); the identities themselves are constants. -/
structure IdentifyReport where
  home : Option Nat
  opState : OpState
  clock : Clock
  gen : Nat
  phase : Phase
  pending : Bool
  head : Nat
  u : Nat
  tail : Nat
  next : Nat
  erased : Nat
  owedAck : Bool
  drops : Nat
  loans : Nat
  borrowers : Nat
  holdsWaiting : Nat
  holdsTrapped : Nat
  edits : Nat
  session : Option ListKind
  stored : Nat
  notStored : Nat
  gapLeft : Nat
  tablesLost : Bool
  low : Bool
  deriving DecidableEq, Repr

/-- A ReadJournal answer (R165); each record is its bytes in the layout of R145. -/
structure ReadReport where
  first : Nat
  startedLater : Bool
  head : Nat
  tail : Nat
  records : List (List Byte)
  deriving DecidableEq, Repr

/-- A PrinterStatus answer (R185). -/
structure PrinterReport where
  st : PrinterState
  slips : Nat
  front : Option (SlipKind × Desk)
  waitList : List Desk
  inquiryLeft : Option Nat
  deriving DecidableEq, Repr

/-- The body of a response: the fields the owning rule names (R188). -/
inductive Answer where
  | empty
  | status (r : StatusReport)
  | result (r : ResultRec)
  | slipDropped (k : SlipKind)
  | item (loan : Option (Nat × Loan)) (hold : Option Hold)
  | borrower (id : Ident) (b : Borrower) (derived : List Reason) (threshold : Nat)
  | payment (taken owedAfter : Nat) (notPrinted : Bool)
  | localCleared (code : Nat) (desk : Desk)
  | week (days : List (Option Hours))
  | categories (cs : List Category)
  | config (c : UnitConfig)
  | exceptions (count : Nat) (es : Table (Option Hours))
  | rules (count : Nat) (rs : List Rule)
  | edits (count : Nat) (es : List Edit)
  | pendingCount (n : Nat)
  | identify (r : IdentifyReport)
  | journal (r : ReadReport)
  | ack (u : Nat) (clamped : Bool)
  | counts (stored notStored : Nat)
  | ended (stored notStored removed : Nat)
  | printer (r : PrinterReport)
  deriving DecidableEq, Repr

/-- A response on its way to a port's transmit line. `own` says it answers the request in progress and so ends its
progress once sent (R189); `startsGap` that the download gap timer starts then (R168); `restarts` that the unit restart
begins then (R190). -/
structure TxFrame where
  tag : Byte
  code : RespCode
  answer : Answer
  own : Bool
  startsGap : Bool
  restarts : Bool
  deriving DecidableEq, Repr

structure InProgress where
  kind : Option ReqKind
  tag : Byte
  deriving DecidableEq, Repr

/-- A port (R187 to R190). `busy` holds the tags of the frames that met the request in progress, oldest first: their BUSY
responses join `tx` once its own response has been sent, which they follow whole (R189). -/
structure PortState where
  rx : List Byte
  rxMs : Nat
  inProgress : Option InProgress
  busy : List Byte
  tx : List TxFrame
  arm : Bool
  deriving DecidableEq, Repr

/-! ### The whole part -/

/-- Whether the part is without power, in start-up, or running (12.4). -/
inductive Power where
  | off
  | starting (k : StartKind)
  | running
  deriving DecidableEq, Repr

/-- The state of the LD-418, with the model's queue of commands. `written` says that retained memory has been written
(R192). -/
structure State where
  power : Power
  written : Bool
  restartDue : Bool
  clock : Clock
  openLine : Bool
  opState : OpState
  wandA : Wand
  wandB : Wand
  engA : Engine
  engB : Engine
  store : Store
  circ : Circ
  settings : Settings
  roll : Rollover
  journal : Journal
  exch : Exchange
  printer : Printer
  portA : PortState
  portB : PortState
  portU : PortState
  pending : List Instr
  deriving DecidableEq, Repr

/-- The part never faults. The model's one fault stands for a command that no event of the part can be. -/
inductive Fault where
  /-- Raised by ERASE_COMPLETE and POWER_LOSS when their operand names a byte outside the page or sector it describes:
  an address that does not exist (R141). Safe: no event of the part is such a command. -/
  | noSuchAddress
  deriving DecidableEq, Repr

inductive Refusal where
  /-- Raised by `exec` for a command that has no meaning yet; no arm does. Safe. -/
  | notModelled (mnemonic : String)
  deriving DecidableEq, Repr

/-! ### Values after reset -/

/-- A wand intake after every reset (R14). -/
def Wand.initial : Wand :=
  { buffer := [], overLong := false, silentMs := 0, memory := none, elapsedMs := 0, tone := none }

/-- A desk engine after every reset (R14, R38). -/
def Engine.initial : Engine :=
  { queue := [], mode := .returns, backdate := none, ctx := .idle, service := none, deferred := [], idleMs := none,
    overrideMs := none, late := false, scanLost := false, readEmpty := false, results := [] }

/-- A port after every reset (R187, R190, R191). -/
def PortState.initial : PortState :=
  { rx := [], rxMs := 0, inProgress := none, busy := [], tx := [], arm := false }

/-- The store's claimants after every reset: the rollover counts as served last (R41). -/
def Store.initial : Store :=
  { last := .rollover, engA := none, engB := none, portA := none, portB := none, uplink := [], holding := none }

/-- The printer controller after every reset, before its first Inquiry (R186). -/
def Printer.initial : Printer :=
  { st := .offline, rx := [], queue := [], waitList := [], outstanding := none, sending := none, answerMs := none,
    inquiryMs := none }

/-- The three collections after a cold power-on (R62, R81, R91). -/
def Circ.cold : Circ := { loans := [], borrowers := [], holds := [] }

/-- The cold defaults of the calendar and rule unit (R109). -/
def Settings.cold : Settings :=
  { week := [some ⟨540, 1020⟩, some ⟨540, 1020⟩, some ⟨540, 1020⟩, some ⟨540, 1020⟩, some ⟨540, 1020⟩,
      some ⟨540, 1020⟩, none]
    exceptions := []
    rules := []
    categories := List.replicate 8 { limit := 10, threshold := 0, blockDays := 0, renewOverdue := false }
    config := { home := none, consortium := [], policy := .closed, pickup := 7, window := 2 }
    edits := [] }

/-- The clock after a cold power-on (R140). -/
def Clock.cold : Clock := { day := 0, minute := 0, second := 0, ms := 0, valid := false }

/-- The rollover activity after a cold power-on (R140). -/
def Rollover.cold : Rollover :=
  { gen := 0, phase := .none, taken := [], day := 0, place := 0, cursor := 0, moved := 0, flagsSet := 0,
    flagsCleared := 0, expired := 0, pending := false }

/-- The uplink exchange after a cold power-on (R175, R177). -/
def Exchange.cold : Exchange :=
  { session := none, stored := 0, notStored := 0, gapMs := none, late := false, tablesLost := true, expired := false,
    shut := false }

/-- What is kept of a sector that is Erased. -/
def Sector.blank : Sector := { st := .erased, lap := 0, first := 0, stop := 0 }

/-- The journal over an array that has never held a record, nothing offered to it yet (R141, R159). -/
def Journal.blank : Journal :=
  { array := [], sectors := List.replicate 128 Sector.blank, active := none, page := 0, seedSector := 0, seedLap := 0,
    filling := none, fillMs := 0, waiting := [], programming := none, head := 0, u := 0, tail := 0, next := 0,
    owedAck := false, drops := 0, erase := none, eraseFrom := 0, queue := [] }

/-- The record of a cold start-up: source Unit, clock at (0, 0), no drops (R144, R160, R192). -/
def Rec.coldRestart : Rec :=
  { seq := 0, source := .unit, time := ⟨0, 0⟩, flags := { }, body := .restart .cold 0 }

/-- The part at the end of the start-up of a cold power-on (R192) over an array that has never held a record, with the
OPEN line low (log entries 1 and 2): the RESTART record has opened sector 0 and stands in a Filling buffer, and the
printer's first Inquiry is being sent (R186). -/
def State.reset : State :=
  { power := .running
    written := true
    restartDue := false
    clock := Clock.cold
    openLine := false
    opState := .unset
    wandA := Wand.initial
    wandB := Wand.initial
    engA := Engine.initial
    engB := Engine.initial
    store := Store.initial
    circ := Circ.cold
    settings := Settings.cold
    roll := Rollover.cold
    journal :=
      { Journal.blank with
        sectors := { st := .active, lap := 0, first := 0, stop := 1 } :: List.replicate 127 Sector.blank
        active := some 0
        page := 1
        filling := some { target := some (0, 0), recs := [Rec.coldRestart] }
        next := 1 }
    exch := Exchange.cold
    printer := { Printer.initial with outstanding := some .inquiry, sending := some [0x05#8] }
    portA := PortState.initial
    portB := PortState.initial
    portU := PortState.initial
    pending := [] }

end Sys2Proof.Machine
end

