-- ==== Sys2Proof/Machine/Table.lean ====
section
/-! DEFINITION. Reading and changing a numbered collection, and the journal array as such a collection of bytes. -/

namespace Sys2Proof.Machine

variable {α : Type}

/-- The entry at number `k`, if there is one. -/
def Table.get : Table α → Nat → Option α
  | [], _ => none
  | (i, v) :: rest, k => if i = k then some v else Table.get rest k

/-- The table with entry `v` at number `k`, in its place in rising order. -/
def Table.put : Table α → Nat → α → Table α
  | [], k, v => [(k, v)]
  | (i, w) :: rest, k, v =>
    if k < i then (k, v) :: (i, w) :: rest
    else if k = i then (k, v) :: rest
    else (i, w) :: Table.put rest k v

/-- The table without an entry at number `k`. -/
def Table.del (t : Table α) (k : Nat) : Table α := t.filter (fun e => e.1 != k)

/-- The lowest number at or after `n` with no entry, in a rising table whose numbers are all at or after `n`. -/
def Table.freeFrom : Table α → Nat → Nat
  | [], n => n
  | (i, _) :: rest, n => if i = n then Table.freeFrom rest (n + 1) else n

/-- The lowest number with no entry (R40, R83). -/
def Table.lowestFree (t : Table α) : Nat := Table.freeFrom t 0

/-- The table with every entry passed through `f`. -/
def Table.mapEntries (t : Table α) (f : α → α) : Table α := t.map (fun e => (e.1, f e.2))

/-- Every number of the table is at or above `n`, and the numbers strictly rise. -/
def Table.risingFrom : Table α → Nat → Bool
  | [], _ => true
  | (i, _) :: rest, n => decide (n ≤ i) && Table.risingFrom rest (i + 1)

/-- The numbers strictly rise: the one form a collection is held in. -/
def Table.rising (t : Table α) : Bool := Table.risingFrom t 0

/-! ### The journal array (R141) -/

/-- Bytes of the journal array: 128 sectors of 4096. -/
def arraySize : Nat := 524288

/-- The byte at address `a`; an unlisted byte is an erased byte, every bit one (R141). -/
def Memory.read (m : List Host.Cell) (a : Nat) : Byte := (Table.get m a).getD 0xFF#8

/-- The array with byte `b` at address `a`. An erased byte is not listed. -/
def Memory.write (m : List Host.Cell) (a : Nat) (b : Byte) : List Host.Cell :=
  if b = 0xFF#8 then Table.del m a else Table.put m a b

/-- The array with the bytes `bs` from address `a` up. -/
def Memory.writeAll : List Host.Cell → Nat → List Byte → List Host.Cell
  | m, _, [] => m
  | m, a, b :: bs => Memory.writeAll (Memory.write m a b) (a + 1) bs

/-- The `n` bytes from address `a` up. -/
def Memory.readAll (m : List Host.Cell) (a n : Nat) : List Byte := (List.range n).map (fun i => Memory.read m (a + i))

/-- The array with the `n` bytes from address `a` up erased. -/
def Memory.erase (m : List Host.Cell) (a n : Nat) : List Host.Cell :=
  m.filter (fun c => decide (c.1 < a) || decide (a + n ≤ c.1))

/-- The array with the cells `cs`, numbered from address `a`. -/
def Memory.writeCells : List Host.Cell → Nat → List Host.Cell → List Host.Cell
  | m, _, [] => m
  | m, a, c :: cs => Memory.writeCells (Memory.write m (a + c.1) c.2) a cs

/-- The canonical form: addresses strictly rising and within the array, and no erased byte listed. -/
def Memory.wf (m : List Host.Cell) : Bool :=
  Table.rising m && m.all (fun c => decide (c.1 < arraySize) && c.2 != 0xFF#8)

end Sys2Proof.Machine
end

