-- ==== Sys2Proof/Machine/Calendar.lean ====
section
/-! DEFINITION. Days, times, the calendar and the rule lookup (R92 to R99, R111, R112). -/

namespace Sys2Proof.Machine

/-- One time is earlier than another by day first, then by minute (4.3, R111). -/
def Time.earlier (a b : Time) : Bool := decide (a.day < b.day) || (decide (a.day = b.day) && decide (a.minute < b.minute))

/-- A day sum that would pass day 65535 is taken as 65535 (R111). -/
def addDays (t n : Nat) : Nat := min (t + n) 65535

/-- A day's hours: the exception's where there is one, else the weekday's; `none` is Closed (R94). -/
def Settings.hours (c : Settings) (day : Nat) : Option Hours :=
  match Table.get c.exceptions day with
  | some h => h
  | none => (c.week.getD (day % 7) none)

/-- The open-day test (R94). -/
def Settings.isOpen (c : Settings) (day : Nat) : Bool := (c.hours day).isSome

/-- The first open day among `x + 1` up to `x + n`, days above 65535 not examined. -/
def Settings.searchFrom (c : Settings) : Nat → Nat → Option Nat
  | _, 0 => none
  | x, n + 1 =>
    if 65535 < x + 1 then none
    else if c.isOpen (x + 1) then some (x + 1)
    else Settings.searchFrom c (x + 1) n

/-- The open-day search of R112: up to 31 days after `x`. -/
def Settings.openSearch (c : Settings) (x : Nat) : Option Nat := c.searchFrom x 31

/-- The last open day among `t` up to `t + n`, if any (R114's downward search). -/
def Settings.lastOpen (c : Settings) (t : Nat) : Nat → Option Nat
  | 0 => if c.isOpen t then some t else none
  | n + 1 => if c.isOpen (t + n + 1) then some (t + n + 1) else Settings.lastOpen c t n

/-- The number of open days among `d + 1` up to `d + n` (R119). -/
def Settings.openDays (c : Settings) (d : Nat) : Nat → Nat
  | 0 => 0
  | n + 1 => Settings.openDays c d n + (if c.isOpen (d + n + 1) then 1 else 0)

/-- The close minute of a day, 1439 when it is closed (R113). -/
def Settings.closeMinute (c : Settings) (day : Nat) : Nat :=
  match c.hours day with
  | some h => h.closeMin
  | none => 1439

/-- The built-in rule (R95). -/
def Rule.builtIn : Rule :=
  { cls := none, cat := none, unit := .day, length := 14, renewals := 1, grace := 0, rate := 0, cap := 0 }

/-- Whether an entry matches an item class and a category (R95). -/
def Rule.matchesPair (r : Rule) (cls cat : Nat) : Bool :=
  (r.cls == none || r.cls == some cls) && (r.cat == none || r.cat == some cat)

/-- The rule lookup: the first entry that matches, else the built-in rule (R95). -/
def Settings.rule (c : Settings) (cls cat : Nat) : Rule :=
  (c.rules.find? (fun r => r.matchesPair cls cat)).getD Rule.builtIn

/-- A category's entry (R97). The table has eight; no other number is asked for. -/
def Settings.category (c : Settings) (cat : Nat) : Category :=
  c.categories.getD cat { limit := 10, threshold := 0, blockDays := 0, renewOverdue := false }

/-- Whether a library code is consortium (R99). -/
def Settings.isConsortium (c : Settings) (lib : Nat) : Bool := c.config.consortium.contains lib

/-- Whether a library code is foreign: neither home nor consortium, and every code while home is unset (R99). -/
def Settings.isForeign (c : Settings) (lib : Nat) : Bool :=
  match c.config.home with
  | none => true
  | some h => !(lib == h || c.isConsortium lib)

end Sys2Proof.Machine
end

