-- ==== Sys2Proof/Machine/Edits.lean ====
section
/-! DEFINITION. Validating and applying edits of the settings (R100 to R105). -/

namespace Sys2Proof.Machine

/-! ### Ranges (R92, R95, R97, R98, R100) -/

def Hours.inRange (h : Hours) : Bool :=
  decide (h.openMin ≤ 1438) && decide (1 ≤ h.closeMin) && decide (h.closeMin ≤ 1439) && decide (h.openMin < h.closeMin)

/-- Closed, or minutes within R92. -/
def hoursInRange (h : Option Hours) : Bool :=
  match h with
  | none => true
  | some h => h.inRange

def optAtMost (top : Nat) (x : Option Nat) : Bool :=
  match x with
  | none => true
  | some n => decide (n ≤ top)

/-- The fields of a rule entry within R95, the length within the range of the entry's unit. -/
def Rule.inRange (r : Rule) : Bool :=
  optAtMost 15 r.cls && optAtMost 7 r.cat
    && (match r.unit with
        | .day => decide (1 ≤ r.length) && decide (r.length ≤ 365)
        | .minute => decide (15 ≤ r.length) && decide (r.length ≤ 1440))
    && decide (r.renewals ≤ 15) && decide (r.grace ≤ 30) && decide (r.rate ≤ 5000) && decide (r.cap ≤ 65535)

/-- The fields of a category within R97. -/
def Category.inRange (c : Category) : Bool :=
  decide (c.limit ≤ 99) && decide (c.threshold ≤ 1000000) && decide (c.blockDays ≤ 90)

def distinct : List Nat → Bool
  | [] => true
  | x :: xs => !xs.contains x && distinct xs

/-- The fields of a unit configuration within R100. -/
def UnitConfig.inRange (c : UnitConfig) : Bool :=
  match c.home with
  | none => false
  | some h =>
    decide (h ≤ 999) && decide (c.consortium.length ≤ 7) && c.consortium.all (fun x => decide (x ≤ 999))
      && distinct c.consortium && !c.consortium.contains h
      && decide (1 ≤ c.pickup) && decide (c.pickup ≤ 30) && decide (c.window ≤ 255)

/-- The valid-when column of R100. -/
def Edit.inRange : Edit → Bool
  | .replaceRule p r => decide (p ≤ 31) && r.inRange
  | .deleteRule p => decide (p ≤ 31)
  | .replaceCategory k c => decide (k ≤ 7) && c.inRange
  | .replaceWeekday w h => decide (w ≤ 6) && hoursInRange h
  | .addException d h => decide (d ≤ 65535) && hoursInRange h
  | .removeException d => decide (d ≤ 65535)
  | .setConfig c => c.inRange

/-! ### Applying (R102 to R105) -/

/-- Applies one edit on day `today`; the Bool says whether it was applied and not discarded. -/
def Settings.apply (c : Settings) (today : Nat) : Edit → Settings × Bool
  | .replaceRule p r =>
    if p < c.rules.length then ({ c with rules := c.rules.set p r }, true)
    else if c.rules.length < 32 then ({ c with rules := c.rules ++ [r] }, true)
    else (c, false)
  | .deleteRule p => if p < c.rules.length then ({ c with rules := c.rules.eraseIdx p }, true) else (c, false)
  | .replaceCategory k x => ({ c with categories := c.categories.set k x }, true)
  | .replaceWeekday w h => ({ c with week := c.week.set w h }, true)
  | .addException d h =>
    if d < today then (c, false)
    else if (Table.get c.exceptions d).isSome ∨ c.exceptions.length < 64 then
      ({ c with exceptions := Table.put c.exceptions d h }, true)
    else (c, false)
  | .removeException d =>
    if (Table.get c.exceptions d).isSome then ({ c with exceptions := Table.del c.exceptions d }, true) else (c, false)
  | .setConfig x => ({ c with config := x }, true)

/-- Applies edits in posting order; the number is how many were applied (R102). -/
def Settings.applyAll (c : Settings) (today : Nat) : List Edit → Settings × Nat
  | [] => (c, 0)
  | e :: es =>
    let (c1, used) := c.apply today e
    let (c2, n) := Settings.applyAll c1 today es
    (c2, (if used then 1 else 0) + n)

end Sys2Proof.Machine
end

