-- ==== Sys2Proof/Machine/Dues.lean ====
section
/-! DEFINITION. The due and fine calculator (chapter 7). -/

namespace Sys2Proof.Machine

/-- The due of a day loan of length `len` from day `t`, with card expiry `x` (R113, R114). -/
def dayDue (c : Settings) (t len : Nat) (x : Option Nat) : Time :=
  let counted := addDays t len
  let candidate := if c.isOpen counted then counted else (c.openSearch counted).getD counted
  let day :=
    match x with
    | none => candidate
    | some e => if candidate ≤ e then candidate else if e < t then t else (c.lastOpen t (e - t)).getD t
  { day := day, minute := c.closeMinute day }

/-- The due of a minute loan before the expiry clamp (the table of R115). -/
def minuteDueUnclamped (c : Settings) (now : Time) (len : Nat) : Time :=
  let afterHours : Time :=
    match c.openSearch now.day with
    | none => { day := now.day, minute := 1439 }
    | some n =>
      match c.hours n with
      | none => { day := n, minute := 1439 }
      | some h => { day := n, minute := min (h.openMin + len) h.closeMin }
  match c.hours now.day with
  | none => afterHours
  | some h =>
    if now.minute < h.closeMin then { day := now.day, minute := min (now.minute + len) h.closeMin } else afterHours

/-- The due of a minute loan (R115). -/
def minuteDue (c : Settings) (now : Time) (len : Nat) (x : Option Nat) : Time :=
  let due := minuteDueUnclamped c now len
  match x with
  | none => due
  | some e => if now.day < due.day ∧ e < due.day then { day := now.day, minute := 1439 } else due

/-- The due of an issue or renewal at `now` under rule `r` (R110, R113, R115, R116). -/
def dueFor (c : Settings) (r : Rule) (now : Time) (x : Option Nat) : Time :=
  match r.unit with
  | .day => dayDue c now.day r.length x
  | .minute => minuteDue c now r.length x

/-- The effective return time of a discharge, with the backdate day when it was used (R117). -/
def effectiveReturn (time : Time) (backdate : Option Nat) (today : Nat) : Time × Option Nat :=
  match backdate with
  | none => (time, none)
  | some b =>
    let day := min (max b (today - 7)) today
    if Time.earlier { day := day, minute := 0 } time then ({ day := day, minute := 0 }, some day) else (time, none)

/-- The overlap of a day's open hours with the window from `a` up to `b` (R120). -/
def overlap (h : Option Hours) (a b : Nat) : Nat :=
  match h with
  | none => 0
  | some h => min h.closeMin b - max h.openMin a

/-- The overdue minutes of the days `d` up to `d + n`, the window opening at `a` on day `d` and closing at `b` on day
`d + n` (R120). -/
def overdueMinutes (c : Settings) (d a b : Nat) : Nat → Nat
  | 0 => overlap (c.hours d) a b
  | n + 1 => overdueMinutes c d a 1440 n + overlap (c.hours (d + n + 1)) 0 b

/-- The overdue count: days for a day loan, started hours for a minute loan (R119, R120). -/
def overdueCount (c : Settings) (unit : LoanUnit) (due back : Time) : Nat :=
  match unit with
  | .day => c.openDays due.day (back.day - due.day)
  | .minute => (overdueMinutes c due.day due.minute back.minute (back.day - due.day) + 59) / 60

/-- The fine of a return at `back` of a loan due at `due` under the rule now matched (R118, R121). -/
def fineFor (c : Settings) (r : Rule) (unit : LoanUnit) (due back : Time) : Nat :=
  if due.earlier back then min ((overdueCount c unit due back - r.grace) * r.rate) r.cap else 0

/-- The pickup deadline of a trap made on day `today` (R84). -/
def pickupDeadline (c : Settings) (today : Nat) : Nat :=
  let candidate := addDays today c.config.pickup
  if c.isOpen candidate then candidate else (c.openSearch candidate).getD candidate

end Sys2Proof.Machine
end

