-- ==== Sys2Proof/Machine/Bytes.lean ====
section
/-! DEFINITION. Numbers as bytes, most significant byte first (R145, 12.6), and the named values of 12.6. -/

namespace Sys2Proof.Machine

def byteOf (n : Nat) : Byte := BitVec.ofNat 8 n

/-- A 2-byte number. -/
def be2 (n : Nat) : List Byte := [byteOf (n / 256), byteOf n]

/-- A 4-byte number. -/
def be4 (n : Nat) : List Byte := [byteOf (n / 16777216), byteOf (n / 65536), byteOf (n / 256), byteOf n]

/-- An 8-byte number. -/
def be8 (n : Nat) : List Byte := be4 (n / 4294967296) ++ be4 n

/-- The number a list of bytes spells, most significant byte first. -/
def fromBE (bs : List Byte) : Nat := bs.foldl (fun n b => n * 256 + b.toNat) 0

/-- The sum of bytes modulo 65536: the page check, the header check and the frame check (R141, R145, R187). -/
def sumCheck (bs : List Byte) : Nat := (bs.foldl (fun n b => n + b.toNat) 0) % 65536

/-- A number cut to the largest value its field holds (R144: counts that exceed their field). -/
def atMost (top n : Nat) : Nat := min n top

def boolByte (b : Bool) : Byte := if b then 1#8 else 0#8

/-- An optional field: a presence byte, then the field when present (12.6). -/
def optBytes {α : Type} (f : α → List Byte) : Option α → List Byte
  | none => [0#8]
  | some x => 1#8 :: f x

/-- A list: its number of entries, 2 bytes, then the entries (12.6). -/
def listBytes {α : Type} (f : α → List Byte) (xs : List α) : List Byte := be2 xs.length ++ xs.flatMap f

def identBytes (i : Ident) : List Byte := be2 i.lib ++ be4 i.serial

def timeBytes (t : Time) : List Byte := be2 t.day ++ be2 t.minute

def hoursBytes (h : Hours) : List Byte := be2 h.openMin ++ be2 h.closeMin

/-- A label is its 14 digits as characters (12.6), each its ASCII code (log entry 17). -/
def digitBytes (ds : List Nat) : List Byte := ds.map (fun d => byteOf (48 + d))

/-! ### Numbers of the named values (12.6, R145) -/

def deskNumber : Desk → Nat
  | .a => 0
  | .b => 1

def Source.number : Source → Nat
  | .desk d => deskNumber d
  | .uplink => 2
  | .unit => 3

def OpState.number : OpState → Nat
  | .unset => 1
  | .opened => 2
  | .returnsOnly => 3
  | .closed => 4

def Mode.number : Mode → Nat
  | .checkout => 1
  | .returns => 2
  | .renew => 3
  | .inquiry => 4

def Mode.ofNumber : Nat → Option Mode
  | 1 => some .checkout
  | 2 => some .returns
  | 3 => some .renew
  | 4 => some .inquiry
  | _ => none

def LoanUnit.number : LoanUnit → Nat
  | .day => 1
  | .minute => 2

def Policy.number : Policy → Nat
  | .returns => 1
  | .closed => 2

def HoldState.number : HoldState → Nat
  | .waiting => 1
  | .trapped => 2

def ListKind.number : ListKind → Nat
  | .blocks => 1
  | .holds => 2

def SlipKind.number : SlipKind → Nat
  | .due => 1
  | .hold => 2
  | .receipt => 3

def PrinterState.number : PrinterState → Nat
  | .ready => 1
  | .printing => 2
  | .paperOut => 3
  | .offline => 4

def Phase.number : Phase → Nat
  | .none => 1
  | .applying => 2
  | .holdPass => 3
  | .sweep => 4
  | .recording => 5

def FollowOn.number : FollowOn → Nat
  | .idle => 1
  | .resume _ => 2
  | .serveBorrower _ => 3
  | .closeResumed _ => 4

def StartKind.number : StartKind → Nat
  | .restart => 1
  | .warm => 2
  | .cold => 3

/-- The numbers of the outcome table (12.6). -/
def Verdict.number : Verdict → Nat
  | .issued => 1
  | .returned => 2
  | .renewed => 3
  | .info => 4
  | .borrowerSet => 5
  | .sessionClosed => 6
  | .declined => 7
  | .notOpen => 8
  | .noBorrower => 9
  | .notOnLoan => 10
  | .alreadyIssued => 11
  | .onLoanElsewhere => 12
  | .heldForOther => 13
  | .borrowerBlocked => 14
  | .centralBlock => 15
  | .limitReached => 16
  | .foreignLabel => 17
  | .tableFull => 18
  | .journalFull => 19
  | .noExtension => 20
  | .renewLimit => 21
  | .renewHeld => 22
  | .renewOverdue => 23
  | .slipDropped => 24
  | .receiptNotPrinted => 25

/-- The response codes (12.6). -/
def RespCode.number : RespCode → Nat
  | .ok => 0
  | .empty => 1
  | .busy => 2
  | .notPermitted => 3
  | .badRequest => 4
  | .wrongState => 5
  | .tooLate => 6
  | .queueFull => 7
  | .notFound => 8
  | .tableFull => 9
  | .journalFull => 10
  | .timeBackward => 11
  | .notArmed => 12
  | .unitUnset => 13

/-- The request codes (12.6). -/
def ReqKind.number : ReqKind → Nat
  | .identify => 1
  | .status => 2
  | .readResult => 3
  | .keyIn => 4
  | .setMode => 5
  | .close => 6
  | .override => 7
  | .decline => 8
  | .dropSlip => 9
  | .inquireItem => 10
  | .inquireBorrower => 11
  | .payment => 12
  | .setLocalBlock => 13
  | .clearLocalBlock => 14
  | .readSettings => 15
  | .printerStatus => 16
  | .postEdit => 17
  | .setTime => 18
  | .refreshRules => 19
  | .readJournal => 20
  | .ackJournal => 21
  | .beginDownload => 22
  | .downloadEntry => 23
  | .endDownload => 24
  | .abortDownload => 25
  | .restartArm => 26
  | .restart => 27

/-- The flags byte of a record header (R145). -/
def RecFlags.number (f : RecFlags) : Nat :=
  f.overrideUsed.toNat + 2 * f.backdated.toNat + 4 * f.foreign.toNat + 8 * f.aborted.toNat + 16 * f.minute.toNat

end Sys2Proof.Machine
end

