-- ==== Sys2Proof/Machine/Labels.lean ====
section
/-! DEFINITION. The label test, and what intake takes from a valid label (R1, R2). -/

namespace Sys2Proof.Machine

/-- The digit a character is, if it is one of 0–9 (R1). That the characters have their ASCII codes is the model's choice
(log entry 17). -/
def digitOf : WandChar → Option Nat
  | .char b => if 48 ≤ b.toNat ∧ b.toNat ≤ 57 then some (b.toNat - 48) else none
  | .lineError => none

/-- The digits of a string, if every character is a decimal digit. -/
def digitsOf : List WandChar → Option (List Nat)
  | [] => some []
  | c :: cs =>
    match digitOf c, digitsOf cs with
    | some d, some ds => some (d :: ds)
    | _, _ => none

/-- The sum of digits weighted 1, 3, 1, 3, … from weight `w` (R1). -/
def weightedSum : Nat → List Nat → Nat
  | _, [] => 0
  | w, d :: ds => w * d + weightedSum (4 - w) ds

/-- The check value of digits 1–13: ten less the last digit of the weighted sum, 10 taken as 0 (R1). -/
def checkValue (ds : List Nat) : Nat := (10 - weightedSum 1 ds % 10) % 10

/-- The number a list of decimal digits spells. -/
def decimal (ds : List Nat) : Nat := ds.foldl (fun n d => n * 10 + d) 0

/-- The label that 14 decimal digits make, if they pass R1; its fields by R2. -/
def labelOfDigits (ds : List Nat) : Option Label :=
  let cls := decimal ((ds.drop 1).take 2)
  let ident : Ident := { lib := decimal ((ds.drop 3).take 3), serial := decimal ((ds.drop 6).take 7) }
  if ds.length ≠ 14 ∨ ds.getD 13 10 ≠ checkValue (ds.take 13) then none
  else if ds.head? = some 3 ∧ cls ≤ 15 then some { digits := ds, kind := .item, cls := cls, ident := ident }
  else if ds.head? = some 2 ∧ cls ≤ 7 then some { digits := ds, kind := .borrower, cls := cls, ident := ident }
  else none

/-- The label a string of received characters is, if it is valid (R1, R2). -/
def labelOf (cs : List WandChar) : Option Label := (digitsOf cs).bind labelOfDigits

/-- The label a request body's characters are, if valid (R11, R77). -/
def labelOfBytes (bs : List Byte) : Option Label := labelOf (bs.map .char)

/-- An identity as the one number it stands under in the borrower table. -/
def Ident.key (i : Ident) : Nat := i.lib * 10000000 + i.serial

/-- The identity that stands under a number of the borrower table. -/
def identOfKey (k : Nat) : Ident := { lib := k / 10000000, serial := k % 10000000 }

/-- Whether library code and serial lie in their ranges (R60, R75). -/
def Ident.inRange (i : Ident) : Bool := decide (i.lib ≤ 999) && decide (i.serial ≤ 9999999)

/-- The last four digits of a serial: digits 4–7 of its seven (R178). -/
def lastFour (serial : Nat) : Nat := serial % 10000

end Sys2Proof.Machine
end

