-- ==== Sys2Proof/Machine/Ops.lean ====
section
/-! DEFINITION. Reading and changing the parts of State that come once per desk, port or claimant, and the operations the
blocks share: responses, the operating state, the day change. -/

namespace Sys2Proof.Machine

/-! ### Parts by desk, port and claimant -/

def State.wand (s : State) : Desk → Wand
  | .a => s.wandA
  | .b => s.wandB

def State.setWand (s : State) (d : Desk) (w : Wand) : State :=
  match d with
  | .a => { s with wandA := w }
  | .b => { s with wandB := w }

def State.eng (s : State) : Desk → Engine
  | .a => s.engA
  | .b => s.engB

def State.setEng (s : State) (d : Desk) (e : Engine) : State :=
  match d with
  | .a => { s with engA := e }
  | .b => { s with engB := e }

def State.port (s : State) : Port → PortState
  | .desk .a => s.portA
  | .desk .b => s.portB
  | .uplink => s.portU

def State.setPort (s : State) (p : Port) (x : PortState) : State :=
  match p with
  | .desk .a => { s with portA := x }
  | .desk .b => { s with portB := x }
  | .uplink => { s with portU := x }

/-- The transaction a claimant has waiting at the store (R41). The rollover's follows from its phase (R133, R134). -/
def State.waitingTxn (s : State) : Claimant → Option Txn
  | .engine .a => s.store.engA
  | .engine .b => s.store.engB
  | .port .a => s.store.portA
  | .port .b => s.store.portB
  | .uplink => s.store.uplink.head?
  | .rollover =>
    match s.roll.phase with
    | .applying => some .application
    | .holdPass => some (.holdVisit s.roll.place)
    | .sweep => some (.sweepVisit s.roll.cursor)
    | _ => none

/-- Sends a transaction to the store as a claimant's waiting one. -/
def State.sendTxn (s : State) (c : Claimant) (t : Txn) : State :=
  match c with
  | .engine .a => { s with store := { s.store with engA := some t } }
  | .engine .b => { s with store := { s.store with engB := some t } }
  | .port .a => { s with store := { s.store with portA := some t } }
  | .port .b => { s with store := { s.store with portB := some t } }
  | .uplink => { s with store := { s.store with uplink := s.store.uplink ++ [t] } }
  | .rollover => s

/-- The store takes a claimant's waiting transaction away from it. -/
def State.clearTxn (s : State) (c : Claimant) : State :=
  match c with
  | .engine .a => { s with store := { s.store with engA := none } }
  | .engine .b => { s with store := { s.store with engB := none } }
  | .port .a => { s with store := { s.store with portA := none } }
  | .port .b => { s with store := { s.store with portB := none } }
  | .uplink => { s with store := { s.store with uplink := s.store.uplink.tail } }
  | .rollover => s

/-- The claimants in the fixed cycle, beginning with the one that follows `c` (R41). -/
def Claimant.cycleAfter : Claimant → List Claimant
  | .engine .a => [.port .a, .engine .b, .port .b, .uplink, .rollover, .engine .a]
  | .port .a => [.engine .b, .port .b, .uplink, .rollover, .engine .a, .port .a]
  | .engine .b => [.port .b, .uplink, .rollover, .engine .a, .port .a, .engine .b]
  | .port .b => [.uplink, .rollover, .engine .a, .port .a, .engine .b, .port .b]
  | .uplink => [.rollover, .engine .a, .port .a, .engine .b, .port .b, .uplink]
  | .rollover => [.engine .a, .port .a, .engine .b, .port .b, .uplink, .rollover]

/-- The claimant whose turn it is (R41). -/
def State.turn (s : State) : Option Claimant := s.store.last.cycleAfter.find? (fun c => (s.waitingTxn c).isSome)

/-- The transaction the store takes if it takes claimant `c`'s now: the part is running, the store is free and the turn is
`c`'s (R41, R160). -/
def State.turnOf (s : State) (c : Claimant) : Option Txn :=
  if s.power = .running ∧ s.store.holding = none ∧ s.turn = some c then s.waitingTxn c else none

/-! ### Clock readings -/

/-- The clock's (day, minute) (R124). -/
def State.now (s : State) : Time := { day := s.clock.day, minute := s.clock.minute }

/-- Today: the day of the clock (4.3). -/
def State.today (s : State) : Nat := s.clock.day

/-- The whole seconds a timer of `limit` seconds has left after `ms` milliseconds (log entry 4). -/
def secondsLeft (limit : Nat) (ms : Option Nat) : Nat :=
  match ms with
  | none => 0
  | some m => limit - m / 1000

/-! ### Ports (R188, R189) -/

/-- Whether a port takes bytes: the part is running, and the uplink port is not waiting for the abort of a retained
session (R177, R191, R192). -/
def State.accepts (s : State) (p : Port) : Bool :=
  decide (s.power = .running) && !(decide (p = .uplink) && s.exch.shut)

/-- The response to the request in progress of a port joins the port's responses. A port with none in progress lost its
request to a reset and sends nothing (R191). -/
def State.respondWith (s : State) (p : Port) (code : RespCode) (ans : Answer) (startsGap restarts : Bool) : State :=
  match (s.port p).inProgress with
  | none => s
  | some r =>
    s.setPort p
      { s.port p with
        tx := (s.port p).tx ++
          [{ tag := r.tag, code := code, answer := ans, own := true, startsGap := startsGap, restarts := restarts }] }

def State.respond (s : State) (p : Port) (code : RespCode) (ans : Answer) : State := s.respondWith p code ans false false

/-! ### Operating state (R128 to R130) -/

/-- The operating state its inputs give (R128). -/
def deriveOp (valid : Bool) (home : Option Nat) (line : Bool) (policy : Policy) : OpState :=
  if valid = false ∨ home = none then .unset
  else if line then .opened
  else
    match policy with
    | .returns => .returnsOnly
    | .closed => .closed

/-- The operating state the part's inputs give now (R128). -/
def State.derivedOp (s : State) : OpState :=
  deriveOp s.clock.valid s.settings.config.home s.openLine s.settings.config.policy

/-- A change of operating state away from Open reaches a desk context (R16, R30). -/
def Engine.leaveArrives (e : Engine) : Engine :=
  if e.deferred.contains .leaveOpen then e else { e with deferred := e.deferred ++ [.leaveOpen] }

/-- Derives the operating state anew; leaving Open reaches both desk contexts (R128, R129). -/
def State.deriveState (s : State) : State :=
  let new := s.derivedOp
  if s.opState = .opened ∧ (new = .returnsOnly ∨ new = .closed) then
    { s with opState := new, engA := s.engA.leaveArrives, engB := s.engB.leaveArrives }
  else { s with opState := new }

/-! ### Day change (R131) -/

/-- A day rollover starts (R131). -/
def State.startRollover (s : State) : State :=
  { s with roll :=
    { s.roll with phase := .applying, day := s.clock.day, place := 0, cursor := 0, moved := 0, flagsSet := 0,
                  flagsCleared := 0, expired := 0 } }

/-- A day change is taken: it starts a rollover, or marks one as pending (R131). -/
def State.dayChange (s : State) : State :=
  if s.roll.phase = .none then s.startRollover else { s with roll := { s.roll with pending := true } }

/-- A rollover ends; a pending one starts at once (R131, R137). -/
def State.endRollover (s : State) : State :=
  if s.roll.pending then
    State.startRollover { s with roll := { s.roll with phase := .none, pending := false } }
  else { s with roll := { s.roll with phase := .none } }

end Sys2Proof.Machine
end

