-- ==== Sys2Proof/Machine/Render.lean ====
section
/-! DEFINITION. A slip as the characters sent to the printer (R178, R179, R182). -/

namespace Sys2Proof.Machine

/-- Characters as bytes, each its ASCII code (log entry 17). -/
def textBytes (t : String) : List Byte := t.toList.map (fun c => BitVec.ofNat 8 c.toNat)

/-- A number in exactly `width` decimal digits, with leading zeros. -/
def paddedDigits : Nat → Nat → List Byte
  | 0, _ => []
  | w + 1, n => paddedDigits w (n / 10) ++ [BitVec.ofNat 8 (48 + n % 10)]

/-- The decimal digits a number needs, at least one; amounts have no separators (R179). -/
def digitsNeeded : Nat → Nat → Nat
  | 0, _ => 1
  | fuel + 1, n => if n < 10 then 1 else 1 + digitsNeeded fuel (n / 10)

def plainNumber (n : Nat) : List Byte := paddedDigits (digitsNeeded 20 n) n

/-- Whether a year has 366 days (R179). -/
def isLeap (year : Nat) : Bool := (year % 4 == 0 && year % 100 != 0) || year % 400 == 0

def yearDays (year : Nat) : Nat := if isLeap year then 366 else 365

/-- The days of a month, 1–12 (R179). -/
def monthDays (year month : Nat) : Nat :=
  if month = 2 then (if isLeap year then 29 else 28)
  else if month = 4 ∨ month = 6 ∨ month = 9 ∨ month = 11 then 30
  else 31

/-- Year and day within it, counting years forward from `year`. -/
def yearOf : Nat → Nat → Nat → Nat × Nat
  | 0, year, n => (year, n)
  | fuel + 1, year, n => if n < yearDays year then (year, n) else yearOf fuel (year + 1) (n - yearDays year)

/-- Month and day of the month (from 0), counting months forward from `month`. -/
def monthOf : Nat → Nat → Nat → Nat → Nat × Nat
  | 0, _, month, n => (month, n)
  | fuel + 1, year, month, n =>
    if n < monthDays year month then (month, n) else monthOf fuel year (month + 1) (n - monthDays year month)

/-- A day number as day, month and year: day 0 is 1 January 2001 (R179). -/
def dateOf (day : Nat) : Nat × Nat × Nat :=
  let (year, n) := yearOf 180 2001 day
  let (month, d) := monthOf 12 year 1 n
  (d + 1, month, year)

/-- A date as DD-MM-YYYY (R179). -/
def dateText (day : Nat) : List Byte :=
  let (d, m, y) := dateOf day
  paddedDigits 2 d ++ textBytes "-" ++ paddedDigits 2 m ++ textBytes "-" ++ paddedDigits 4 y

/-- A time as HH:MM (R179). -/
def timeText (minute : Nat) : List Byte := paddedDigits 2 (minute / 60) ++ textBytes ":" ++ paddedDigits 2 (minute % 60)

/-- The parts of a printed line with one space between them (log entry 15). -/
def spaced : List (List Byte) → List Byte
  | [] => []
  | [x] => x
  | x :: xs => x ++ textBytes " " ++ spaced xs

def deskName : Desk → List Byte
  | .a => textBytes "DESK A"
  | .b => textBytes "DESK B"

/-- A slip's printed lines (R179). -/
def Slip.lines : Slip → List (List Byte)
  | .due desk date last4 items =>
    [spaced [deskName desk, dateText date], spaced [textBytes "BORROWER ....", paddedDigits 4 last4]]
      ++ items.map (fun e => spaced [paddedDigits 7 e.1, dateText e.2.day, timeText e.2.minute])
  | .hold _ item last4 deadline =>
    [textBytes "HOLD", spaced [paddedDigits 3 item.lib, paddedDigits 7 item.serial],
      spaced [textBytes "FOR ....", paddedDigits 4 last4], spaced [textBytes "COLLECT BY", dateText deadline]]
  | .receipt _ taken owedAfter =>
    [spaced [textBytes "RECEIVED", plainNumber taken], spaced [textBytes "OWED", plainNumber owedAfter]]

/-- The Slip message: each line ended by carriage return and line feed, then a form feed (R182), by their
ASCII codes (log entry 17). -/
def Slip.message (x : Slip) : List Byte := x.lines.flatMap (fun l => l ++ [0x0D#8, 0x0A#8]) ++ [0x0C#8]

/-- The Inquiry message: the single character ENQ (R182). -/
def inquiryMessage : List Byte := [0x05#8]

def Slip.kind : Slip → SlipKind
  | .due .. => .due
  | .hold .. => .hold
  | .receipt .. => .receipt

/-- The desk a slip carries as its source (R178). -/
def Slip.source : Slip → Desk
  | .due d .. => d
  | .hold d .. => d
  | .receipt d .. => d

end Sys2Proof.Machine
end

