-- ==== Sys2Proof/Machine/Engine.lean ====
section
/-! DEFINITION. What a desk engine does with its context: sessions, slips, overrides, deferred events (R16 to R30), and
the joining of slips to the printer's queue (R180, R183). -/

namespace Sys2Proof.Machine

/-! ### Slip queue (R180, R183) -/

/-- Sends the front slip whole: Printing, with an answer expected (R183). -/
def Printer.sendFront (p : Printer) : Printer :=
  match p.queue with
  | [] => { p with st := .ready, outstanding := none, sending := none, answerMs := none, inquiryMs := none }
  | x :: _ =>
    { p with st := .printing, outstanding := some .slip, sending := some x.message, answerMs := none, inquiryMs := none }

/-- A slip joins the queue at the back; in Ready it is sent at once (R180, R184). -/
def Printer.join (p : Printer) (x : Slip) : Printer :=
  let p1 := { p with queue := p.queue ++ [x] }
  if p.st = .ready then p1.sendFront else p1

/-- Whether the queue has room: it holds at most 8 slips (R180). -/
def Printer.hasRoom (p : Printer) : Bool := decide (p.queue.length < 8)

/-! ### Context changes (R21 to R26) -/

/-- The result record joins the back of the desk's result queue (R32). -/
def State.putResult (s : State) (d : Desk) (label : List Nat) (f : Fields) : State :=
  s.setEng d { s.eng d with results := (s.eng d).results ++ [{ label := label, fields := f }] }

/-- The context becomes Idle; the idle timer is stopped (R21). -/
def State.toIdle (s : State) (d : Desk) : State := s.setEng d { s.eng d with ctx := .idle, idleMs := none }

/-- The context becomes Session and the idle timer starts from 0 (R24). -/
def State.toSession (s : State) (d : Desk) (ss : Session) : State :=
  s.setEng d { s.eng d with ctx := .session ss, idleMs := some 0 }

/-- The context enters AwaitOverride: the override timer starts, the idle timer stops, the late mark clears (R26). -/
def State.toAwait (s : State) (d : Desk) (h : HeldScan) : State :=
  s.setEng d { s.eng d with ctx := .awaitOverride h, idleMs := none, overrideMs := some 0, late := false }

/-- The context enters SlipWait and the desk joins the printer's waiting list (R25, R181). -/
def State.toSlipWait (s : State) (d : Desk) (x : Slip) (f : FollowOn) : State :=
  let s1 := s.setEng d { s.eng d with ctx := .slipWait x f, idleMs := none }
  { s1 with printer := { s1.printer with waitList := s1.printer.waitList ++ [d] } }

/-- The engine sends a transaction for the scan it has in service. -/
def State.serve (s : State) (d : Desk) (sc : Scan) (t : Txn) : State :=
  (s.setEng d { s.eng d with service := some (.entry sc) }).sendTxn (.engine d) t

/-- The borrower check of R22 step 3 is sent; the context is Idle meanwhile. -/
def State.sendCheck (s : State) (d : Desk) (sc : Scan) : State :=
  (s.toIdle d).serve d sc (.borrowerCheck sc.label.ident)

/-- The due slip of a session's issued list (R21, R178). -/
def State.dueSlip (s : State) (d : Desk) (ss : Session) : Slip :=
  .due d s.today (lastFour ss.borrower.serial) (ss.issued.map (fun e => (e.item.serial, e.due)))

/-- The follow-on performed once a slip has gone (R25). -/
def State.follow (s : State) (d : Desk) : FollowOn → State
  | .idle => s.toIdle d
  | .resume ss => s.toSession d ss
  | .serveBorrower sc =>
    if s.opState = .opened then s.sendCheck d sc
    else (s.toIdle d).putResult d sc.label.digits { verdict := .notOpen }
  | .closeResumed ss =>
    if ss.issued = [] then s.toIdle d
    else if s.printer.hasRoom then State.toIdle { s with printer := s.printer.join (s.dueSlip d ss) } d
    else s.toSlipWait d (s.dueSlip d ss) .idle

/-- A slip is offered to the slip queue: it joins and the follow-on is performed, or the context waits with both (R25,
R180). -/
def State.offerSlip (s : State) (d : Desk) (x : Slip) (f : FollowOn) : State :=
  if s.printer.hasRoom then State.follow { s with printer := s.printer.join x } d f else s.toSlipWait d x f

/-- A session close (R21). -/
def State.closeSession (s : State) (d : Desk) (ss : Session) (f : FollowOn) : State :=
  if ss.issued = [] then (s.toIdle d).follow d f else (s.toIdle d).offerSlip d (s.dueSlip d ss) f

/-- An issued item joins the issued list; a 17th sends the first 16 to a slip and begins the list anew (R23). -/
def State.addIssued (s : State) (d : Desk) (ss : Session) (e : Issued) : State :=
  if ss.issued.length < 16 then s.toSession d { ss with issued := ss.issued ++ [e] }
  else s.offerSlip d (s.dueSlip d ss) (.resume { ss with issued := [e] })

/-! ### Declining, leaving Open (R29, R30) -/

/-- The fields of a DECLINED result: those of the stop (R29, R31). -/
def Stop.declined : Stop → Fields
  | .blocked rs => { verdict := .declined, reasons := some rs }
  | .onLoan other => { verdict := .declined, other := some other }
  | .held holder => { verdict := .declined, holder := some holder }

/-- The context a held scan leaves behind. -/
def State.leaveHeld (s : State) (d : Desk) (h : HeldScan) : State :=
  match h.session with
  | some ss => s.toSession d ss
  | none => s.toIdle d

/-- A held scan is declined; `late` says that no request of the terminal did it (R29). -/
def State.declineHeld (s : State) (d : Desk) (h : HeldScan) (late : Bool) : State :=
  let s1 := s.putResult d h.scan.label.digits h.stop.declined
  (s1.setEng d { s1.eng d with overrideMs := none, late := late || (s1.eng d).late }).leaveHeld d h

/-- A desk context acts on the operating state leaving Open (R30). -/
def State.leaveOpen (s : State) (d : Desk) : State :=
  match (s.eng d).ctx with
  | .idle => s
  | .session ss => s.closeSession d ss .idle
  | .awaitOverride h =>
    match h.session with
    | none => s.declineHeld d h true
    | some ss => (s.declineHeld d h true).closeSession d ss .idle
  | .slipWait x (.resume ss) => s.setEng d { s.eng d with ctx := .slipWait x (.closeResumed ss) }
  | .slipWait _ _ => s

/-! ### Override, Decline and DropSlip (R27 to R29, R36) -/

/-- What an Issue of a held or taken scan carries (R43). -/
def loanReq (sc : Scan) (ss : Session) (time : Time) : LoanReq :=
  { item := sc.label.ident, cls := sc.label.cls, borrower := ss.borrower, category := ss.category, mark := ss.mark,
    time := time }

/-- The transaction an Override sends for a held scan (R27, R28, R50). -/
def HeldScan.overrideTxn (h : HeldScan) (now : Time) : Option Txn :=
  match h.stop, h.session with
  | .blocked _, _ => some (.borrowerCheck h.scan.label.ident)
  | .onLoan other, some ss => some (.overrideLoan (loanReq h.scan ss now) other)
  | .held holder, some ss => some (.overrideHold (loanReq h.scan ss now) holder)
  | _, none => none

/-- The tests Override and Decline share, in the order of R36's second table: the response that refuses, or the held
scan. -/
def State.heldOr (s : State) (d : Desk) : RespCode ⊕ HeldScan :=
  if (s.eng d).late then .inl .tooLate
  else if s.opState = .unset then .inl .unitUnset
  else if s.opState = .closed then .inl .wrongState
  else
    match (s.eng d).ctx with
    | .awaitOverride h => .inr h
    | _ => .inl .wrongState

/-- A refused Override or Decline is answered; the late mark, which TOO_LATE reports, is clear afterwards (R36). -/
def State.refuseHeld (s : State) (d : Desk) (code : RespCode) : State :=
  (s.setEng d { s.eng d with late := if code = .tooLate then false else (s.eng d).late }).respond (.desk d) code .empty

/-- An Override reaches the context (R27, R28). -/
def State.doOverride (s : State) (d : Desk) : State :=
  match s.heldOr d with
  | .inl code => s.refuseHeld d code
  | .inr h =>
    match h.overrideTxn s.now with
    | none => s.respond (.desk d) .wrongState .empty
    | some t =>
      (s.setEng d { s.eng d with service := some .overriding, overrideMs := none }).sendTxn (.engine d) t

/-- A Decline reaches the context (R29). -/
def State.doDecline (s : State) (d : Desk) : State :=
  match s.heldOr d with
  | .inl code => s.refuseHeld d code
  | .inr h => (s.declineHeld d h false).respond (.desk d) .ok .empty

/-- A DropSlip reaches the context (R36, R181). -/
def State.doDropSlip (s : State) (d : Desk) : State :=
  if s.opState = .unset then s.respond (.desk d) .unitUnset .empty
  else if s.opState = .closed then s.respond (.desk d) .wrongState .empty
  else
    match (s.eng d).ctx with
    | .slipWait x f =>
      let s1 := s.respond (.desk d) .ok (.slipDropped x.kind)
      State.follow { s1 with printer := { s1.printer with waitList := s1.printer.waitList.filter (· != d) } } d f
    | _ => s.respond (.desk d) .wrongState .empty

/-! ### Events deferred while an entry is in service (R16) -/

def State.actOn (s : State) (d : Desk) : CtxEvent → State
  | .leaveOpen => s.leaveOpen d
  | .override => s.doOverride d
  | .decline => s.doDecline d
  | .dropSlip => s.doDropSlip d

/-- Acts on the deferred events in the order they came, while no entry is in service. With `stop`, a change of operating
state is left for the LEAVE_OPEN step. -/
def State.runDeferred (d : Desk) (stop : Bool) : Nat → State → State
  | 0, s => s
  | n + 1, s =>
    if (s.eng d).service.isSome then s
    else
      match (s.eng d).deferred with
      | [] => s
      | ev :: rest =>
        if stop ∧ ev = .leaveOpen then s
        else State.runDeferred d stop n ((s.setEng d { s.eng d with deferred := rest }).actOn d ev)

/-- Every deferred event of a context that has nothing in service. -/
def State.settle (s : State) (d : Desk) : State := State.runDeferred d false (s.eng d).deferred.length s

/-- The idle timer starts again from 0 when service ends in Session (R16, R24). -/
def Engine.restIdle (e : Engine) : Engine :=
  match e.ctx with
  | .session _ => { e with service := none, idleMs := some 0 }
  | _ => { e with service := none }

/-- Service ends: the idle timer starts in Session, and requests that came meanwhile are acted on (R16). -/
def State.endService (s : State) (d : Desk) : State :=
  let s1 := s.setEng d (s.eng d).restIdle
  State.runDeferred d true (s1.eng d).deferred.length s1

/-- A request of the terminal reaches the context: deferred while an entry is in service, else acted on after whatever
came before it (R16). -/
def State.reachContext (s : State) (d : Desk) (ev : CtxEvent) : State :=
  State.settle (s.setEng d { s.eng d with deferred := (s.eng d).deferred ++ [ev] }) d

/-! ### What the engine makes of the store's outcomes (R20, R22, R23, R27, R28) -/

/-- The store's answer to a borrower check (R72). -/
inductive CheckReply where
  | refused (v : Verdict)
  | reasons (rs : List Reason)
  deriving DecidableEq, Repr

/-- Whether a reasons list holds a CENTRAL reason. -/
def hasCentral (rs : List Reason) : Bool :=
  rs.any (fun r => match r with | .central _ => true | _ => false)

/-- The session a borrower scan begins (R22, R27). -/
def newSession (sc : Scan) (mark : Bool) : Session :=
  { borrower := sc.label.ident, label := sc.label.digits, category := sc.label.cls, issued := [], mark := mark }

/-- The outcome of the borrower check of a scan (R22). -/
def State.checkDone (s : State) (d : Desk) (sc : Scan) (r : CheckReply) : State :=
  match r with
  | .refused v => (s.putResult d sc.label.digits { verdict := v }).toIdle d
  | .reasons [] => (s.putResult d sc.label.digits { verdict := .borrowerSet }).toSession d (newSession sc false)
  | .reasons rs =>
    if hasCentral rs then
      (s.putResult d sc.label.digits { verdict := .centralBlock, reasons := some rs }).toIdle d
    else s.toAwait d { scan := sc, stop := .blocked rs, session := none }

/-- The outcome of the borrower check of an Override (R27). -/
def State.overrideCheckDone (s : State) (d : Desk) (h : HeldScan) (r : CheckReply) : State :=
  let label := h.scan.label.digits
  let s1 :=
    match r with
    | .refused v => (s.putResult d label { verdict := v }).toIdle d
    | .reasons rs =>
      if hasCentral rs then (s.putResult d label { verdict := .centralBlock, reasons := some rs }).toIdle d
      else (s.putResult d label { verdict := .borrowerSet, reasons := some rs }).toSession d (newSession h.scan true)
  s1.respond (.desk d) .ok .empty

/-- The stop an outcome names, if it is one staff may overrule (2.6). -/
def Fields.stop (f : Fields) : Option Stop :=
  match f.verdict, f.other, f.holder with
  | .onLoanElsewhere, some other, _ => some (.onLoan other)
  | .heldForOther, _, some holder => some (.held holder)
  | _, _, _ => none

/-- The result of an outcome is placed and the session goes on as it gives (R23, R28). -/
def State.issueOutcome (s : State) (d : Desk) (sc : Scan) (ss : Session) (f : Fields) : State :=
  let s1 := s.putResult d sc.label.digits f
  match f.verdict, f.due with
  | .issued, some due => s1.addIssued d ss { item := sc.label.ident, due := due }
  | .centralBlock, _ => s1.closeSession d ss .idle
  | _, _ => s1.toSession d ss

/-- The outcome of an Issue (R23). -/
def State.issueDone (s : State) (d : Desk) (sc : Scan) (f : Fields) : State :=
  match (s.eng d).ctx with
  | .session ss =>
    match f.stop with
    | some st => s.toAwait d { scan := sc, stop := st, session := some ss }
    | none => s.issueOutcome d sc ss f
  | _ => s.putResult d sc.label.digits f

/-- The outcome of an override transaction (R28). -/
def State.overrideDone (s : State) (d : Desk) (h : HeldScan) (f : Fields) : State :=
  let s1 :=
    match f.stop, h.session with
    | some st, _ => s.toAwait d { h with stop := st }
    | none, some ss => s.issueOutcome d h.scan ss f
    | none, none => (s.putResult d h.scan.label.digits f).toIdle d
  s1.respond (.desk d) .ok .empty

/-- The outcome of a Discharge, a Renew or an inquiry is placed; a trapped hold's slip is offered (R20, R87). -/
def State.plainDone (s : State) (d : Desk) (sc : Scan) (f : Fields) : State :=
  let s1 := s.putResult d sc.label.digits f
  match f.verdict, f.holder, f.deadline with
  | .returned, some holder, some deadline =>
    s1.offerSlip d (.hold d sc.label.ident (lastFour holder.serial) deadline) .idle
  | _, _, _ => s1

/-- An outcome of the store comes back to a desk engine, and the service ends (R16). -/
def State.engineScan (s : State) (d : Desk) (isIssue : Bool) (f : Fields) : State :=
  match (s.eng d).service, (s.eng d).ctx with
  | some (.entry sc), _ => (if isIssue then s.issueDone d sc f else s.plainDone d sc f).endService d
  | some .overriding, .awaitOverride h => (s.overrideDone d h f).endService d
  | _, _ => s

/-- A borrower check comes back to a desk engine (R22, R27). -/
def State.engineCheck (s : State) (d : Desk) (r : CheckReply) : State :=
  match (s.eng d).service, (s.eng d).ctx with
  | some (.entry sc), _ => (s.checkDone d sc r).endService d
  | some .overriding, .awaitOverride h => (s.overrideCheckDone d h r).endService d
  | _, _ => s

/-! ### Taking an entry (R16 to R20) -/

/-- Whether the operating state serves scans in a mode (R17). -/
def modeServed (o : OpState) (m : Mode) : Bool :=
  match o with
  | .opened => true
  | .returnsOnly => decide (m = .returns ∨ m = .inquiry)
  | _ => false

/-- A scan is served by mode and kind of label (R17, R20, R22, R23). -/
def State.serveScan (s : State) (d : Desk) (sc : Scan) : State :=
  let e := s.eng d
  let digits := sc.label.digits
  let id := sc.label.ident
  if modeServed s.opState e.mode = false then (s.putResult d digits { verdict := .notOpen }).endService d
  else
    match e.mode, sc.label.kind, e.ctx with
    | .checkout, .borrower, .session ss =>
      if ss.borrower = id then (s.putResult d digits { verdict := .borrowerSet }).endService d
      else s.closeSession d ss (.serveBorrower sc)
    | .checkout, .borrower, _ => s.sendCheck d sc
    | .checkout, .item, .session ss => s.serve d sc (.issue (loanReq sc ss sc.arrival))
    | .checkout, .item, _ => (s.putResult d digits { verdict := .noBorrower }).endService d
    | .returns, .item, _ => s.serve d sc (.discharge id sc.arrival e.backdate)
    | .renew, .item, _ => s.serve d sc (.renew id sc.arrival)
    | .inquiry, .item, _ => s.serve d sc (.itemInquiry id)
    | _, .borrower, _ => s.serve d sc (.borrowerInquiry id)

/-- A mode marker acts (R18). -/
def State.serveMode (s : State) (d : Desk) (m : Mode) (backdate : Option Nat) : State :=
  let s1 := s.setEng d { s.eng d with mode := m, backdate := if m = .returns then backdate else none }
  match (s.eng d).ctx with
  | .session ss => if m = .checkout then s1.endService d else s1.closeSession d ss .idle
  | _ => s1

/-- A close marker acts (R19). -/
def State.serveClose (s : State) (d : Desk) : State :=
  match (s.eng d).ctx with
  | .session ss => (s.closeSession d ss .idle).putResult d ss.label { verdict := .sessionClosed }
  | _ => s

/-- Whether the engine may take an entry: Idle or Session, room for a result, nothing in service (R16). -/
def Engine.mayTake (e : Engine) : Bool :=
  (match e.ctx with
   | .idle => true
   | .session _ => true
   | _ => false) && decide (e.results.length < 16) && e.service.isNone

/-- The engine takes the front entry and serves it (R16). -/
def State.takeFront (s : State) (d : Desk) : State :=
  match (s.eng d).mayTake, (s.eng d).queue with
  | true, en :: rest =>
    let s1 := s.setEng d { s.eng d with queue := rest, idleMs := none, late := false }
    match en with
    | .scan sc => s1.serveScan d sc
    | .modeMarker m b => s1.serveMode d m b
    | .closeMarker => s1.serveClose d
  | _, _ => s

end Sys2Proof.Machine
end

