-- ==== Sys2Proof/Machine/Records.lean ====
section
/-! DEFINITION. Journal records and pages as bytes, and reading them back (R141, R144, R145). -/

namespace Sys2Proof.Machine

/-- The kind byte of a record (R145). -/
def RecBody.kind : RecBody → Nat
  | .issue .. => 1
  | .discharge .. => 2
  | .renew .. => 3
  | .payment .. => 4
  | .localSet .. => 5
  | .localClear .. => 6
  | .holdTrap .. => 7
  | .holdPickup .. => 8
  | .holdExpire .. => 9
  | .rollover .. => 10
  | .edits .. => 11
  | .download .. => 12
  | .clock .. => 13
  | .ack .. => 14
  | .restart .. => 15

/-- The body of a record from offset 12 (R145); counts are cut to their field's largest value (R144). -/
def RecBody.bytes : RecBody → List Byte
  | .issue item borrower due => identBytes item ++ identBytes borrower ++ timeBytes due
  | .discharge item borrower fine backdate =>
    identBytes item ++ identBytes borrower ++ be4 fine ++ (match backdate with | none => [] | some b => be2 b)
  | .renew item borrower due fine =>
    identBytes item ++ identBytes borrower ++ timeBytes due ++ (match fine with | none => [] | some f => be4 f)
  | .payment borrower taken owedAfter => identBytes borrower ++ be4 taken ++ be4 owedAfter
  | .localSet borrower code => identBytes borrower ++ [byteOf code]
  | .localClear borrower code => identBytes borrower ++ [byteOf code]
  | .holdTrap item holder => identBytes item ++ identBytes holder
  | .holdPickup item holder => identBytes item ++ identBytes holder
  | .holdExpire item holder => identBytes item ++ identBytes holder
  | .rollover gen moved set cleared expired =>
    [byteOf gen] ++ be2 (atMost 65535 moved) ++ be2 (atMost 65535 set) ++ be2 (atMost 65535 cleared)
      ++ be2 (atMost 65535 expired)
  | .edits applied discarded => [byteOf (atMost 255 applied), byteOf (atMost 255 discarded)]
  | .download k stored notStored removed =>
    [byteOf k.number] ++ be2 (atMost 65535 stored) ++ be2 (atMost 65535 notStored) ++ be2 (atMost 65535 removed)
  | .clock old new => timeBytes old ++ timeBytes new
  | .ack u => be4 u
  | .restart k drops => [byteOf k.number, byteOf (atMost 255 drops)]

/-- The length of a whole record, the header's 12 bytes included (R145). -/
def RecBody.size (b : RecBody) : Nat := 12 + b.bytes.length

/-- A record in the layout of R145. -/
def Rec.bytes (r : Rec) : List Byte :=
  be4 r.seq ++ [byteOf r.body.kind, byteOf r.source.number] ++ timeBytes r.time
    ++ [byteOf r.body.size, byteOf r.flags.number] ++ r.body.bytes

/-- A sector header (R145). -/
def sectorHeader (lap first sector : Nat) : List Byte :=
  let bytes := [0x4C#8, 0x44#8, 0x4A#8, 0x52#8] ++ be4 lap ++ be4 first ++ be2 sector
  bytes ++ be2 (sumCheck bytes)

/-- A page: its first bytes, erased bytes up to 254, and the page check (R141). -/
def pageBytes (content : List Byte) : List Byte :=
  let body := (content ++ List.replicate (254 - content.length) 0xFF#8).take 254
  body ++ be2 (sumCheck body)

/-- The first address of a page. -/
def pageAddr (sector page : Nat) : Nat := sector * 4096 + page * 256

/-- The room a page has for records (R141). -/
def pageRoom (page : Nat) : Nat := if page = 0 then 238 else 254

/-! ### Reading pages back -/

/-- A record as found in the array. -/
structure Found where
  seq : Nat
  bytes : List Byte
  deriving DecidableEq, Repr

/-- The records of a page's record space: taken until a sequence field with every bit one, or until fewer than 12 bytes
remain (R145). A length outside 12–32, or beyond the page, ends them too. -/
def foundIn : Nat → List Byte → List Found
  | 0, _ => []
  | n + 1, bs =>
    if bs.length < 12 then []
    else
      let seq := fromBE (bs.take 4)
      let len := (bs.getD 10 0#8).toNat
      if seq = 4294967295 ∨ len < 12 ∨ 32 < len ∨ bs.length < len then []
      else { seq := seq, bytes := bs.take len } :: foundIn n (bs.drop len)

/-- What a page of the array is found to be (R159): blank, void (its check fails), or good with its records. -/
inductive PageFound where
  | blank
  | void
  | good (rs : List Found)
  deriving DecidableEq, Repr

/-- Reads a page of the array. -/
def readPage (m : List Host.Cell) (sector page : Nat) : PageFound :=
  let bs := Memory.readAll m (pageAddr sector page) 256
  if bs.all (fun b => b == 0xFF#8) then .blank
  else if fromBE (bs.drop 254) ≠ sumCheck (bs.take 254) then .void
  else .good (foundIn 22 ((bs.take 254).drop (if page = 0 then 16 else 0)))

/-- The sixteen pages of a sector. -/
def readPages (m : List Host.Cell) (sector : Nat) : List PageFound := (List.range 16).map (readPage m sector)

/-- The records of the pages up to the first blank one, void pages left out (R159). -/
def recordsUpToBlank : List PageFound → List Found
  | [] => []
  | .blank :: _ => []
  | .void :: ps => recordsUpToBlank ps
  | .good rs :: ps => rs ++ recordsUpToBlank ps

/-- The records served from a sector: those of its pages whose check is right (R157). -/
def sectorRecords (m : List Host.Cell) (sector : Nat) : List Found := recordsUpToBlank (readPages m sector)

end Sys2Proof.Machine
end

