-- ==== Sys2Proof/Machine/Journal.lean ====
section
/-! DEFINITION. The journal store's own operations: sectors, page buffers, placement, the space test, acknowledgement and
programming (R141 to R156). -/

namespace Sys2Proof.Machine

/-- What is kept of sector `n`. -/
def Journal.sector (j : Journal) (n : Nat) : Sector := j.sectors.getD n Sector.blank

def Journal.setSector (j : Journal) (n : Nat) (x : Sector) : Journal := { j with sectors := j.sectors.set n x }

/-- The number of Erased sectors (R142, R150, R153). -/
def Journal.erasedCount (j : Journal) : Nat := (j.sectors.filter (fun x => x.st == .erased)).length

/-- The journal is low while 4 or fewer sectors are Erased (R153). -/
def Journal.low (j : Journal) : Bool := decide (j.erasedCount ≤ 4)

/-- A retained buffer waits for a sector while none is Erased (R160). -/
def Journal.wantsSector (j : Journal) : Bool := decide (j.erasedCount = 0) && j.waiting.any (fun b => b.target.isNone)

/-- The sector opened next and its lap (R141, R159). -/
def Journal.nextSector (j : Journal) : Nat × Nat :=
  match j.active with
  | none => (j.seedSector, j.seedLap)
  | some a => ((a + 1) % 128, (j.sector a).lap + (if a = 127 then 1 else 0))

/-- The bytes of records a page buffer holds. -/
def recsSize (rs : List Rec) : Nat := (rs.map (fun r => r.body.size)).sum

/-- The room left in a buffer's page (R147). -/
def PageBuf.free (b : PageBuf) : Nat :=
  match b.target with
  | none => 0
  | some (_, p) => pageRoom p - recsSize b.recs

/-- The number of Free page buffers of the two (R147). -/
def Journal.freeBuffers (j : Journal) : Nat :=
  2 - (j.filling.toList.length + j.waiting.length + j.programming.toList.length)

/-- A Full sector's state: Reclaimable when U lies above its last record, else Sealed (R142). -/
def fullState (u : Nat) (x : Sector) : SectorState := if x.stop ≤ u then .reclaimable else .sealed

/-- What placing can come to: it waits (for a buffer or for an erase, R147, R149), there is no room for it, or it is
done. -/
inductive Placed (α : Type) where
  | wait
  | full
  | done (x : α)

/-- Opens the next sector for a record of sequence `seq`; its page 0 is then given (R142, R147). -/
def Journal.openSector (j : Journal) (seq : Nat) : Placed (Journal × (Nat × Nat)) :=
  let (n, lap) := j.nextSector
  match (j.sector n).st with
  | .erased =>
    let j1 :=
      match j.active with
      | none => j
      | some a => j.setSector a { j.sector a with st := fullState j.u (j.sector a) }
    .done ({ j1.setSector n { st := .active, lap := lap, first := seq, stop := seq } with active := some n, page := 1 },
      (n, 0))
  | .erasing => .wait
  | _ => .full

/-- Gives the next page: the page after the last given, or page 0 of a sector opened for it (R147). -/
def Journal.givePage (j : Journal) (seq : Nat) : Placed (Journal × (Nat × Nat)) :=
  match j.active with
  | none => j.openSector seq
  | some a => if j.page ≤ 15 then .done ({ j with page := j.page + 1 }, (a, j.page)) else j.openSector seq

/-- Closes the Filling buffer, if there is one: it becomes Waiting (R147). -/
def Journal.closeFilling (j : Journal) : Journal :=
  match j.filling with
  | none => j
  | some b => { j with filling := none, waiting := j.waiting ++ [b] }

/-- Puts a record at the end of a buffer, closing it when fewer than 12 bytes are left in its page (R147). -/
def Journal.putRec (j : Journal) (b : PageBuf) (r : Rec) : Journal :=
  let b1 := { b with recs := b.recs ++ [r] }
  let j1 :=
    match b.target with
    | none => j
    | some (n, _) => j.setSector n { j.sector n with stop := r.seq + 1 }
  if b1.free < 12 then { j1 with filling := none, waiting := j1.waiting ++ [b1], fillMs := 0 }
  else { j1 with filling := some b1, fillMs := 0 }

/-- Places a record in a new page. It waits while no buffer is Free, and behind a retained buffer that has no page yet
(R149, R160). -/
def Journal.placeNew (j : Journal) (r : Rec) : Placed Journal :=
  if j.freeBuffers = 0 ∨ j.waiting.any (fun b => b.target.isNone) then .wait
  else
    match j.closeFilling.givePage r.seq with
    | .wait => .wait
    | .full => .full
    | .done (j1, t) => .done (j1.putRec { target := some t, recs := [] } r)

/-- Places one record (R147). -/
def Journal.placeOne (j : Journal) (r : Rec) : Placed Journal :=
  match j.filling with
  | none => j.placeNew r
  | some b => if r.body.size ≤ b.free then .done (j.putRec b r) else j.placeNew r

/-- Places records in the order offered. -/
def Journal.placeAll (j : Journal) : List Rec → Placed Journal
  | [] => .done j
  | r :: rs =>
    match j.placeOne r with
    | .wait => .wait
    | .full => .full
    | .done j1 => j1.placeAll rs

/-- The records drafts become: consecutive sequence numbers from `seq`, and the clock's time where the asking rule gives
none (R144, R146). -/
def numberDrafts (now : Time) : Nat → List Draft → List Rec
  | _, [] => []
  | seq, d :: ds =>
    { seq := seq, source := d.source, time := d.time.getD now, flags := d.flags, body := d.body }
      :: numberDrafts now (seq + 1) ds

/-- Whether a source is a desk's, whose records may not use the reserve (R150). -/
def Source.isDesk : Source → Bool
  | .desk _ => true
  | _ => false

/-- One acceptance: the records wait until their pages have buffers, then meet the space test, and are then accepted
whole or not at all (R146, R147, R150, R152). -/
def Journal.accept (j : Journal) (now : Time) (ds : List Draft) : Placed Journal :=
  match j.placeAll (numberDrafts now j.next ds) with
  | .wait => .wait
  | .full => .full
  | .done j1 =>
    if 4294967295 < j.next + ds.length then .full
    else if ds.any (fun d => d.source.isDesk) ∧ j1.erasedCount = 0 then .full
    else .done { j1 with next := j.next + ds.length }

/-- The ACK record owed, carrying U as it stands (R154). -/
def Journal.ackDraft (j : Journal) : Draft := { source := .uplink, time := none, flags := { }, body := .ack j.u }

/-- Offers the owed ACK, if one is owed: placed, still owed when the space test fails, or made to wait (R154). -/
def Journal.offerOwed (j : Journal) (now : Time) : Placed Journal :=
  if j.owedAck then
    match j.accept now [j.ackDraft] with
    | .wait => .wait
    | .full => .done j
    | .done j1 => .done { j1 with owedAck := false }
  else .done j

/-- The internal-drop count after one more drop; at 255 it stays (R151). -/
def Journal.dropOne (j : Journal) : Journal := { j with drops := min (j.drops + 1) 255 }

/-- Makes Reclaimable every Sealed sector whose last record lies below U (R154). -/
def Journal.reclaim (j : Journal) : Journal :=
  { j with sectors := j.sectors.map (fun x => if x.st = .sealed ∧ x.stop ≤ j.u then { x with st := .reclaimable } else x) }

/-- The bytes of a buffer's page: for page 0 the sector header, then the records (R141, R148). -/
def Journal.bufferBytes (j : Journal) (b : PageBuf) (sector page : Nat) : List Byte :=
  let x := j.sector sector
  pageBytes ((if page = 0 then sectorHeader x.lap x.first sector else []) ++ b.recs.flatMap Rec.bytes)

/-- One past the last record of a buffer; `n` for a buffer without records. -/
def lastStop (n : Nat) (rs : List Rec) : Nat :=
  match rs.getLast? with
  | none => n
  | some r => r.seq + 1

/-- The completion of a page program: the page holds the buffer's bytes, the programmed tail advances and the buffer is
Free (R148). -/
def Journal.finishProgram (j : Journal) (b : PageBuf) : Journal :=
  match b.target with
  | none => j
  | some (n, p) =>
    { j with
      array := Memory.writeAll j.array (pageAddr n p) (j.bufferBytes b n p)
      tail := lastStop j.tail b.recs
      programming := none }

/-- The numbers of the sectors in ring order, from the one after the Active sector (R141, R142). -/
def Journal.ring (j : Journal) : List Nat :=
  let from0 := match j.active with | none => 0 | some a => a + 1
  (List.range 128).map (fun i => (from0 + i) % 128)

/-- Whether the records of a sector in this state are still served (R157): neither Erased nor Erasing. -/
def SectorState.isLive : SectorState → Bool
  | .active => true
  | .sealed => true
  | .reclaimable => true
  | .erased => false
  | .erasing => false

/-- Head: the first sequence of the oldest sector that is neither Erased nor Erasing (R143). -/
def Journal.oldestFirst (j : Journal) : Nat :=
  match j.ring.find? (fun n => (j.sector n).st.isLive) with
  | none => j.head
  | some n => (j.sector n).first

/-- The sectors that wait to be erased, oldest first: those a scan left Erasing, from the sector R158 names (R155, R158). -/
def Journal.queuedErase (j : Journal) : Option Nat :=
  ((List.range 128).map (fun i => (j.eraseFrom + i) % 128)).find? (fun n => (j.sector n).st == .erasing)

/-- The sector the erase engine takes next: a sector left Erasing before any Reclaimable one (R155, R158). -/
def Journal.eraseCandidate (j : Journal) : Option Nat :=
  match j.queuedErase with
  | some n => some n
  | none => j.ring.find? (fun n => (j.sector n).st == .reclaimable)

/-- A Waiting buffer that has its page stands ready to be programmed. One that still waits for a sector does not hold
back the erase it waits for (R156, R160). -/
def Journal.programReady (j : Journal) : Bool :=
  match j.waiting with
  | [] => false
  | b :: _ => b.target.isSome

/-- The erase engine takes a sector: it is Erasing with its suspension count at 0, and head advances (R155). -/
def Journal.startErase (j : Journal) (n : Nat) : Journal :=
  let j1 := j.setSector n { j.sector n with st := .erasing }
  { j1 with erase := some { sector := n, suspended := false, count := 0 }, head := max j1.head j1.oldestFirst }

/-! ### Pages for retained buffers (R160) -/

/-- The longest opening part of a record list that fits in `room` bytes, and the rest. -/
def splitFit : Nat → List Rec → List Rec × List Rec
  | _, [] => ([], [])
  | room, r :: rs =>
    if r.body.size ≤ room then
      let (a, b) := splitFit (room - r.body.size) rs
      (r :: a, b)
    else ([], r :: rs)

/-- Gives pages to the Waiting buffers that have none, in their order, stopping at the first for which no sector can be
opened (R160). A buffer whose records pass the room of a page 0 takes the page after it too (log entry 10). -/
def Journal.retarget : Nat → Journal → List PageBuf → List PageBuf → Journal
  | 0, j, done, todo => { j with waiting := done ++ todo }
  | _ + 1, j, done, [] => { j with waiting := done }
  | n + 1, j, done, b :: bs =>
    match b.target, b.recs with
    | some _, _ => Journal.retarget n j (done ++ [b]) bs
    | none, [] => Journal.retarget n j done bs
    | none, r :: rs =>
      match j.givePage r.seq with
      | .done (j1, (s, p)) =>
        let (fits, rest) := splitFit (pageRoom p) (r :: rs)
        let j2 := j1.setSector s { j1.sector s with stop := lastStop r.seq fits }
        Journal.retarget n j2 (done ++ [{ target := some (s, p), recs := fits }])
          (if rest = [] then bs else { target := none, recs := rest } :: bs)
      | _ => { j with waiting := done ++ b :: bs }

/-- Gives pages to the Waiting buffers that have none. -/
def Journal.retargetWaiting (j : Journal) : Journal := Journal.retarget 6 j [] j.waiting

/-! ### Reading (R157, R164) -/

/-- The records the journal serves, in sequence order: from head up to the programmed tail, in sectors that are neither
Erased nor Erasing, void pages left out (R157). -/
def Journal.served (j : Journal) : List Found :=
  ((j.ring.filter (fun n => (j.sector n).st.isLive)).flatMap (sectorRecords j.array)).filter
    (fun r => decide (j.head ≤ r.seq) && decide (r.seq < j.tail))

/-- The longest run of consecutive sequences from `seq`, at most `n` records (R164 step 3). -/
def runFrom : Nat → Nat → List Found → List Found
  | 0, _, _ => []
  | _ + 1, _, [] => []
  | n + 1, seq, r :: rs => if r.seq = seq then r :: runFrom n (seq + 1) rs else []

/-- The count of a ReadJournal: 0 taken as 1, above 16 taken as 16 (R164 step 2). -/
def windowCount (c : Nat) : Nat := if c = 0 then 1 else min c 16

/-- The answer to a ReadJournal of start `s` and count `c` (R164, R165). -/
def Journal.readWindow (j : Journal) (s c : Nat) : ReadReport :=
  match j.served.dropWhile (fun r => decide (r.seq < s)) with
  | [] => { first := s, startedLater := decide (s < j.tail), head := j.head, tail := j.tail, records := [] }
  | r :: rs =>
    { first := r.seq, startedLater := decide (s < r.seq), head := j.head, tail := j.tail,
      records := (runFrom (windowCount c) r.seq (r :: rs)).map (fun r => r.bytes) }

end Sys2Proof.Machine
end

