-- ==== Sys2Proof/Machine/Flags.lean ====
section
/-! DEFINITION. What the part derives from its state: attention lines, tone level, the flags of a record. -/

namespace Sys2Proof.Machine

/-- A desk's attention line (R37, R193): low without power and during start-up. -/
def State.deskAttention (s : State) (d : Desk) : Bool :=
  decide (s.power = .running) &&
    (decide ((s.eng d).results ≠ []) ||
      (match (s.eng d).ctx with
       | .awaitOverride _ => true
       | .slipWait _ _ => true
       | _ => false))

/-- The uplink attention line (R176, R193): low without power, and during start-up but in the time R160 names, in which the
low condition calls the uplink: while a retained buffer waits for a sector with none Erased. That R160 is the exception
there to R192, R193 and 12.7, which have the lines deasserted in start-up, is the model's reading (log entry 31). -/
def State.uplinkAttention (s : State) : Bool :=
  match s.power with
  | .off => false
  | .starting _ => s.journal.low && s.journal.wantsSector
  | .running => s.journal.low || s.exch.tablesLost || !s.clock.valid

/-- The tone line of a desk's wand is high during a pulse (R4, 12.7). -/
def State.toneHigh (s : State) (d : Desk) : Bool :=
  decide (s.power = .running) &&
    (match (s.wand d).tone with
     | some t => t.inPulse
     | none => false)

/-- The flags of a loan's records: foreign and unit Minute as the loan has them (R144). -/
def loanFlags (foreign : Bool) (unit : LoanUnit) : RecFlags :=
  { foreign := foreign, minute := decide (unit = .minute) }

end Sys2Proof.Machine
end

