-- ==== Sys2Proof/Machine/Plans.lean ====
section
/-! DEFINITION. What the transactions of desk engines and desk ports come to: their checks in order, the records they need
and the tables they leave (chapters 3, 4 and 5). -/

namespace Sys2Proof.Machine

/-! ### Reading the collections -/

/-- The loan of an item, with its slot (R40). -/
def Circ.loanOf (c : Circ) (item : Ident) : Option (Nat × Loan) := c.loans.find? (fun e => decide (e.2.item = item))

/-- The hold of an item, with its place (R83). -/
def Circ.holdOf (c : Circ) (item : Ident) : Option (Nat × Hold) := c.holds.find? (fun e => decide (e.2.item = item))

/-- A borrower's record (R64). -/
def Circ.borrower (c : Circ) (id : Ident) : Option Borrower := Table.get c.borrowers id.key

def Circ.setBorrower (c : Circ) (id : Ident) (b : Borrower) : Circ :=
  { c with borrowers := Table.put c.borrowers id.key b }

/-- The category of a borrower: the record's when there is one, else the one carried (R43). -/
def Circ.categoryOf (c : Circ) (id : Ident) (carried : Nat) : Nat :=
  match c.borrower id with
  | some b => b.category
  | none => carried

/-- The card expiry a borrower's record holds, if any (R110). -/
def Circ.expiryOf (c : Circ) (id : Ident) : Option Nat := (c.borrower id).bind Borrower.expiry

/-- A record as it begins (R65). -/
def Borrower.fresh (category : Nat) : Borrower :=
  { category := category, expiry := none, owed := 0, clamped := false, loans := 0, overdue := 0, localBlock := none,
    central := none }

/-- The derived reasons that hold today (R71). -/
def derivedReasons (c : Settings) (today : Nat) (b : Borrower) : List Reason :=
  let threshold := (c.category b.category).threshold
  (if threshold ≠ 0 ∧ threshold ≤ b.owed then [Reason.fines] else [])
    ++ (if 0 < b.overdue then [Reason.overdue] else [])
    ++ (match b.expiry with
        | some x => if x < today then [Reason.expired] else []
        | none => [])

/-- The reasons list of a record, in its fixed order (R72). -/
def reasonsOf (c : Settings) (today : Nat) (b : Borrower) : List Reason :=
  (match b.localBlock with | some l => [Reason.localBlock l.code] | none => [])
    ++ (match b.central with | some x => [Reason.central x.code] | none => [])
    ++ derivedReasons c today b

/-- A record with no loans, nothing owed and no stored reason (R66). -/
def Borrower.isEmpty (b : Borrower) : Bool :=
  decide (b.loans = 0) && decide (b.owed = 0) && b.localBlock.isNone && b.central.isNone

/-- The record of a borrower is removed if it is left empty (R66). -/
def Circ.dropEmpty (c : Circ) (id : Ident) : Circ :=
  match c.borrower id with
  | some b => if b.isEmpty then { c with borrowers := Table.del c.borrowers id.key } else c
  | none => c

/-- A fine joins the owed amount, within its limit and with the clamped mark (R74). -/
def Borrower.charge (b : Borrower) (fine : Nat) : Borrower :=
  { b with owed := min (b.owed + fine) 1000000, clamped := b.clamped || decide (1000000 < b.owed + fine) }

/-- A loan leaves its borrower's counts, and its fine joins the owed amount (R52, R68). -/
def Borrower.discharged (b : Borrower) (loan : Loan) (fine : Nat) : Borrower :=
  Borrower.charge { b with loans := b.loans - 1, overdue := b.overdue - (if loan.overdue then 1 else 0) } fine

/-- A loan is removed from its slot and its borrower's record follows it; a record left empty goes (R52, R66, R68). -/
def Circ.discharge (c : Circ) (slot : Nat) (loan : Loan) (fine : Nat) : Circ :=
  let c1 := { c with loans := Table.del c.loans slot }
  match c.borrower loan.borrower with
  | none => c1
  | some b => (c1.setBorrower loan.borrower (b.discharged loan fine)).dropEmpty loan.borrower

/-- A Waiting hold becomes Trapped with its deadline, its stale mark clear (R84). -/
def Hold.trap (h : Hold) (deadline : Nat) : Hold :=
  { h with state := .trapped, deadline := some deadline, stale := false }

/-- A hold an override lends past: a Trapped one returns to Waiting without its deadline (R86). -/
def Hold.lentPast (h : Hold) : Hold :=
  match h.state with
  | .trapped => { h with state := .waiting, deadline := none, stale := false }
  | .waiting => h

/-! ### Plans -/

/-- What goes back to the claimant: an outcome for the engine, a borrower check, a response, or a payment taken. -/
inductive Reply where
  | scan (f : Fields)
  | check (r : CheckReply)
  | port (code : RespCode) (ans : Answer)
  | paid (taken owedAfter : Nat)
  deriving DecidableEq, Repr

/-- A transaction after its checks: the records it needs, the tables it leaves once they are accepted, what is answered
then, and what is answered when the journal refuses (R42). Without records nothing is asked of the journal. -/
structure Plan where
  recs : List Draft
  circ : Circ
  reply : Reply
  refused : Reply
  deriving DecidableEq, Repr

/-- A transaction that changes nothing and makes no record. -/
def Plan.answer (c : Circ) (r : Reply) : Plan := { recs := [], circ := c, reply := r, refused := r }

/-- An outcome with no fields. -/
def verdictReply (v : Verdict) : Reply := .scan { verdict := v }

/-- The three collections with the settings, day and generation a transaction computes with (R94, R138). -/
structure Desktop where
  circ : Circ
  settings : Settings
  today : Nat
  gen : Nat
  deriving DecidableEq, Repr

/-! ### Issue and the override transactions (R44 to R50) -/

/-- The stop an Issue passes: none, or the one an override names. -/
inductive Pass where
  | none
  | loan (other : Ident)
  | hold (holder : Ident)
  deriving DecidableEq, Repr

/-- Check 2 of R44: the reasons list of a record that carries CENTRAL. -/
def Desktop.centralOf (w : Desktop) (id : Ident) : Option (List Reason) :=
  match w.circ.borrower id with
  | none => none
  | some b => if b.central.isSome then some (reasonsOf w.settings w.today b) else none

/-- Checks 1 to 5 of R44, with the stop `pass` let through (R47, R49): the outcome of the first that fails. -/
def Desktop.stops (w : Desktop) (q : LoanReq) (pass : Pass) : Option Fields :=
  let holdStop : Option Fields :=
    match w.circ.holdOf q.item with
    | none => none
    | some (_, h) =>
      if h.holder = q.borrower ∨ pass = .hold h.holder then none
      else some { verdict := .heldForOther, holder := some h.holder }
  if w.settings.isForeign q.item.lib then some { verdict := .foreignLabel }
  else
    match w.centralOf q.borrower with
    | some rs => some { verdict := .centralBlock, reasons := some rs }
    | none =>
      match w.circ.loanOf q.item with
      | none => holdStop
      | some (_, loan) =>
        if loan.borrower = q.borrower then some { verdict := .alreadyIssued, due := some loan.due }
        else if pass = .loan loan.borrower then holdStop
        else some { verdict := .onLoanElsewhere, other := some loan.borrower }

/-- The loan count of a borrower, 0 without a record (R45 check 6). -/
def Circ.loanCount (c : Circ) (id : Ident) : Nat :=
  match c.borrower id with
  | some b => b.loans
  | none => 0

/-- Checks 6 and 7 of R45, on tables in which `freed` slots are about to be freed (R47). -/
def Desktop.limits (w : Desktop) (q : LoanReq) (freed : Nat) : Option Fields :=
  if (w.settings.category (w.circ.categoryOf q.borrower q.category)).limit ≤ w.circ.loanCount q.borrower then
    some { verdict := .limitReached }
  else if 4096 + freed ≤ w.circ.loans.length
      ∨ ((w.circ.borrower q.borrower).isNone ∧ 1024 ≤ w.circ.borrowers.length) then
    some { verdict := .tableFull }
  else none

/-- The loan an Issue inserts (R39, R46). -/
def Desktop.newLoan (w : Desktop) (src : Desk) (q : LoanReq) (mark : Bool) : Loan :=
  let rule := w.settings.rule q.cls (w.circ.categoryOf q.borrower q.category)
  { item := q.item, cls := q.cls, borrower := q.borrower, unit := rule.unit, issued := q.time,
    due := dueFor w.settings rule q.time (w.circ.expiryOf q.borrower), renewals := 0, source := src, gen := w.gen,
    overdue := false, overrideUsed := mark, foreign := w.settings.isConsortium q.item.lib }

/-- The record of a loan's issue (R46 step 5). -/
def issueDraft (src : Desk) (q : LoanReq) (loan : Loan) : Draft :=
  { source := .desk src, time := some q.time,
    flags := { loanFlags loan.foreign loan.unit with overrideUsed := loan.overrideUsed },
    body := .issue q.item q.borrower loan.due }

/-- The hold of the item this borrower holds, which the Issue picks up (R85). -/
def Circ.ownHold (c : Circ) (q : LoanReq) : Option (Nat × Hold) :=
  match c.holdOf q.item with
  | some (place, h) => if h.holder = q.borrower then some (place, h) else none
  | none => none

/-- Steps 1 to 4 of R46, an overridden hold of another returning to Waiting (R49, R86). -/
def Circ.issue (c : Circ) (q : LoanReq) (loan : Loan) : Circ :=
  let holds :=
    match c.holdOf q.item with
    | none => c.holds
    | some (place, h) => if h.holder = q.borrower then Table.del c.holds place else Table.put c.holds place h.lentPast
  let b := (c.borrower q.borrower).getD (Borrower.fresh q.category)
  { loans := Table.put c.loans (Table.lowestFree c.loans) loan
    borrowers := Table.put c.borrowers q.borrower.key { b with loans := b.loans + 1 }
    holds := holds }

/-- The fine of a loan returned at `back`, under the rule now matched (R52, R96, R121). -/
def Desktop.fine (w : Desktop) (loan : Loan) (back : Time) : Nat :=
  fineFor w.settings (w.settings.rule loan.cls (w.circ.categoryOf loan.borrower 0)) loan.unit loan.due back

/-- The record of a loan's discharge (R52). -/
def dischargeDraft (src : Desk) (time : Time) (loan : Loan) (fine : Nat) (backdate : Option Nat) (overridden : Bool) : Draft :=
  { source := .desk src, time := some time,
    flags := { loanFlags loan.foreign loan.unit with overrideUsed := overridden, backdated := backdate.isSome },
    body := .discharge loan.item loan.borrower fine backdate }

/-- The record of a hold picked up, where the borrower holds one (R46 step 1, R85). -/
def Circ.pickupDrafts (c : Circ) (src : Desk) (q : LoanReq) : List Draft :=
  match c.ownHold q with
  | none => []
  | some (_, h) =>
    [{ source := .desk src, time := some q.time, flags := { }, body := .holdPickup h.item h.holder }]

/-- An Issue or an override transaction (R44 to R49). `back` says that an overridden loan, if there is one, is discharged
first (R48). -/
def Desktop.planIssue (w : Desktop) (src : Desk) (q : LoanReq) (pass : Pass) : Plan :=
  match w.stops q pass with
  | some f => Plan.answer w.circ (.scan f)
  | none =>
    let previous := w.circ.loanOf q.item
    match w.limits q (if previous.isSome then 1 else 0) with
    | some f => Plan.answer w.circ (.scan f)
    | none =>
      let loan := w.newLoan src q (q.mark || decide (pass ≠ .none))
      let fine := match previous with | some (_, l) => w.fine l q.time | none => 0
      let freed := match previous with | some (slot, l) => w.circ.discharge slot l fine | none => w.circ
      let back := match previous with | some (_, l) => [dischargeDraft src q.time l fine none true] | none => []
      let other := match previous with | some (_, l) => some l.borrower | none => none
      let holder :=
        match w.circ.holdOf q.item with
        | some (_, h) => if h.holder = q.borrower then none else some h.holder
        | none => none
      { recs := back ++ w.circ.pickupDrafts src q ++ [issueDraft src q loan]
        circ := freed.issue q loan
        reply := .scan { verdict := .issued, due := some loan.due, other := other, holder := holder }
        refused := verdictReply .journalFull }

/-! ### Discharge (R51 to R53, R84) -/

/-- The hold a Discharge traps: a Waiting hold of the item (R53). -/
def Circ.waitingHold (c : Circ) (item : Ident) : Option (Nat × Hold) :=
  match c.holdOf item with
  | some (place, h) => if h.state = .waiting then some (place, h) else none
  | none => none

/-- The record of a hold trapped (R53, R84). -/
def trapDraft (src : Desk) (time : Time) (h : Hold) : Draft :=
  { source := .desk src, time := some time, flags := { }, body := .holdTrap h.item h.holder }

def Circ.trap (c : Circ) (place : Nat) (h : Hold) (deadline : Nat) : Circ :=
  { c with holds := Table.put c.holds place (h.trap deadline) }

/-- A Discharge (R51 to R53). -/
def Desktop.planDischarge (w : Desktop) (src : Desk) (item : Ident) (time : Time) (backdate : Option Nat) : Plan :=
  let deadline := pickupDeadline w.settings w.today
  match w.circ.loanOf item with
  | some (slot, loan) =>
    let (back, used) := effectiveReturn time backdate w.today
    let fine := w.fine loan back
    let c1 := w.circ.discharge slot loan fine
    let base : Fields := { verdict := .returned, fine := some fine, backdated := used.isSome }
    match w.circ.waitingHold item with
    | none =>
      { recs := [dischargeDraft src time loan fine used false], circ := c1, reply := .scan base,
        refused := verdictReply .journalFull }
    | some (place, h) =>
      { recs := [dischargeDraft src time loan fine used false, trapDraft src time h]
        circ := c1.trap place h deadline
        reply := .scan { base with holder := some h.holder, deadline := some deadline }
        refused := verdictReply .journalFull }
  | none =>
    if w.settings.isForeign item.lib then Plan.answer w.circ (verdictReply .foreignLabel)
    else
      match w.circ.waitingHold item with
      | none => Plan.answer w.circ (verdictReply .notOnLoan)
      | some (place, h) =>
        { recs := [trapDraft src time h]
          circ := w.circ.trap place h deadline
          reply := .scan { verdict := .returned, holder := some h.holder, deadline := some deadline }
          refused := verdictReply .journalFull }

/-! ### Renew (R54 to R56) -/

/-- Checks 2 to 5 of R54 for a loan. -/
def Desktop.renewStops (w : Desktop) (loan : Loan) (time : Time) : Option Fields :=
  let cat := w.circ.categoryOf loan.borrower 0
  match w.centralOf loan.borrower with
  | some rs => some { verdict := .centralBlock, reasons := some rs }
  | none =>
    if (w.settings.rule loan.cls cat).renewals ≤ loan.renewals then some { verdict := .renewLimit }
    else if (w.circ.holdOf loan.item).isSome then some { verdict := .renewHeld }
    else if loan.due.earlier time ∧ (w.settings.category cat).renewOverdue = false then some { verdict := .renewOverdue }
    else none

/-- The loan a Renew leaves (R56). -/
def Desktop.renewed (w : Desktop) (loan : Loan) (rule : Rule) (time due : Time) : Loan :=
  { loan with due := due, issued := time, unit := rule.unit, gen := w.gen, renewals := loan.renewals + 1,
              overdue := false }

/-- A Renew (R54 to R56). -/
def Desktop.planRenew (w : Desktop) (src : Desk) (item : Ident) (time : Time) : Plan :=
  match w.circ.loanOf item with
  | none =>
    Plan.answer w.circ (verdictReply (if w.settings.isForeign item.lib then .foreignLabel else .notOnLoan))
  | some (slot, loan) =>
    match w.renewStops loan time with
    | some f => Plan.answer w.circ (.scan f)
    | none =>
      let rule := w.settings.rule loan.cls (w.circ.categoryOf loan.borrower 0)
      let due := dueFor w.settings rule time (w.circ.expiryOf loan.borrower)
      if loan.due.earlier due = false then Plan.answer w.circ (verdictReply .noExtension)
      else
        let late := loan.due.earlier time
        let fine := w.fine loan time
        let charged := if late then some fine else none
        let c1 := { w.circ with loans := Table.put w.circ.loans slot (w.renewed loan rule time due) }
        let c2 :=
          match w.circ.borrower loan.borrower with
          | none => c1
          | some b =>
            c1.setBorrower loan.borrower
              (Borrower.charge { b with overdue := b.overdue - (if loan.overdue then 1 else 0) } (if late then fine else 0))
        { recs := [{ source := .desk src, time := some time, flags := loanFlags loan.foreign rule.unit,
                     body := .renew loan.item loan.borrower due charged }]
          circ := c2
          reply := .scan { verdict := .renewed, due := some due, fine := charged }
          refused := verdictReply .journalFull }

/-! ### Inquiries and the borrower check (R59, R60, R72, R73, R79) -/

/-- An item inquiry (R59). -/
def Desktop.planItemInquiry (w : Desktop) (item : Ident) : Plan :=
  let loan := w.circ.loanOf item
  let hold := w.circ.holdOf item
  if loan = none ∧ hold = none ∧ w.settings.isForeign item.lib then
    Plan.answer w.circ (verdictReply .foreignLabel)
  else
    Plan.answer w.circ (.scan
      { verdict := .info
        due := loan.map (fun e => e.2.due)
        other := loan.map (fun e => e.2.borrower)
        holder := hold.map (fun e => e.2.holder)
        deadline := hold.bind (fun e => e.2.deadline)
        holdState := hold.map (fun e => e.2.state) })

/-- The borrower check (R72). -/
def Desktop.planCheck (w : Desktop) (id : Ident) : Plan :=
  Plan.answer w.circ (.check
    (if w.settings.isForeign id.lib then .refused .foreignLabel
     else
       match w.circ.borrower id with
       | none => .reasons []
       | some b => .reasons (reasonsOf w.settings w.today b)))

/-- A borrower inquiry (R73). -/
def Desktop.planBorrowerInquiry (w : Desktop) (id : Ident) : Plan :=
  match w.circ.borrower id with
  | some b =>
    Plan.answer w.circ (.scan
      { verdict := .info
        reasons := some (reasonsOf w.settings w.today b)
        figures := some { loans := b.loans, overdue := b.overdue, owed := b.owed, clamped := b.clamped } })
  | none =>
    if w.settings.isForeign id.lib then Plan.answer w.circ (verdictReply .foreignLabel)
    else Plan.answer w.circ (.scan { verdict := .info, reasons := some [] })

/-- InquireItem (R60). -/
def Desktop.planInquireItem (w : Desktop) (item : Ident) : Plan :=
  match w.circ.loanOf item, w.circ.holdOf item with
  | none, none => Plan.answer w.circ (.port .notFound .empty)
  | loan, hold => Plan.answer w.circ (.port .ok (.item loan (hold.map (fun e => e.2))))

/-- InquireBorrower (R79). -/
def Desktop.planInquireBorrower (w : Desktop) (id : Ident) : Plan :=
  match w.circ.borrower id with
  | none => Plan.answer w.circ (.port .notFound .empty)
  | some b =>
    Plan.answer w.circ (.port .ok
      (.borrower id b (derivedReasons w.settings w.today b) (w.settings.category b.category).threshold))

/-! ### Payments and local blocks (R75 to R78) -/

/-- A record after a payment of `taken` (R76). -/
def Borrower.pay (b : Borrower) (taken : Nat) : Borrower :=
  { b with owed := b.owed - taken, clamped := b.clamped && decide (b.owed - taken ≠ 0) }

/-- A Payment at the store, taken at `now` (R75 lines 4 to 7, R76). -/
def Desktop.planPayment (w : Desktop) (src : Desk) (id : Ident) (amount : Nat) (now : Time) : Plan :=
  match w.circ.borrower id with
  | none => Plan.answer w.circ (.port .notFound .empty)
  | some b =>
    if b.owed = 0 then Plan.answer w.circ (.port .wrongState .empty)
    else
      let taken := min amount b.owed
      { recs := [{ source := .desk src, time := some now, flags := { }, body := .payment id taken (b.owed - taken) }]
        circ := (w.circ.setBorrower id (b.pay taken)).dropEmpty id
        reply := .paid taken (b.owed - taken)
        refused := .port .journalFull .empty }

/-- SetLocalBlock at the store (R77 lines 4 to 7). -/
def Desktop.planSetLocal (w : Desktop) (src : Desk) (id : Ident) (category code : Nat) : Plan :=
  let plan (b : Borrower) : Plan :=
    { recs := [{ source := .desk src, time := none, flags := { }, body := .localSet id code }]
      circ := w.circ.setBorrower id { b with localBlock := some { code := code, desk := src } }
      reply := .port .ok .empty
      refused := .port .journalFull .empty }
  match w.circ.borrower id with
  | some b => plan b
  | none =>
    if w.settings.isForeign id.lib then Plan.answer w.circ (.port .notFound .empty)
    else if 1024 ≤ w.circ.borrowers.length then Plan.answer w.circ (.port .tableFull .empty)
    else plan (Borrower.fresh category)

/-- ClearLocalBlock at the store (R78 lines 4 to 7). -/
def Desktop.planClearLocal (w : Desktop) (src : Desk) (id : Ident) : Plan :=
  match w.circ.borrower id with
  | none => Plan.answer w.circ (.port .notFound .empty)
  | some b =>
    match b.localBlock with
    | none => Plan.answer w.circ (.port .wrongState .empty)
    | some l =>
      { recs := [{ source := .desk src, time := none, flags := { }, body := .localClear id l.code }]
        circ := (w.circ.setBorrower id { b with localBlock := none }).dropEmpty id
        reply := .port .ok (.localCleared l.code l.desk)
        refused := .port .journalFull .empty }

end Sys2Proof.Machine
end

