-- ==== Sys2Proof/Machine/Passes.lean ====
section
/-! DEFINITION. What the transactions of the uplink exchange and of the rollover do to the tables (R70, R89, R102, R133 to
R136, R167 to R174). -/

namespace Sys2Proof.Machine

/-! ### Download sessions (R70, R89, R167, R170 to R173) -/

/-- Sets or clears the stale mark of a CENTRAL reason, where there is one (R70). -/
def Borrower.markStale (stale : Bool) (b : Borrower) : Borrower :=
  { b with central := b.central.map (fun x => { x with stale := stale }) }

/-- Sets or clears the stale mark of a Waiting hold; a Trapped one has none (R89). -/
def Hold.markStale (stale : Bool) (h : Hold) : Hold :=
  match h.state with
  | .waiting => { h with stale := stale }
  | .trapped => h

/-- Begin and abort: every mark of the session's kind is set, or cleared (R167, R173). -/
def Circ.markAll (c : Circ) (k : ListKind) (stale : Bool) : Circ :=
  match k with
  | .blocks => { c with borrowers := Table.mapEntries c.borrowers (Borrower.markStale stale) }
  | .holds => { c with holds := Table.mapEntries c.holds (Hold.markStale stale) }

/-- Whether a record carries a CENTRAL reason still marked stale. -/
def Borrower.isStale (b : Borrower) : Bool :=
  match b.central with
  | some x => x.stale
  | none => false

def Borrower.liftStale (b : Borrower) : Borrower := if b.isStale then { b with central := none } else b

/-- Whether End removes this hold (R172). -/
def Hold.isStale (h : Hold) : Bool := h.stale && decide (h.state = .waiting)

/-- What End leaves of the tables, and how many reasons or holds it removes (R172). -/
def Circ.endList (c : Circ) (k : ListKind) : Circ × Nat :=
  match k with
  | .blocks =>
    let kept := c.borrowers.filter (fun e => !(e.2.isStale && e.2.liftStale.isEmpty))
    ({ c with borrowers := Table.mapEntries kept Borrower.liftStale }, (c.borrowers.filter (fun e => e.2.isStale)).length)
  | .holds => ({ c with holds := c.holds.filter (fun e => !e.2.isStale) }, (c.holds.filter (fun e => e.2.isStale)).length)

/-- A block entry; the Bool says whether it counts as stored (R67, R170). -/
def Circ.blockEntry (c : Circ) (e : BlockEntry) : Circ × Bool :=
  let write (b : Borrower) : Circ :=
    c.setBorrower e.borrower
      { b with category := e.category, expiry := e.expiry, central := some { code := e.code, stale := false } }
  match c.borrower e.borrower with
  | some b => (write b, true)
  | none => if c.borrowers.length < 1024 then (write (Borrower.fresh e.category), true) else (c, false)

/-- A hold entry; the Bool says whether it counts as stored (R89, R171). -/
def Circ.holdEntry (c : Circ) (item holder : Ident) : Circ × Bool :=
  match c.holdOf item with
  | none =>
    let h : Hold := { item := item, holder := holder, state := .waiting, deadline := none, stale := false }
    if c.holds.length < 512 then ({ c with holds := Table.put c.holds (Table.lowestFree c.holds) h }, true)
    else (c, false)
  | some (place, h) =>
    match h.state with
    | .waiting => ({ c with holds := Table.put c.holds place { h with holder := holder, stale := false } }, true)
    | .trapped => (c, decide (h.holder = holder))

/-- The session's counts with one more entry counted (R169). -/
def Exchange.count (x : Exchange) (stored : Bool) : Exchange :=
  if stored then { x with stored := min (x.stored + 1) 65535 } else { x with notStored := min (x.notStored + 1) 65535 }

/-- The DOWNLOAD record of an End or an abort of a session of kind `k` (R174). -/
def Exchange.draft (x : Exchange) (k : ListKind) (removed : Nat) (aborted : Bool) : Draft :=
  { source := .uplink, time := none, flags := { aborted := aborted },
    body := .download k x.stored x.notStored (atMost 65535 removed) }

/-! ### Rollover (R88, R133 to R136) -/

/-- The hold a visit to a place expires: a Trapped one whose deadline is earlier than today (R88). -/
def Circ.expiredHold (c : Circ) (place today : Nat) : Option Hold :=
  match Table.get c.holds place with
  | some h =>
    match h.state, h.deadline with
    | .trapped, some d => if d < today then some h else none
    | _, _ => none
  | none => none

/-- The due move of a loan: the new due, if it moves (R135). -/
def Settings.movedDue (c : Settings) (today : Nat) (l : Loan) : Option Time :=
  if l.unit = .day ∧ today ≤ l.due.day ∧ c.isOpen l.due.day = false then
    (c.openSearch l.due.day).map (fun n => { day := n, minute := c.closeMinute n })
  else none

/-- Whether the overdue flag is to be set (R136). -/
def Settings.wantsFlag (c : Settings) (today category : Nat) (dueDay : Nat) : Bool :=
  let n := (c.category category).blockDays
  decide (n ≠ 0) && decide (addDays dueDay n < today)

/-- A sweep visit: the tables, and what it adds to the moved, set and cleared counts (R134). -/
def Circ.visit (c : Circ) (settings : Settings) (today gen slot : Nat) : Circ × (Nat × Nat × Nat) :=
  match Table.get c.loans slot with
  | none => (c, (0, 0, 0))
  | some l =>
    if l.gen = gen then (c, (0, 0, 0))
    else
      let moved := settings.movedDue today l
      let due := moved.getD l.due
      let want := settings.wantsFlag today (c.categoryOf l.borrower 0) due.day
      let c1 := { c with loans := Table.put c.loans slot { l with due := due, overdue := want, gen := gen } }
      let c2 :=
        match c.borrower l.borrower with
        | none => c1
        | some b =>
          if want = l.overdue then c1
          else if want then c1.setBorrower l.borrower { b with overdue := b.overdue + 1 }
          else c1.setBorrower l.borrower { b with overdue := b.overdue - 1 }
      (c2, (if moved.isSome then 1 else 0, if want && !l.overdue then 1 else 0, if !want && l.overdue then 1 else 0))

end Sys2Proof.Machine
end

