-- ==== Sys2Proof/Machine/Complete.lean ====
section
/-! DEFINITION. How the circulation store takes a transaction and finishes it, and how the journal carries acceptances to
their end (R41, R42, R146, R149, R154). -/

namespace Sys2Proof.Machine

/-! ### Answers back to the claimant -/

/-- The desk a claimant belongs to; a claimant of neither desk has no desk-sourced transaction. -/
def Claimant.desk : Claimant → Desk
  | .engine d => d
  | .port d => d
  | .uplink => .a
  | .rollover => .a

/-- The port a claimant answers on. -/
def Claimant.answerPort : Claimant → Port
  | .engine d => .desk d
  | .port d => .desk d
  | .uplink => .uplink
  | .rollover => .uplink

/-- Whether a transaction is an Issue or an override, whose outcome R23 or R28 acts on. -/
def Txn.isIssue : Txn → Bool
  | .issue _ => true
  | .overrideLoan _ _ => true
  | .overrideHold _ _ => true
  | _ => false

/-- A receipt is offered to the slip queue: it joins, or is discarded with nothing waiting (R76, R180). -/
def State.offerReceipt (s : State) (d : Desk) (taken owedAfter : Nat) : State × Bool :=
  if s.printer.hasRoom then ({ s with printer := s.printer.join (.receipt d taken owedAfter) }, false) else (s, true)

/-- The outcome of a desk's transaction goes back to its engine or its port. After a restart it is discarded (R38, R62,
R191). -/
def State.deliver (s : State) (h : Held) (r : Reply) : State :=
  if h.silent then s
  else
    match r with
    | .scan f => s.engineScan h.claimant.desk h.txn.isIssue f
    | .check c => s.engineCheck h.claimant.desk c
    | .port code ans => s.respond h.claimant.answerPort code ans
    | .paid taken owedAfter =>
      let (s1, dropped) := s.offerReceipt h.claimant.desk taken owedAfter
      s1.respond h.claimant.answerPort .ok (.payment taken owedAfter dropped)

/-- The answer to a download request, after which the gap timer starts (R167, R168). -/
def State.answerDownload (s : State) (h : Held) (ans : Answer) : State :=
  if h.silent then s else s.respondWith .uplink .ok ans true false

/-- The answer to an End or an Abort (R172, R173). -/
def State.answerUplink (s : State) (h : Held) (ans : Answer) : State :=
  if h.silent then s else s.respond .uplink .ok ans

/-! ### Identify (R163) -/

def countHolds (hs : Table Hold) (st : HoldState) : Nat := (hs.filter (fun e => decide (e.2.state = st))).length

def State.identifyReport (s : State) : IdentifyReport :=
  { home := s.settings.config.home, opState := s.opState, clock := s.clock, gen := s.roll.gen, phase := s.roll.phase,
    pending := s.roll.pending, head := s.journal.head, u := s.journal.u, tail := s.journal.tail, next := s.journal.next,
    erased := s.journal.erasedCount, owedAck := s.journal.owedAck, drops := s.journal.drops,
    loans := s.circ.loans.length, borrowers := s.circ.borrowers.length,
    holdsWaiting := countHolds s.circ.holds .waiting, holdsTrapped := countHolds s.circ.holds .trapped,
    edits := s.settings.edits.length, session := s.exch.session, stored := s.exch.stored,
    notStored := s.exch.notStored, gapLeft := secondsLeft 30 s.exch.gapMs, tablesLost := s.exch.tablesLost, low := s.journal.low }

/-! ### A transaction's records and effect -/

/-- The tables, settings, day and generation a transaction computes with (R94, R138). -/
def State.desktop (s : State) (h : Held) : Desktop :=
  { circ := s.circ, settings := s.settings, today := h.now.day, gen := s.roll.gen }

/-- The plan of a transaction of a desk engine or of a port's inquiry; the others have none. -/
def State.planOf (s : State) (h : Held) : Option Plan :=
  let w := s.desktop h
  let src := h.claimant.desk
  match h.txn with
  | .issue q => some (w.planIssue src q .none)
  | .overrideLoan q other => some (w.planIssue src q (.loan other))
  | .overrideHold q holder => some (w.planIssue src q (.hold holder))
  | .discharge item time backdate => some (w.planDischarge src item time backdate)
  | .renew item time => some (w.planRenew src item time)
  | .itemInquiry item => some (w.planItemInquiry item)
  | .borrowerCheck id => some (w.planCheck id)
  | .borrowerInquiry id => some (w.planBorrowerInquiry id)
  | .inquireItem item => some (w.planInquireItem item)
  | .inquireBorrower id => some (w.planInquireBorrower id)
  | .identify => some (Plan.answer s.circ (.port .ok (.identify s.identifyReport)))
  | .payment id amount => some (w.planPayment src id amount h.now)
  | .setLocal id category code => some (w.planSetLocal src id category code)
  | .clearLocal id => some (w.planClearLocal src id)
  | .markStale _ => none
  | .blockEntry _ => none
  | .holdEntry _ _ => none
  | .downloadEnd => none
  | .downloadAbort _ => none
  | .application => none
  | .holdVisit _ => none
  | .sweepVisit _ => none

/-- The records of a transaction of the exchange or of the rollover (R88, R106, R174). -/
def State.unitRecords (s : State) (h : Held) : List Draft :=
  match h.txn with
  | .downloadEnd =>
    match s.exch.session with
    | some k => [s.exch.draft k (s.circ.endList k).2 false]
    | none => []
  | .downloadAbort _ =>
    match s.exch.session with
    | some k => [s.exch.draft k 0 true]
    | none => []
  | .application =>
    let used := (s.settings.applyAll h.now.day s.roll.taken).2
    if s.roll.taken = [] then []
    else [{ source := .unit, time := none, flags := { }, body := .edits used (s.roll.taken.length - used) }]
  | .holdVisit place =>
    match s.circ.expiredHold place h.now.day with
    | some x => [{ source := .unit, time := none, flags := { }, body := .holdExpire x.item x.holder }]
    | none => []
  | _ => []

/-- The records a taken transaction asks the journal for (R42). -/
def State.txnRecords (s : State) (h : Held) : List Draft :=
  match s.planOf h with
  | some p => p.recs
  | none => s.unitRecords h

/-- The session's counts after one more entry (R169). -/
def State.countEntry (s : State) (h : Held) (circ : Circ) (stored : Bool) : State :=
  match s.exch.session with
  | some _ =>
    let x := s.exch.count stored
    State.answerDownload { s with circ := circ, exch := x } h (.counts x.stored x.notStored)
  | none => { s with circ := circ }

/-- A download session begins (R167). -/
def State.beginSession (s : State) (h : Held) (k : ListKind) : State :=
  State.answerDownload
    { s with
      circ := s.circ.markAll k true
      exch := { s.exch with session := some k, stored := 0, notStored := 0, gapMs := none } } h .empty

/-- A download session ends (R172); a block list's End clears the tables-lost mark (R175). Its counts stay to be read
(log entry 29). -/
def State.endSession (s : State) (h : Held) : State :=
  match s.exch.session with
  | some k =>
    let (circ, removed) := s.circ.endList k
    State.answerUplink
      { s with
        circ := circ
        exch := { s.exch with session := none, gapMs := none, expired := false,
                              tablesLost := s.exch.tablesLost && decide (k ≠ .blocks) } } h
      (.ended s.exch.stored s.exch.notStored removed)
  | none => s

/-- A download session is aborted (R173); its counts stay for Identify to report (R174). Only an Abort request is
answered. -/
def State.abortSession (s : State) (h : Held) (cause : AbortCause) : State :=
  match s.exch.session with
  | some k =>
    let s1 := { s with circ := s.circ.markAll k false,
                       exch := { s.exch with session := none, gapMs := none, expired := false } }
    if cause = .request then s1.answerUplink h .empty else s1
  | none => s

/-- The application step: generation, the edits it has taken, and the operating state derived anew (R102, R104, R133). -/
def State.applyEdits (s : State) (h : Held) : State :=
  State.deriveState
    { s with
      settings := (s.settings.applyAll h.now.day s.roll.taken).1
      roll := { s.roll with gen := (s.roll.gen + 1) % 256, phase := .holdPass, place := 0, taken := [] } }

/-- A hold-pass visit (R88, R133). A visit the store finishes after a restart leaves the place, which the restart set back
to 0 (R91, R139). -/
def State.visitHold (s : State) (h : Held) (place : Nat) : State :=
  let gone := s.circ.expiredHold place h.now.day
  let circ := match gone with | some _ => { s.circ with holds := Table.del s.circ.holds place } | none => s.circ
  let roll := { s.roll with expired := s.roll.expired + (if gone.isSome then 1 else 0) }
  if h.silent then { s with circ := circ, roll := roll }
  else
    { s with
      circ := circ
      roll := if place < 511 then { roll with place := place + 1 } else { roll with place := 512, phase := .sweep, cursor := 0 } }

/-- A sweep visit (R134 to R136). -/
def State.visitLoan (s : State) (h : Held) (slot : Nat) : State :=
  let (circ, (moved, set, cleared)) := s.circ.visit s.settings h.now.day s.roll.gen slot
  let roll := { s.roll with moved := s.roll.moved + moved, flagsSet := s.roll.flagsSet + set,
                            flagsCleared := s.roll.flagsCleared + cleared, cursor := slot + 1 }
  { s with circ := circ, roll := if slot < 4095 then roll else { roll with phase := .recording } }

/-- The effect of a transaction of the exchange or of the rollover. -/
def State.unitEffect (s : State) (h : Held) : State :=
  match h.txn with
  | .markStale k => s.beginSession h k
  | .blockEntry e => let (circ, stored) := s.circ.blockEntry e; s.countEntry h circ stored
  | .holdEntry item holder => let (circ, stored) := s.circ.holdEntry item holder; s.countEntry h circ stored
  | .downloadEnd => s.endSession h
  | .downloadAbort cause => s.abortSession h cause
  | .application => s.applyEdits h
  | .holdVisit place => s.visitHold h place
  | .sweepVisit slot => s.visitLoan h slot
  | _ => s

/-- A transaction is finished, its records accepted or refused (R42). A refused desk transaction changes nothing; the work
of the exchange and of the rollover is done all the same (R151). -/
def State.finishTxn (s : State) (h : Held) (accepted : Bool) : State :=
  let s1 := { s with store := { s.store with holding := none } }
  match s.planOf h with
  | some p => if accepted then State.deliver { s1 with circ := p.circ } h p.reply else s1.deliver h p.refused
  | none => s1.unitEffect h

/-! ### Acceptances (R146, R149, R151) -/

/-- A record whose work is done even when the journal drops it (R151): what follows once it is accepted or dropped, or
`none` while it waits. -/
def State.offerOne (s : State) (d : Draft) (f : State → State) : Option State :=
  match s.journal.accept s.now [d] with
  | .wait => none
  | .done j => some (f { s with journal := j })
  | .full => some (f { s with journal := s.journal.dropOne })

/-- The clock is set by an accepted SetTime, and a later day is a day change (R126, R128, R131). -/
def State.setClock (s : State) (day minute second : Nat) : State :=
  let later := decide (s.clock.day < day)
  let s1 := State.deriveState
    { s with clock := { day := day, minute := minute, second := second, ms := 0, valid := true } }
  if later then s1.dayChange else s1

/-- The printer's first Inquiry is sent (R183, R186). -/
def Printer.sendInquiry (p : Printer) : Printer :=
  { p with outstanding := some .inquiry, sending := some inquiryMessage, answerMs := none, inquiryMs := none }

/-- Start-up has finished (R191, R192 step 7): the exchange sends the abort of a retained session, the uplink port waiting
for it (R177), and the printer's first Inquiry is sent. -/
def State.finishStartup (s : State) : State :=
  let s1 := { s with power := .running, printer := s.printer.sendInquiry }
  match s.exch.session with
  | none => s1
  | some _ =>
    { s1 with
      store := { s1.store with uplink := [.downloadAbort .reset] }
      exch := { s1.exch with shut := true } }

/-- The record of a rollover (R137). -/
def Rollover.draft (r : Rollover) : Draft :=
  { source := .unit, time := none, flags := { }, body := .rollover r.gen r.moved r.flagsSet r.flagsCleared r.expired }

/-- The store's held transaction asks for its records (R42). -/
def State.acceptHeld (s : State) (h : Held) : Option State :=
  match s.journal.accept s.now (s.txnRecords h) with
  | .wait => none
  | .done j => some (State.finishTxn { s with journal := j } h true)
  | .full =>
    match s.planOf h with
    | some _ => some (s.finishTxn h false)
    | none => some (State.finishTxn { s with journal := s.journal.dropOne } h true)

/-- An acknowledgement's ACK record is placed, or held owed when the space test fails, and `f` follows (R154, R166). -/
def State.acceptAck (s : State) (f : State → State) : Option State :=
  match s.journal.accept s.now [s.journal.ackDraft] with
  | .wait => none
  | .done j => some (f { s with journal := j })
  | .full => some (f { s with journal := { s.journal with owedAck := true } })

/-- Carries one acceptance to its end; `none` while it waits. An owed ACK has been offered already (R154). -/
def State.acceptFront (s : State) : Acceptance → Option State
  | .store =>
    match s.store.holding with
    | none => some s
    | some h => s.acceptHeld h
  | .clock day minute second =>
    if day < s.clock.day then some (s.respond .uplink .timeBackward .empty)
    else
      s.offerOne
        { source := .uplink, time := none, flags := { }, body := .clock s.now { day := day, minute := minute } }
        (fun s => (s.setClock day minute second).respond .uplink .ok .empty)
  | .ack clamped own =>
    if own then s.acceptAck (fun s => s.respond .uplink .ok (.ack s.journal.u clamped))
    else some (s.respond .uplink .ok (.ack s.journal.u clamped))
  | .edits => s.offerOne { source := .uplink, time := none, flags := { }, body := .edits 1 0 } (fun s => s)
  | .rollover => s.offerOne s.roll.draft (fun s => s.endRollover)
  | .restart k =>
    s.offerOne { source := .unit, time := none, flags := { }, body := .restart k s.journal.drops } (fun s => s.finishStartup)
  | .owed => some s

/-- Carries the acceptances offered to their ends in their order, until one waits (R146, R149). An owed ACK is offered
before each (R154). -/
def State.pumpN : Nat → State → State
  | 0, s => s
  | n + 1, s =>
    match s.journal.queue with
    | [] => s
    | a :: rest =>
      match s.journal.offerOwed s.now with
      | .done j =>
        match State.acceptFront { s with journal := { j with queue := rest } } a with
        | some s1 => State.pumpN n s1
        | none => { s with journal := { j with queue := a :: rest } }
      | _ => s

/-- Carries on whatever has been offered to the journal. -/
def State.pump (s : State) : State := State.pumpN s.journal.queue.length s

/-- An acceptance is offered behind those offered before it (R146). -/
def State.offer (s : State) (a : Acceptance) : State :=
  State.pump { s with journal := { s.journal with queue := s.journal.queue ++ [a] } }

/-! ### Taking a transaction (R41, R42) -/

/-- The application step takes every pending edit with it, so that an edit posted from then on joins an empty list (R101). The
edits for which a step lost to a power loss left no room in the list come into it then (log entry 27). -/
def State.takeList (s : State) (t : Txn) : State :=
  if t = .application then
    { s with settings := { s.settings with edits := s.roll.taken }, roll := { s.roll with taken := s.settings.edits } }
  else s

/-- The store takes a claimant's transaction. One that needs no record is finished at once; one that does is held until
the journal has accepted or refused. The uplink port takes frames again once a reset's abort is taken (R177). -/
def State.storeTake (s : State) (c : Claimant) (t : Txn) : State :=
  let h : Held := { claimant := c, txn := t, now := s.now, silent := false }
  let s1 := s.clearTxn c
  let s2 :=
    State.takeList
      { s1 with
        store := { s1.store with last := c }
        exch := { s1.exch with shut := s1.exch.shut && decide (t ≠ Txn.downloadAbort .reset) } } t
  if s2.txnRecords h = [] then s2.finishTxn h true
  else State.offer { s2 with store := { s2.store with holding := some h } } .store

/-- The store takes a claimant's transaction if it is that claimant's turn and the transaction is of the kind asked. -/
def State.takeIf (s : State) (c : Claimant) (kind : Txn → Bool) : State :=
  match s.turnOf c with
  | some t => if kind t then s.storeTake c t else s
  | none => s

/-- A port's inquiry is sent to the store, which takes it at once when the turn is its own (R41). -/
def State.sendAndTake (s : State) (c : Claimant) (t : Txn) (kind : Txn → Bool) : State := (s.sendTxn c t).takeIf c kind

/-- The claimant a port's transactions come from (R41). -/
def portClaimant : Port → Claimant
  | .desk d => .port d
  | .uplink => .uplink

end Sys2Proof.Machine
end

