-- ==== Sys2Proof/Machine/Operands.lean ====
section
/-! DEFINITION. Reading request bodies in the encodings of 12.6: which lengths a request allows (R189 line 4), which ports
may send it, and the fields of each body. A reader answers the value it takes and the bytes left. -/

namespace Sys2Proof.Machine

/-! ### Permission and lengths (R189, 12.6) -/

/-- Whether a request is one of those the desk ports alone may send (12.6). -/
def ReqKind.deskOnly : ReqKind → Bool
  | .status => true
  | .readResult => true
  | .keyIn => true
  | .setMode => true
  | .close => true
  | .override => true
  | .decline => true
  | .dropSlip => true
  | .payment => true
  | .setLocalBlock => true
  | .clearLocalBlock => true
  | _ => false

/-- Whether a request is one of those the uplink port alone may send (12.6). -/
def ReqKind.uplinkOnly : ReqKind → Bool
  | .postEdit => true
  | .setTime => true
  | .refreshRules => true
  | .readJournal => true
  | .ackJournal => true
  | .beginDownload => true
  | .downloadEntry => true
  | .endDownload => true
  | .abortDownload => true
  | _ => false

/-- Whether a request is permitted from a port (R189 line 3, 12.6). -/
def ReqKind.permitted (k : ReqKind) : Port → Bool
  | .desk _ => !k.uplinkOnly
  | .uplink => !k.deskOnly

/-- Whether a request allows a body of `n` bytes (R189 line 4, 12.6). -/
def ReqKind.allows (k : ReqKind) (n : Nat) : Bool :=
  match k with
  | .keyIn => decide (1 ≤ n) && decide (n ≤ 32)
  | .setMode => [2, 4].contains n
  | .inquireItem => n == 6
  | .inquireBorrower => n == 6
  | .payment => n == 10
  | .setLocalBlock => n == 15
  | .clearLocalBlock => n == 6
  | .readSettings => [1, 2].contains n
  | .postEdit => [17, 2, 9, 3, 7, 4, 8, 10, 12, 14, 16, 18, 20, 22].contains n
  | .setTime => n == 5
  | .readJournal => n == 8
  | .ackJournal => n == 4
  | .beginDownload => n == 1
  | .downloadEntry => [9, 11, 12].contains n
  | .identify => n == 0
  | .status => n == 0
  | .readResult => n == 0
  | .close => n == 0
  | .override => n == 0
  | .decline => n == 0
  | .dropSlip => n == 0
  | .printerStatus => n == 0
  | .refreshRules => n == 0
  | .endDownload => n == 0
  | .abortDownload => n == 0
  | .restartArm => n == 0
  | .restart => n == 0

/-! ### Field readers -/

/-- A number of `n` bytes, most significant byte first. -/
def readNum (n : Nat) (bs : List Byte) : Option (Nat × List Byte) :=
  if bs.length < n then none else some (fromBE (bs.take n), bs.drop n)

def readIdent (bs : List Byte) : Option (Ident × List Byte) := do
  let (lib, bs) ← readNum 2 bs
  let (serial, bs) ← readNum 4 bs
  return ({ lib := lib, serial := serial }, bs)

/-- A mark or a yes-or-no setting: 0 or 1. -/
def readMark (bs : List Byte) : Option (Bool × List Byte) :=
  match readNum 1 bs with
  | some (0, bs) => some (false, bs)
  | some (1, bs) => some (true, bs)
  | _ => none

/-- An optional field: a presence byte, and the field when it is 1. -/
def readOpt {α : Type} (f : List Byte → Option (α × List Byte)) (bs : List Byte) : Option (Option α × List Byte) :=
  match readNum 1 bs with
  | some (0, bs) => some (none, bs)
  | some (1, bs) => (f bs).map (fun x => (some x.1, x.2))
  | _ => none

/-- `n` entries one after another. -/
def readMany {α : Type} (f : List Byte → Option (α × List Byte)) : Nat → List Byte → Option (List α × List Byte)
  | 0, bs => some ([], bs)
  | n + 1, bs => do
    let (x, bs) ← f bs
    let (xs, bs) ← readMany f n bs
    return (x :: xs, bs)

/-- Hours: an absent field means Closed. -/
def readHours (bs : List Byte) : Option (Option Hours × List Byte) :=
  readOpt (fun bs => do
    let (o, bs) ← readNum 2 bs
    let (c, bs) ← readNum 2 bs
    return ({ openMin := o, closeMin := c }, bs)) bs

/-- An item class or a category of a rule: 255 is Any. -/
def readAny (bs : List Byte) : Option (Option Nat × List Byte) :=
  (readNum 1 bs).map (fun x => (if x.1 = 255 then none else some x.1, x.2))

def LoanUnit.ofNumber : Nat → Option LoanUnit
  | 1 => some .day
  | 2 => some .minute
  | _ => none

def Policy.ofNumber : Nat → Option Policy
  | 1 => some .returns
  | 2 => some .closed
  | _ => none

def ListKind.ofNumber : Nat → Option ListKind
  | 1 => some .blocks
  | 2 => some .holds
  | _ => none

/-- A named value of one byte. -/
def readNamed {α : Type} (f : Nat → Option α) (bs : List Byte) : Option (α × List Byte) := do
  let (n, bs) ← readNum 1 bs
  let x ← f n
  return (x, bs)

/-- The value of a body that a reader uses up. -/
def whole {α : Type} (r : Option (α × List Byte)) : Option α :=
  match r with
  | some (x, []) => some x
  | _ => none

/-! ### Bodies -/

/-- A ReadSettings part with its starting index (R107). -/
inductive Part where
  | week
  | categories
  | config
  | exceptions (i : Nat)
  | rules (p : Nat)
  | pending (i : Nat)
  deriving DecidableEq, Repr

def readPart (bs : List Byte) : Option Part :=
  match readNum 1 bs with
  | some (1, []) => some .week
  | some (2, []) => some .categories
  | some (3, []) => some .config
  | some (4, bs) => (whole (readNum 1 bs)).map .exceptions
  | some (5, bs) => (whole (readNum 1 bs)).map .rules
  | some (6, bs) => (whole (readNum 1 bs)).map .pending
  | _ => none

/-- The eight fields of a rule entry (R95). -/
def readRule (bs : List Byte) : Option (Rule × List Byte) := do
  let (cls, bs) ← readAny bs
  let (cat, bs) ← readAny bs
  let (unit, bs) ← readNamed LoanUnit.ofNumber bs
  let (length, bs) ← readNum 2 bs
  let (renewals, bs) ← readNum 1 bs
  let (grace, bs) ← readNum 1 bs
  let (rate, bs) ← readNum 4 bs
  let (cap, bs) ← readNum 4 bs
  return ({ cls := cls, cat := cat, unit := unit, length := length, renewals := renewals, grace := grace, rate := rate,
            cap := cap }, bs)

/-- The four fields of a category (R97). -/
def readCategory (bs : List Byte) : Option (Category × List Byte) := do
  let (limit, bs) ← readNum 1 bs
  let (threshold, bs) ← readNum 4 bs
  let (blockDays, bs) ← readNum 1 bs
  let (renewOverdue, bs) ← readMark bs
  return ({ limit := limit, threshold := threshold, blockDays := blockDays, renewOverdue := renewOverdue }, bs)

/-- The five settings of a unit configuration (R98). -/
def readConfig (bs : List Byte) : Option (UnitConfig × List Byte) := do
  let (home, bs) ← readNum 2 bs
  let (n, bs) ← readNum 2 bs
  let (codes, bs) ← readMany (readNum 2) n bs
  let (policy, bs) ← readNamed Policy.ofNumber bs
  let (pickup, bs) ← readNum 1 bs
  let (window, bs) ← readNum 1 bs
  return ({ home := some home, consortium := codes, policy := policy, pickup := pickup, window := window }, bs)

/-- The edit of a PostEdit body: its kind and that kind's fields, ranges not yet tested (R100). -/
def readEditFields (bs : List Byte) : Option (Edit × List Byte) :=
  match readNum 1 bs with
  | some (1, bs) => do
    let (p, bs) ← readNum 1 bs
    let (r, bs) ← readRule bs
    return (.replaceRule p r, bs)
  | some (2, bs) => (readNum 1 bs).map (fun x => (.deleteRule x.1, x.2))
  | some (3, bs) => do
    let (k, bs) ← readNum 1 bs
    let (c, bs) ← readCategory bs
    return (.replaceCategory k c, bs)
  | some (4, bs) => do
    let (w, bs) ← readNum 1 bs
    let (h, bs) ← readHours bs
    return (.replaceWeekday w h, bs)
  | some (5, bs) => do
    let (d, bs) ← readNum 2 bs
    let (h, bs) ← readHours bs
    return (.addException d h, bs)
  | some (6, bs) => (readNum 2 bs).map (fun x => (.removeException x.1, x.2))
  | some (7, bs) => (readConfig bs).map (fun x => (.setConfig x.1, x.2))
  | _ => none

/-- The edit of a PostEdit body that line 1 of R100 lets pass. -/
def readEdit (bs : List Byte) : Option Edit := (whole (readEditFields bs)).filter Edit.inRange

/-- A SetMode body that line 1 of R34 lets pass. -/
def readSetMode (bs : List Byte) : Option (Mode × Option Nat) :=
  (whole (do
    let (m, bs) ← readNamed Mode.ofNumber bs
    let (b, bs) ← readOpt (readNum 2) bs
    return ((m, b), bs))).filter (fun x => x.2.isNone || decide (x.1 = .returns))

/-- An identity within its ranges (R60, R78, R79). -/
def readIdentBody (bs : List Byte) : Option Ident := (whole (readIdent bs)).filter Ident.inRange

/-- A Payment body that line 1 of R75 lets pass. -/
def readPayment (bs : List Byte) : Option (Ident × Nat) :=
  (whole (do
    let (id, bs) ← readIdent bs
    let (amount, bs) ← readNum 4 bs
    return ((id, amount), bs))).filter
    (fun x => x.1.inRange && decide (1 ≤ x.2) && decide (x.2 ≤ 1000000))

/-- A SetLocalBlock body that line 1 of R77 lets pass: a borrower label and a code. -/
def readSetLocal (bs : List Byte) : Option (Label × Nat) :=
  match labelOfBytes (bs.take 14), whole (readNum 1 (bs.drop 14)) with
  | some l, some code => if l.kind = .borrower ∧ 1 ≤ code then some (l, code) else none
  | _, _ => none

/-- A SetTime body that line 1 of R126 lets pass: day, minute and second. -/
def readSetTime (bs : List Byte) : Option (Nat × Nat × Nat) :=
  (whole (do
    let (day, bs) ← readNum 2 bs
    let (minute, bs) ← readNum 2 bs
    let (second, bs) ← readNum 1 bs
    return ((day, minute, second), bs))).filter (fun x => decide (x.2.1 ≤ 1439) && decide (x.2.2 ≤ 59))

/-- A ReadJournal body: start sequence and count (R164). -/
def readWindowBody (bs : List Byte) : Option (Nat × Nat) :=
  whole (do
    let (s, bs) ← readNum 4 bs
    let (c, bs) ← readNum 4 bs
    return ((s, c), bs))

/-- A block entry within its ranges (R169). -/
def readBlockEntry (bs : List Byte) : Option BlockEntry :=
  (whole (do
    let (id, bs) ← readIdent bs
    let (category, bs) ← readNum 1 bs
    let (expiry, bs) ← readOpt (readNum 2) bs
    let (code, bs) ← readNum 1 bs
    return ({ borrower := id, category := category, expiry := expiry, code := code }, bs))).filter
    (fun e : BlockEntry => e.borrower.inRange && decide (e.category ≤ 7) && decide (1 ≤ e.code))

/-- A hold entry within its ranges: item and holder (R169). -/
def readHoldEntry (bs : List Byte) : Option (Ident × Ident) :=
  (whole (do
    let (item, bs) ← readIdent bs
    let (holder, bs) ← readIdent bs
    return ((item, holder), bs))).filter (fun x => x.1.inRange && x.2.inRange)

/-- The transaction of a valid entry of a session of kind `k` (R169). -/
def readEntry (k : ListKind) (bs : List Byte) : Option Txn :=
  match k with
  | .blocks => (readBlockEntry bs).map .blockEntry
  | .holds => (readHoldEntry bs).map (fun x => .holdEntry x.1 x.2)

end Sys2Proof.Machine
end

