-- ==== Sys2Proof/Machine/Frames.lean ====
section
/-! DEFINITION. Responses as bytes (R188, 12.6), the frame's check (R187), and how a port takes a request (R189, R190). -/

namespace Sys2Proof.Machine

/-! ### Fields of answers (12.6) -/

def byte1 (n : Nat) : List Byte := [byteOf n]

def markBytes (b : Bool) : List Byte := [boolByte b]

/-- A reason, with its code where it has one (R31, R72). -/
def Reason.bytes : Reason → List Byte
  | .localBlock code => [1#8, byteOf code]
  | .central code => [2#8, byteOf code]
  | .fines => [3#8]
  | .overdue => [4#8]
  | .expired => [5#8]

/-- The borrower figures in R31's order. -/
def Figures.bytes (f : Figures) : List Byte := be2 f.loans ++ be2 f.overdue ++ be4 f.owed ++ markBytes f.clamped

/-- A result record: label, outcome, and the optional fields in R31's order. -/
def ResultRec.bytes (r : ResultRec) : List Byte :=
  let f := r.fields
  digitBytes r.label ++ byte1 f.verdict.number ++ optBytes timeBytes f.due ++ optBytes be4 f.fine
    ++ optBytes (listBytes Reason.bytes) f.reasons ++ optBytes identBytes f.other ++ optBytes identBytes f.holder
    ++ optBytes be2 f.deadline ++ optBytes (fun h : HoldState => byte1 h.number) f.holdState
    ++ optBytes Figures.bytes f.figures ++ optBytes markBytes (if f.backdated then some true else none)

/-- The stop outcome's number (12.6). -/
def Stop.number : Stop → Nat
  | .blocked _ => Verdict.number .borrowerBlocked
  | .onLoan _ => Verdict.number .onLoanElsewhere
  | .held _ => Verdict.number .heldForOther

/-- The stop's fields (R26). -/
def Stop.bytes : Stop → List Byte
  | .blocked rs => listBytes Reason.bytes rs
  | .onLoan other => identBytes other
  | .held holder => identBytes holder

/-- The context state's number (12.6). -/
def CtxReport.number : CtxReport → Nat
  | .idle => 1
  | .session .. => 2
  | .awaitOverride .. => 3
  | .slipWait .. => 4

/-- What Status says of the context state (R33). The fields a state has stand in its own body alone, with no presence byte
(log entry 16). -/
def CtxReport.bytes : CtxReport → List Byte
  | .idle => []
  | .session label mark issued left => digitBytes label ++ markBytes mark ++ be2 issued ++ byte1 left
  | .awaitOverride label stop behind left =>
    digitBytes label ++ byte1 stop.number ++ stop.bytes ++ markBytes behind ++ byte1 left
  | .slipWait kind f => byte1 kind.number ++ byte1 f.number

/-- A Status answer in R33's order. -/
def StatusReport.bytes (r : StatusReport) : List Byte :=
  byte1 r.opState.number ++ byte1 r.mode.number ++ optBytes be2 r.backdate ++ be2 r.entries ++ be2 r.markers
    ++ byte1 r.ctx.number ++ markBytes r.inService ++ r.ctx.bytes ++ be2 r.results ++ markBytes r.late
    ++ markBytes r.scanLost ++ markBytes r.readEmpty

/-- A loan with its slot, in the order of R60 and R39. -/
def loanBytes (e : Nat × Loan) : List Byte :=
  let l := e.2
  be2 e.1 ++ identBytes l.item ++ byte1 l.cls ++ identBytes l.borrower ++ byte1 l.unit.number ++ timeBytes l.issued
    ++ timeBytes l.due ++ byte1 l.renewals ++ byte1 (deskNumber l.source) ++ byte1 l.gen ++ markBytes l.overdue
    ++ markBytes l.overrideUsed ++ markBytes l.foreign

/-- A hold in the order of R60. -/
def Hold.bytes (h : Hold) : List Byte :=
  identBytes h.holder ++ byte1 h.state.number ++ optBytes be2 h.deadline ++ markBytes h.stale

/-- A borrower record in the order of R63, with the derived reasons and the threshold (R79). The desk that set a LOCAL
reason takes the number it has as a source (log entry 16). -/
def borrowerBytes (id : Ident) (b : Borrower) (derived : List Reason) (threshold : Nat) : List Byte :=
  identBytes id ++ byte1 b.category ++ optBytes be2 b.expiry ++ be4 b.owed ++ markBytes b.clamped ++ be2 b.loans
    ++ be2 b.overdue ++ optBytes (fun l : LocalReason => byte1 l.code ++ byte1 (deskNumber l.desk)) b.localBlock
    ++ optBytes (fun c : CentralReason => byte1 c.code ++ markBytes c.stale) b.central
    ++ listBytes Reason.bytes derived ++ be4 threshold

def optHoursBytes (h : Option Hours) : List Byte := optBytes hoursBytes h

def Category.bytes (c : Category) : List Byte :=
  byte1 c.limit ++ be4 c.threshold ++ byte1 c.blockDays ++ markBytes c.renewOverdue

/-- A class or category of a rule: Any is 255. -/
def anyBytes (x : Option Nat) : List Byte := byte1 (x.getD 255)

def Rule.bytes (r : Rule) : List Byte :=
  anyBytes r.cls ++ anyBytes r.cat ++ byte1 r.unit.number ++ be2 r.length ++ byte1 r.renewals ++ byte1 r.grace
    ++ be4 r.rate ++ be4 r.cap

/-- A unit configuration as read. A home code that is unset is an absent optional field, and the consortium codes, a set,
stand in the order in which they were posted (R98; log entry 16). -/
def UnitConfig.bytes (c : UnitConfig) : List Byte :=
  optBytes be2 c.home ++ listBytes be2 c.consortium ++ byte1 c.policy.number ++ byte1 c.pickup ++ byte1 c.window

/-- A pending edit: its kind and its fields in R100's order. -/
def Edit.bytes : Edit → List Byte
  | .replaceRule p r => byte1 1 ++ byte1 p ++ r.bytes
  | .deleteRule p => byte1 2 ++ byte1 p
  | .replaceCategory k c => byte1 3 ++ byte1 k ++ c.bytes
  | .replaceWeekday w h => byte1 4 ++ byte1 w ++ optHoursBytes h
  | .addException d h => byte1 5 ++ be2 d ++ optHoursBytes h
  | .removeException d => byte1 6 ++ be2 d
  | .setConfig c =>
    byte1 7 ++ be2 (c.home.getD 0) ++ listBytes be2 c.consortium ++ byte1 c.policy.number ++ byte1 c.pickup
      ++ byte1 c.window

/-- The vendor and part identities R163 names, as their characters (log entry 17). -/
def vendorIdentity : List Byte := textBytes "Hezmon"
def partIdentity : List Byte := textBytes "LD-418"

/-- An Identify answer in R163's order. The session kind is an optional field, absent for None (log entry 16). -/
def IdentifyReport.bytes (r : IdentifyReport) : List Byte :=
  vendorIdentity ++ partIdentity ++ be8 Config.unitNumber.toNat
    ++ optBytes be2 r.home ++ byte1 r.opState.number
    ++ be2 r.clock.day ++ be2 r.clock.minute ++ byte1 r.clock.second ++ markBytes r.clock.valid ++ byte1 r.gen
    ++ byte1 r.phase.number ++ markBytes r.pending
    ++ be4 r.head ++ be4 r.u ++ be4 r.tail ++ be4 r.next ++ be2 r.erased ++ markBytes r.owedAck ++ be2 r.drops
    ++ be2 r.loans ++ be2 r.borrowers ++ be2 r.holdsWaiting ++ be2 r.holdsTrapped ++ be2 r.edits
    ++ optBytes (fun k : ListKind => byte1 k.number) r.session ++ be2 r.stored ++ be2 r.notStored ++ byte1 r.gapLeft
    ++ markBytes r.tablesLost ++ markBytes r.low ++ markBytes r.clock.valid

/-- A ReadJournal answer in R165's order. The number served is the only count before the records (log entry 16). -/
def ReadReport.bytes (r : ReadReport) : List Byte :=
  be4 r.first ++ be2 r.records.length ++ markBytes r.startedLater ++ be4 r.head ++ be4 r.tail ++ r.records.flatten

/-- A PrinterStatus answer in R185's order. The front slip's kind and source are one optional field, the inquiry timer's
seconds another, and a waiting desk takes the number it has as a source (log entry 16). -/
def PrinterReport.bytes (r : PrinterReport) : List Byte :=
  byte1 r.st.number ++ be2 r.slips
    ++ optBytes (fun f : SlipKind × Desk => byte1 f.1.number ++ byte1 (deskNumber f.2)) r.front
    ++ listBytes (fun d => byte1 (deskNumber d)) r.waitList ++ optBytes byte1 r.inquiryLeft

/-- The body of a response (R188). -/
def Answer.bytes : Answer → List Byte
  | .empty => []
  | .status r => r.bytes
  | .result r => r.bytes
  | .slipDropped k => byte1 (Verdict.number .slipDropped) ++ byte1 k.number
  | .item loan hold => optBytes loanBytes loan ++ optBytes Hold.bytes hold
  | .borrower id b derived threshold => borrowerBytes id b derived threshold
  | .payment taken owedAfter notPrinted =>
    be4 taken ++ be4 owedAfter
      ++ optBytes (fun v : Verdict => byte1 v.number) (if notPrinted then some .receiptNotPrinted else none)
  | .localCleared code desk => byte1 code ++ byte1 (deskNumber desk)
  | .week days => days.flatMap optHoursBytes
  | .categories cs => cs.flatMap Category.bytes
  | .config c => c.bytes
  | .exceptions count es => be2 count ++ listBytes (fun e : Nat × Option Hours => be2 e.1 ++ optHoursBytes e.2) es
  | .rules count rs => be2 count ++ listBytes Rule.bytes rs
  | .edits count es => be2 count ++ listBytes Edit.bytes es
  | .pendingCount n => be2 n
  | .identify r => r.bytes
  | .journal r => r.bytes
  | .ack u clamped => be4 u ++ markBytes clamped
  | .counts stored notStored => be2 stored ++ be2 notStored
  | .ended stored notStored removed => be2 stored ++ be2 notStored ++ be2 removed
  | .printer r => r.bytes

/-! ### Frames (R187, R188) -/

/-- A frame: start byte, body length, tag, code, body and check (12.6). -/
def frameBytes (tag code : Byte) (body : List Byte) : List Byte :=
  let checked := be2 body.length ++ [tag, code] ++ body
  0xD4#8 :: checked ++ be2 (sumCheck checked)

/-- The bytes of a response on the transmit line (R188). -/
def TxFrame.bytes (t : TxFrame) : List Byte := frameBytes t.tag (byteOf t.code.number) t.answer.bytes

/-- Whether bytes are one whole frame by start byte and length (R187). -/
def wholeFrame (bs : List Byte) : Bool :=
  let len := fromBE ((bs.drop 1).take 2)
  decide (bs.head? = some 0xD4#8) && decide (len ≤ 600) && decide (bs.length = len + 7)

/-- Whether the check of a whole frame is correct (R187). -/
def checkCorrect (bs : List Byte) : Bool :=
  let n := bs.length - 2
  decide (fromBE (bs.drop n) = sumCheck ((bs.take n).drop 1))

/-! ### Taking a request (R189, R190) -/

/-- The BUSY response to a frame of this tag: it answers no request in progress (R189 line 1). -/
def busyFrame (tag : Byte) : TxFrame :=
  { tag := tag, code := .busy, answer := .empty, own := false, startsGap := false, restarts := false }

/-- A frame that meets a request in progress changes nothing else: its BUSY response waits behind that request's own
(R189 line 1). -/
def State.answerBusy (s : State) (p : Port) (tag : Byte) : State :=
  s.setPort p { s.port p with rx := [], busy := (s.port p).busy ++ [tag] }

/-- The port takes a request: it is in progress, and any request but RestartArm and Restart disarms the port (R189,
R190). -/
def State.takeRequest (s : State) (p : Port) (k : Option ReqKind) (tag : Byte) (keepArm : Bool) : State :=
  s.setPort p
    { s.port p with rx := [], inProgress := some { kind := k, tag := tag }, arm := (s.port p).arm && keepArm }

/-- Whether a request leaves the arm mark for its owner: RestartArm and Restart with the body they allow (R190). -/
def ReqKind.keepsArm (k : ReqKind) (body : List Byte) : Bool := decide (k = .restartArm ∨ k = .restart) && body.isEmpty

/-- The session in progress, as the exchange's requests find it: one that has expired, or that a reset has ended, is over
(R168, R177). -/
def Exchange.current (x : Exchange) : Option ListKind := if x.expired then none else x.session

/-- An Entry that is no entry of the session: the gap timer stops, and starts again after the answer (R169). -/
def State.refuseEntry (s : State) : State :=
  State.respondWith { s with exch := { s.exch with gapMs := none } } .uplink .badRequest .empty true false

/-- A request whose body has a length it does not allow (R189 line 4). An Entry of such a length fits no session's kind
(R169). -/
def State.refuseLength (s : State) (p : Port) (k : ReqKind) : State :=
  if k = .downloadEntry ∧ s.exch.current.isSome then s.refuseEntry else s.respond p .badRequest .empty

/-- A complete frame goes through the tests of R189; `f` is its owner's answer. -/
def State.request (s : State) (p : Port) (k : ReqKind) (tag : Byte) (body : List Byte) (f : State → State) : State :=
  if s.accepts p = false then s
  else if (s.port p).inProgress.isSome then s.answerBusy p tag
  else
    let s1 := s.takeRequest p (some k) tag (k.keepsArm body)
    if k.permitted p = false then s1.respond p .notPermitted .empty
    else if k.allows body.length = false then s1.refuseLength p k
    else f s1

/-- A request only the desks may send; `f` is its owner's answer for the desk of the port. -/
def State.deskRequest (s : State) (p : Port) (k : ReqKind) (tag : Byte) (body : List Byte) (f : Desk → State → State) :
    State :=
  s.request p k tag body (fun s1 => match p with | .desk d => f d s1 | .uplink => s1)

/-- The tests of the operating state that desk requests share: the response that refuses (R11, R34, R75). -/
def State.deskClosed (s : State) : Option RespCode :=
  match s.opState with
  | .unset => some .unitUnset
  | .closed => some .wrongState
  | _ => none

end Sys2Proof.Machine
end

