-- ==== Sys2Proof/Machine/ClockRollover.lean ====
section
/-! DEFINITION. Settings, clock, operating state and rollover: READ_SETTINGS, POST_EDIT, SET_TIME, CLOCK_TICK, OPEN_LINE,
REFRESH_RULES, APPLICATION_STEP, HOLD_PASS_VISIT, SWEEP_VISIT, ROLLOVER_RECORD (R100 to R108, R124 to R138). -/

namespace Sys2Proof.Machine

/-! ### Time passing (R124) -/

/-- A running timer after `ms` more milliseconds. -/
def ranFor (ms : Nat) (t : Option Nat) : Option Nat := t.map (fun x => x + ms)

/-- A wand intake after `ms`: its elapsed timer, its silence and its tone (R3, R4, R7). -/
def Wand.elapse (w : Wand) (ms : Nat) : Wand :=
  { w with
    silentMs := if w.buffer = [] then w.silentMs else w.silentMs + ms
    elapsedMs := w.elapsedMs + ms
    tone := w.tone.map (fun t => { t with ms := t.ms + ms }) }

/-- A desk engine's timers after `ms` (R24, R26). -/
def Engine.elapse (e : Engine) (ms : Nat) : Engine :=
  { e with idleMs := ranFor ms e.idleMs, overrideMs := ranFor ms e.overrideMs }

/-- A port after `ms`: the time since the last byte of a partly received frame (R187). -/
def PortState.elapse (p : PortState) (ms : Nat) : PortState :=
  { p with rxMs := if p.rx = [] then p.rxMs else p.rxMs + ms }

/-- The printer's timers after `ms` (R182, R183). -/
def Printer.elapse (p : Printer) (ms : Nat) : Printer :=
  { p with answerMs := ranFor ms p.answerMs, inquiryMs := ranFor ms p.inquiryMs }

/-- The page-buffer timer after `ms`; it runs while a buffer is Filling (R147). -/
def Journal.elapse (j : Journal) (ms : Nat) : Journal :=
  { j with fillMs := if j.filling.isNone then j.fillMs else j.fillMs + ms }

/-- Every interval timer counts `ms` milliseconds of the crystal (R124). Without power none does. -/
def State.elapse (s : State) (ms : Nat) : State :=
  if s.power = .off then s
  else
    { s with
      wandA := s.wandA.elapse ms, wandB := s.wandB.elapse ms
      engA := s.engA.elapse ms, engB := s.engB.elapse ms
      portA := s.portA.elapse ms, portB := s.portB.elapse ms, portU := s.portU.elapse ms
      printer := s.printer.elapse ms
      journal := s.journal.elapse ms
      exch := { s.exch with gapMs := ranFor ms s.exch.gapMs } }

/-- The clock one second later, at the start of its millisecond count; the Bool says that the day has changed. At the end
of day 65535 it stays (R124). -/
def Clock.nextSecond (c : Clock) : Clock × Bool :=
  if c.second < 59 then ({ c with second := c.second + 1, ms := 0 }, false)
  else if c.minute < 1439 then ({ c with minute := c.minute + 1, second := 0, ms := 0 }, false)
  else if c.day < 65535 then ({ c with day := c.day + 1, minute := 0, second := 0, ms := 0 }, true)
  else ({ c with ms := 0 }, false)

/-- The clock counts out a second; a day change is taken unless the part is without power (R124, R131). -/
def State.countSecond (s : State) : State :=
  let (c, changed) := s.clock.nextSecond
  let s1 := { s with clock := c }
  if changed ∧ s.power ≠ .off then s1.dayChange else s1

/-- One millisecond of the crystal (log entry 3). -/
def State.millisecond (s : State) : State :=
  let s1 := s.elapse 1
  if s1.clock.ms + 1 < 1000 then { s1 with clock := { s1.clock with ms := s1.clock.ms + 1 } } else s1.countSecond

/-- CLOCK_TICK: the crystal counts out the second under way (R124). -/
def execClockTick (s : State) : Host.Outcome State Fault Refusal :=
  .next (State.countSecond (s.elapse (1000 - s.clock.ms)))

/-! ### Operating state (R128) -/

/-- OPEN_LINE: a level of the OPEN line is taken (R128). -/
def execOpenLine (high : Bool) (s : State) : Host.Outcome State Fault Refusal :=
  .next (if s.power = .off then s else State.deriveState { s with openLine := high })

/-! ### Settings requests (R100, R107, R108) -/

/-- The answer to a ReadSettings part (R107). -/
def Settings.answer (c : Settings) : Part → Answer
  | .week => .week c.week
  | .categories => .categories c.categories
  | .config => .config c.config
  | .exceptions i => .exceptions c.exceptions.length ((c.exceptions.drop i).take 16)
  | .rules p => .rules c.rules.length ((c.rules.drop p).take 16)
  | .pending i => .edits c.edits.length ((c.edits.drop i).take 16)

/-- READ_SETTINGS (R107). -/
def execReadSettings (p : Port) (tag : Byte) (body : List Byte) (s : State) : Host.Outcome State Fault Refusal :=
  .next (s.request p .readSettings tag body (fun s1 =>
    match readPart body with
    | none => s1.respond p .badRequest .empty
    | some part => s1.respond p .ok (s1.settings.answer part)))

/-- Whether an edit takes effect at once: a unit configuration while the home code is unset (R100 line 2, R108). -/
def Settings.immediate (c : Settings) (e : Edit) : Bool :=
  match e with
  | .setConfig _ => c.config.home.isNone
  | _ => false

/-- PostEdit after the gate (R100). -/
def State.postEdit (body : List Byte) (s : State) : State :=
  match readEdit body with
  | none => s.respond .uplink .badRequest .empty
  | some e =>
    if s.settings.immediate e then
      let s1 := State.deriveState { s with settings := (s.settings.apply s.today e).1 }
      (s1.respond .uplink .ok .empty).offer .edits
    else if 48 ≤ s.settings.edits.length then s.respond .uplink .tableFull .empty
    else
      State.respond { s with settings := { s.settings with edits := s.settings.edits ++ [e] } } .uplink .ok
        (.pendingCount (s.settings.edits.length + 1))

/-- POST_EDIT (R100). -/
def execPostEdit (p : Port) (tag : Byte) (body : List Byte) (s : State) : Host.Outcome State Fault Refusal :=
  .next (s.request p .postEdit tag body (State.postEdit body))

/-! ### SetTime and RefreshRules (R126, R132) -/

/-- SetTime after the gate: the clock is set once its CLOCK record has been accepted or dropped (R126). -/
def State.setTime (body : List Byte) (s : State) : State :=
  match readSetTime body with
  | none => s.respond .uplink .badRequest .empty
  | some (day, minute, second) =>
    if day < s.clock.day then s.respond .uplink .timeBackward .empty else s.offer (.clock day minute second)

/-- SET_TIME (R126). -/
def execSetTime (p : Port) (tag : Byte) (body : List Byte) (s : State) : Host.Outcome State Fault Refusal :=
  .next (s.request p .setTime tag body (State.setTime body))

/-- RefreshRules after the gate (R132). -/
def State.refreshRules (s : State) : State :=
  if s.roll.phase = .none then (s.respond .uplink .ok .empty).startRollover else s.respond .uplink .busy .empty

/-- REFRESH_RULES (R132). -/
def execRefreshRules (p : Port) (tag : Byte) (body : List Byte) (s : State) : Host.Outcome State Fault Refusal :=
  .next (s.request p .refreshRules tag body State.refreshRules)

/-! ### The rollover's steps (R133, R134, R137) -/

def Txn.isApplication : Txn → Bool
  | .application => true
  | _ => false

def Txn.isHoldVisit : Txn → Bool
  | .holdVisit _ => true
  | _ => false

def Txn.isSweepVisit : Txn → Bool
  | .sweepVisit _ => true
  | _ => false

/-- APPLICATION_STEP (R102, R133). -/
def execApplicationStep (s : State) : Host.Outcome State Fault Refusal := .next (s.takeIf .rollover Txn.isApplication)

/-- HOLD_PASS_VISIT (R88, R133). -/
def execHoldPassVisit (s : State) : Host.Outcome State Fault Refusal := .next (s.takeIf .rollover Txn.isHoldVisit)

/-- SWEEP_VISIT (R134). -/
def execSweepVisit (s : State) : Host.Outcome State Fault Refusal := .next (s.takeIf .rollover Txn.isSweepVisit)

/-- ROLLOVER_RECORD: in the phase Recording the rollover asks for its record, once (R137). -/
def execRolloverRecord (s : State) : Host.Outcome State Fault Refusal :=
  .next
    (if s.power = .running ∧ s.roll.phase = .recording ∧ s.journal.queue.contains .rollover = false then s.offer .rollover
     else s)

end Sys2Proof.Machine
end

