-- ==== Sys2Proof/Machine/DeskRequests.lean ====
section
/-! DEFINITION. The desk engines' events and the desk requests: TAKE_ENTRY, IDLE_TIMER_EXPIRY, OVERRIDE_TIMER_EXPIRY,
LEAVE_OPEN, KEY_IN, STATUS, READ_RESULT, SET_MODE, CLOSE, OVERRIDE, DECLINE, DROP_SLIP, PAYMENT, SET_LOCAL_BLOCK,
CLEAR_LOCAL_BLOCK (R11, R16, R24, R29, R30, R32 to R36, R75, R77, R78). -/

namespace Sys2Proof.Machine

/-! ### Events of a desk engine -/

/-- TAKE_ENTRY: the engine takes the entry at the front of its scan queue and serves it (R16). -/
def execTakeEntry (d : Desk) (s : State) : Host.Outcome State Fault Refusal :=
  .next (if s.power = .running then (s.settle d).takeFront d else s)

/-- The idle timer's 180 s have run in Session: the session is closed with no result (R24). -/
def State.idleExpiry (s : State) (d : Desk) : State :=
  match (s.eng d).ctx, (s.eng d).idleMs with
  | .session ss, some ms => if 180000 ≤ ms then s.closeSession d ss .idle else s
  | _, _ => s

/-- IDLE_TIMER_EXPIRY (R24). -/
def execIdleTimerExpiry (d : Desk) (s : State) : Host.Outcome State Fault Refusal :=
  .next (if s.power = .running then (s.settle d).idleExpiry d else s)

/-- The override timer's 60 s have run in AwaitOverride: the scan is declined and the late mark set (R29). -/
def State.overrideExpiry (s : State) (d : Desk) : State :=
  match (s.eng d).ctx, (s.eng d).overrideMs with
  | .awaitOverride h, some ms => if 60000 ≤ ms then s.declineHeld d h true else s
  | _, _ => s

/-- OVERRIDE_TIMER_EXPIRY (R29). -/
def execOverrideTimerExpiry (d : Desk) (s : State) : Host.Outcome State Fault Refusal :=
  .next (if s.power = .running then (s.settle d).overrideExpiry d else s)

/-- LEAVE_OPEN: a context with nothing in service acts on the operating state having left Open (R16, R30). -/
def execLeaveOpen (d : Desk) (s : State) : Host.Outcome State Fault Refusal :=
  .next (if s.power = .running then s.settle d else s)

/-! ### Entries placed by requests (R11, R12) -/

/-- An entry is placed at the back of a desk's scan queue, or the request is answered QUEUE_FULL (R11, R12). -/
def State.placeEntry (s : State) (d : Desk) (en : Entry) : State :=
  let e := s.eng d
  if 16 ≤ e.queue.length then s.respond (.desk d) .queueFull .empty
  else (s.setEng d { e with queue := e.queue ++ [en] }).respond (.desk d) .ok .empty

/-- KeyIn (R11). -/
def State.keyIn (body : List Byte) (d : Desk) (s : State) : State :=
  match s.deskClosed with
  | some code => s.respond (.desk d) code .empty
  | none =>
    match labelOfBytes body with
    | none => s.respond (.desk d) .badRequest .empty
    | some l => s.placeEntry d (.scan { label := l, arrival := s.now })

/-- SetMode (R34). -/
def State.setMode (body : List Byte) (d : Desk) (s : State) : State :=
  match readSetMode body with
  | none => s.respond (.desk d) .badRequest .empty
  | some (m, backdate) =>
    match s.deskClosed with
    | some code => s.respond (.desk d) code .empty
    | none => s.placeEntry d (.modeMarker m backdate)

/-- Close (R35). -/
def State.close (d : Desk) (s : State) : State :=
  match s.deskClosed with
  | some code => s.respond (.desk d) code .empty
  | none => s.placeEntry d .closeMarker

/-! ### Status and ReadResult (R32, R33) -/

def Entry.isMarker : Entry → Bool
  | .scan _ => false
  | .modeMarker _ _ => true
  | .closeMarker => true

/-- What Status says of a context (R33). -/
def Engine.report (e : Engine) : CtxReport :=
  match e.ctx with
  | .idle => .idle
  | .session ss => .session ss.label ss.mark ss.issued.length (secondsLeft 180 e.idleMs)
  | .awaitOverride h => .awaitOverride h.scan.label.digits h.stop h.session.isSome (secondsLeft 60 e.overrideMs)
  | .slipWait x f => .slipWait x.kind f

/-- The Status answer of a desk (R33). -/
def State.statusReport (s : State) (d : Desk) : StatusReport :=
  let e := s.eng d
  { opState := s.opState, mode := e.mode, backdate := e.backdate, entries := e.queue.length,
    markers := (e.queue.filter Entry.isMarker).length, inService := e.service.isSome, ctx := e.report,
    results := e.results.length, late := e.late, scanLost := e.scanLost, readEmpty := e.readEmpty }

/-- Status: the answer is composed, and then two marks are cleared (R33). -/
def State.status (d : Desk) (s : State) : State :=
  (s.respond (.desk d) .ok (.status (s.statusReport d))).setEng d
    { s.eng d with scanLost := false, readEmpty := false }

/-- ReadResult (R32). -/
def State.readResult (d : Desk) (s : State) : State :=
  let e := s.eng d
  match e.results with
  | [] => (s.setEng d { e with readEmpty := true }).respond (.desk d) .empty .empty
  | r :: rest => (s.setEng d { e with results := rest }).respond (.desk d) .ok (.result r)

/-! ### Payment and local blocks: the port's lines (R75, R77, R78) -/

/-- Payment, lines 1 to 3 of R75: the transaction is sent to the store. -/
def State.payment (body : List Byte) (d : Desk) (s : State) : State :=
  match readPayment body with
  | none => s.respond (.desk d) .badRequest .empty
  | some (id, amount) =>
    match s.deskClosed with
    | some code => s.respond (.desk d) code .empty
    | none => s.sendTxn (.port d) (.payment id amount)

/-- SetLocalBlock, lines 1 to 3 of R77. -/
def State.setLocalBlock (body : List Byte) (d : Desk) (s : State) : State :=
  match readSetLocal body with
  | none => s.respond (.desk d) .badRequest .empty
  | some (l, code) =>
    match s.deskClosed with
    | some refusal => s.respond (.desk d) refusal .empty
    | none => s.sendTxn (.port d) (.setLocal l.ident l.cls code)

/-- ClearLocalBlock, lines 1 to 3 of R78. -/
def State.clearLocalBlock (body : List Byte) (d : Desk) (s : State) : State :=
  match readIdentBody body with
  | none => s.respond (.desk d) .badRequest .empty
  | some id =>
    match s.deskClosed with
    | some code => s.respond (.desk d) code .empty
    | none => s.sendTxn (.port d) (.clearLocal id)

/-! ### Commands -/

/-- KEY_IN (R11). -/
def execKeyIn (p : Port) (tag : Byte) (body : List Byte) (s : State) : Host.Outcome State Fault Refusal :=
  .next (s.deskRequest p .keyIn tag body (State.keyIn body))

/-- STATUS (R33). -/
def execStatus (p : Port) (tag : Byte) (body : List Byte) (s : State) : Host.Outcome State Fault Refusal :=
  .next (s.deskRequest p .status tag body State.status)

/-- READ_RESULT (R32). -/
def execReadResult (p : Port) (tag : Byte) (body : List Byte) (s : State) : Host.Outcome State Fault Refusal :=
  .next (s.deskRequest p .readResult tag body State.readResult)

/-- SET_MODE (R34). -/
def execSetMode (p : Port) (tag : Byte) (body : List Byte) (s : State) : Host.Outcome State Fault Refusal :=
  .next (s.deskRequest p .setMode tag body (State.setMode body))

/-- CLOSE (R35). -/
def execClose (p : Port) (tag : Byte) (body : List Byte) (s : State) : Host.Outcome State Fault Refusal :=
  .next (s.deskRequest p .close tag body State.close)

/-- OVERRIDE: acted on at once, or when the entry in service has ended (R16, R27, R28, R36). -/
def execOverride (p : Port) (tag : Byte) (body : List Byte) (s : State) : Host.Outcome State Fault Refusal :=
  .next (s.deskRequest p .override tag body (fun d s1 => s1.reachContext d .override))

/-- DECLINE (R29, R36). -/
def execDecline (p : Port) (tag : Byte) (body : List Byte) (s : State) : Host.Outcome State Fault Refusal :=
  .next (s.deskRequest p .decline tag body (fun d s1 => s1.reachContext d .decline))

/-- DROP_SLIP (R36, R181). -/
def execDropSlip (p : Port) (tag : Byte) (body : List Byte) (s : State) : Host.Outcome State Fault Refusal :=
  .next (s.deskRequest p .dropSlip tag body (fun d s1 => s1.reachContext d .dropSlip))

/-- PAYMENT (R75). -/
def execPayment (p : Port) (tag : Byte) (body : List Byte) (s : State) : Host.Outcome State Fault Refusal :=
  .next (s.deskRequest p .payment tag body (State.payment body))

/-- SET_LOCAL_BLOCK (R77). -/
def execSetLocalBlock (p : Port) (tag : Byte) (body : List Byte) (s : State) : Host.Outcome State Fault Refusal :=
  .next (s.deskRequest p .setLocalBlock tag body (State.setLocalBlock body))

/-- CLEAR_LOCAL_BLOCK (R78). -/
def execClearLocalBlock (p : Port) (tag : Byte) (body : List Byte) (s : State) : Host.Outcome State Fault Refusal :=
  .next (s.deskRequest p .clearLocalBlock tag body (State.clearLocalBlock body))

end Sys2Proof.Machine
end

