-- ==== Sys2Proof/Machine/Downloads.lean ====
section
/-! DEFINITION. The nightly exchange's downloads: BEGIN_DOWNLOAD, DOWNLOAD_MARK_STALE, DOWNLOAD_ENTRY, BLOCK_ENTRY,
HOLD_ENTRY, END_DOWNLOAD, DOWNLOAD_END, ABORT_DOWNLOAD, DOWNLOAD_ABORT, GAP_TIMER_EXPIRY (R162, R167 to R174). -/

namespace Sys2Proof.Machine

/-- A download request that finds no session: TOO_LATE once after an expiry, else WRONG_STATE (R168). -/
def State.noSession (s : State) : State :=
  if s.exch.late then State.respond { s with exch := { s.exch with late := false } } .uplink .tooLate .empty
  else s.respond .uplink .wrongState .empty

/-- The exchange holds a download request of the session: the gap timer is stopped, and the transaction goes to the store
(R168). -/
def State.sendDownload (s : State) (t : Txn) : State :=
  State.sendTxn { s with exch := { s.exch with gapMs := none } } .uplink t

/-- Begin after the gate (R167). -/
def State.beginDownload (body : List Byte) (s : State) : State :=
  match whole (readNamed ListKind.ofNumber body) with
  | none => s.respond .uplink .badRequest .empty
  | some k =>
    match s.exch.current with
    | some _ => s.respond .uplink .busy .empty
    | none => State.sendTxn { s with exch := { s.exch with late := false } } .uplink (.markStale k)

/-- Entry after the gate (R169). -/
def State.downloadEntry (body : List Byte) (s : State) : State :=
  match s.exch.current with
  | none => s.noSession
  | some k =>
    match readEntry k body with
    | none => s.refuseEntry
    | some t => s.sendDownload t

/-- End and Abort after the gate (R172, R173). -/
def State.finishDownload (t : Txn) (s : State) : State :=
  match s.exch.current with
  | none => s.noSession
  | some _ => s.sendDownload t

/-- The gap timer's 30 s have run: the session is over for every later request, and its abort goes to the store (R168,
R173). -/
def State.gapExpiry (s : State) : State :=
  match s.exch.current, s.exch.gapMs with
  | some _, some ms =>
    if 30000 ≤ ms then
      State.sendTxn { s with exch := { s.exch with gapMs := none, late := true, expired := true } } .uplink
        (.downloadAbort .timer)
    else s
  | _, _ => s

/-! ### Kinds of the exchange's transactions -/

def Txn.isMarkStale : Txn → Bool
  | .markStale _ => true
  | _ => false

def Txn.isBlockEntry : Txn → Bool
  | .blockEntry _ => true
  | _ => false

def Txn.isHoldEntry : Txn → Bool
  | .holdEntry _ _ => true
  | _ => false

def Txn.isDownloadEnd : Txn → Bool
  | .downloadEnd => true
  | _ => false

def Txn.isDownloadAbort : Txn → Bool
  | .downloadAbort _ => true
  | _ => false

/-! ### Commands -/

/-- BEGIN_DOWNLOAD (R167). -/
def execBeginDownload (p : Port) (tag : Byte) (body : List Byte) (s : State) : Host.Outcome State Fault Refusal :=
  .next (s.request p .beginDownload tag body (State.beginDownload body))

/-- DOWNLOAD_MARK_STALE: the store takes a Begin (R70, R89, R167). -/
def execDownloadMarkStale (s : State) : Host.Outcome State Fault Refusal := .next (s.takeIf .uplink Txn.isMarkStale)

/-- DOWNLOAD_ENTRY (R169). -/
def execDownloadEntry (p : Port) (tag : Byte) (body : List Byte) (s : State) : Host.Outcome State Fault Refusal :=
  .next (s.request p .downloadEntry tag body (State.downloadEntry body))

/-- BLOCK_ENTRY: the store takes a block entry (R67, R170). -/
def execBlockEntry (s : State) : Host.Outcome State Fault Refusal := .next (s.takeIf .uplink Txn.isBlockEntry)

/-- HOLD_ENTRY: the store takes a hold entry (R89, R171). -/
def execHoldEntry (s : State) : Host.Outcome State Fault Refusal := .next (s.takeIf .uplink Txn.isHoldEntry)

/-- END_DOWNLOAD (R172). -/
def execEndDownload (p : Port) (tag : Byte) (body : List Byte) (s : State) : Host.Outcome State Fault Refusal :=
  .next (s.request p .endDownload tag body (State.finishDownload .downloadEnd))

/-- DOWNLOAD_END: the store takes an End (R172, R174). -/
def execDownloadEnd (s : State) : Host.Outcome State Fault Refusal := .next (s.takeIf .uplink Txn.isDownloadEnd)

/-- ABORT_DOWNLOAD (R173). -/
def execAbortDownload (p : Port) (tag : Byte) (body : List Byte) (s : State) : Host.Outcome State Fault Refusal :=
  .next (s.request p .abortDownload tag body (State.finishDownload (.downloadAbort .request)))

/-- DOWNLOAD_ABORT: the store takes an abort, asked for, timed out or left by a reset (R173, R174, R177). -/
def execDownloadAbort (s : State) : Host.Outcome State Fault Refusal := .next (s.takeIf .uplink Txn.isDownloadAbort)

/-- GAP_TIMER_EXPIRY (R168). -/
def execGapTimerExpiry (s : State) : Host.Outcome State Fault Refusal :=
  .next (if s.power = .running then s.gapExpiry else s)

end Sys2Proof.Machine
end

