-- ==== Sys2Proof/Machine/Intake.lean ====
section
/-! DEFINITION. The wand intakes: WAND_MESSAGE, WAND_CHARACTER, WAND_PARTIAL_TIMEOUT, TONE_PULSE_END (R3 to R9). -/

namespace Sys2Proof.Machine

/-! ### Tones (R4) -/

/-- The good tone begins: one pulse. -/
def Wand.good (w : Wand) : Wand := { w with tone := some { pulses := 1, inPulse := true, ms := 0 } }

/-- The refuse tone begins: three pulses. -/
def Wand.refuse (w : Wand) : Wand := { w with tone := some { pulses := 3, inPulse := true, ms := 0 } }

/-- A pulse or a gap has run its time: the next pulse, gap or rest. -/
def Tone.next (t : Tone) : Option Tone :=
  if t.inPulse then
    if t.pulses ≤ 1 then none else some { pulses := t.pulses - 1, inPulse := false, ms := 0 }
  else some { t with inPulse := true, ms := 0 }

/-! ### Characters (R3) -/

/-- The buffer is emptied at the end of a message, complete or not. -/
def Wand.emptied (w : Wand) : Wand := { w with buffer := [], overLong := false, silentMs := 0 }

/-- A character that is no carriage return: added, or discarded as a leading line feed or beyond the 32nd. A line feed is
its ASCII code (log entry 17). -/
def Wand.add (w : Wand) (c : WandChar) : Wand :=
  if c = .char 0x0A#8 ∧ w.buffer = [] then w
  else if w.buffer.length < 32 then { w with buffer := w.buffer ++ [c], silentMs := 0 }
  else { w with overLong := true, silentMs := 0 }

/-- The label a complete message is; an over-long one is none (R1, R3). -/
def Wand.label (w : Wand) : Option Label := if w.overLong then none else labelOf w.buffer

/-- The double-read test of check 3 (R7). -/
def Wand.isDouble (w : Wand) (window : Nat) (digits : List Nat) : Bool :=
  match w.memory with
  | none => false
  | some m => decide (m.digits = digits) && decide (w.elapsedMs - m.reading < min window 10 * 1000)

/-- The four checks on a complete message, and its acceptance (R5 to R9). -/
def State.checkMessage (s : State) (d : Desk) : State :=
  let w := (s.wand d).emptied
  let e := s.eng d
  if s.opState = .unset ∨ s.opState = .closed then s.setWand d w.refuse
  else
    match (s.wand d).label with
    | none => s.setWand d w.refuse
    | some l =>
      if w.isDouble s.settings.config.window l.digits then s.setWand d w.good
      else if 16 ≤ e.queue.length then (s.setWand d w.refuse).setEng d { e with scanLost := true }
      else
        (s.setWand d { w.good with memory := some { digits := l.digits, reading := w.elapsedMs } }).setEng d
          { e with queue := e.queue ++ [.scan { label := l, arrival := s.now }] }

/-- A carriage return ends the message, if there is one (R3). -/
def State.endMessage (s : State) (d : Desk) : State :=
  if (s.wand d).buffer = [] then s else s.checkMessage d

/-- A character of the receive line is taken (R3). A carriage return is its ASCII code (log entry 17). -/
def State.takeChar (d : Desk) (s : State) (c : WandChar) : State :=
  if c = .char 0x0D#8 then s.endMessage d else s.setWand d ((s.wand d).add c)

/-! ### Commands -/

/-- WAND_MESSAGE: the characters of a message and its carriage return (R5). During start-up and without power characters
are discarded (R14, R192). -/
def execWandMessage (d : Desk) (chars : List WandChar) (s : State) : Host.Outcome State Fault Refusal :=
  .next (if s.power = .running then (chars.foldl (State.takeChar d) s).endMessage d else s)

/-- WAND_CHARACTER: one character (R3). -/
def execWandCharacter (d : Desk) (c : WandChar) (s : State) : Host.Outcome State Fault Refusal :=
  .next (if s.power = .running then State.takeChar d s c else s)

/-- WAND_PARTIAL_TIMEOUT: 500 ms have passed with characters in the buffer and no new one (R3). -/
def execWandPartialTimeout (d : Desk) (s : State) : Host.Outcome State Fault Refusal :=
  .next
    (if s.power = .running ∧ (s.wand d).buffer ≠ [] ∧ 500 ≤ (s.wand d).silentMs then s.setWand d (s.wand d).emptied
     else s)

/-- TONE_PULSE_END: the 100 ms of a pulse or gap have run out (R4). -/
def execTonePulseEnd (d : Desk) (s : State) : Host.Outcome State Fault Refusal :=
  .next
    (match (s.wand d).tone with
     | none => s
     | some t =>
       if s.power = .running ∧ 100 ≤ t.ms then s.setWand d { s.wand d with tone := t.next } else s)

end Sys2Proof.Machine
end

