-- ==== Sys2Proof/Machine/JournalCmds.lean ====
section
/-! DEFINITION. The journal's events and requests: BUFFER_TIMER, PAGE_PROGRAM_START, PAGE_PROGRAM_COMPLETE, ERASE_START,
ERASE_COMPLETE, READ_JOURNAL, ACK_JOURNAL (R147, R148, R154 to R157, R164 to R166). -/

namespace Sys2Proof.Machine

/-- BUFFER_TIMER: 5 s have passed with no record placed in the Filling buffer, which is closed (R147). -/
def execBufferTimer (s : State) : Host.Outcome State Fault Refusal :=
  .next
    (if s.power ≠ .off ∧ s.journal.filling.isSome ∧ 5000 ≤ s.journal.fillMs then
       { s with journal := { s.journal.closeFilling with fillMs := 0 } }
     else s)

/-- The erase engine lets a program begin: no erase runs, or it is suspended already, or it is suspended now and its count
rises; `none` at 64 suspensions (R156). -/
def letProgram (e : Option EraseRun) : Option (Option EraseRun) :=
  match e with
  | none => some none
  | some r =>
    if r.suspended then some (some r)
    else if r.count < 64 then some (some { r with suspended := true, count := r.count + 1 })
    else none

/-- A Waiting buffer begins to be programmed into its page (R148, R156). -/
def Journal.startProgram (j : Journal) : Journal :=
  match j.waiting, j.programming, letProgram j.erase with
  | b :: rest, none, some e => if b.target.isSome then { j with waiting := rest, programming := some b, erase := e } else j
  | _, _, _ => j

/-- PAGE_PROGRAM_START (R148, R156). -/
def execPageProgramStart (s : State) : Host.Outcome State Fault Refusal :=
  .next (if s.power = .off then s else { s with journal := s.journal.startProgram })

/-- A suspended erase resumes when no buffer is Waiting for a program (R156). -/
def Journal.resumeErase (j : Journal) : Journal :=
  match j.erase with
  | some r => if r.suspended ∧ j.programReady = false then { j with erase := some { r with suspended := false } } else j
  | none => j

/-- A page program completes: the page is written, acceptances that waited for its buffer go on, and a suspended erase
resumes (R148, R149, R156). -/
def State.programDone (s : State) (b : PageBuf) : State :=
  let s1 := State.pump { s with journal := s.journal.finishProgram b }
  { s1 with journal := s1.journal.resumeErase }

/-- PAGE_PROGRAM_COMPLETE (R148). -/
def execPageProgramComplete (s : State) : Host.Outcome State Fault Refusal :=
  .next
    (match s.journal.programming with
     | some b => if s.power = .off then s else s.programDone b
     | none => s)

/-- ERASE_START: the erase engine, idle, takes the next sector while no program is in progress or ready (R155, R158). -/
def execEraseStart (s : State) : Host.Outcome State Fault Refusal :=
  .next
    (if s.power = .off ∨ s.journal.erase.isSome ∨ s.journal.programming.isSome ∨ s.journal.programReady then s
     else
       match s.journal.eraseCandidate with
       | some n => { s with journal := s.journal.startErase n }
       | none => s)

/-- A running erase has ended, leaving the bytes `left` (R155). -/
def Journal.finishErase (j : Journal) (r : EraseRun) (left : List Host.Cell) : Journal :=
  let base := r.sector * 4096
  let j1 := { j with array := Memory.writeCells (Memory.erase j.array base 4096) base left }
  if left.all (fun c => c.2 == 0xFF#8) then
    Journal.retargetWaiting { j1.setSector r.sector Sector.blank with erase := none }
  else { j1 with erase := some { r with count := 0 } }

/-- A sector erase completes: its sector is Erased, an owed ACK is offered and waiting acceptances go on; or the erase is
begun again (R154, R155). -/
def State.eraseDone (s : State) (r : EraseRun) (left : List Host.Cell) : State :=
  let s1 := { s with journal := s.journal.finishErase r left }
  if left.all (fun c => c.2 == 0xFF#8) then
    if s1.journal.owedAck ∧ s1.journal.queue = [] then s1.offer .owed else s1.pump
  else s1

/-- ERASE_COMPLETE (R155). A suspended erase does not complete. -/
def execEraseComplete (left : List Host.Cell) (s : State) : Host.Outcome State Fault Refusal :=
  if left.any (fun c => decide (4096 ≤ c.1)) then .fault .noSuchAddress
  else
    .next
      (match s.journal.erase with
       | some r => if s.power = .off ∨ r.suspended then s else s.eraseDone r left
       | none => s)

/-- READ_JOURNAL (R164, R165). -/
def execReadJournal (p : Port) (tag : Byte) (body : List Byte) (s : State) : Host.Outcome State Fault Refusal :=
  .next (s.request p .readJournal tag body (fun s1 =>
    match readWindowBody body with
    | none => s1.respond p .badRequest .empty
    | some (start, count) => s1.respond p .ok (.journal (s1.journal.readWindow start count))))

/-- AckJournal of sequence `seq`: U moves forward as far as the programmed tail; when it has moved, an ACK record is
offered, unless one owed already will carry the new U (R154, R166). -/
def State.acknowledge (s : State) (seq : Nat) : State :=
  let j := s.journal
  let u := min (max j.u seq) j.tail
  let clamped := decide (j.tail < seq)
  if u = j.u then s.respond .uplink .ok (.ack u clamped)
  else State.offer { s with journal := ({ j with u := u } : Journal).reclaim } (.ack clamped (!j.owedAck))

/-- ACK_JOURNAL (R166). -/
def execAckJournal (p : Port) (tag : Byte) (body : List Byte) (s : State) : Host.Outcome State Fault Refusal :=
  .next (s.request p .ackJournal tag body (fun s1 =>
    match whole (readNum 4 body) with
    | none => s1.respond p .badRequest .empty
    | some seq => s1.acknowledge seq))

end Sys2Proof.Machine
end

