-- ==== Sys2Proof/Machine/PortCmds.lean ====
section
/-! DEFINITION. The ports' own events and requests: FRAME_CHECK_ERROR, FRAME_TIMEOUT, STRAY_START_BYTE, UNKNOWN_REQUEST,
RESTART_ARM, RESTART, RESPONSE_SENT (R187 to R190). -/

namespace Sys2Proof.Machine

/-! ### Hunting (R187) -/

/-- What a port holds after hunting through bytes: from the first start byte that no length above 600 shows to be stray. -/
def huntIn : Nat → List Byte → List Byte
  | 0, bs => bs
  | _ + 1, [] => []
  | n + 1, b :: bs =>
    if b ≠ 0xD4#8 then huntIn n bs
    else if 2 ≤ bs.length ∧ 600 < fromBE (bs.take 2) then huntIn n bs
    else b :: bs

/-- Whether the bytes held already make up a whole frame or more. -/
def frameFull (bs : List Byte) : Bool := decide (3 ≤ bs.length) && decide (fromBE ((bs.drop 1).take 2) + 7 ≤ bs.length)

/-- The port's partly received frame is these bytes. -/
def State.setRx (s : State) (p : Port) (bs : List Byte) : State := s.setPort p { s.port p with rx := bs, rxMs := 0 }

/-- STRAY_START_BYTE: a start byte and two length bytes are taken; a length above 600 shows the start byte stray (R187).
Bytes that complete a frame reach the part as that frame's own command. -/
def execStrayStartByte (p : Port) (hi lo : Byte) (s : State) : Host.Outcome State Fault Refusal :=
  .next
    (let bs := huntIn ((s.port p).rx.length + 3) ((s.port p).rx ++ [0xD4#8, hi, lo])
     if s.accepts p = false ∨ frameFull bs then s else s.setRx p bs)

/-- FRAME_CHECK_ERROR: a frame with a wrong check is discarded with no response (R187). -/
def execFrameCheckError (p : Port) (rest : List Byte) (s : State) : Host.Outcome State Fault Refusal :=
  .next
    (let bs := (s.port p).rx ++ rest
     if s.accepts p = true ∧ wholeFrame bs ∧ checkCorrect bs = false then s.setRx p [] else s)

/-- FRAME_TIMEOUT: a partly received frame is discarded at a line error, or after 100 ms between two bytes (R187). -/
def execFrameTimeout (p : Port) (cause : FrameBreak) (s : State) : Host.Outcome State Fault Refusal :=
  .next
    (if s.accepts p = true ∧ (s.port p).rx ≠ [] ∧ (cause = .lineError ∨ 100 ≤ (s.port p).rxMs) then s.setRx p [] else s)

/-! ### Requests -/

/-- UNKNOWN_REQUEST: a frame whose code is not one of 12.6 is taken, disarms the port and is answered BAD_REQUEST (R189
line 2, R190). A code of 12.6 is that request's own command. -/
def execUnknownRequest (p : Port) (tag code : Byte) (_body : List Byte) (s : State) : Host.Outcome State Fault Refusal :=
  .next
    (if s.accepts p = false ∨ (1 ≤ code.toNat ∧ code.toNat ≤ 27) then s
     else if (s.port p).inProgress.isSome then s.answerBusy p tag
     else (s.takeRequest p none tag false).respond p .badRequest .empty)

/-- RESTART_ARM (R190). -/
def execRestartArm (p : Port) (tag : Byte) (body : List Byte) (s : State) : Host.Outcome State Fault Refusal :=
  .next (s.request p .restartArm tag body (fun s1 => (s1.setPort p { s1.port p with arm := true }).respond p .ok .empty))

/-- Whether a port's answer that restarts the unit has been composed and not yet wholly sent. -/
def PortState.restarts (x : PortState) : Bool := x.tx.any (fun t => t.restarts)

/-- Whether a Restart has been taken and its unit restart has not begun (R190). -/
def State.restartTaken (s : State) : Bool := s.restartDue || s.portA.restarts || s.portB.restarts || s.portU.restarts

/-- Restart after the gate: the first one taken on an armed port is answered OK, and the unit restart begins once that has
been sent. A later one stays in progress with no answer, to be lost at the restart (R190). -/
def State.doRestart (p : Port) (s : State) : State :=
  if (s.port p).arm then
    let s1 := s.setPort p { s.port p with arm := false }
    if s.restartTaken then s1 else s1.respondWith p .ok .empty false true
  else s.respond p .notArmed .empty

/-- RESTART (R190). -/
def execRestart (p : Port) (tag : Byte) (body : List Byte) (s : State) : Host.Outcome State Fault Refusal :=
  .next (s.request p .restart tag body (State.doRestart p))

/-- A port without its oldest response, wholly sent. The response to the request in progress ends its progress, and the
BUSY responses to the frames that met it come next (R189). -/
def PortState.sent (x : PortState) (t : TxFrame) (rest : List TxFrame) : PortState :=
  if t.own then { x with tx := rest ++ x.busy.map busyFrame, inProgress := none, busy := [] } else { x with tx := rest }

/-- The last byte of a port's oldest response has been handed to the transmit line: its request's progress ends, the gap
timer of a session starts, or the unit restart is due (R168, R189, R190). -/
def State.sent (s : State) (p : Port) (t : TxFrame) (rest : List TxFrame) : State :=
  let s1 := s.setPort p ((s.port p).sent t rest)
  { s1 with
    restartDue := s1.restartDue || t.restarts
    exch := if t.startsGap ∧ s1.exch.session.isSome ∧ s1.exch.expired = false then { s1.exch with gapMs := some 0 }
            else s1.exch }

/-- RESPONSE_SENT (R188, R189). -/
def execResponseSent (p : Port) (s : State) : Host.Outcome State Fault Refusal :=
  .next
    (match (s.port p).tx with
     | t :: rest => if s.power = .running then s.sent p t rest else s
     | [] => s)

end Sys2Proof.Machine
end

