-- ==== Sys2Proof/Machine/Scan.lean ====
section
/-! DEFINITION. The power-on scan of the journal array (R158 to R160). -/

namespace Sys2Proof.Machine

/-- What the scan reads of a sector whose header is correct. -/
structure HeadedSector where
  number : Nat
  lap : Nat
  first : Nat
  pages : List PageFound
  deriving DecidableEq, Repr

/-- Every byte of the sector is erased: the array lists none of them (R158). -/
def sectorBlank (m : List Host.Cell) (n : Nat) : Bool :=
  m.all (fun c => decide (c.1 < n * 4096) || decide (n * 4096 + 4096 ≤ c.1))

/-- A sector's header, lap and first sequence, when marker and header check are correct (R145, R158). -/
def headerOf (m : List Host.Cell) (n : Nat) : Option (Nat × Nat) :=
  let bs := Memory.readAll m (n * 4096) 16
  if bs.take 4 = [0x4C#8, 0x44#8, 0x4A#8, 0x52#8] ∧ fromBE (bs.drop 14) = sumCheck (bs.take 14) then
    some (fromBE ((bs.drop 4).take 4), fromBE ((bs.drop 8).take 4))
  else none

/-- A sector of the class headed: marker, header check and page 0 check correct (R158). -/
def headedSector (m : List Host.Cell) (n : Nat) : Option HeadedSector :=
  if sectorBlank m n then none
  else
    match headerOf m n with
    | none => none
    | some (lap, first) =>
      let pages := readPages m n
      match pages with
      | .good _ :: _ => some { number := n, lap := lap, first := first, pages := pages }
      | _ => none

/-- Ring order: by lap, then by sector number (R141, R159). -/
def HeadedSector.before (a b : HeadedSector) : Bool :=
  decide (a.lap < b.lap) || (decide (a.lap = b.lap) && decide (a.number ≤ b.number))

def insertSector (x : HeadedSector) : List HeadedSector → List HeadedSector
  | [] => [x]
  | y :: ys => if x.before y then x :: y :: ys else y :: insertSector x ys

/-- The sectors in ring order, oldest first. -/
def sortSectors (xs : List HeadedSector) : List HeadedSector := xs.foldr insertSector []

/-- The records found in a sector (R159). -/
def HeadedSector.records (x : HeadedSector) : List Found := recordsUpToBlank x.pages

/-- One past the last record found in a sector, its first sequence when none is. -/
def HeadedSector.stop (x : HeadedSector) : Nat :=
  match x.records.getLast? with
  | none => x.first
  | some r => r.seq + 1

def HeadedSector.hasVoid (x : HeadedSector) : Bool := x.pages.any (fun p => p == .void)

/-- The first page of a sector that reads blank; 16 when none does. -/
def HeadedSector.blankPage (x : HeadedSector) : Nat := x.pages.findIdx (fun p => p == .blank)

/-- The new U an ACK record carries (R145). -/
def Found.ackValue (r : Found) : Option Nat :=
  if r.bytes.getD 4 0#8 = 14#8 then some (fromBE ((r.bytes.drop 12).take 4)) else none

/-- The new U an ACK record in a retained buffer carries. -/
def Rec.ackValue (r : Rec) : Option Nat :=
  match r.body with
  | .ack u => some u
  | _ => none

/-- The last value a list holds. -/
def lastSome {α β : Type} (f : α → Option β) (xs : List α) : Option β := (xs.filterMap f).getLast?

/-- A headed sector older than the one holding U is dropped when it contains a void page (R158). -/
def dropVoidOlder (u : Nat) : List HeadedSector → List HeadedSector
  | [] => []
  | x :: xs =>
    if x.hasVoid ∧ xs.any (fun y => decide (y.first ≤ u)) then dropVoidOlder u xs else x :: dropVoidOlder u xs

/-- The retained buffers' records in the order they were closed, the Filling last (R160). -/
def Journal.retained (j : Journal) : List PageBuf := j.programming.toList ++ j.waiting ++ j.filling.toList

/-- What the scan takes for the last acknowledgement: an owed ACK, else an ACK in a retained buffer, else the last in the
array (R159). A cold power-on has lost the first two. -/
def Journal.foundU (j : Journal) (warm : Bool) (headed : List HeadedSector) : Option Nat :=
  let inArray := lastSome Found.ackValue (headed.flatMap HeadedSector.records)
  if warm then
    if j.owedAck then some j.u
    else
      match lastSome Rec.ackValue (j.retained.flatMap (fun b => b.recs)) with
      | some u => some u
      | none => inArray
  else inArray

/-- The newest sector whose marker and header check are correct, whatever its pages (R159). -/
def newestHeader (m : List Host.Cell) : Option HeadedSector :=
  (sortSectors ((List.range 128).filterMap (fun n =>
    if sectorBlank m n then none
    else (headerOf m n).map (fun h => { number := n, lap := h.1, first := h.2, pages := [] })))).getLast?

/-- The sector opened first when no sector is kept, and its lap, for the newest sector with a correct header: the sector
after it (R159), or that sector itself when it was Active and its page 0 is void (R160; log entry 28). -/
def seedAfter (reopen : Bool) : Option HeadedSector → Nat × Nat
  | none => (0, 0)
  | some x =>
    if reopen then (x.number, x.lap) else ((x.number + 1) % 128, x.lap + (if x.number = 127 then 1 else 0))

/-- The sector retained memory names as the Active one: that of the page given last to a retained buffer, or the one a
buffer without a page waited for (R160; log entry 28). -/
def Journal.namedSector (j : Journal) : Option Nat :=
  match lastSome PageBuf.target j.retained with
  | some t => some t.1
  | none => if j.active = none ∧ j.waiting ≠ [] then some j.seedSector else none

/-- The sector opened first when no sector is kept, and its lap: the Active sector that retained memory names, made Erasing
by the scan, whatever its header, at the lap it has after the newest sector with a correct one (R141, R160). -/
def seedOf (named : Option Nat) (reopen : Bool) (newest : Option HeadedSector) : Nat × Nat :=
  match named, newest with
  | none, _ => seedAfter reopen newest
  | some n, none => (n, 0)
  | some n, some x => (n, x.lap + (if n < x.number then 1 else 0))

/-- Whether the newest sector with a correct header was Active when power was lost, no sector being kept: it was not being
erased, or the retained records begin with the one it was opened for (log entry 28). -/
def wasActive (cut : Nat → Bool) (bufs : List PageBuf) (x : HeadedSector) : Bool :=
  !cut x.number || (bufs.flatMap (fun b => b.recs)).head?.any (fun r => decide (r.seq = x.first))

/-- A record list without the records below the programmed tail, which are in the array already (R160). -/
def PageBuf.aboveTail (tail : Nat) (b : PageBuf) : PageBuf :=
  { target := none, recs := b.recs.filter (fun r => decide (tail ≤ r.seq)) }

/-- The state, lap and sequences of sector `n` after the scan (R158, R159). -/
def scannedSector (m : List Host.Cell) (cut : Nat → Bool) (kept : List HeadedSector) (u n : Nat) : Sector :=
  if cut n then { st := .erasing, lap := 0, first := 0, stop := 0 }
  else
    match kept.find? (fun x => x.number == n) with
    | some x =>
      { st := if kept.getLast?.map HeadedSector.number = some n then .active
              else if x.stop ≤ u then .reclaimable else .sealed
        lap := x.lap, first := x.first, stop := x.stop }
    | none => if sectorBlank m n then Sector.blank else { st := .erasing, lap := 0, first := 0, stop := 0 }

/-- A sector that retained memory names as Erasing; a cold power-on has lost that (R158). -/
def Journal.cut (j : Journal) (warm : Bool) (n : Nat) : Bool := warm && decide ((j.sector n).st = .erasing)

/-- The headed sectors that were not being erased, in ring order, oldest first (R158, R159). -/
def Journal.headed (j : Journal) (warm : Bool) : List HeadedSector :=
  sortSectors ((List.range 128).filterMap (fun n => if j.cut warm n then none else headedSector j.array n))

/-- The headed sectors kept, the last acknowledgement found being `found` (R158). -/
def keptSectors (found : Option Nat) (headed : List HeadedSector) : List HeadedSector :=
  match found with
  | none => headed
  | some u => dropVoidOlder u headed

/-- The programmed tail (R159). -/
def foundTail (m : List Host.Cell) (kept : List HeadedSector) : Nat :=
  match (kept.flatMap HeadedSector.records).getLast?, kept.getLast?, newestHeader m with
  | some r, _, _ => r.seq + 1
  | none, some x, _ => x.first
  | none, none, some x => x.first
  | none, none, none => 0

/-- The retained buffers with what the array does not hold yet, none of them without a record (R160). -/
def Journal.openBuffers (j : Journal) (warm : Bool) (tail : Nat) : List PageBuf :=
  if warm then (j.retained.map (PageBuf.aboveTail tail)).filter (fun b => b.recs != []) else []

/-- The sector opened next and its lap when none is kept (R159, R160). -/
def Journal.foundSeed (j : Journal) (warm : Bool) (bufs : List PageBuf) : Nat × Nat :=
  seedOf (if warm then j.namedSector.filter (fun n => j.cut warm n || !sectorBlank j.array n) else none)
    (warm && (newestHeader j.array).any (wasActive (j.cut warm) bufs)) (newestHeader j.array)

/-- The journal the scan finds, its kept sectors being `kept` and the last acknowledgement `found`, before the buffers that
wait are given pages (R158 to R160). -/
def Journal.scanned (j : Journal) (warm : Bool) (found : Option Nat) (kept : List HeadedSector) : Journal :=
  let tail := foundTail j.array kept
  let head := match kept.head? with | none => tail | some x => x.first
  let u := min (max (found.getD head) head) tail
  let bufs := j.openBuffers warm tail
  { array := j.array
    sectors := (List.range 128).map (scannedSector j.array (j.cut warm) kept u)
    active := kept.getLast?.map HeadedSector.number
    page := (kept.getLast?.map HeadedSector.blankPage).getD 0
    seedSector := (j.foundSeed warm bufs).1
    seedLap := (j.foundSeed warm bufs).2
    filling := none
    fillMs := 0
    waiting := bufs
    programming := none
    head := head
    u := u
    tail := tail
    next := lastStop tail (bufs.flatMap (fun b => b.recs))
    owedAck := warm && j.owedAck
    drops := if warm then j.drops else 0
    erase := none
    eraseFrom := match kept.getLast? with | none => 0 | some x => (x.number + 1) % 128
    queue := [] }

/-- The journal after the power-on scan, its retained buffers closed and given pages anew on a warm power-on (R158 to
R160). On a warm power-on every sector retained memory names as Erasing stays Erasing until its erase has completed. On a cold
power-on the buffers, an owed ACK, the sector being erased and the drop count are lost. -/
def Journal.scan (j : Journal) (warm : Bool) : Journal :=
  let found := j.foundU warm (j.headed warm)
  (j.scanned warm found (keptSectors found (j.headed warm))).retargetWaiting

end Sys2Proof.Machine
end

