-- ==== Sys2Proof/Machine/PowerCmds.lean ====
section
/-! DEFINITION. Resets: UNIT_RESTART, POWER_ON, POWER_LOSS (R14, R38, R62, R91, R139, R140, R161, R177, R186, R191, R192). -/

namespace Sys2Proof.Machine

/-! ### What every reset does -/

/-- The desk side, the printer and the ports after a reset (R14, R38, R186, R191). A response composed and not yet sent is
lost with its port, a BUSY too (log entry 22). -/
def State.resetDesks (s : State) : State :=
  { s with
    wandA := Wand.initial, wandB := Wand.initial
    engA := Engine.initial, engB := Engine.initial
    printer := Printer.initial
    portA := PortState.initial, portB := PortState.initial, portU := PortState.initial
    restartDue := false }

/-- A rollover in flight goes on: its hold pass at place 0, its sweep at slot 0; in Applying it sends its step, not taken
yet (R91, R139). -/
def Rollover.goOn (r : Rollover) : Rollover :=
  match r.phase with
  | .holdPass => { r with place := 0 }
  | .sweep => { r with cursor := 0 }
  | _ => r

/-- The exchange's marks after a unit restart or a warm power-on. A session is over for every request, its kind and counts
kept for its abort (R177). -/
def Exchange.afterReset (x : Exchange) : Exchange :=
  { x with gapMs := none, late := false, expired := x.session.isSome, shut := false }

/-! ### Unit restart (R161, R191) -/

/-- Whether an acceptance is completed over a restart although the journal has not taken it: the store's own (R161). -/
def Acceptance.isStore : Acceptance → Bool
  | .store => true
  | _ => false

/-- Whether a discarded acceptance counts as a dropped record: the immediate EDITS does. A ROLLOVER record is asked for
again, a CLOCK record's SetTime is lost, and an ACK record stays owed (R161). -/
def Acceptance.countsDropped : Acceptance → Bool
  | .edits => true
  | _ => false

/-- Whether an acceptance brings an acknowledgement's ACK record. -/
def Acceptance.ownsAck : Acceptance → Bool
  | .ack _ own => own
  | _ => false

/-- The acceptances a restart leaves: the one taken, and behind it the store's. An ACK record not yet taken is held owed,
and so goes ahead of whatever is taken next (R154, R161). A CLOCK acceptance taken is completed as any other, and sets the clock
after the restart (log entry 23). -/
def keptQueue : List Acceptance → List Acceptance
  | [] => []
  | a :: rest => a :: (rest.filter Acceptance.ownsAck ++ rest.filter Acceptance.isStore)

/-- The journal over a unit restart: a program goes on, an erase in flight is abandoned with its sector Erasing, the buffer
timer starts again, and acceptances offered and not taken are discarded (R161). -/
def Journal.restarted (j : Journal) : Journal :=
  { j with
    erase := none
    fillMs := 0
    queue := keptQueue j.queue
    drops := min (j.drops + (j.queue.tail.filter Acceptance.countsDropped).length) 255 }

/-- The store over a unit restart: waiting transactions are discarded, a taken one is kept with its outcome discarded
(R41, R62, R191 step 2). -/
def Store.restarted (x : Store) : Store :=
  { Store.initial with holding := x.holding.map (fun h => { h with silent := true }) }

/-- The steps of a unit restart up to the offer of its RESTART record (R191). -/
def State.restarting (s : State) : State :=
  let s1 := s.resetDesks
  let s2 :=
    { s1 with
      power := .starting .restart
      store := s1.store.restarted
      journal := s1.journal.restarted
      exch := s1.exch.afterReset
      roll := s1.roll.goOn }
  { s2 with opState := s2.derivedOp }

/-- UNIT_RESTART: after a Restart's response has been sent (R190, R191). -/
def execUnitRestart (s : State) : Host.Outcome State Fault Refusal :=
  .next (if s.power = .running ∧ s.restartDue then s.restarting.offer (.restart .restart) else s)

/-! ### Power-on (R192) -/

/-- The retained state and the clock of a cold power-on (R140, R192 steps 1 to 3). -/
def State.coldStart (s : State) : State :=
  { s with
    clock := Clock.cold
    circ := Circ.cold
    settings := Settings.cold
    roll := Rollover.cold
    journal := s.journal.scan false
    exch := Exchange.cold
    written := true }

/-- The clock of a warm power-on: when its counting broke it restarts at the rollover day, not valid (R125, R140). -/
def State.warmClock (s : State) (broke : Bool) : Clock :=
  if broke then { day := s.roll.day, minute := 0, second := 0, ms := 0, valid := false } else s.clock

/-- The retained state, clock and rollover of a warm power-on; a day that passed without power is a day change (R140, R192
steps 1 to 5). -/
def State.warmStart (s : State) (broke : Bool) : State :=
  let s1 :=
    { s with
      clock := s.warmClock broke
      journal := s.journal.scan true
      exch := s.exch.afterReset
      roll := s.roll.goOn }
  if s1.clock.valid ∧ s1.roll.day < s1.clock.day then s1.dayChange else s1

/-- The steps of a power-on up to the offer of its RESTART record (R192). -/
def State.poweringOn (s : State) (cold broke openHigh : Bool) : State :=
  let s1 := s.resetDesks
  let s2 := if cold then s1.coldStart else s1.warmStart broke
  let s3 :=
    { s2 with
      power := .starting (if cold then .cold else .warm)
      store := Store.initial
      openLine := openHigh }
  { s3 with opState := s3.derivedOp }

/-- The retention check: it fails when the backup supply fell below 2.0 V and when retained memory has never been written
(R192, 12.7). -/
def State.retains (s : State) (vbak : Nat) : Bool := s.written && decide (2000 ≤ vbak)

/-- POWER_ON: warm or cold by the retention check, the clock broken when the backup supply fell below 2.2 V (R192, 12.7). -/
def execPowerOn (vbak : Nat) (openHigh : Bool) (s : State) : Host.Outcome State Fault Refusal :=
  .next
    (if s.power = .off then
       let cold := !s.retains vbak
       (s.poweringOn cold (decide (vbak < 2200)) openHigh).offer (.restart (if cold then .cold else .warm))
     else s)

/-! ### Power loss (R42, R148, R158) -/

/-- What the loss leaves of the page being programmed. -/
def Journal.tearPage (j : Journal) (cells : List Host.Cell) : List Host.Cell :=
  match j.programming.bind PageBuf.target with
  | some (n, p) => Memory.writeCells (Memory.erase j.array (pageAddr n p) 256) (pageAddr n p) cells
  | none => j.array

/-- What the loss leaves of the sector being erased. -/
def Journal.tearSector (j : Journal) (cells : List Host.Cell) : List Host.Cell :=
  match j.erase with
  | some r => Memory.writeCells (Memory.erase j.array (r.sector * 4096) 4096) (r.sector * 4096) cells
  | none => j.array

/-- The journal as a power loss leaves it: its page and its sector torn, nothing offered; the ACK record of an
acknowledgement that had moved U and not yet had its record placed is owed (R42, R161, R177). -/
def Journal.lostPower (j : Journal) (page sector : List Host.Cell) : Journal :=
  let j1 := { j with array := j.tearPage page }
  { j1 with array := j1.tearSector sector, owedAck := j.owedAck || j.queue.any Acceptance.ownsAck, queue := [] }

/-- The application step is the transaction the store holds. -/
def Store.holdsStep (x : Store) : Bool := x.holding.any (fun h => decide (h.txn = .application))

/-- An application step the store held when power was lost: none of it is done and it is not taken again (R42, R109). The
edits it took stand in the list again, before those posted since, and the rollover goes on to the hold pass (R139). Edits
past the 48 the list holds wait outside it until the next step takes the list (R101; log entry 27). -/
def State.undoStep (s : State) : State :=
  if s.store.holdsStep then
    let es := s.roll.taken ++ s.settings.edits
    { s with
      settings := { s.settings with edits := es.take 48 }
      roll := { s.roll with phase := .holdPass, place := 0, taken := es.drop 48 } }
  else s

/-- POWER_LOSS: main power fails. A transaction the store held is left with none of its changes and is not taken again
(R42). -/
def execPowerLoss (page sector : List Host.Cell) (s : State) : Host.Outcome State Fault Refusal :=
  if page.any (fun c => decide (256 ≤ c.1)) ∨ sector.any (fun c => decide (4096 ≤ c.1)) then .fault .noSuchAddress
  else
    .next
      (if s.power = .off then s
       else
         { s.undoStep with
           power := .off
           restartDue := false
           store := Store.initial
           journal := s.journal.lostPower page sector })

end Sys2Proof.Machine
end

