-- ==== Sys2Proof/Machine/PrinterCmds.lean ====
section
/-! DEFINITION. The slip printer: PRINTER_STATUS, PRINTER_DONE, PRINTER_PAPER_OUT, PRINTER_READY, PRINTER_MESSAGE_DISCARD,
MESSAGE_SENT, ANSWER_TIMER_EXPIRY, INQUIRY_TIMER_EXPIRY (R180 to R185). -/

namespace Sys2Proof.Machine

/-! ### The controller -/

/-- The slip a context in SlipWait holds, with its follow-on (R25). -/
def Ctx.waitingSlip : Ctx → Option (Slip × FollowOn)
  | .slipWait x f => some (x, f)
  | _ => none

/-- The front slip has left the queue: its place goes to the desk at the head of the waiting list, if there is one, and the
next slip is sent (R181, R183). The Bool part of the answer is the desk whose follow-on is now due. -/
def State.frontLeaves (s : State) : State × Option (Desk × FollowOn) :=
  let p := { s.printer with queue := s.printer.queue.tail }
  match p.waitList with
  | d :: rest =>
    match (s.eng d).ctx.waitingSlip with
    | some (x, f) =>
      ({ s with printer := Printer.sendFront { p with queue := p.queue ++ [x], waitList := rest } }, some (d, f))
    | none => ({ s with printer := p.sendFront }, none)
  | [] => ({ s with printer := p.sendFront }, none)

/-- A change of operating state that has reached a waiting context acts before its slip is handed over (R16, R30). -/
def State.settleWaiting (s : State) : State :=
  match s.printer.waitList with
  | d :: _ => s.settle d
  | [] => s

/-- DONE, taken as the answer to a slip (R181, R183). -/
def State.printed (s : State) : State :=
  match s.settleWaiting.frontLeaves with
  | (s1, some (d, f)) => s1.follow d f
  | (s1, none) => s1

/-- The inquiry timer starts, nothing being expected any more (R183). -/
def Printer.waitInquiry (p : Printer) (st : PrinterState) : Printer :=
  { p with st := st, outstanding := none, sending := none, answerMs := none, inquiryMs := some 0 }

/-- The answer to PrinterStatus (R185). -/
def Printer.report (p : Printer) : PrinterReport :=
  { st := p.st, slips := p.queue.length, front := p.queue.head?.map (fun x => (x.kind, x.source)), waitList := p.waitList,
    inquiryLeft :=
      match p.st with
      | .paperOut => some (secondsLeft 10 p.inquiryMs)
      | .offline => some (secondsLeft 10 p.inquiryMs)
      | _ => none }

/-! ### The receive line (R182) -/

/-- Whether an answer to a message of this kind is expected: the last of its characters has been sent (R182). One due to a
message from before a reset is not told from it (log entry 12). -/
def Printer.expects (p : Printer) (m : PrinterMsg) : Bool := decide (p.outstanding = some m) && p.sending.isNone

/-- The characters of a received message, without the carriage return that ended it, are taken: DONE as the answer to a
slip, READY to an Inquiry, PAPER_OUT to either. Any other message, and an answer that is not expected, is discarded (R182,
R183), the letters D, P and R by their ASCII codes (log entry 17). An answer due from before a reset that comes while the
first Inquiry's is expected is taken as that one (R186; log entry 12). -/
def State.printerMessage (s : State) (m : List Byte) : State :=
  if m = [0x44#8] ∧ s.printer.expects .slip then s.printed
  else if m = [0x50#8] ∧ (s.printer.expects .slip ∨ s.printer.expects .inquiry) then
    { s with printer := s.printer.waitInquiry .paperOut }
  else if m = [0x52#8] ∧ s.printer.expects .inquiry then { s with printer := s.printer.sendFront }
  else s

/-- The characters received of the message under way are these. -/
def State.setPrinterRx (s : State) (bs : List Byte) : State := { s with printer := { s.printer with rx := bs } }

/-- One character of the printer's line: a carriage return ends the message, a line feed and a character received with a
line error are discarded (R182; log entry 30). They are known by their ASCII codes (log entry 17). -/
def State.printerChar (s : State) : WandChar → State
  | .lineError => s
  | .char b =>
    if b = 0x0A#8 then s
    else if b = 0x0D#8 then (s.setPrinterRx []).printerMessage s.printer.rx
    else s.setPrinterRx (s.printer.rx ++ [b])

/-- Characters of the printer's line, which takes none while the part is not running (R192). -/
def State.printerHears (s : State) (chars : List WandChar) : State :=
  if s.power = .running then chars.foldl State.printerChar s else s

/-! ### Commands -/

/-- PRINTER_STATUS (R185). -/
def execPrinterStatus (p : Port) (tag : Byte) (body : List Byte) (s : State) : Host.Outcome State Fault Refusal :=
  .next (s.request p .printerStatus tag body (fun s1 => s1.respond p .ok (.printer s1.printer.report)))

/-- DONE: the characters of that message arrive (R182, R183). -/
def execPrinterDone (s : State) : Host.Outcome State Fault Refusal :=
  .next (s.printerHears [.char 0x44#8, .char 0x0D#8])

/-- PAPER_OUT: the characters of that message arrive (R182, R183). -/
def execPrinterPaperOut (s : State) : Host.Outcome State Fault Refusal :=
  .next (s.printerHears [.char 0x50#8, .char 0x0D#8])

/-- READY: the characters of that message arrive (R182, R183). -/
def execPrinterReady (s : State) : Host.Outcome State Fault Refusal :=
  .next (s.printerHears [.char 0x52#8, .char 0x0D#8])

/-- PRINTER_MESSAGE_DISCARD: characters arrive on the printer's line. A message that is none of the three is discarded, and
no timer stops (R182). -/
def execPrinterMessageDiscard (chars : List WandChar) (s : State) : Host.Outcome State Fault Refusal :=
  .next (s.printerHears chars)

/-- MESSAGE_SENT: the last character of a Slip or an Inquiry has been sent, and the answer timer starts (R182). -/
def execMessageSent (s : State) : Host.Outcome State Fault Refusal :=
  .next
    (if s.power = .running ∧ s.printer.sending.isSome then
       { s with printer := { s.printer with sending := none, answerMs := some 0 } }
     else s)

/-- Whether a timer has run for `limit` milliseconds. -/
def hasRun (limit : Nat) (t : Option Nat) : Bool :=
  match t with
  | some ms => decide (limit ≤ ms)
  | none => false

/-- ANSWER_TIMER_EXPIRY: 5 s without an answer (R183). -/
def execAnswerTimerExpiry (s : State) : Host.Outcome State Fault Refusal :=
  .next
    (if s.power = .running ∧ hasRun 5000 s.printer.answerMs then { s with printer := s.printer.waitInquiry .offline } else s)

/-- INQUIRY_TIMER_EXPIRY: 10 s in PaperOut or Offline, and an Inquiry is sent (R183). -/
def execInquiryTimerExpiry (s : State) : Host.Outcome State Fault Refusal :=
  .next
    (if s.power = .running ∧ hasRun 10000 s.printer.inquiryMs then { s with printer := s.printer.sendInquiry } else s)

end Sys2Proof.Machine
end

