-- ==== Sys2Proof/Machine/StoreTxns.lean ====
section
/-! DEFINITION. The store's transactions for the desks, and the inquiries of all ports: ISSUE, the two overrides, DISCHARGE,
RENEW, ITEM_INQUIRY, BORROWER_CHECK, BORROWER_INQUIRY, the three port transactions, INQUIRE_ITEM, INQUIRE_BORROWER and
IDENTIFY (R41 to R60, R72 to R79, R163). A transaction acts when the store is free and it is its claimant's turn. -/

namespace Sys2Proof.Machine

/-! ### Kinds -/

def Txn.isPlainIssue : Txn → Bool
  | .issue _ => true
  | _ => false

def Txn.isOverrideLoan : Txn → Bool
  | .overrideLoan _ _ => true
  | _ => false

def Txn.isOverrideHold : Txn → Bool
  | .overrideHold _ _ => true
  | _ => false

def Txn.isDischarge : Txn → Bool
  | .discharge _ _ _ => true
  | _ => false

def Txn.isRenew : Txn → Bool
  | .renew _ _ => true
  | _ => false

def Txn.isItemInquiry : Txn → Bool
  | .itemInquiry _ => true
  | _ => false

def Txn.isBorrowerCheck : Txn → Bool
  | .borrowerCheck _ => true
  | _ => false

def Txn.isBorrowerInquiry : Txn → Bool
  | .borrowerInquiry _ => true
  | _ => false

def Txn.isInquireItem : Txn → Bool
  | .inquireItem _ => true
  | _ => false

def Txn.isInquireBorrower : Txn → Bool
  | .inquireBorrower _ => true
  | _ => false

def Txn.isIdentify : Txn → Bool
  | .identify => true
  | _ => false

def Txn.isPayment : Txn → Bool
  | .payment _ _ => true
  | _ => false

def Txn.isSetLocal : Txn → Bool
  | .setLocal _ _ _ => true
  | _ => false

def Txn.isClearLocal : Txn → Bool
  | .clearLocal _ => true
  | _ => false

/-! ### Transactions of a desk engine -/

/-- ISSUE (R44 to R46, R23). -/
def execIssue (d : Desk) (s : State) : Host.Outcome State Fault Refusal := .next (s.takeIf (.engine d) Txn.isPlainIssue)

/-- OVERRIDE_OF_ON_LOAN_ELSEWHERE (R47, R48, R28). -/
def execOverrideOnLoanElsewhere (d : Desk) (s : State) : Host.Outcome State Fault Refusal :=
  .next (s.takeIf (.engine d) Txn.isOverrideLoan)

/-- OVERRIDE_OF_HELD_FOR_OTHER (R49, R86, R28). -/
def execOverrideHeldForOther (d : Desk) (s : State) : Host.Outcome State Fault Refusal :=
  .next (s.takeIf (.engine d) Txn.isOverrideHold)

/-- DISCHARGE (R51 to R53). -/
def execDischarge (d : Desk) (s : State) : Host.Outcome State Fault Refusal :=
  .next (s.takeIf (.engine d) Txn.isDischarge)

/-- RENEW (R54 to R56). -/
def execRenew (d : Desk) (s : State) : Host.Outcome State Fault Refusal := .next (s.takeIf (.engine d) Txn.isRenew)

/-- ITEM_INQUIRY (R59). -/
def execItemInquiry (d : Desk) (s : State) : Host.Outcome State Fault Refusal :=
  .next (s.takeIf (.engine d) Txn.isItemInquiry)

/-- BORROWER_CHECK (R72, R22, R27). -/
def execBorrowerCheck (d : Desk) (s : State) : Host.Outcome State Fault Refusal :=
  .next (s.takeIf (.engine d) Txn.isBorrowerCheck)

/-- BORROWER_INQUIRY (R73). -/
def execBorrowerInquiry (d : Desk) (s : State) : Host.Outcome State Fault Refusal :=
  .next (s.takeIf (.engine d) Txn.isBorrowerInquiry)

/-! ### Transactions of a desk port -/

/-- PAYMENT_TRANSACTION (R75 lines 4 to 7, R76). -/
def execPaymentTransaction (d : Desk) (s : State) : Host.Outcome State Fault Refusal :=
  .next (s.takeIf (.port d) Txn.isPayment)

/-- SET_LOCAL_BLOCK_TRANSACTION (R77 lines 4 to 7). -/
def execSetLocalBlockTransaction (d : Desk) (s : State) : Host.Outcome State Fault Refusal :=
  .next (s.takeIf (.port d) Txn.isSetLocal)

/-- CLEAR_LOCAL_BLOCK_TRANSACTION (R78 lines 4 to 7). -/
def execClearLocalBlockTransaction (d : Desk) (s : State) : Host.Outcome State Fault Refusal :=
  .next (s.takeIf (.port d) Txn.isClearLocal)

/-! ### Inquiries of all ports -/

/-- An inquiry of a port (R41): its request, or the store's taking of one that had to wait. `t` is the transaction a valid
body stands for. -/
def State.inquiry (s : State) (p : Port) (k : ReqKind) (kind : Txn → Bool) (t : List Byte → Option Txn) : Ask → State
  | .request tag body =>
    s.request p k tag body (fun s1 =>
      match t body with
      | none => s1.respond p .badRequest .empty
      | some x => s1.sendAndTake (portClaimant p) x kind)
  | .turn => s.takeIf (portClaimant p) kind

/-- INQUIRE_ITEM (R60). -/
def execInquireItem (p : Port) (ask : Ask) (s : State) : Host.Outcome State Fault Refusal :=
  .next (s.inquiry p .inquireItem Txn.isInquireItem (fun body => (readIdentBody body).map .inquireItem) ask)

/-- INQUIRE_BORROWER (R79). -/
def execInquireBorrower (p : Port) (ask : Ask) (s : State) : Host.Outcome State Fault Refusal :=
  .next (s.inquiry p .inquireBorrower Txn.isInquireBorrower (fun body => (readIdentBody body).map .inquireBorrower) ask)

/-- IDENTIFY (R163). -/
def execIdentify (p : Port) (ask : Ask) (s : State) : Host.Outcome State Fault Refusal :=
  .next (s.inquiry p .identify Txn.isIdentify (fun _ => some .identify) ask)

end Sys2Proof.Machine
end

