-- ==== Sys2Proof/Machine/Dispatch.lean ====
section
/-! DEFINITION. The one match from commands to their meanings. -/

namespace Sys2Proof.Machine

def exec (i : Instr) (s : State) : Host.Outcome State Fault Refusal :=
  match i with
  | .wandMessage d chars => Sys2Proof.Machine.execWandMessage d chars s
  | .wandPartialTimeout d => Sys2Proof.Machine.execWandPartialTimeout d s
  | .tonePulseEnd d => Sys2Proof.Machine.execTonePulseEnd d s
  | .keyIn p tag body => Sys2Proof.Machine.execKeyIn p tag body s
  | .takeEntry d => Sys2Proof.Machine.execTakeEntry d s
  | .idleTimerExpiry d => Sys2Proof.Machine.execIdleTimerExpiry d s
  | .overrideTimerExpiry d => Sys2Proof.Machine.execOverrideTimerExpiry d s
  | .leaveOpen d => Sys2Proof.Machine.execLeaveOpen d s
  | .status p tag body => Sys2Proof.Machine.execStatus p tag body s
  | .readResult p tag body => Sys2Proof.Machine.execReadResult p tag body s
  | .setMode p tag body => Sys2Proof.Machine.execSetMode p tag body s
  | .close p tag body => Sys2Proof.Machine.execClose p tag body s
  | .override p tag body => Sys2Proof.Machine.execOverride p tag body s
  | .decline p tag body => Sys2Proof.Machine.execDecline p tag body s
  | .dropSlip p tag body => Sys2Proof.Machine.execDropSlip p tag body s
  | .issue d => Sys2Proof.Machine.execIssue d s
  | .overrideOnLoanElsewhere d => Sys2Proof.Machine.execOverrideOnLoanElsewhere d s
  | .overrideHeldForOther d => Sys2Proof.Machine.execOverrideHeldForOther d s
  | .discharge d => Sys2Proof.Machine.execDischarge d s
  | .renew d => Sys2Proof.Machine.execRenew d s
  | .itemInquiry d => Sys2Proof.Machine.execItemInquiry d s
  | .borrowerCheck d => Sys2Proof.Machine.execBorrowerCheck d s
  | .borrowerInquiry d => Sys2Proof.Machine.execBorrowerInquiry d s
  | .inquireItem p ask => Sys2Proof.Machine.execInquireItem p ask s
  | .inquireBorrower p ask => Sys2Proof.Machine.execInquireBorrower p ask s
  | .payment p tag body => Sys2Proof.Machine.execPayment p tag body s
  | .paymentTransaction d => Sys2Proof.Machine.execPaymentTransaction d s
  | .setLocalBlock p tag body => Sys2Proof.Machine.execSetLocalBlock p tag body s
  | .setLocalBlockTransaction d => Sys2Proof.Machine.execSetLocalBlockTransaction d s
  | .clearLocalBlock p tag body => Sys2Proof.Machine.execClearLocalBlock p tag body s
  | .clearLocalBlockTransaction d => Sys2Proof.Machine.execClearLocalBlockTransaction d s
  | .readSettings p tag body => Sys2Proof.Machine.execReadSettings p tag body s
  | .postEdit p tag body => Sys2Proof.Machine.execPostEdit p tag body s
  | .setTime p tag body => Sys2Proof.Machine.execSetTime p tag body s
  | .clockTick => Sys2Proof.Machine.execClockTick s
  | .openLine high => Sys2Proof.Machine.execOpenLine high s
  | .refreshRules p tag body => Sys2Proof.Machine.execRefreshRules p tag body s
  | .applicationStep => Sys2Proof.Machine.execApplicationStep s
  | .holdPassVisit => Sys2Proof.Machine.execHoldPassVisit s
  | .sweepVisit => Sys2Proof.Machine.execSweepVisit s
  | .rolloverRecord => Sys2Proof.Machine.execRolloverRecord s
  | .bufferTimer => Sys2Proof.Machine.execBufferTimer s
  | .pageProgramStart => Sys2Proof.Machine.execPageProgramStart s
  | .pageProgramComplete => Sys2Proof.Machine.execPageProgramComplete s
  | .eraseStart => Sys2Proof.Machine.execEraseStart s
  | .eraseComplete left => Sys2Proof.Machine.execEraseComplete left s
  | .identify p ask => Sys2Proof.Machine.execIdentify p ask s
  | .readJournal p tag body => Sys2Proof.Machine.execReadJournal p tag body s
  | .ackJournal p tag body => Sys2Proof.Machine.execAckJournal p tag body s
  | .beginDownload p tag body => Sys2Proof.Machine.execBeginDownload p tag body s
  | .downloadMarkStale => Sys2Proof.Machine.execDownloadMarkStale s
  | .downloadEntry p tag body => Sys2Proof.Machine.execDownloadEntry p tag body s
  | .blockEntry => Sys2Proof.Machine.execBlockEntry s
  | .holdEntry => Sys2Proof.Machine.execHoldEntry s
  | .endDownload p tag body => Sys2Proof.Machine.execEndDownload p tag body s
  | .downloadEnd => Sys2Proof.Machine.execDownloadEnd s
  | .abortDownload p tag body => Sys2Proof.Machine.execAbortDownload p tag body s
  | .downloadAbort => Sys2Proof.Machine.execDownloadAbort s
  | .gapTimerExpiry => Sys2Proof.Machine.execGapTimerExpiry s
  | .printerStatus p tag body => Sys2Proof.Machine.execPrinterStatus p tag body s
  | .printerDone => Sys2Proof.Machine.execPrinterDone s
  | .printerPaperOut => Sys2Proof.Machine.execPrinterPaperOut s
  | .printerReady => Sys2Proof.Machine.execPrinterReady s
  | .printerMessageDiscard chars => Sys2Proof.Machine.execPrinterMessageDiscard chars s
  | .messageSent => Sys2Proof.Machine.execMessageSent s
  | .answerTimerExpiry => Sys2Proof.Machine.execAnswerTimerExpiry s
  | .inquiryTimerExpiry => Sys2Proof.Machine.execInquiryTimerExpiry s
  | .frameCheckError p rest => Sys2Proof.Machine.execFrameCheckError p rest s
  | .frameTimeout p cause => Sys2Proof.Machine.execFrameTimeout p cause s
  | .unknownRequest p tag code body => Sys2Proof.Machine.execUnknownRequest p tag code body s
  | .restartArm p tag body => Sys2Proof.Machine.execRestartArm p tag body s
  | .restart p tag body => Sys2Proof.Machine.execRestart p tag body s
  | .unitRestart => Sys2Proof.Machine.execUnitRestart s
  | .powerOn vbak openHigh => Sys2Proof.Machine.execPowerOn vbak openHigh s
  | .powerLoss page sector => Sys2Proof.Machine.execPowerLoss page sector s
  | .wandCharacter d c => Sys2Proof.Machine.execWandCharacter d c s
  | .strayStartByte p hi lo => Sys2Proof.Machine.execStrayStartByte p hi lo s
  | .responseSent p => Sys2Proof.Machine.execResponseSent p s

end Sys2Proof.Machine
end

