-- ==== Sys2Proof/WellFormed.lean ====
section
/-! DEFINITION. Which commands an event of the part can be. -/

namespace Sys2Proof

/-- A frame's body is at most 600 bytes (R187). -/
def bodyFits (body : List Byte) : Bool := decide (body.length ≤ 600)

def Ask.wellFormed : Ask → Bool
  | .request _ body => bodyFits body
  | .turn => true

/-- No character of a message is the carriage return that ends it (R3). -/
def noReturn (chars : List WandChar) : Bool := !chars.contains (.char 0x0D#8)

/-- Bytes left by a torn page or erase lie inside it, each listed once, in rising order (R141). -/
def cellsFit (size : Nat) : List Host.Cell → Bool
  | [] => true
  | [c] => decide (c.1 < size)
  | c :: d :: rest => decide (c.1 < d.1) && cellsFit size (d :: rest)

/-- The length two bytes spell. -/
def lengthOf (hi lo : Byte) : Nat := hi.toNat * 256 + lo.toNat

/-- Whether a command can be an event of the part. -/
def Instr.wellFormed : Instr → Bool
  | .wandMessage _ chars => noReturn chars
  | .wandPartialTimeout _ => true
  | .tonePulseEnd _ => true
  | .keyIn _ _ body => bodyFits body
  | .takeEntry _ => true
  | .idleTimerExpiry _ => true
  | .overrideTimerExpiry _ => true
  | .leaveOpen _ => true
  | .status _ _ body => bodyFits body
  | .readResult _ _ body => bodyFits body
  | .setMode _ _ body => bodyFits body
  | .close _ _ body => bodyFits body
  | .override _ _ body => bodyFits body
  | .decline _ _ body => bodyFits body
  | .dropSlip _ _ body => bodyFits body
  | .issue _ => true
  | .overrideOnLoanElsewhere _ => true
  | .overrideHeldForOther _ => true
  | .discharge _ => true
  | .renew _ => true
  | .itemInquiry _ => true
  | .borrowerCheck _ => true
  | .borrowerInquiry _ => true
  | .inquireItem _ ask => ask.wellFormed
  | .inquireBorrower _ ask => ask.wellFormed
  | .payment _ _ body => bodyFits body
  | .paymentTransaction _ => true
  | .setLocalBlock _ _ body => bodyFits body
  | .setLocalBlockTransaction _ => true
  | .clearLocalBlock _ _ body => bodyFits body
  | .clearLocalBlockTransaction _ => true
  | .readSettings _ _ body => bodyFits body
  | .postEdit _ _ body => bodyFits body
  | .setTime _ _ body => bodyFits body
  | .clockTick => true
  | .openLine _ => true
  | .refreshRules _ _ body => bodyFits body
  | .applicationStep => true
  | .holdPassVisit => true
  | .sweepVisit => true
  | .rolloverRecord => true
  | .bufferTimer => true
  | .pageProgramStart => true
  | .pageProgramComplete => true
  | .eraseStart => true
  | .eraseComplete left => cellsFit 4096 left
  | .identify _ ask => ask.wellFormed
  | .readJournal _ _ body => bodyFits body
  | .ackJournal _ _ body => bodyFits body
  | .beginDownload _ _ body => bodyFits body
  | .downloadMarkStale => true
  | .downloadEntry _ _ body => bodyFits body
  | .blockEntry => true
  | .holdEntry => true
  | .endDownload _ _ body => bodyFits body
  | .downloadEnd => true
  | .abortDownload _ _ body => bodyFits body
  | .downloadAbort => true
  | .gapTimerExpiry => true
  | .printerStatus _ _ body => bodyFits body
  | .printerDone => true
  | .printerPaperOut => true
  | .printerReady => true
  | .printerMessageDiscard chars => !chars.isEmpty
  | .messageSent => true
  | .answerTimerExpiry => true
  | .inquiryTimerExpiry => true
  | .frameCheckError _ rest => decide (1 ≤ rest.length) && decide (rest.length ≤ 607)
  | .frameTimeout _ _ => true
  | .unknownRequest _ _ code body => (decide (code.toNat = 0) || decide (27 < code.toNat)) && bodyFits body
  | .restartArm _ _ body => bodyFits body
  | .restart _ _ body => bodyFits body
  | .unitRestart => true
  | .powerOn vbak _ => decide (vbak ≤ 3600)
  | .powerLoss page sector => cellsFit 256 page && cellsFit 4096 sector
  | .wandCharacter _ _ => true
  | .strayStartByte _ hi lo => decide (600 < lengthOf hi lo)
  | .responseSent _ => true

end Sys2Proof
end

