-- ==== Sys2Proof/Safety.lean ====
section
/-! DEFINITION. What claims speak in: requests as a port takes and answers them, a transaction as the store takes it, and
the invariants of a safe run. -/

namespace Sys2Proof.Machine

/-! ### Requests -/

/-- A port takes frames and has no request in progress (R189 line 1). -/
def State.free (s : State) (p : Port) : Prop := s.accepts p = true ∧ (s.port p).inProgress = none

/-- The state with a request in progress on a port, its port disarmed (R189, R190). -/
def State.taken (s : State) (p : Port) (k : ReqKind) (tag : Byte) : State :=
  s.setPort p { s.port p with rx := [], inProgress := some { kind := some k, tag := tag }, arm := false }

/-- A response to the request in progress, as it stands among a port's responses. -/
def ownFrame (tag : Byte) (code : RespCode) (ans : Answer) : TxFrame :=
  { tag := tag, code := code, answer := ans, own := true, startsGap := false, restarts := false }

/-- The state with a request taken and answered at once: it stays in progress until its response is sent (R189). -/
def State.answered (s : State) (p : Port) (k : ReqKind) (tag : Byte) (code : RespCode) (ans : Answer) : State :=
  s.setPort p
    { s.port p with rx := [], inProgress := some { kind := some k, tag := tag }, arm := false,
                    tx := (s.port p).tx ++ [ownFrame tag code ans] }

/-- The state with an Entry answered BAD_REQUEST in a session: the gap timer is stopped and starts again once the answer is
sent (R168, R169). -/
def State.entryRefused (s : State) (tag : Byte) : State :=
  { s.taken .uplink .downloadEntry tag with
    portU := { (s.taken .uplink .downloadEntry tag).portU with
      tx := s.portU.tx ++ [{ ownFrame tag .badRequest .empty with startsGap := true }] }
    exch := { s.exch with gapMs := none } }

/-- The request a command is, with its port, tag and body. -/
def requestOf : Instr → Option (ReqKind × Port × Byte × List Byte)
  | .keyIn p tag body => some (.keyIn, p, tag, body)
  | .status p tag body => some (.status, p, tag, body)
  | .readResult p tag body => some (.readResult, p, tag, body)
  | .setMode p tag body => some (.setMode, p, tag, body)
  | .close p tag body => some (.close, p, tag, body)
  | .override p tag body => some (.override, p, tag, body)
  | .decline p tag body => some (.decline, p, tag, body)
  | .dropSlip p tag body => some (.dropSlip, p, tag, body)
  | .inquireItem p (.request tag body) => some (.inquireItem, p, tag, body)
  | .inquireBorrower p (.request tag body) => some (.inquireBorrower, p, tag, body)
  | .identify p (.request tag body) => some (.identify, p, tag, body)
  | .payment p tag body => some (.payment, p, tag, body)
  | .setLocalBlock p tag body => some (.setLocalBlock, p, tag, body)
  | .clearLocalBlock p tag body => some (.clearLocalBlock, p, tag, body)
  | .readSettings p tag body => some (.readSettings, p, tag, body)
  | .postEdit p tag body => some (.postEdit, p, tag, body)
  | .setTime p tag body => some (.setTime, p, tag, body)
  | .refreshRules p tag body => some (.refreshRules, p, tag, body)
  | .readJournal p tag body => some (.readJournal, p, tag, body)
  | .ackJournal p tag body => some (.ackJournal, p, tag, body)
  | .beginDownload p tag body => some (.beginDownload, p, tag, body)
  | .downloadEntry p tag body => some (.downloadEntry, p, tag, body)
  | .endDownload p tag body => some (.endDownload, p, tag, body)
  | .abortDownload p tag body => some (.abortDownload, p, tag, body)
  | .printerStatus p tag body => some (.printerStatus, p, tag, body)
  | .restartArm p tag body => some (.restartArm, p, tag, body)
  | .restart p tag body => some (.restart, p, tag, body)
  | _ => none

/-- What a desk request that places an entry comes to, once its body has passed: the lines of R11, R34 and R35 on the
operating state and the room. -/
def State.placesEntry (s : State) (d : Desk) (k : ReqKind) (tag : Byte) (en : Entry)
    (o : Host.Outcome State Fault Refusal) : Prop :=
  (s.opState = .unset → o = .next (s.answered (.desk d) k tag .unitUnset .empty))
    ∧ (s.opState = .closed → o = .next (s.answered (.desk d) k tag .wrongState .empty))
    ∧ (s.opState = .opened ∨ s.opState = .returnsOnly → 16 ≤ (s.eng d).queue.length →
        o = .next (s.answered (.desk d) k tag .queueFull .empty))
    ∧ (s.opState = .opened ∨ s.opState = .returnsOnly → (s.eng d).queue.length < 16 →
        o = .next ((s.answered (.desk d) k tag .ok .empty).setEng d
          { s.eng d with queue := (s.eng d).queue ++ [en] }))

/-- What a desk request that goes to the store comes to, once its body has passed: lines 2 and 3 of R75, R77 and R78, else
the port's transaction. -/
def State.sendsTxn (s : State) (d : Desk) (k : ReqKind) (tag : Byte) (t : Txn)
    (o : Host.Outcome State Fault Refusal) : Prop :=
  (s.opState = .unset → o = .next (s.answered (.desk d) k tag .unitUnset .empty))
    ∧ (s.opState = .closed → o = .next (s.answered (.desk d) k tag .wrongState .empty))
    ∧ (s.opState = .opened ∨ s.opState = .returnsOnly →
        o = .next ((s.taken (.desk d) k tag).sendTxn (.port d) t))

/-! ### Wands and engines -/

/-- The string a message ended now would be: what the buffer held and what has followed, a leading line feed left out
(R3). -/
def Wand.message (w : Wand) (chars : List WandChar) : List WandChar :=
  if w.buffer = [] then chars.dropWhile (fun c => decide (c = .char 0x0A#8)) else w.buffer ++ chars

/-- A wand at the end of a message, its buffer empty and a tone of `pulses` pulses begun (R3, R4). -/
def Wand.sounding (w : Wand) (pulses : Nat) : Wand :=
  { w with buffer := [], overLong := false, silentMs := 0, tone := some { pulses := pulses, inPulse := true, ms := 0 } }

/-- A double read of digits at a wand (R7). -/
def Wand.reads (w : Wand) (window : Nat) (digits : List Nat) : Prop :=
  ∃ m, w.memory = some m ∧ m.digits = digits ∧ w.elapsedMs - m.reading < min window 10 * 1000

/-- A desk engine that acts on an event at once: the part runs, nothing is in service and nothing waits for its context
(R16). -/
def State.engineFree (s : State) (d : Desk) : Prop :=
  s.power = .running ∧ (s.eng d).service = none ∧ (s.eng d).deferred = []

/-- The due slip of a session (R21). -/
def State.slipOf (s : State) (d : Desk) (ss : Session) : Slip :=
  .due d s.clock.day (ss.borrower.serial % 10000) (ss.issued.map (fun e => (e.item.serial, e.due)))

/-- A session close with follow-on Idle (R21): the context is Idle, and the due slip of a list that is not empty is in the
slip queue, or waits with the context for room there. `e` is the engine's record before it. -/
def State.sessionClosed (s : State) (d : Desk) (ss : Session) (e : Engine) : State :=
  if ss.issued = [] then s.setEng d { e with ctx := .idle, idleMs := none }
  else if s.printer.queue.length < 8 then
    { s.setEng d { e with ctx := .idle, idleMs := none } with printer := s.printer.join (s.slipOf d ss) }
  else
    { s.setEng d { e with ctx := .slipWait (s.slipOf d ss) .idle, idleMs := none } with
      printer := { s.printer with waitList := s.printer.waitList ++ [d] } }

/-- An engine whose service has ended with a result placed. -/
def Engine.ended (e : Engine) (label : List Nat) (f : Fields) : Engine :=
  { e with service := none, results := e.results ++ [{ label := label, fields := f }] }

/-- An engine whose service has ended with the context in a session, its idle timer started (R24). -/
def Engine.inSession (e : Engine) (ss : Session) : Engine :=
  { e with service := none, ctx := .session ss, idleMs := some 0 }

/-- An engine that holds a stopped scan (R26). -/
def Engine.holding (e : Engine) (h : HeldScan) : Engine :=
  { e with service := none, ctx := .awaitOverride h, idleMs := none, overrideMs := some 0, late := false }

/-- An item joins a session's issued list when its service ends (R23): the 17th sends the first sixteen to a due slip, which
joins the slip queue or waits with the context. `e` is the engine's record with the result placed. -/
def State.listed (s : State) (d : Desk) (e : Engine) (ss : Session) (x : Issued) : State :=
  if ss.issued.length < 16 then s.setEng d (e.inSession { ss with issued := ss.issued ++ [x] })
  else if s.printer.queue.length < 8 then
    { s.setEng d (e.inSession { ss with issued := [x] }) with printer := s.printer.join (s.slipOf d ss) }
  else
    { s.setEng d { e with service := none, ctx := .slipWait (s.slipOf d ss) (.resume { ss with issued := [x] }),
                          idleMs := none } with
      printer := { s.printer with waitList := s.printer.waitList ++ [d] } }

/-- A hold slip is offered when its Discharge's service ends outside a session (R20). `e` is the engine's record with the
result placed. -/
def State.holdSlipOffered (s : State) (d : Desk) (e : Engine) (x : Slip) : State :=
  if s.printer.queue.length < 8 then
    { s.setEng d { e with ctx := .idle, idleMs := none } with printer := s.printer.join x }
  else
    { s.setEng d { e with ctx := .slipWait x .idle, idleMs := none } with
      printer := { s.printer with waitList := s.printer.waitList ++ [d] } }

/-! ### Transactions -/

/-- The state once the store has taken a claimant's transaction away and counts it as served last (R41). -/
def State.tookFrom (s : State) (c : Claimant) : State :=
  { s.clearTxn c with store := { (s.clearTxn c).store with last := c } }

/-- Nothing is offered to the journal and no ACK is owed, so that the next acceptance is the next one taken. -/
def Journal.idle (j : Journal) : Prop := j.queue = [] ∧ j.owedAck = false

/-- What the store answers a transaction with when the journal takes its record at once: the tables, the journal. -/
def State.committed (s : State) (c : Claimant) (circ : Circ) (j : Journal) : State :=
  { s.tookFrom c with circ := circ, journal := j }

/-- The store takes this transaction from an engine that has this scan in service in this session, and nothing waits for the
context. -/
structure State.ServesInSession (s : State) (d : Desk) (t : Txn) (sc : Scan) (ss : Session) : Prop where
  turn : s.turnOf (.engine d) = some t
  service : (s.eng d).service = some (.entry sc)
  ctx : (s.eng d).ctx = .session ss
  deferred : (s.eng d).deferred = []

/-- The store takes this transaction from an engine that has this scan in service outside a session. -/
structure State.ServesIdle (s : State) (d : Desk) (t : Txn) (sc : Scan) : Prop where
  turn : s.turnOf (.engine d) = some t
  service : (s.eng d).service = some (.entry sc)
  ctx : (s.eng d).ctx = .idle
  deferred : (s.eng d).deferred = []

/-- The store takes this transaction from an engine that overrides this held scan for the request of this tag. -/
structure State.Overrides (s : State) (d : Desk) (t : Txn) (h : HeldScan) (r : InProgress) : Prop where
  turn : s.turnOf (.engine d) = some t
  service : (s.eng d).service = some .overriding
  ctx : (s.eng d).ctx = .awaitOverride h
  deferred : (s.eng d).deferred = []
  port : (s.port (.desk d)).inProgress = some r

/-- The state with a response to a port's request in progress joining its responses. -/
def State.replied (s : State) (p : Port) (r : InProgress) (code : RespCode) (ans : Answer) : State :=
  s.setPort p { s.port p with tx := (s.port p).tx ++ [ownFrame r.tag code ans] }

/-! ### Requests that reach a context (R16, R27 to R29, R36)

What one comes to when it reaches the context of desk `d` in `t` with nothing in service: `e` is the engine's record, `r`
the request in progress it answers, `u` the state after. -/

/-- An Override: the late mark, the operating state and the context refuse it in that order; else the override timer stops
and the store is sent the transaction of the held scan's stop (R27, R28, R36). -/
def State.overrideMeets (t : State) (d : Desk) (e : Engine) (r : InProgress) (u : State) : Prop :=
  let refused := fun e1 code => u = (t.setEng d e1).replied (.desk d) r code .empty
  (e.late = true → refused { e with late := false } .tooLate)
    ∧ (e.late = false → t.opState = .unset → refused e .unitUnset)
    ∧ (e.late = false → t.opState = .closed → refused e .wrongState)
    ∧ (e.late = false → t.opState ≠ .unset → (∀ h, e.ctx ≠ .awaitOverride h) → refused e .wrongState)
    ∧ ∀ h, e.late = false → t.opState = .opened ∨ t.opState = .returnsOnly → e.ctx = .awaitOverride h →
        let sent := fun txn =>
          u = (t.setEng d { e with service := some .overriding, overrideMs := none }).sendTxn (.engine d) txn
        (∀ rs, h.stop = .blocked rs → sent (.borrowerCheck h.scan.label.ident))
          ∧ ∀ ss, h.session = some ss →
              let q : LoanReq :=
                { item := h.scan.label.ident, cls := h.scan.label.cls, borrower := ss.borrower,
                  category := ss.category, mark := ss.mark,
                  time := { day := t.clock.day, minute := t.clock.minute } }
              (∀ other, h.stop = .onLoan other → sent (.overrideLoan q other))
                ∧ ∀ holder, h.stop = .held holder → sent (.overrideHold q holder)

/-- A Decline: refused as an Override is; else the held scan's result is placed, and the session behind it goes on or the
context is Idle (R29, R36). -/
def State.declineMeets (t : State) (d : Desk) (e : Engine) (r : InProgress) (u : State) : Prop :=
  let answers := fun e1 code => u = (t.setEng d e1).replied (.desk d) r code .empty
  (e.late = true → answers { e with late := false } .tooLate)
    ∧ (e.late = false → t.opState = .unset → answers e .unitUnset)
    ∧ (e.late = false → t.opState = .closed → answers e .wrongState)
    ∧ (e.late = false → t.opState ≠ .unset → (∀ h, e.ctx ≠ .awaitOverride h) → answers e .wrongState)
    ∧ ∀ h, e.late = false → t.opState = .opened ∨ t.opState = .returnsOnly → e.ctx = .awaitOverride h →
        let e1 : Engine := { e with
          results := e.results ++ [{ label := h.scan.label.digits, fields := h.stop.declined }]
          overrideMs := none }
        (h.session = none → answers { e1 with ctx := .idle, idleMs := none } .ok)
          ∧ ∀ ss, h.session = some ss → answers { e1 with ctx := .session ss, idleMs := some 0 } .ok

/-- A DropSlip: refused by the operating state and by any context but SlipWait; else the waiting slip is discarded, the desk
leaves the printer's waiting list and the follow-on is performed (R25, R36). -/
def State.dropSlipMeets (t : State) (d : Desk) (e : Engine) (r : InProgress) (u : State) : Prop :=
  let refused := fun code => u = (t.setEng d e).replied (.desk d) r code .empty
  (t.opState = .unset → refused .unitUnset)
    ∧ (t.opState = .closed → refused .wrongState)
    ∧ (t.opState ≠ .unset → (∀ x f, e.ctx ≠ .slipWait x f) → refused .wrongState)
    ∧ ∀ x f, t.opState = .opened ∨ t.opState = .returnsOnly → e.ctx = .slipWait x f →
        let t0 : State :=
          { t.replied (.desk d) r .ok (.slipDropped x.kind) with
            printer := { t.printer with waitList := t.printer.waitList.filter (fun y => decide (y ≠ d)) } }
        (f = .idle → u = t0.setEng d { e with ctx := .idle, idleMs := none })
          ∧ (∀ ss, f = .resume ss → u = t0.setEng d { e with ctx := .session ss, idleMs := some 0 })
          ∧ (∀ sc, f = .serveBorrower sc → t.opState = .opened →
              u = (t0.setEng d { e with ctx := .idle, idleMs := none, service := some (.entry sc) }).sendTxn (.engine d)
                (.borrowerCheck sc.label.ident))
          ∧ (∀ sc, f = .serveBorrower sc → t.opState = .returnsOnly →
              u = t0.setEng d
                { e with ctx := .idle, idleMs := none,
                         results := e.results ++ [{ label := sc.label.digits, fields := { verdict := .notOpen } }] })
          ∧ (∀ ss, f = .closeResumed ss → u = t0.sessionClosed d ss e)

/-- The event that waited for the context, met at last. -/
def State.eventMeets (t : State) (d : Desk) (ev : CtxEvent) (e : Engine) (r : InProgress) (u : State) : Prop :=
  (ev = .override → t.overrideMeets d e r u) ∧ (ev = .decline → t.declineMeets d e r u)
    ∧ (ev = .dropSlip → t.dropSlipMeets d e r u)

/-! ### The journal -/

/-- The records the page buffers hold, in the order they were accepted (R146, R147). -/
def Journal.buffered (j : Journal) : List Rec :=
  (j.programming.toList ++ j.waiting ++ j.filling.toList).flatMap (fun b => b.recs)

/-- A record placed behind the records `before` of the buffer of page `p` of sector `n`, which is closed when fewer than 12
bytes are left in its page (R147). -/
def Journal.withRecord (j : Journal) (n p : Nat) (before : List Rec) (r : Rec) : Journal :=
  let b : PageBuf := { target := some (n, p), recs := before ++ [r] }
  let sectors := j.sectors.set n { j.sector n with stop := r.seq + 1 }
  if pageRoom p < recsSize b.recs + 12 then
    { j with sectors := sectors, filling := none, waiting := j.waiting ++ [b], fillMs := 0 }
  else { j with sectors := sectors, filling := some b, fillMs := 0 }

/-- The journal with its Filling buffer, if there is one, closed (R147). -/
def Journal.withClosed (j : Journal) : Journal := { j with filling := none, waiting := j.waiting ++ j.filling.toList }

/-- The journal with sector `n` opened, and the one that was Active full (R142, R147). -/
def Journal.withOpened (j : Journal) (n lap seq : Nat) : Journal :=
  let sectors :=
    match j.active with
    | none => j.sectors
    | some a => j.sectors.set a { j.sector a with st := if (j.sector a).stop ≤ j.u then .reclaimable else .sealed }
  { j with sectors := sectors.set n { st := .active, lap := lap, first := seq, stop := seq }, active := some n, page := 1 }

/-- What the store's transaction comes to when the journal stands at `j` for it (R42, R149, R151): finished with its records
accepted, left waiting, or refused; the work of the exchange and of the rollover is done with its record dropped. -/
def State.heldMeets (s : State) (h : Held) (j : Journal) : State :=
  match j.accept s.now (s.txnRecords h) with
  | .done k => State.finishTxn { s with journal := k } h true
  | .wait => { s with journal := { j with queue := [.store] } }
  | .full =>
    if (s.planOf h).isSome then State.finishTxn { s with journal := j } h false
    else State.finishTxn { s with journal := { j with drops := min (j.drops + 1) 255 } } h true

/-- The one acceptance offered is taken up at a journal that stands at `j`, as `f` of the journal it then meets: an ACK owed
goes before it, or stays owed, or waits and makes it wait (R149, R154). -/
def State.takenUp (s : State) (j : Journal) (a : Acceptance) (f : Journal → State) : State :=
  if j.owedAck = true then
    match j.accept s.now [{ source := .uplink, time := none, flags := { }, body := .ack j.u }] with
    | .done k => f { k with owedAck := false, queue := [] }
    | .full => f { j with queue := [] }
    | .wait => { s with journal := { j with queue := [a] } }
  else f { j with queue := [] }

/-- The state with a suspended erase resumed, unless a buffer that has its page stands Waiting (R156; log entry 8). -/
def State.resumed (s : State) : State :=
  { s with journal :=
    { s.journal with
      erase := s.journal.erase.map (fun r =>
        { r with suspended := r.suspended && s.journal.waiting.head?.any (fun y => y.target.isSome) }) } }

/-! ### The power-on scan (R158 to R160) -/

/-- Every byte of sector `n` reads erased (R158: the class blank). -/
def sectorErased (m : List Host.Cell) (n : Nat) : Prop :=
  ∀ a, n * 4096 ≤ a → a < n * 4096 + 4096 → Memory.read m a = 0xFF#8

/-- The marker and the header check of sector `n` are correct, and its header gives this lap and first sequence (R145). -/
def headerAt (m : List Host.Cell) (n lap first : Nat) : Prop :=
  let h := Memory.readAll m (n * 4096) 16
  n < 128 ∧ h.take 4 = [0x4C#8, 0x44#8, 0x4A#8, 0x52#8] ∧ fromBE (h.drop 14) = sumCheck (h.take 14)
    ∧ lap = fromBE ((h.drop 4).take 4) ∧ first = fromBE ((h.drop 8).take 4)

/-- Ring order of two sectors, each by its lap and its number (R141, R159). -/
def ringBefore (lap n lap2 n2 : Nat) : Prop := lap < lap2 ∨ (lap = lap2 ∧ n < n2)

/-- The records found in sector `n`: those of its pages up to the first that reads blank, none of a void page (R159). -/
def sectorFinds (m : List Host.Cell) (n : Nat) : List Found :=
  ((List.range 16).takeWhile (fun p => decide (readPage m n p ≠ .blank))).flatMap (fun p =>
    match readPage m n p with
    | .good rs => rs
    | _ => [])

/-- One past the last of the records found in a sector, its first sequence where there is none. -/
def stopAfter (first : Nat) (rs : List Found) : Nat := (rs.getLast?.map (fun r => r.seq + 1)).getD first

/-- The records of the retained page buffers, in the order they were accepted, that the array does not hold yet (R160). -/
def Journal.keptRecs (j : Journal) (warm : Bool) (tail : Nat) : List Rec :=
  if warm then j.buffered.filter (fun r => decide (tail ≤ r.seq)) else []

/-- What retained memory names as Erasing (R158): nothing, at a cold power-on. -/
def Journal.namesErasing (j : Journal) (warm : Bool) (n : Nat) : Prop := warm = true ∧ (j.sector n).st = .erasing

/-- A sector of the class headed that was not being erased (R158). -/
def Journal.headedAt (j : Journal) (warm : Bool) (n lap first : Nat) : Prop :=
  headerAt j.array n lap first ∧ (∃ rs, readPage j.array n 0 = .good rs) ∧ ¬ j.namesErasing warm n

/-- A headed sector, none of the others newer. -/
def Journal.newestAt (j : Journal) (warm : Bool) (n lap first : Nat) : Prop :=
  j.headedAt warm n lap first ∧ ∀ n2 lap2 first2, j.headedAt warm n2 lap2 first2 → ¬ ringBefore lap n lap2 n2

/-- The last acknowledgement found: an owed ACK, else the last ACK record in the retained buffers, else the last in the
headed sectors (R159). -/
def Journal.lastAck (j : Journal) (warm : Bool) (found : Option Nat) : Prop :=
  let inBuffers := if warm then (j.buffered.filterMap Rec.ackValue).getLast? else none
  let inSector := fun n => ((sectorFinds j.array n).filterMap Found.ackValue).getLast?
  (warm = true → j.owedAck = true → found = some j.u)
    ∧ (¬ (warm = true ∧ j.owedAck = true) →
        (∀ u, inBuffers = some u → found = some u)
          ∧ (inBuffers = none →
              ((∀ n lap first, j.headedAt warm n lap first → inSector n = none) → found = none)
                ∧ ∀ n lap first u, j.headedAt warm n lap first → inSector n = some u →
                    (∀ n2 lap2 first2, j.headedAt warm n2 lap2 first2 → ringBefore lap n lap2 n2 → inSector n2 = none) →
                    found = some u))

/-- A headed sector older than the one that holds the last acknowledgement, with a void page: it is erased anew (R158). -/
def Journal.cutShort (j : Journal) (warm : Bool) (found : Option Nat) (n lap : Nat) : Prop :=
  (∃ p, p < 16 ∧ readPage j.array n p = .void)
    ∧ ∃ u n2 lap2 first2, found = some u ∧ j.headedAt warm n2 lap2 first2 ∧ ringBefore lap n lap2 n2 ∧ first2 ≤ u

/-- What the scan makes of a journal: `k` is the journal after it, `found` the last acknowledgement it finds. -/
structure Journal.Scanned (j : Journal) (warm : Bool) (found : Option Nat) (k : Journal) : Prop where
  ack : j.lastAck warm found
  /-- R158: a sector named as Erasing, and a damaged one, are Erasing. -/
  named : ∀ n, n < 128 → j.namesErasing warm n → (k.sector n).st = .erasing
  damaged : ∀ n, n < 128 → ¬ sectorErased j.array n → (∀ lap first, ¬ j.headedAt warm n lap first) →
    (k.sector n).st = .erasing
  /-- R158: a blank sector is Erased, while no retained buffer is given a page of it. -/
  blank : ∀ n, n < 128 → sectorErased j.array n → ¬ j.namesErasing warm n → k.waiting = [] → (k.sector n).st = .erased
  /-- R159: the newest headed sector is Active, and ends with its last record outside a void page. -/
  newest : ∀ n lap first, j.newestAt warm n lap first →
    (k.waiting = [] →
        k.active = some n
          ∧ k.sector n = { st := .active, lap := lap, first := first, stop := stopAfter first (sectorFinds j.array n) })
      ∧ (sectorFinds j.array n ≠ [] → k.tail = stopAfter first (sectorFinds j.array n))
  /-- R158, R159: an older one is Sealed, or Reclaimable with its last record below U, or Erasing where it was cut short. -/
  older : ∀ n lap first, j.headedAt warm n lap first → ¬ j.newestAt warm n lap first → k.waiting = [] →
    (j.cutShort warm found n lap → (k.sector n).st = .erasing)
      ∧ (¬ j.cutShort warm found n lap →
          k.sector n
            = { st := if stopAfter first (sectorFinds j.array n) ≤ k.u then .reclaimable else .sealed
                lap := lap, first := first, stop := stopAfter first (sectorFinds j.array n) })
  /-- R159: head is the first sequence of the oldest kept sector. -/
  head : ∀ n lap first, j.headedAt warm n lap first → ¬ j.cutShort warm found n lap →
    (∀ n2 lap2 first2, j.headedAt warm n2 lap2 first2 → ringBefore lap2 n2 lap n → j.cutShort warm found n2 lap2) →
    k.head = first
  /-- R159: no sector kept. The programmed tail is that of the newest correct header, 0 without one; head is there too. The
  sector after it is opened next at a cold power-on. -/
  noneKept : (∀ n lap first, ¬ j.headedAt warm n lap first) →
    k.head = k.tail
      ∧ ((∀ n lap first, ¬ headerAt j.array n lap first) →
          k.tail = 0 ∧ (warm = false → k.nextSector = (0, 0)))
      ∧ ∀ n lap first, headerAt j.array n lap first →
          (∀ n2 lap2 first2, headerAt j.array n2 lap2 first2 → ¬ ringBefore lap n lap2 n2) →
          k.tail = first
            ∧ (warm = false → k.nextSector = ((n + 1) % 128, lap + (if n = 127 then 1 else 0)))
  /-- R160: no sector kept at a warm power-on, the page being programmed in a sector that does not read erased: that sector
  is opened next. -/
  again : (∀ n lap first, ¬ j.headedAt warm n lap first) → warm = true → ∀ b n p, j.programming = some b →
    b.target = some (n, p) → j.waiting = [] → j.filling = none → ¬ sectorErased j.array n → k.seedSector = n
  /-- R159: U within head and the programmed tail. -/
  u : k.u = min (max (found.getD k.head) k.head) k.tail
  /-- R159, R160: the next sequence follows the records kept in the buffers, which keep their order. -/
  next : k.next = ((j.keptRecs warm k.tail).getLast?.map (fun r => r.seq + 1)).getD k.tail
  records : k.waiting.flatMap (fun b => b.recs) = j.keptRecs warm k.tail
  /-- R160: the buffer closed first takes the page after the last found programmed or void. -/
  page : ∀ n lap first p, j.newestAt warm n lap first → p < 16 → readPage j.array n p = .blank →
    (∀ q, q < p → readPage j.array n q ≠ .blank) → ∀ b, k.waiting.head? = some b → b.target = some (n, p)
  /-- R160, R161: what else a warm power-on keeps and a cold one loses. -/
  rest : k.array = j.array ∧ k.filling = none ∧ k.programming = none ∧ k.erase = none ∧ k.queue = []
    ∧ k.owedAck = (warm && j.owedAck) ∧ k.drops = if warm then j.drops else 0

/-! ### The printer's line -/

/-- The characters of a list that a message keeps: line feeds and characters received with a line error are discarded
(R182; log entry 30). -/
def keptChars (chars : List WandChar) : List Byte :=
  chars.filterMap (fun c =>
    match c with
    | .char b => if b = 0x0A#8 then none else some b
    | .lineError => none)

/-! ### Download sessions -/

/-- The tables with every mark of a list set, or cleared: of every CENTRAL reason, or of every Waiting hold (R70, R89). -/
def Circ.marked (c : Circ) (k : ListKind) (stale : Bool) : Circ :=
  match k with
  | .blocks =>
    { c with borrowers := c.borrowers.map (fun e =>
        (e.1, { e.2 with central := e.2.central.map (fun x => { x with stale := stale }) })) }
  | .holds =>
    { c with holds := c.holds.map (fun e => (e.1, if e.2.state = .waiting then { e.2 with stale := stale } else e.2)) }

/-- The tables an End leaves (R172): the stale CENTRAL reasons gone, with the records they leave empty; or the stale Waiting
holds gone. -/
def Circ.cleared (c : Circ) (k : ListKind) : Circ :=
  match k with
  | .blocks =>
    let goes := fun b : Borrower =>
      b.central.any CentralReason.stale && decide (b.loans = 0 ∧ b.owed = 0 ∧ b.localBlock = none)
    let lifted := fun b : Borrower => if b.central.any CentralReason.stale then { b with central := none } else b
    { c with borrowers := (c.borrowers.filter (fun e => !goes e.2)).map (fun e => (e.1, lifted e.2)) }
  | .holds => { c with holds := c.holds.filter (fun e => !(e.2.stale && decide (e.2.state = .waiting))) }

/-! ### Invariants -/

/-- R128 as a table: Unset while the clock is invalid or the home code unset, else by the OPEN line and the policy. -/
def State.stateFollows (s : State) : Prop :=
  (s.opState = .unset ↔ s.clock.valid = false ∨ s.settings.config.home = none)
    ∧ (s.clock.valid = true → s.settings.config.home ≠ none →
        (s.openLine = true → s.opState = .opened)
          ∧ (s.openLine = false → s.settings.config.policy = .returns → s.opState = .returnsOnly)
          ∧ (s.openLine = false → s.settings.config.policy = .closed → s.opState = .closed))

/-- Every collection is in its one form and within its size (R10, R40, R64, R83, R93, R95, R101, R180). -/
structure State.WithinSizes (s : State) : Prop where
  loansRise : Table.rising s.circ.loans = true
  loans : s.circ.loans.length ≤ 4096
  borrowersRise : Table.rising s.circ.borrowers = true
  borrowers : s.circ.borrowers.length ≤ 1024
  holdsRise : Table.rising s.circ.holds = true
  holds : s.circ.holds.length ≤ 512
  exceptionsRise : Table.rising s.settings.exceptions = true
  exceptions : s.settings.exceptions.length ≤ 64
  rules : s.settings.rules.length ≤ 32
  edits : s.settings.edits.length ≤ 48
  taken : s.roll.taken.length ≤ 48
  scansA : s.engA.queue.length ≤ 16
  scansB : s.engB.queue.length ≤ 16
  slips : s.printer.queue.length ≤ 8

/-- A page buffer's target, where it has one, is a page of the array (R141). -/
def PageBuf.targetFits (b : PageBuf) : Prop := ∀ n p, b.target = some (n, p) → n < 128 ∧ p < 16

/-- The journal array is in canonical form, and whatever the journal is about to change in it lies inside it (R141). -/
structure Journal.Held (j : Journal) : Prop where
  array : Memory.wf j.array = true
  sectors : j.sectors.length = 128
  active : ∀ n, j.active = some n → n < 128
  page : j.page ≤ 16
  seed : j.seedSector < 128
  filling : ∀ b, j.filling = some b → b.targetFits
  waiting : ∀ b ∈ j.waiting, b.targetFits
  programming : ∀ b, j.programming = some b → b.targetFits
  erase : ∀ r, j.erase = some r → r.sector < 128

/-- Whether an engine owes a result for a scan it holds: in service, awaiting an override, or held behind a slip (R16). -/
def Engine.owesResult (e : Engine) : Prop :=
  (∃ sc, e.service = some (.entry sc)) ∨ (∃ h, e.ctx = .awaitOverride h) ∨ (∃ x sc, e.ctx = .slipWait x (.serveBorrower sc))

/-- What keeps a result's place (R16, R32): the queue never passes 16, it has room while a result is owed, and service and
timers agree with the context (R24, R26). -/
structure Engine.KeepsPlaces (e : Engine) : Prop where
  results : e.results.length ≤ 16
  room : e.owesResult → e.results.length ≤ 15
  entry : ∀ sc, e.service = some (.entry sc) → e.ctx = .idle ∨ ∃ ss, e.ctx = .session ss
  overriding : e.service = some .overriding → ∃ h, e.ctx = .awaitOverride h
  idleTimer : e.idleMs.isSome = true → e.service = none ∧ ∃ ss, e.ctx = .session ss
  overrideTimer : e.overrideMs.isSome = true → e.service = none ∧ ∃ h, e.ctx = .awaitOverride h

/-- Every pending edit, and every one an application step has taken, is one that PostEdit lets pass (R100, R101). -/
def State.editsValid (s : State) : Prop := ∀ e ∈ s.settings.edits ++ s.roll.taken, e.inRange = true

end Sys2Proof.Machine
end

