-- ==== Sys2Proof/Certificates/Slice0/Obligations.lean ====
section
/-! DEFINITION. The statements about the LD-418: its step, what every command keeps, and what each command does. Each
docstring names the rules of spec/ a statement formalises. -/

section

open Sys2Proof Sys2Proof.Machine

/-! ### The step and the whole part -/

/-- A step takes the command at the front of the queue and is exec of it with the queue's rest. -/
def Obligations.StepRunsTheFrontCommand : Prop :=
  ∀ (c : Instr) (rest : List Instr) (s : State), step { s with pending := c :: rest } = exec c { s with pending := rest }

/-- R124: the crystal's time reaches every interval timer, the wand's silence (R3), its tone (R4) and the gap inside
a frame (R187) among them, and the clock counts out its seconds, minutes and days. On an empty queue a step is one
millisecond, the last of a second as CLOCK_TICK (the model's choice, log entry 3); CLOCK_TICK counts out what is left
of the second under way. A tick that does not end a day changes the timers and the clock alone; one that does is a
day change; without power the clock alone counts the day; at the end of day 65535 the clock stays. -/
def Obligations.TimeReachesClockAndTimers : Prop :=
  (∀ s : State, s.pending = [] → s.clock.ms < 999 →
      step s = .next { s.elapse 1 with clock := { s.clock with ms := s.clock.ms + 1 } })
    ∧ (∀ s : State, s.pending = [] → s.clock.ms = 999 → step s = exec .clockTick s)
    ∧ (∀ s : State, s.clock.second < 59 →
        exec .clockTick s
          = .next { s.elapse (1000 - s.clock.ms) with clock := { s.clock with second := s.clock.second + 1, ms := 0 } })
    ∧ (∀ s : State, s.clock.second = 59 → s.clock.minute < 1439 →
        exec .clockTick s
          = .next { s.elapse (1000 - s.clock.ms) with
                    clock := { s.clock with minute := s.clock.minute + 1, second := 0, ms := 0 } })
    ∧ (∀ s : State, s.clock.second = 59 → s.clock.minute = 1439 → s.clock.day < 65535 → s.power ≠ .off →
        exec .clockTick s
          = .next (State.dayChange
              { s.elapse (1000 - s.clock.ms) with
                clock := { s.clock with day := s.clock.day + 1, minute := 0, second := 0, ms := 0 } }))
    ∧ (∀ s : State, s.clock.second = 59 → s.clock.minute = 1439 → s.clock.day < 65535 → s.power = .off →
        exec .clockTick s
          = .next { s with clock := { s.clock with day := s.clock.day + 1, minute := 0, second := 0, ms := 0 } })
    ∧ (∀ s : State, s.clock.second = 59 → s.clock.minute = 1439 → s.clock.day = 65535 →
        exec .clockTick s = .next { s.elapse (1000 - s.clock.ms) with clock := { s.clock with ms := 0 } })
    ∧ (∀ (s : State) (n : Nat), s.power = .off → s.elapse n = s)
    ∧ (∀ (s : State) (n : Nat) (d : Desk), s.power ≠ .off →
        (s.elapse n).eng d
            = { s.eng d with idleMs := (s.eng d).idleMs.map (· + n), overrideMs := (s.eng d).overrideMs.map (· + n) }
          ∧ (s.elapse n).wand d
              = { s.wand d with
                  elapsedMs := (s.wand d).elapsedMs + n
                  silentMs := if (s.wand d).buffer = [] then (s.wand d).silentMs else (s.wand d).silentMs + n
                  tone := (s.wand d).tone.map (fun t => { t with ms := t.ms + n }) }
          ∧ (∀ p, (s.elapse n).port p
              = { s.port p with rxMs := if (s.port p).rx = [] then (s.port p).rxMs else (s.port p).rxMs + n })
          ∧ (s.elapse n).printer
              = { s.printer with answerMs := s.printer.answerMs.map (· + n), inquiryMs := s.printer.inquiryMs.map (· + n) }
          ∧ (s.elapse n).exch = { s.exch with gapMs := s.exch.gapMs.map (· + n) }
          ∧ (s.journal.filling.isSome → (s.elapse n).journal = { s.journal with fillMs := s.journal.fillMs + n })
          ∧ (s.elapse n).circ = s.circ ∧ (s.elapse n).settings = s.settings ∧ (s.elapse n).store = s.store
          ∧ (s.elapse n).roll = s.roll ∧ (s.elapse n).opState = s.opState ∧ (s.elapse n).power = s.power)

/-- The state after reset meets every invariant stated below, with no command waiting. Its values are those of a cold
power-on (R14, R38, R62, R81, R91, R109, R140, R160, R177, R186, R191); that this state is the model's reset is its
choice (log entries 1 and 2). -/
def Obligations.ResetMeetsTheInvariants : Prop :=
  State.reset.pending = [] ∧ State.reset.stateFollows ∧ State.reset.WithinSizes ∧ State.reset.journal.Held
    ∧ State.reset.engA.KeepsPlaces ∧ State.reset.engB.KeepsPlaces ∧ State.reset.editsValid
    ∧ State.reset.circ = { loans := [], borrowers := [], holds := [] }
    ∧ State.reset.clock.valid = false ∧ State.reset.opState = .unset ∧ State.reset.exch.tablesLost = true
    ∧ State.reset.settings.config = { home := none, consortium := [], policy := .closed, pickup := 7, window := 2 }
    ∧ State.reset.settings.rules = [] ∧ State.reset.settings.exceptions = [] ∧ State.reset.settings.edits = []
    ∧ State.reset.printer.st = .offline ∧ State.reset.printer.outstanding = some .inquiry

/-- R128: every command that answers a next state leaves the operating state the one its four inputs give. -/
def Obligations.OperatingStateFollowsItsInputs : Prop :=
  ∀ (c : Instr) (s t : State), s.stateFollows → exec c s = .next t → t.stateFollows

/-- R10, R40, R64, R83, R93, R95, R101, R180: no command carries a collection past its size or out of its one form. -/
def Obligations.CollectionsKeepTheirSizes : Prop :=
  ∀ (c : Instr) (s t : State), s.WithinSizes → exec c s = .next t → t.WithinSizes

/-- R141: no command writes outside the journal array's 128 sectors of 16 pages, and the array stays in its one form. -/
def Obligations.JournalArrayKeepsItsForm : Prop :=
  ∀ (c : Instr) (s t : State), s.journal.Held → exec c s = .next t → t.journal.Held

/-- R16, R24, R26, R32: no command leaves an engine with more than 16 results, or with a scan it owes a result for
and no room for it, or with a timer that runs outside its context. -/
def Obligations.EnginesKeepPlacesForResults : Prop :=
  ∀ (c : Instr) (s t : State), s.engA.KeepsPlaces → s.engB.KeepsPlaces → exec c s = .next t →
    t.engA.KeepsPlaces ∧ t.engB.KeepsPlaces

/-- R98, R125, R192: once set, the clock stays valid and the home code stays set, but for a power-on: the clock's
validity goes only when the backup supply fell below 2.2 V, the home code only when it fell below 2.0 V, or both when
retained memory had never been written. -/
def Obligations.OnlyAPowerOnUnsetsTheUnit : Prop :=
  ∀ (c : Instr) (s t : State), s.editsValid → exec c s = .next t →
    t.editsValid
      ∧ (s.clock.valid = true → t.clock.valid = false →
          ∃ v high, c = .powerOn v high ∧ (v < 2200 ∨ s.written = false))
      ∧ (s.settings.config.home ≠ none → t.settings.config.home = none →
          ∃ v high, c = .powerOn v high ∧ (v < 2000 ∨ s.written = false))

/-- Without power nothing but a power-on and the clock acts (R124, R192, R193): every other command leaves the part
as it is, or is a fault for its own operand (that a command that cannot take place changes nothing, and the fault for
an operand outside its page or sector, are the model's choice, log entry 5). The queue of commands is the step's own:
no command adds to it or takes from it. The two commands whose operand names bytes by address are the only ones that
can end in anything but a next state. -/
def Obligations.CommandsLeaveTheQueue : Prop :=
  (∀ (c : Instr) (s : State), s.power = .off → c ≠ .clockTick → (∀ v high, c ≠ .powerOn v high) →
      exec c s = .next s ∨ exec c s = .fault .noSuchAddress)
    ∧ (∀ (c : Instr) (s : State),
        (∃ t, exec c s = .next t ∧ t.pending = s.pending)
          ∨ exec c s = .fault .noSuchAddress
              ∧ ((∃ left, c = .eraseComplete left ∧ ∃ x ∈ left, 4096 ≤ x.1)
                ∨ ∃ page sector, c = .powerLoss page sector ∧ ((∃ x ∈ page, 256 ≤ x.1) ∨ ∃ x ∈ sector, 4096 ≤ x.1)))

/-! ### Labels and wands -/

/-- R1: a string is a valid label exactly when it is 14 decimal digits with digit 1 two or three, digits 2 and 3 in
the range of the kind, and digit 14 the check value; R2: what the label then gives. That the characters have their
ASCII codes is the model's choice (log entry 17). -/
def Obligations.ValidLabelsAreThoseOfTheTest : Prop :=
  ∀ (cs : List WandChar) (l : Label),
    labelOf cs = some l ↔
      ∃ d1 d2 d3 d4 d5 d6 d7 d8 d9 d10 d11 d12 d13 d14 : Nat,
        (∀ n ∈ [d1, d2, d3, d4, d5, d6, d7, d8, d9, d10, d11, d12, d13, d14], n ≤ 9)
          ∧ cs = [d1, d2, d3, d4, d5, d6, d7, d8, d9, d10, d11, d12, d13, d14].map
                  (fun n => .char (BitVec.ofNat 8 (48 + n)))
          ∧ (d1 = 3 ∧ 10 * d2 + d3 ≤ 15 ∨ d1 = 2 ∧ 10 * d2 + d3 ≤ 7)
          ∧ d14 = (10 - (d1 + 3 * d2 + d3 + 3 * d4 + d5 + 3 * d6 + d7 + 3 * d8 + d9 + 3 * d10 + d11 + 3 * d12 + d13) % 10)
                    % 10
          ∧ l = { digits := [d1, d2, d3, d4, d5, d6, d7, d8, d9, d10, d11, d12, d13, d14]
                  kind := if d1 = 3 then .item else .borrower
                  cls := 10 * d2 + d3
                  ident := { lib := 100 * d4 + 10 * d5 + d6
                             serial := 1000000 * d7 + 100000 * d8 + 10000 * d9 + 1000 * d10 + 100 * d11 + 10 * d12
                                        + d13 } }

/-- R5 to R9, R3: a wand message is put through the four checks in their order, and the first that fails decides it;
one that passes all four is queued with the clock's time. A message of line feeds alone, or of nothing, is none. The
codes of the characters are the model's choice (log entry 17). -/
def Obligations.WandMessageMeetsTheFourChecks : Prop :=
  ∀ (d : Desk) (chars : List WandChar) (s : State), noReturn chars = true → s.power = .running →
    let w := s.wand d
    let m := w.message chars
    (m = [] → exec (.wandMessage d chars) s = .next s)
      ∧ (m ≠ [] → s.opState = .unset ∨ s.opState = .closed →
          exec (.wandMessage d chars) s = .next (s.setWand d (w.sounding 3)))
      ∧ (m ≠ [] → s.opState = .opened ∨ s.opState = .returnsOnly →
          (labelOf m = none ∨ w.overLong = true → exec (.wandMessage d chars) s = .next (s.setWand d (w.sounding 3)))
            ∧ ∀ l, labelOf m = some l → w.overLong = false →
                (w.reads s.settings.config.window l.digits →
                    exec (.wandMessage d chars) s = .next (s.setWand d (w.sounding 1)))
                  ∧ (¬ w.reads s.settings.config.window l.digits → 16 ≤ (s.eng d).queue.length →
                      exec (.wandMessage d chars) s
                        = .next ((s.setWand d (w.sounding 3)).setEng d { s.eng d with scanLost := true }))
                  ∧ (¬ w.reads s.settings.config.window l.digits → (s.eng d).queue.length < 16 →
                      exec (.wandMessage d chars) s
                        = .next ((s.setWand d
                              { w.sounding 1 with memory := some { digits := l.digits, reading := w.elapsedMs } }).setEng d
                            { s.eng d with
                              queue := (s.eng d).queue
                                ++ [.scan { label := l, arrival := { day := s.clock.day, minute := s.clock.minute } }] })))

/-- R3 and R4: one character of a receive line; 500 ms of silence within a message; the pulses of a tone. A carriage
return alone ends what the buffer holds. A timer's command before its time changes nothing (the model's choice, log
entry 5); the codes 0D and 0A of carriage return and line feed are its choice too (log entry 17). -/
def Obligations.WandCharactersFillTheBuffer : Prop :=
  ∀ (d : Desk) (s : State), s.power = .running →
    let w := s.wand d
    (exec (.wandCharacter d (.char 0x0D#8)) s = exec (.wandMessage d []) s)
      ∧ (w.buffer = [] → exec (.wandCharacter d (.char 0x0A#8)) s = .next s)
      ∧ (∀ c, c ≠ .char 0x0D#8 → (c ≠ .char 0x0A#8 ∨ w.buffer ≠ []) → w.buffer.length < 32 →
          exec (.wandCharacter d c) s = .next (s.setWand d { w with buffer := w.buffer ++ [c], silentMs := 0 }))
      ∧ (∀ c, c ≠ .char 0x0D#8 → 32 ≤ w.buffer.length →
          exec (.wandCharacter d c) s = .next (s.setWand d { w with overLong := true, silentMs := 0 }))
      ∧ (w.buffer ≠ [] → 500 ≤ w.silentMs →
          exec (.wandPartialTimeout d) s = .next (s.setWand d { w with buffer := [], overLong := false, silentMs := 0 }))
      ∧ (w.buffer = [] ∨ w.silentMs < 500 → exec (.wandPartialTimeout d) s = .next s)
      ∧ (∀ n ms, w.tone = some { pulses := n, inPulse := true, ms := ms } → 100 ≤ ms →
          exec (.tonePulseEnd d) s
            = .next (s.setWand d
                { w with tone := if n ≤ 1 then none else some { pulses := n - 1, inPulse := false, ms := 0 } }))
      ∧ (∀ n ms, w.tone = some { pulses := n, inPulse := false, ms := ms } → 100 ≤ ms →
          exec (.tonePulseEnd d) s
            = .next (s.setWand d { w with tone := some { pulses := n, inPulse := true, ms := 0 } }))
      ∧ ((∀ t, w.tone = some t → t.ms < 100) → exec (.tonePulseEnd d) s = .next s)

/-! ### Requests -/

/-- R189: what a port makes of any request before its owner: nothing at all while it takes no frame, BUSY while a
request is in progress (that response waits until the request's own has been sent whole), NOT_PERMITTED from a port
that may not send it, BAD_REQUEST at a body length 12.6 does not allow. R168, R169: an Entry of such a length in a
session fits no kind, and its answer starts the gap timer again. A frame at a shut uplink port is discarded (the
model's reading, log entry 13); a RestartArm or a Restart answered BAD_REQUEST disarms its port, and a request's
frame discards a partly received one (its reading, log entry 22). -/
def Obligations.RequestsMeetThePortsTests : Prop :=
  ∀ (c : Instr) (s : State) (k : ReqKind) (p : Port) (tag : Byte) (body : List Byte),
    requestOf c = some (k, p, tag, body) →
      (s.accepts p = false → exec c s = .next s)
        ∧ (s.accepts p = true → (s.port p).inProgress ≠ none →
            exec c s = .next (s.setPort p { s.port p with rx := [], busy := (s.port p).busy ++ [tag] }))
        ∧ (s.free p → k.permitted p = false →
            exec c s = .next (s.answered p k tag .notPermitted .empty))
        ∧ (s.free p → k.permitted p = true → k.allows body.length = false →
            (k ≠ .downloadEntry ∨ s.exch.expired = true ∨ s.exch.session = none →
                exec c s = .next (s.answered p k tag .badRequest .empty))
              ∧ (k = .downloadEntry → s.exch.expired = false → s.exch.session ≠ none →
                  exec c s = .next (s.entryRefused tag)))

/-- R11: KeyIn of a desk port with no request in progress is answered by its table; a body of a length 12.6 does not
allow meets the port's own test (R189). From the uplink port KeyIn is NOT_PERMITTED. R34: SetMode is answered by the
first line that applies. A body that passes line 1 is a mode of the four and, for Return alone, a backdate day; in
12.6's encoding one byte of mode, and a presence byte with two bytes of day. A presence byte other than 0 and 1 is
BAD_REQUEST (the model's choice, log entry 16); the codes of the typed characters are its choice too (log entry 17). -/
def Obligations.KeyInAndSetModeAreAnsweredByTheirTables : Prop :=
  ((∀ (d : Desk) (tag : Byte) (body : List Byte) (s : State), s.free (.desk d) →
      (body = [] ∨ 32 < body.length →
          exec (.keyIn (.desk d) tag body) s = .next (s.answered (.desk d) .keyIn tag .badRequest .empty))
        ∧ (1 ≤ body.length → body.length ≤ 32 →
            (s.opState = .unset →
                exec (.keyIn (.desk d) tag body) s = .next (s.answered (.desk d) .keyIn tag .unitUnset .empty))
              ∧ (s.opState = .closed →
                  exec (.keyIn (.desk d) tag body) s = .next (s.answered (.desk d) .keyIn tag .wrongState .empty))
              ∧ (s.opState = .opened ∨ s.opState = .returnsOnly → labelOf (body.map .char) = none →
                  exec (.keyIn (.desk d) tag body) s = .next (s.answered (.desk d) .keyIn tag .badRequest .empty)))
        ∧ (∀ l, labelOf (body.map .char) = some l →
            s.placesEntry d .keyIn tag (.scan { label := l, arrival := { day := s.clock.day, minute := s.clock.minute } })
              (exec (.keyIn (.desk d) tag body) s)))
      ∧ ∀ (tag : Byte) (body : List Byte) (s : State), s.free .uplink →
          exec (.keyIn .uplink tag body) s = .next (s.answered .uplink .keyIn tag .notPermitted .empty))
    ∧ (∀ (d : Desk) (tag : Byte) (body : List Byte) (s : State), s.free (.desk d) →
        (∀ m, body = [BitVec.ofNat 8 m.number, 0#8] →
            s.placesEntry d .setMode tag (.modeMarker m none) (exec (.setMode (.desk d) tag body) s))
          ∧ (∀ b, b ≤ 65535 → body = [2#8, 1#8, BitVec.ofNat 8 (b / 256), BitVec.ofNat 8 b] →
              s.placesEntry d .setMode tag (.modeMarker .returns (some b)) (exec (.setMode (.desk d) tag body) s))
          ∧ ((∀ m : Mode, body ≠ [BitVec.ofNat 8 m.number, 0#8]) → (∀ hi lo, body ≠ [2#8, 1#8, hi, lo]) →
              exec (.setMode (.desk d) tag body) s = .next (s.answered (.desk d) .setMode tag .badRequest .empty)))

/-- R33 and R32: Status reports the desk as it stands and clears two marks once it is composed; ReadResult takes the
oldest result, or answers EMPTY and sets the read-empty mark. R35: Close is answered by the operating state and the
room in the scan queue, and places a close marker. R37, R193: the desk's attention line is high while the part runs
and a result waits, or the context is AwaitOverride or SlipWait. Remaining seconds are the limit less the whole
seconds run (the model's choice, log entry 4); that an override at the store counts as in service, and a borrower
scan held behind a waiting slip does not, is its reading (log entry 11). -/
def Obligations.StatusReadResultAndCloseAnswerAtOnce : Prop :=
  (∀ (d : Desk) (tag : Byte) (s : State), s.free (.desk d) →
      let e := s.eng d
      (∃ r : StatusReport,
          exec (.status (.desk d) tag []) s
              = .next ((s.answered (.desk d) .status tag .ok (.status r)).setEng d
                  { e with scanLost := false, readEmpty := false })
            ∧ r.opState = s.opState ∧ r.mode = e.mode ∧ r.backdate = e.backdate ∧ r.entries = e.queue.length
            ∧ r.markers = (e.queue.filter (fun x => match x with | .scan _ => false | _ => true)).length
            ∧ r.inService = e.service.isSome ∧ r.results = e.results.length
            ∧ r.late = e.late ∧ r.scanLost = e.scanLost ∧ r.readEmpty = e.readEmpty
            ∧ (e.ctx = .idle → r.ctx = .idle)
            ∧ (∀ ss, e.ctx = .session ss →
                r.ctx = .session ss.label ss.mark ss.issued.length (secondsLeft 180 e.idleMs))
            ∧ (∀ h, e.ctx = .awaitOverride h →
                r.ctx = .awaitOverride h.scan.label.digits h.stop h.session.isSome (secondsLeft 60 e.overrideMs))
            ∧ (∀ x f, e.ctx = .slipWait x f → r.ctx = .slipWait x.kind f))
        ∧ (e.results = [] →
            exec (.readResult (.desk d) tag []) s
              = .next ((s.answered (.desk d) .readResult tag .empty .empty).setEng d { e with readEmpty := true }))
        ∧ (∀ r rest, e.results = r :: rest →
            exec (.readResult (.desk d) tag []) s
              = .next ((s.answered (.desk d) .readResult tag .ok (.result r)).setEng d { e with results := rest })))
    ∧ (∀ (d : Desk) (tag : Byte) (s : State), s.free (.desk d) →
        s.placesEntry d .close tag .closeMarker (exec (.close (.desk d) tag []) s))
    ∧ ∀ (d : Desk) (s : State),
        s.deskAttention d = true
          ↔ s.power = .running
              ∧ ((s.eng d).results ≠ [] ∨ (∃ h, (s.eng d).ctx = .awaitOverride h) ∨ ∃ x f, (s.eng d).ctx = .slipWait x f)

/-! ### Overrides, declines and slips -/

/-- R27, R28 and the table of R36: an Override waits while an entry is in service (R16). Otherwise the late mark, the
operating state and the context refuse it in that order, or the override timer stops and the store is sent the
borrower check, or the override transaction of the held scan's stop for the borrower of the session behind it. An
override at the store counts as in service (the model's reading, log entry 11). -/
def Obligations.OverrideRequestReachesTheHeldScan : Prop :=
  ∀ (d : Desk) (tag : Byte) (s : State), s.free (.desk d) →
    let e := s.eng d
    let c : Instr := .override (.desk d) tag []
    (e.service ≠ none →
        exec c s = .next ((s.taken (.desk d) .override tag).setEng d { e with deferred := e.deferred ++ [.override] }))
      ∧ (e.service = none → e.deferred = [] →
          (e.late = true →
              exec c s = .next ((s.answered (.desk d) .override tag .tooLate .empty).setEng d { e with late := false }))
            ∧ (e.late = false → s.opState = .unset →
                exec c s = .next (s.answered (.desk d) .override tag .unitUnset .empty))
            ∧ (e.late = false → s.opState = .closed →
                exec c s = .next (s.answered (.desk d) .override tag .wrongState .empty))
            ∧ (e.late = false → s.opState = .opened ∨ s.opState = .returnsOnly → (∀ h, e.ctx ≠ .awaitOverride h) →
                exec c s = .next (s.answered (.desk d) .override tag .wrongState .empty))
            ∧ ∀ h, e.late = false → s.opState = .opened ∨ s.opState = .returnsOnly → e.ctx = .awaitOverride h →
                let t0 := (s.taken (.desk d) .override tag).setEng d
                  { e with service := some .overriding, overrideMs := none }
                (∀ rs, h.stop = .blocked rs →
                    exec c s = .next (t0.sendTxn (.engine d) (.borrowerCheck h.scan.label.ident)))
                  ∧ ∀ ss, h.session = some ss →
                      let q : LoanReq :=
                        { item := h.scan.label.ident, cls := h.scan.label.cls, borrower := ss.borrower,
                          category := ss.category, mark := ss.mark,
                          time := { day := s.clock.day, minute := s.clock.minute } }
                      (∀ other, h.stop = .onLoan other →
                          exec c s = .next (t0.sendTxn (.engine d) (.overrideLoan q other)))
                        ∧ ∀ holder, h.stop = .held holder →
                            exec c s = .next (t0.sendTxn (.engine d) (.overrideHold q holder)))

/-- R29 and the table of R36: a Decline, or the override timer at 60 s, declines the held scan: its result is placed,
the session behind it goes on or the context is Idle; the timer sets the late mark and answers no request. The fields
of the result are those of the stop (R31). The timer's command before its 60 s, or in another context, changes
nothing (the model's choice, log entry 5). -/
def Obligations.HeldScansAreDeclined : Prop :=
  (∀ rs, (Stop.blocked rs).declined = { verdict := .declined, reasons := some rs })
    ∧ (∀ other, (Stop.onLoan other).declined = { verdict := .declined, other := some other })
    ∧ (∀ holder, (Stop.held holder).declined = { verdict := .declined, holder := some holder })
    ∧ ∀ (d : Desk) (tag : Byte) (s : State),
    let e := s.eng d
    (s.free (.desk d) → e.service ≠ none →
        exec (.decline (.desk d) tag []) s
          = .next ((s.taken (.desk d) .decline tag).setEng d { e with deferred := e.deferred ++ [.decline] }))
      ∧ (s.free (.desk d) → e.service = none → e.deferred = [] →
          (e.late = true →
              exec (.decline (.desk d) tag []) s
                = .next ((s.answered (.desk d) .decline tag .tooLate .empty).setEng d { e with late := false }))
            ∧ (e.late = false → s.opState = .unset →
                exec (.decline (.desk d) tag []) s = .next (s.answered (.desk d) .decline tag .unitUnset .empty))
            ∧ (e.late = false → s.opState = .closed ∨ (s.opState ≠ .unset ∧ ∀ h, e.ctx ≠ .awaitOverride h) →
                exec (.decline (.desk d) tag []) s = .next (s.answered (.desk d) .decline tag .wrongState .empty))
            ∧ ∀ h, e.late = false → s.opState = .opened ∨ s.opState = .returnsOnly → e.ctx = .awaitOverride h →
                let e1 : Engine := { e with
                  results := e.results ++ [{ label := h.scan.label.digits, fields := h.stop.declined }]
                  overrideMs := none }
                (h.session = none →
                    exec (.decline (.desk d) tag []) s
                      = .next ((s.answered (.desk d) .decline tag .ok .empty).setEng d
                          { e1 with ctx := .idle, idleMs := none }))
                  ∧ ∀ ss, h.session = some ss →
                      exec (.decline (.desk d) tag []) s
                        = .next ((s.answered (.desk d) .decline tag .ok .empty).setEng d
                            { e1 with ctx := .session ss, idleMs := some 0 }))
      ∧ (s.engineFree d → ∀ h ms, e.ctx = .awaitOverride h → e.overrideMs = some ms → 60000 ≤ ms →
          let e1 : Engine := { e with
            results := e.results ++ [{ label := h.scan.label.digits, fields := h.stop.declined }]
            overrideMs := none
            late := true }
          (h.session = none →
              exec (.overrideTimerExpiry d) s = .next (s.setEng d { e1 with ctx := .idle, idleMs := none }))
            ∧ ∀ ss, h.session = some ss →
                exec (.overrideTimerExpiry d) s = .next (s.setEng d { e1 with ctx := .session ss, idleMs := some 0 }))
      ∧ (s.engineFree d → (∀ h, e.ctx ≠ .awaitOverride h) ∨ (∀ ms, e.overrideMs = some ms → ms < 60000) →
          exec (.overrideTimerExpiry d) s = .next s)

/-- R36, R25: DropSlip waits while an entry is in service, is refused by the operating state and by any context but
SlipWait, and else discards the waiting slip, takes the desk off the printer's waiting list and performs the
follow-on. A borrower scan that waits behind the slip is not in service (the model's reading, log entry 11). -/
def Obligations.DropSlipDiscardsTheWaitingSlip : Prop :=
  ∀ (d : Desk) (tag : Byte) (s : State), s.free (.desk d) →
    let e := s.eng d
    let c : Instr := .dropSlip (.desk d) tag []
    (e.service ≠ none →
        exec c s = .next ((s.taken (.desk d) .dropSlip tag).setEng d { e with deferred := e.deferred ++ [.dropSlip] }))
      ∧ (e.service = none → e.deferred = [] →
          (s.opState = .unset → exec c s = .next (s.answered (.desk d) .dropSlip tag .unitUnset .empty))
            ∧ (s.opState = .closed → exec c s = .next (s.answered (.desk d) .dropSlip tag .wrongState .empty))
            ∧ (s.opState = .opened ∨ s.opState = .returnsOnly → (∀ x f, e.ctx ≠ .slipWait x f) →
                exec c s = .next (s.answered (.desk d) .dropSlip tag .wrongState .empty))
            ∧ ∀ x f, s.opState = .opened ∨ s.opState = .returnsOnly → e.ctx = .slipWait x f →
                let t0 : State :=
                  { s.answered (.desk d) .dropSlip tag .ok (.slipDropped x.kind) with
                    printer := { s.printer with waitList := s.printer.waitList.filter (fun y => decide (y ≠ d)) } }
                (f = .idle → exec c s = .next (t0.setEng d { e with ctx := .idle, idleMs := none }))
                  ∧ (∀ ss, f = .resume ss → exec c s = .next (t0.setEng d { e with ctx := .session ss, idleMs := some 0 }))
                  ∧ (∀ sc, f = .serveBorrower sc → s.opState = .opened →
                      exec c s
                        = .next ((t0.setEng d
                            { e with ctx := .idle, idleMs := none, service := some (.entry sc) }).sendTxn (.engine d)
                              (.borrowerCheck sc.label.ident)))
                  ∧ (∀ sc, f = .serveBorrower sc → s.opState = .returnsOnly →
                      exec c s
                        = .next (t0.setEng d
                            { e with ctx := .idle, idleMs := none,
                                     results := e.results ++
                                       [{ label := sc.label.digits, fields := { verdict := .notOpen } }] }))
                  ∧ (∀ ss, f = .closeResumed ss → exec c s = .next (t0.sessionClosed d ss e)))

/-! ### Entries taken -/

/-- R16, R18 and R19: an engine that may take an entry takes the one at the front; a mode marker sets the mode and
the backdate day and closes a session it takes out of Checkout; a close marker closes a session and places
SESSION_CLOSED. R16: an engine whose context is neither Idle nor Session, or with 16 results, or with an entry in
service, or with nothing queued, takes nothing; that such a command then changes nothing is the model's choice (log
entry 5). -/
def Obligations.MarkersActWhenTaken : Prop :=
  (∀ (d : Desk) (s : State) (en : Entry) (rest : List Entry), s.engineFree d → (s.eng d).results.length < 16 →
      (s.eng d).queue = en :: rest →
        let e : Engine := { s.eng d with queue := rest, idleMs := none, late := false }
        (∀ m b, en = .modeMarker m b →
            let e1 : Engine := { e with mode := m, backdate := if m = .returns then b else none }
            ((s.eng d).ctx = .idle → exec (.takeEntry d) s = .next (s.setEng d e1))
              ∧ ∀ ss, (s.eng d).ctx = .session ss →
                  (m = .checkout → exec (.takeEntry d) s = .next (s.setEng d { e1 with idleMs := some 0 }))
                    ∧ (m ≠ .checkout → exec (.takeEntry d) s = .next (s.sessionClosed d ss e1)))
          ∧ (en = .closeMarker →
              ((s.eng d).ctx = .idle → exec (.takeEntry d) s = .next (s.setEng d e))
                ∧ ∀ ss, (s.eng d).ctx = .session ss →
                    exec (.takeEntry d) s
                      = .next (s.sessionClosed d ss
                          { e with results := e.results ++
                              [{ label := ss.label, fields := { verdict := .sessionClosed } }] })))
    ∧ (∀ (d : Desk) (s : State), s.power = .running → ((s.eng d).deferred = [] ∨ (s.eng d).service ≠ none) →
        ((∃ h, (s.eng d).ctx = .awaitOverride h) ∨ (∃ x f, (s.eng d).ctx = .slipWait x f) ∨ 16 ≤ (s.eng d).results.length
          ∨ (s.eng d).service ≠ none ∨ (s.eng d).queue = []) →
        exec (.takeEntry d) s = .next s)

/-- R17: a scan taken in an operating state that does not serve its mode gets NOT_OPEN, its context unchanged, and
the store is not reached. -/
def Obligations.ScansOutOfHoursGetNotOpen : Prop :=
  ∀ (d : Desk) (s : State) (sc : Scan) (rest : List Entry), s.engineFree d → (s.eng d).results.length < 16 →
    (s.eng d).queue = .scan sc :: rest →
    (s.opState = .closed ∨ s.opState = .unset
      ∨ s.opState = .returnsOnly ∧ ((s.eng d).mode = .checkout ∨ (s.eng d).mode = .renew)) →
      let e : Engine := { s.eng d with
        queue := rest
        late := false
        results := (s.eng d).results ++ [{ label := sc.label.digits, fields := { verdict := .notOpen } }] }
      ((s.eng d).ctx = .idle → exec (.takeEntry d) s = .next (s.setEng d { e with idleMs := none }))
        ∧ ∀ ss, (s.eng d).ctx = .session ss → exec (.takeEntry d) s = .next (s.setEng d { e with idleMs := some 0 })

/-- R17, R20, R22 and R23: a scan taken in an operating state that serves its mode: the transaction it sends the
store, by mode and kind of label; without one, NO_BORROWER for an item outside a session and BORROWER_SET for the
session's own borrower. A different borrower's scan ends the session first; where its due slip finds the queue full,
the scan waits behind it, out of service meanwhile (the model's reading, log entry 11). -/
def Obligations.ScansAreServedByModeAndLabel : Prop :=
  ∀ (d : Desk) (s : State) (sc : Scan) (rest : List Entry), s.engineFree d → (s.eng d).results.length < 16 →
    (s.eng d).queue = .scan sc :: rest →
      let e : Engine := { s.eng d with queue := rest, idleMs := none, late := false }
      let id := sc.label.ident
      let sends := fun (ctx : Ctx) (t : Txn) =>
        exec (.takeEntry d) s
          = .next ((s.setEng d { e with ctx := ctx, service := some (.entry sc) }).sendTxn (.engine d) t)
      (s.opState = .opened ∨ s.opState = .returnsOnly → (s.eng d).ctx = .idle ∨ (∃ ss, (s.eng d).ctx = .session ss) →
          (e.mode = .returns → sc.label.kind = .item → sends e.ctx (.discharge id sc.arrival e.backdate))
            ∧ (e.mode = .inquiry → sc.label.kind = .item → sends e.ctx (.itemInquiry id))
            ∧ (e.mode = .returns ∨ e.mode = .inquiry → sc.label.kind = .borrower → sends e.ctx (.borrowerInquiry id)))
        ∧ (s.opState = .opened → (s.eng d).ctx = .idle ∨ (∃ ss, (s.eng d).ctx = .session ss) →
            (e.mode = .renew → sc.label.kind = .item → sends e.ctx (.renew id sc.arrival))
              ∧ (e.mode = .renew → sc.label.kind = .borrower → sends e.ctx (.borrowerInquiry id)))
        ∧ (s.opState = .opened → e.mode = .checkout → (s.eng d).ctx = .idle →
            (sc.label.kind = .borrower → sends .idle (.borrowerCheck id))
              ∧ (sc.label.kind = .item →
                  exec (.takeEntry d) s = .next (s.setEng d (e.ended sc.label.digits { verdict := .noBorrower }))))
        ∧ (s.opState = .opened → e.mode = .checkout → ∀ ss, (s.eng d).ctx = .session ss →
            (sc.label.kind = .item →
                sends e.ctx (.issue
                  { item := id, cls := sc.label.cls, borrower := ss.borrower, category := ss.category, mark := ss.mark,
                    time := sc.arrival }))
              ∧ (sc.label.kind = .borrower → id = ss.borrower →
                  exec (.takeEntry d) s
                    = .next (s.setEng d ((e.ended sc.label.digits { verdict := .borrowerSet }).inSession ss)))
              ∧ (sc.label.kind = .borrower → id ≠ ss.borrower → ss.issued = [] → sends .idle (.borrowerCheck id))
              ∧ (sc.label.kind = .borrower → id ≠ ss.borrower → ss.issued ≠ [] → s.printer.queue.length < 8 →
                  exec (.takeEntry d) s
                    = .next (State.sendTxn
                        { s.setEng d { e with ctx := .idle, service := some (.entry sc) } with
                          printer := s.printer.join (s.slipOf d ss) } (.engine d) (.borrowerCheck id)))
              ∧ (sc.label.kind = .borrower → id ≠ ss.borrower → ss.issued ≠ [] → 8 ≤ s.printer.queue.length →
                  exec (.takeEntry d) s
                    = .next { s.setEng d { e with ctx := .slipWait (s.slipOf d ss) (.serveBorrower sc) } with
                              printer := { s.printer with waitList := s.printer.waitList ++ [d] } }))

/-- R24, R21: the idle timer at 180 s closes the session with follow-on Idle and places no result; before that, or
outside a session, its expiry is no event. That such a command changes nothing is the model's choice (log entry 5). -/
def Obligations.IdleTimerClosesTheSession : Prop :=
  ∀ (d : Desk) (s : State), s.engineFree d →
    (∀ ss ms, (s.eng d).ctx = .session ss → (s.eng d).idleMs = some ms → 180000 ≤ ms →
        (ss.issued = [] →
            exec (.idleTimerExpiry d) s = .next (s.setEng d { s.eng d with ctx := .idle, idleMs := none }))
          ∧ (ss.issued ≠ [] → s.printer.queue.length < 8 →
              exec (.idleTimerExpiry d) s
                = .next { s.setEng d { s.eng d with ctx := .idle, idleMs := none } with
                          printer := s.printer.join (s.slipOf d ss) })
          ∧ (ss.issued ≠ [] → 8 ≤ s.printer.queue.length →
              exec (.idleTimerExpiry d) s
                = .next { s.setEng d { s.eng d with ctx := .slipWait (s.slipOf d ss) .idle, idleMs := none } with
                          printer := { s.printer with waitList := s.printer.waitList ++ [d] } }))
      ∧ ((∀ ms, (s.eng d).idleMs = some ms → ms < 180000) → exec (.idleTimerExpiry d) s = .next s)

/-- R128, R16, R30: a level of the OPEN line gives the operating state anew by the table of R128; leaving Open
reaches both contexts, where it waits for the end of service. R30: a context with nothing in service acts on the
operating state having left Open: a session is closed; a held scan is declined with the late mark set, and the
session behind it closed; a waiting slip waits on, to close the session it would have resumed. R16: an Override, a
Decline or a DropSlip that came while an entry was in service is acted on when the store's outcome ends that service,
on the context the outcome leaves; a change of operating state that came then waits on, and a request behind it is
acted on after it. Where the change stands until LEAVE_OPEN is the model's reading (log entry 9), and that an
override at the store counts as in service (log entry 11). -/
def Obligations.OpenLineSetsTheStateAndContextsLeaveOpen : Prop :=
  (∀ (high : Bool) (s : State), s.power ≠ .off →
      (s.clock.valid = false ∨ s.settings.config.home = none →
          exec (.openLine high) s = .next { s with openLine := high, opState := .unset })
        ∧ (s.clock.valid = true → s.settings.config.home ≠ none → high = true →
            exec (.openLine high) s = .next { s with openLine := true, opState := .opened })
        ∧ (s.clock.valid = true → s.settings.config.home ≠ none → high = false →
            let o : OpState := if s.settings.config.policy = .returns then .returnsOnly else .closed
            (s.opState ≠ .opened → exec (.openLine high) s = .next { s with openLine := false, opState := o })
              ∧ (s.opState = .opened → .leaveOpen ∉ s.engA.deferred → .leaveOpen ∉ s.engB.deferred →
                  exec (.openLine high) s
                    = .next { s with
                        openLine := false
                        opState := o
                        engA := { s.engA with deferred := s.engA.deferred ++ [.leaveOpen] }
                        engB := { s.engB with deferred := s.engB.deferred ++ [.leaveOpen] } })))
    ∧ (∀ (d : Desk) (s : State), s.power = .running → (s.eng d).service = none → (s.eng d).deferred = [.leaveOpen] →
        let e : Engine := { s.eng d with deferred := [] }
        (e.ctx = .idle → exec (.leaveOpen d) s = .next (s.setEng d e))
          ∧ (∀ ss, e.ctx = .session ss → exec (.leaveOpen d) s = .next (s.sessionClosed d ss e))
          ∧ (∀ h, e.ctx = .awaitOverride h →
              let e1 : Engine := { e with
                results := e.results ++ [{ label := h.scan.label.digits, fields := h.stop.declined }]
                overrideMs := none
                late := true }
              (h.session = none → exec (.leaveOpen d) s = .next (s.setEng d { e1 with ctx := .idle, idleMs := none }))
                ∧ ∀ ss, h.session = some ss → exec (.leaveOpen d) s = .next (s.sessionClosed d ss e1))
          ∧ (∀ x ss, e.ctx = .slipWait x (.resume ss) →
              exec (.leaveOpen d) s = .next (s.setEng d { e with ctx := .slipWait x (.closeResumed ss) }))
          ∧ (∀ x f, e.ctx = .slipWait x f → (∀ ss, f ≠ .resume ss) → exec (.leaveOpen d) s = .next (s.setEng d e)))
    ∧ (∀ (d : Desk) (c : Instr) (s t : State) (ev : CtxEvent) (rest : List CtxEvent),
        c ∈ [.issue d, .overrideOnLoanElsewhere d, .overrideHeldForOther d, .discharge d, .renew d, .itemInquiry d,
          .borrowerCheck d, .borrowerInquiry d] →
        (s.eng d).service ≠ none → (s.eng d).deferred = ev :: rest → s.journal.idle →
        exec c (s.setEng d { s.eng d with deferred := [] }) = .next t → (t.eng d).service = none →
        (ev = .leaveOpen → exec c s = .next (t.setEng d { t.eng d with deferred := ev :: rest }))
          ∧ ∀ r, ev ≠ .leaveOpen → rest = [] ∨ rest = [.leaveOpen] → (t.port (.desk d)).inProgress = some r →
              ∃ u, exec c s = .next u ∧ t.eventMeets d ev { t.eng d with deferred := rest } r u)
    ∧ (∀ (d : Desk) (s t : State) (ev : CtxEvent) (r : InProgress),
        s.power = .running → (s.eng d).service = none → (s.eng d).deferred = [.leaveOpen, ev] → ev ≠ .leaveOpen →
        exec (.leaveOpen d) (s.setEng d { s.eng d with deferred := [.leaveOpen] }) = .next t →
        (t.port (.desk d)).inProgress = some r →
        ∃ u, exec (.leaveOpen d) s = .next u ∧ t.eventMeets d ev (t.eng d) r u)

/-- R75, R77 and R78, lines 1 to 3: the port tests the body and the operating state and sends the store its
transaction. The bodies are those of 12.6: an identity is library code and serial, a label its 14 characters, whose
codes are the model's choice (log entry 17). -/
def Obligations.BorrowerRequestsReachTheStore : Prop :=
  ∀ (d : Desk) (tag : Byte) (s : State), s.free (.desk d) →
    (∀ lib serial amount : Nat, lib < 65536 → serial < 4294967296 → amount < 4294967296 →
        let body := be2 lib ++ be4 serial ++ be4 amount
        (lib ≤ 999 ∧ serial ≤ 9999999 ∧ 1 ≤ amount ∧ amount ≤ 1000000 →
            s.sendsTxn d .payment tag (.payment { lib := lib, serial := serial } amount)
              (exec (.payment (.desk d) tag body) s))
          ∧ (¬ (lib ≤ 999 ∧ serial ≤ 9999999 ∧ 1 ≤ amount ∧ amount ≤ 1000000) →
              exec (.payment (.desk d) tag body) s = .next (s.answered (.desk d) .payment tag .badRequest .empty)))
      ∧ (∀ (label : List Byte) (code : Nat), label.length = 14 → code < 256 →
          let body := label ++ [BitVec.ofNat 8 code]
          (∀ l, labelOf (label.map .char) = some l → l.kind = .borrower → 1 ≤ code →
              s.sendsTxn d .setLocalBlock tag (.setLocal l.ident l.cls code)
                (exec (.setLocalBlock (.desk d) tag body) s))
            ∧ (labelOf (label.map .char) = none ∨ (∃ l, labelOf (label.map .char) = some l ∧ l.kind = .item) ∨ code = 0 →
                exec (.setLocalBlock (.desk d) tag body) s
                  = .next (s.answered (.desk d) .setLocalBlock tag .badRequest .empty)))
      ∧ (∀ lib serial : Nat, lib < 65536 → serial < 4294967296 →
          let body := be2 lib ++ be4 serial
          (lib ≤ 999 ∧ serial ≤ 9999999 →
              s.sendsTxn d .clearLocalBlock tag (.clearLocal { lib := lib, serial := serial })
                (exec (.clearLocalBlock (.desk d) tag body) s))
            ∧ (¬ (lib ≤ 999 ∧ serial ≤ 9999999) →
                exec (.clearLocalBlock (.desk d) tag body) s
                  = .next (s.answered (.desk d) .clearLocalBlock tag .badRequest .empty)))

/-! ### Transactions of the circulation store -/

/-- R40, R46, R52, R66, R68, R74, R83, R85, R86: what inserting and removing a loan does to the three collections:
the lowest free place, the borrower's counts, owed amount and clamped mark, a record left empty, a hold picked up or
lent past. -/
def Obligations.LoansMoveTheirBorrowersCounts : Prop :=
  (∀ t : Table Loan, Table.rising t = true →
      Table.get t (Table.lowestFree t) = none ∧ ∀ k, k < Table.lowestFree t → (Table.get t k).isSome = true)
    ∧ (∀ (c : Circ) (slot fine : Nat) (l : Loan),
        (c.discharge slot l fine).loans = Table.del c.loans slot ∧ (c.discharge slot l fine).holds = c.holds
          ∧ (c.borrower l.borrower = none → (c.discharge slot l fine).borrowers = c.borrowers)
          ∧ ∀ b, c.borrower l.borrower = some b →
              let b1 : Borrower := { b with
                loans := b.loans - 1
                overdue := b.overdue - (if l.overdue then 1 else 0)
                owed := min (b.owed + fine) 1000000
                clamped := b.clamped || decide (1000000 < b.owed + fine) }
              (b1.loans = 0 ∧ b1.owed = 0 ∧ b1.localBlock = none ∧ b1.central = none →
                  (c.discharge slot l fine).borrowers = Table.del c.borrowers l.borrower.key)
                ∧ (¬ (b1.loans = 0 ∧ b1.owed = 0 ∧ b1.localBlock = none ∧ b1.central = none) →
                    (c.discharge slot l fine).borrowers = Table.put c.borrowers l.borrower.key b1))
    ∧ ∀ (c : Circ) (q : LoanReq) (l : Loan),
        (c.issue q l).loans = Table.put c.loans (Table.lowestFree c.loans) l
          ∧ (∀ b, c.borrower q.borrower = some b →
              (c.issue q l).borrowers = Table.put c.borrowers q.borrower.key { b with loans := b.loans + 1 })
          ∧ (c.borrower q.borrower = none →
              (c.issue q l).borrowers
                = Table.put c.borrowers q.borrower.key
                    { category := q.category, expiry := none, owed := 0, clamped := false, loans := 1, overdue := 0,
                      localBlock := none, central := none })
          ∧ (c.holdOf q.item = none → (c.issue q l).holds = c.holds)
          ∧ ∀ p h, c.holdOf q.item = some (p, h) →
              (h.holder = q.borrower → (c.issue q l).holds = Table.del c.holds p)
                ∧ (h.holder ≠ q.borrower → h.state = .trapped →
                    (c.issue q l).holds
                      = Table.put c.holds p { h with state := .waiting, deadline := none, stale := false })
                ∧ (h.holder ≠ q.borrower → h.state = .waiting → (c.issue q l).holds = Table.put c.holds p h)

/-- R44 to R46, R23: an Issue that passes its checks inserts the loan, with its record or records, and gives ISSUED
with the due; the item joins the session's issued list. A journal that refuses the records makes it JOURNAL_FULL, and
no table changes (R42). -/
def Obligations.IssueThatPassesIsGranted : Prop :=
  ∀ (d : Desk) (s : State) (q : LoanReq) (sc : Scan) (ss : Session),
    s.ServesInSession d (.issue q) sc ss → s.journal.idle → s.settings.isForeign q.item.lib = false →
    (∀ b, s.circ.borrower q.borrower = some b → b.central = none) → s.circ.loanOf q.item = none →
    (∀ p h, s.circ.holdOf q.item = some (p, h) → h.holder = q.borrower) →
    let cat := s.circ.categoryOf q.borrower q.category
    s.circ.loanCount q.borrower < (s.settings.category cat).limit → s.circ.loans.length < 4096 →
    ((s.circ.borrower q.borrower).isSome = true ∨ s.circ.borrowers.length < 1024) →
    let rule := s.settings.rule q.cls cat
    let due := dueFor s.settings rule q.time (s.circ.expiryOf q.borrower)
    let loan : Loan :=
      { item := q.item, cls := q.cls, borrower := q.borrower, unit := rule.unit, issued := q.time, due := due,
        renewals := 0, source := d, gen := s.roll.gen, overdue := false, overrideUsed := q.mark,
        foreign := s.settings.isConsortium q.item.lib }
    let pickup : List Draft :=
      if (s.circ.holdOf q.item).isSome then
        [{ source := .desk d, time := some q.time, flags := { }, body := .holdPickup q.item q.borrower }] else []
    let drafts : List Draft := pickup ++
      [{ source := .desk d, time := some q.time,
         flags := { overrideUsed := q.mark, foreign := loan.foreign, minute := decide (rule.unit = .minute) },
         body := .issue q.item q.borrower due }]
    (∀ j, s.journal.accept s.now drafts = .done j →
        exec (.issue d) s
          = .next ((s.committed (.engine d) (s.circ.issue q loan) j).listed d
              ((s.eng d).ended sc.label.digits { verdict := .issued, due := some due }) ss
              { item := sc.label.ident, due := due }))
      ∧ (s.journal.accept s.now drafts = .full →
          exec (.issue d) s
            = .next ((s.tookFrom (.engine d)).setEng d
                (((s.eng d).ended sc.label.digits { verdict := .journalFull }).inSession ss)))

/-- R44, R45, R42, R23: the first check an Issue fails decides its outcome; it changes no table and makes no record.
The stops staff may overrule hold the scan; CENTRAL_BLOCK closes the session; every other outcome leaves it as it
was. -/
def Obligations.IssueThatFailsChangesNoTable : Prop :=
  ∀ (d : Desk) (s : State) (q : LoanReq) (sc : Scan) (ss : Session), s.ServesInSession d (.issue q) sc ss →
    let t := s.tookFrom (.engine d)
    let goesOn := fun f => exec (.issue d) s = .next (t.setEng d (((s.eng d).ended sc.label.digits f).inSession ss))
    let stops := fun st =>
      exec (.issue d) s = .next (t.setEng d ((s.eng d).holding { scan := sc, stop := st, session := some ss }))
    (s.settings.isForeign q.item.lib = true → goesOn { verdict := .foreignLabel })
      ∧ (s.settings.isForeign q.item.lib = false →
          (∀ b, s.circ.borrower q.borrower = some b → b.central ≠ none →
              exec (.issue d) s
                = .next (t.sessionClosed d ss ((s.eng d).ended sc.label.digits
                    { verdict := .centralBlock, reasons := some (reasonsOf s.settings s.clock.day b) })))
            ∧ ((∀ b, s.circ.borrower q.borrower = some b → b.central = none) →
                (∀ slot l, s.circ.loanOf q.item = some (slot, l) →
                    (l.borrower = q.borrower → goesOn { verdict := .alreadyIssued, due := some l.due })
                      ∧ (l.borrower ≠ q.borrower → stops (.onLoan l.borrower)))
                  ∧ (s.circ.loanOf q.item = none →
                      (∀ p h, s.circ.holdOf q.item = some (p, h) → h.holder ≠ q.borrower → stops (.held h.holder))
                        ∧ ((∀ p h, s.circ.holdOf q.item = some (p, h) → h.holder = q.borrower) →
                            let limit := (s.settings.category (s.circ.categoryOf q.borrower q.category)).limit
                            (limit ≤ s.circ.loanCount q.borrower → goesOn { verdict := .limitReached })
                              ∧ (s.circ.loanCount q.borrower < limit →
                                  (4096 ≤ s.circ.loans.length ∨
                                      (s.circ.borrower q.borrower = none ∧ 1024 ≤ s.circ.borrowers.length)) →
                                  goesOn { verdict := .tableFull })))))

/-- R47, R48, R28: the override of ON_LOAN_ELSEWHERE, its checks passed: the named borrower's loan is discharged with
its fine and the item issued, the override-used mark set; an item on loan to no one is issued alike. One now on loan
to a third borrower, or held for a third, holds the scan again. R44, R45, R42: every other check that fails is the
outcome, with no table changed: FOREIGN_LABEL, CENTRAL_BLOCK, which closes the session, ALREADY_ISSUED,
LIMIT_REACHED, TABLE_FULL, and JOURNAL_FULL when the journal refuses the records. The Override is answered OK. -/
def Obligations.OverrideOfALoanDischargesAndIssues : Prop :=
  ∀ (d : Desk) (s : State) (q : LoanReq) (other : Ident) (h : HeldScan) (ss : Session) (r : InProgress),
    s.Overrides d (.overrideLoan q other) h r → h.session = some ss →
    let digits := h.scan.label.digits
    let refuse := fun f =>
      exec (.overrideOnLoanElsewhere d) s
        = .next (((s.tookFrom (.engine d)).setEng d (((s.eng d).ended digits f).inSession ss)).replied (.desk d) r .ok
            .empty)
    (s.settings.isForeign q.item.lib = true → refuse { verdict := .foreignLabel })
    ∧ (s.settings.isForeign q.item.lib = false → ∀ b, s.circ.borrower q.borrower = some b → b.central ≠ none →
        exec (.overrideOnLoanElsewhere d) s
          = .next (((s.tookFrom (.engine d)).sessionClosed d ss ((s.eng d).ended digits
              { verdict := .centralBlock, reasons := some (reasonsOf s.settings s.clock.day b) })).replied (.desk d) r
                .ok .empty))
    ∧ (s.settings.isForeign q.item.lib = false →
    (∀ b, s.circ.borrower q.borrower = some b → b.central = none) →
    let cat := s.circ.categoryOf q.borrower q.category
    let rule := s.settings.rule q.cls cat
    let due := dueFor s.settings rule q.time (s.circ.expiryOf q.borrower)
    let loan : Loan :=
      { item := q.item, cls := q.cls, borrower := q.borrower, unit := rule.unit, issued := q.time, due := due,
        renewals := 0, source := d, gen := s.roll.gen, overdue := false, overrideUsed := true,
        foreign := s.settings.isConsortium q.item.lib }
    let room := s.circ.loanCount q.borrower < (s.settings.category cat).limit
      ∧ ((s.circ.borrower q.borrower).isSome = true ∨ s.circ.borrowers.length < 1024)
    let issued : Draft :=
      { source := .desk d, time := some q.time,
        flags := { overrideUsed := true, foreign := loan.foreign, minute := decide (rule.unit = .minute) },
        body := .issue q.item q.borrower due }
    let pickup : List Draft :=
      if (s.circ.holdOf q.item).isSome then
        [{ source := .desk d, time := some q.time, flags := { }, body := .holdPickup q.item q.borrower }] else []
    let noOther := ∀ p x, s.circ.holdOf q.item = some (p, x) → x.holder = q.borrower
    (∀ (slot : Nat) (l : Loan) (j : Journal), s.circ.loanOf q.item = some (slot, l) → l.borrower = other →
        other ≠ q.borrower → noOther → room → s.circ.loans.length ≤ 4096 → s.journal.idle →
        let fine :=
          fineFor s.settings (s.settings.rule l.cls (s.circ.categoryOf l.borrower 0)) l.unit l.due q.time
        let back : Draft :=
          { source := .desk d, time := some q.time,
            flags := { overrideUsed := true, foreign := l.foreign, minute := decide (l.unit = .minute) },
            body := .discharge l.item l.borrower fine none }
        s.journal.accept s.now ([back] ++ pickup ++ [issued]) = .done j →
        exec (.overrideOnLoanElsewhere d) s
          = .next (((s.committed (.engine d) ((s.circ.discharge slot l fine).issue q loan) j).listed d
              ((s.eng d).ended h.scan.label.digits { verdict := .issued, due := some due, other := some other }) ss
              { item := h.scan.label.ident, due := due }).replied (.desk d) r .ok .empty))
      ∧ (∀ j : Journal, s.circ.loanOf q.item = none → noOther → room → s.circ.loans.length < 4096 →
          s.journal.idle → s.journal.accept s.now (pickup ++ [issued]) = .done j →
          exec (.overrideOnLoanElsewhere d) s
            = .next (((s.committed (.engine d) (s.circ.issue q loan) j).listed d
                ((s.eng d).ended h.scan.label.digits { verdict := .issued, due := some due }) ss
                { item := h.scan.label.ident, due := due }).replied (.desk d) r .ok .empty))
      ∧ (∀ (slot : Nat) (l : Loan), s.circ.loanOf q.item = some (slot, l) → l.borrower ≠ other → l.borrower ≠ q.borrower →
          exec (.overrideOnLoanElsewhere d) s
            = .next (((s.tookFrom (.engine d)).setEng d ((s.eng d).holding { h with stop := .onLoan l.borrower })).replied
                (.desk d) r .ok .empty))
      ∧ (∀ p x, (∀ slot l, s.circ.loanOf q.item = some (slot, l) → l.borrower = other ∧ other ≠ q.borrower) →
          s.circ.holdOf q.item = some (p, x) → x.holder ≠ q.borrower →
          exec (.overrideOnLoanElsewhere d) s
            = .next (((s.tookFrom (.engine d)).setEng d ((s.eng d).holding { h with stop := .held x.holder })).replied
                (.desk d) r .ok .empty))
      ∧ (∀ slot l, s.circ.loanOf q.item = some (slot, l) → l.borrower = q.borrower →
          refuse { verdict := .alreadyIssued, due := some l.due })
      ∧ ((∀ slot l, s.circ.loanOf q.item = some (slot, l) → l.borrower = other ∧ other ≠ q.borrower) → noOther →
          ((s.settings.category cat).limit ≤ s.circ.loanCount q.borrower → refuse { verdict := .limitReached })
            ∧ (s.circ.loanCount q.borrower < (s.settings.category cat).limit →
                (s.circ.loanOf q.item = none ∧ 4096 ≤ s.circ.loans.length
                  ∨ s.circ.borrower q.borrower = none ∧ 1024 ≤ s.circ.borrowers.length) →
                refuse { verdict := .tableFull })
            ∧ (room → s.journal.idle →
                (s.circ.loanOf q.item = none → s.circ.loans.length < 4096 →
                    s.journal.accept s.now (pickup ++ [issued]) = .full → refuse { verdict := .journalFull })
                  ∧ ∀ slot l, s.circ.loanOf q.item = some (slot, l) → s.circ.loans.length ≤ 4096 →
                      s.journal.accept s.now
                        ([{ source := .desk d, time := some q.time,
                            flags := { overrideUsed := true, foreign := l.foreign, minute := decide (l.unit = .minute) },
                            body := .discharge l.item l.borrower
                              (fineFor s.settings (s.settings.rule l.cls (s.circ.categoryOf l.borrower 0)) l.unit l.due
                                q.time) none }] ++ pickup ++ [issued]) = .full →
                      refuse { verdict := .journalFull })))

/-- R49, R86, R28: the override of HELD_FOR_OTHER, its checks passed, issues the item past the hold it names with the
ISSUE record alone; with the hold gone it issues with the due alone; a hold for a new holder, or a loan made since,
holds the scan again. R44, R45, R42: every other check that fails is the outcome, with no table changed:
FOREIGN_LABEL, CENTRAL_BLOCK, which closes the session, ALREADY_ISSUED, LIMIT_REACHED, TABLE_FULL, and JOURNAL_FULL
when the journal refuses the record. That a hold which now names the borrower served passes check 5, and so meets
LIMIT_REACHED and TABLE_FULL, is the model's reading of R49 and R85 (log entry 20). -/
def Obligations.OverrideOfAHoldIssuesPastIt : Prop :=
  ∀ (d : Desk) (s : State) (q : LoanReq) (holder : Ident) (h : HeldScan) (ss : Session) (r : InProgress),
    s.Overrides d (.overrideHold q holder) h r → h.session = some ss →
    let digits := h.scan.label.digits
    let refuse := fun f =>
      exec (.overrideHeldForOther d) s
        = .next (((s.tookFrom (.engine d)).setEng d (((s.eng d).ended digits f).inSession ss)).replied (.desk d) r .ok
            .empty)
    (s.settings.isForeign q.item.lib = true → refuse { verdict := .foreignLabel })
    ∧ (s.settings.isForeign q.item.lib = false → ∀ b, s.circ.borrower q.borrower = some b → b.central ≠ none →
        exec (.overrideHeldForOther d) s
          = .next (((s.tookFrom (.engine d)).sessionClosed d ss ((s.eng d).ended digits
              { verdict := .centralBlock, reasons := some (reasonsOf s.settings s.clock.day b) })).replied (.desk d) r
                .ok .empty))
    ∧ (s.settings.isForeign q.item.lib = false →
    (∀ b, s.circ.borrower q.borrower = some b → b.central = none) →
    let cat := s.circ.categoryOf q.borrower q.category
    let rule := s.settings.rule q.cls cat
    let due := dueFor s.settings rule q.time (s.circ.expiryOf q.borrower)
    let loan : Loan :=
      { item := q.item, cls := q.cls, borrower := q.borrower, unit := rule.unit, issued := q.time, due := due,
        renewals := 0, source := d, gen := s.roll.gen, overdue := false, overrideUsed := true,
        foreign := s.settings.isConsortium q.item.lib }
    (∀ j : Journal, s.circ.loanOf q.item = none → s.circ.loanCount q.borrower < (s.settings.category cat).limit → s.circ.loans.length < 4096 →
        ((s.circ.borrower q.borrower).isSome = true ∨ s.circ.borrowers.length < 1024) → s.journal.idle →
        s.journal.accept s.now
          [{ source := .desk d, time := some q.time,
             flags := { overrideUsed := true, foreign := loan.foreign, minute := decide (rule.unit = .minute) },
             body := .issue q.item q.borrower due }] = .done j →
        (∀ p x, s.circ.holdOf q.item = some (p, x) → x.holder = holder → holder ≠ q.borrower →
            exec (.overrideHeldForOther d) s
              = .next (((s.committed (.engine d) (s.circ.issue q loan) j).listed d
                  ((s.eng d).ended h.scan.label.digits { verdict := .issued, due := some due, holder := some holder }) ss
                  { item := h.scan.label.ident, due := due }).replied (.desk d) r .ok .empty))
          ∧ (s.circ.holdOf q.item = none →
              exec (.overrideHeldForOther d) s
                = .next (((s.committed (.engine d) (s.circ.issue q loan) j).listed d
                    ((s.eng d).ended h.scan.label.digits { verdict := .issued, due := some due }) ss
                    { item := h.scan.label.ident, due := due }).replied (.desk d) r .ok .empty)))
      ∧ (∀ slot l, s.circ.loanOf q.item = some (slot, l) → l.borrower ≠ q.borrower →
          exec (.overrideHeldForOther d) s
            = .next (((s.tookFrom (.engine d)).setEng d ((s.eng d).holding { h with stop := .onLoan l.borrower })).replied
                (.desk d) r .ok .empty))
      ∧ (∀ p x, s.circ.loanOf q.item = none → s.circ.holdOf q.item = some (p, x) → x.holder ≠ holder →
          x.holder ≠ q.borrower →
          exec (.overrideHeldForOther d) s
            = .next (((s.tookFrom (.engine d)).setEng d ((s.eng d).holding { h with stop := .held x.holder })).replied
                (.desk d) r .ok .empty))
      ∧ (∀ slot l, s.circ.loanOf q.item = some (slot, l) → l.borrower = q.borrower →
          refuse { verdict := .alreadyIssued, due := some l.due })
      ∧ (s.circ.loanOf q.item = none →
          (∀ p x, s.circ.holdOf q.item = some (p, x) → x.holder = holder ∨ x.holder = q.borrower) →
          ((s.settings.category cat).limit ≤ s.circ.loanCount q.borrower → refuse { verdict := .limitReached })
            ∧ (s.circ.loanCount q.borrower < (s.settings.category cat).limit →
                (4096 ≤ s.circ.loans.length
                  ∨ s.circ.borrower q.borrower = none ∧ 1024 ≤ s.circ.borrowers.length) →
                refuse { verdict := .tableFull })
            ∧ (s.circ.loanCount q.borrower < (s.settings.category cat).limit → s.circ.loans.length < 4096 →
                ((s.circ.borrower q.borrower).isSome = true ∨ s.circ.borrowers.length < 1024) → s.journal.idle →
                (∀ p x, s.circ.holdOf q.item = some (p, x) → x.holder ≠ q.borrower) →
                s.journal.accept s.now
                  [{ source := .desk d, time := some q.time,
                     flags := { overrideUsed := true, foreign := loan.foreign, minute := decide (rule.unit = .minute) },
                     body := .issue q.item q.borrower due }] = .full →
                refuse { verdict := .journalFull })))

/-- R51 to R53, R84, R20: a Discharge removes the item's loan with its fine and its record; a Waiting hold of the
item is trapped with its pickup deadline, in the same change, and a hold slip is offered. An item not on loan with a
Waiting hold is trapped alone; else it is FOREIGN_LABEL or NOT_ON_LOAN. A journal without room refuses the whole. -/
def Obligations.DischargeReturnsAndTraps : Prop :=
  ∀ (d : Desk) (s : State) (item : Ident) (time : Time) (backdate : Option Nat) (sc : Scan),
    s.ServesIdle d (.discharge item time backdate) sc →
    let t := s.tookFrom (.engine d)
    let e := s.eng d
    let digits := sc.label.digits
    let deadline := pickupDeadline s.settings s.clock.day
    let slip := fun holder : Ident => Slip.hold d sc.label.ident (holder.serial % 10000) deadline
    let trap := fun h : Hold =>
      ({ source := .desk d, time := some time, flags := { }, body := .holdTrap h.item h.holder } : Draft)
    let trapped := fun h : Hold => { h with state := .trapped, deadline := some deadline, stale := false }
    (∀ (slot : Nat) (l : Loan), s.circ.loanOf item = some (slot, l) → s.journal.idle →
        let back := (effectiveReturn time backdate s.clock.day).1
        let used := (effectiveReturn time backdate s.clock.day).2
        let fine := fineFor s.settings (s.settings.rule l.cls (s.circ.categoryOf l.borrower 0)) l.unit l.due back
        let rec0 : Draft :=
          { source := .desk d, time := some time,
            flags := { backdated := used.isSome, foreign := l.foreign, minute := decide (l.unit = .minute) },
            body := .discharge l.item l.borrower fine used }
        let c1 := s.circ.discharge slot l fine
        ((∀ p h, s.circ.holdOf item = some (p, h) → h.state = .trapped) →
            (∀ j, s.journal.accept s.now [rec0] = .done j →
                exec (.discharge d) s
                  = .next ((s.committed (.engine d) c1 j).setEng d
                      (e.ended digits { verdict := .returned, fine := some fine, backdated := used.isSome })))
              ∧ (s.journal.accept s.now [rec0] = .full →
                  exec (.discharge d) s = .next (t.setEng d (e.ended digits { verdict := .journalFull }))))
          ∧ ∀ p h, s.circ.holdOf item = some (p, h) → h.state = .waiting →
              (∀ j, s.journal.accept s.now [rec0, trap h] = .done j →
                  exec (.discharge d) s
                    = .next ((s.committed (.engine d) { c1 with holds := Table.put s.circ.holds p (trapped h) }
                        j).holdSlipOffered d
                          (e.ended digits
                            { verdict := .returned, fine := some fine, backdated := used.isSome,
                              holder := some h.holder, deadline := some deadline }) (slip h.holder)))
                ∧ (s.journal.accept s.now [rec0, trap h] = .full →
                    exec (.discharge d) s = .next (t.setEng d (e.ended digits { verdict := .journalFull }))))
      ∧ (s.circ.loanOf item = none →
          (s.settings.isForeign item.lib = true →
              exec (.discharge d) s = .next (t.setEng d (e.ended digits { verdict := .foreignLabel })))
            ∧ (s.settings.isForeign item.lib = false →
                ((∀ p h, s.circ.holdOf item = some (p, h) → h.state = .trapped) →
                    exec (.discharge d) s = .next (t.setEng d (e.ended digits { verdict := .notOnLoan })))
                  ∧ ∀ p h, s.circ.holdOf item = some (p, h) → h.state = .waiting → s.journal.idle →
                      (∀ j, s.journal.accept s.now [trap h] = .done j →
                          exec (.discharge d) s
                            = .next ((s.committed (.engine d)
                                { s.circ with holds := Table.put s.circ.holds p (trapped h) } j).holdSlipOffered d
                                  (e.ended digits
                                    { verdict := .returned, holder := some h.holder, deadline := some deadline })
                                  (slip h.holder)))
                        ∧ (s.journal.accept s.now [trap h] = .full →
                            exec (.discharge d) s = .next (t.setEng d (e.ended digits { verdict := .journalFull })))))

/-- R54 to R56: the checks of a Renew in their order; one that passes moves the loan's due, issue time, unit and
generation, raises its renewals, clears its overdue flag, and charges the fine of a loan that was overdue. The unit
flag of the record is that of the new unit (the model's reading, log entry 19). -/
def Obligations.RenewMovesTheDue : Prop :=
  ∀ (d : Desk) (s : State) (item : Ident) (time : Time) (sc : Scan), s.ServesIdle d (.renew item time) sc →
    let e := s.eng d
    let answers := fun f => exec (.renew d) s = .next ((s.tookFrom (.engine d)).setEng d (e.ended sc.label.digits f))
    (s.circ.loanOf item = none →
        (s.settings.isForeign item.lib = true → answers { verdict := .foreignLabel })
          ∧ (s.settings.isForeign item.lib = false → answers { verdict := .notOnLoan }))
      ∧ ∀ (slot : Nat) (l : Loan) (b : Borrower), s.circ.loanOf item = some (slot, l) →
          s.circ.borrower l.borrower = some b →
          let rule := s.settings.rule l.cls b.category
          let due := dueFor s.settings rule time b.expiry
          let late := l.due.earlier time = true
          (b.central ≠ none →
              answers { verdict := .centralBlock, reasons := some (reasonsOf s.settings s.clock.day b) })
            ∧ (b.central = none →
                (rule.renewals ≤ l.renewals → answers { verdict := .renewLimit })
                  ∧ (l.renewals < rule.renewals →
                      (s.circ.holdOf l.item ≠ none → answers { verdict := .renewHeld })
                        ∧ (s.circ.holdOf l.item = none →
                            (late → (s.settings.category b.category).renewOverdue = false →
                                answers { verdict := .renewOverdue })
                              ∧ ((¬ late ∨ (s.settings.category b.category).renewOverdue = true) →
                                  (l.due.earlier due = false → answers { verdict := .noExtension })
                                    ∧ (l.due.earlier due = true → s.journal.idle →
                                        let fine := fineFor s.settings rule l.unit l.due time
                                        let charged := if l.due.earlier time = true then some fine else none
                                        let owed := b.owed + charged.getD 0
                                        let drafts : List Draft :=
                                          [{ source := .desk d, time := some time,
                                             flags := { foreign := l.foreign, minute := decide (rule.unit = .minute) },
                                             body := .renew l.item l.borrower due charged }]
                                        (s.journal.accept s.now drafts = .full → answers { verdict := .journalFull }) ∧
                                        ∀ j, s.journal.accept s.now drafts = .done j →
                                        exec (.renew d) s
                                          = .next ((s.committed (.engine d)
                                              { s.circ with
                                                loans := Table.put s.circ.loans slot
                                                  { l with due := due, issued := time, unit := rule.unit,
                                                           gen := s.roll.gen, renewals := l.renewals + 1,
                                                           overdue := false }
                                                borrowers := Table.put s.circ.borrowers l.borrower.key
                                                  { b with overdue := b.overdue - (if l.overdue then 1 else 0),
                                                           owed := min owed 1000000,
                                                           clamped := b.clamped || decide (1000000 < owed) } }
                                              j).setEng d
                                                (e.ended sc.label.digits
                                                  { verdict := .renewed, due := some due, fine := charged })))))))

/-- R72, R22, R27: the borrower check and what the engine makes of it: FOREIGN_LABEL and CENTRAL_BLOCK leave the
context Idle; an empty list begins a session; other reasons hold the scan, or, when staff override them, begin the
session with the override-used mark set, and the Override is answered OK. R71 and R72: the reasons of a record, in
their order: LOCAL, CENTRAL, FINES, OVERDUE, EXPIRED, each when it holds. -/
def Obligations.BorrowerCheckDecidesTheSession : Prop :=
  (∀ (d : Desk) (s : State) (id : Ident),
      let t := s.tookFrom (.engine d)
      let e := s.eng d
      let rs : List Reason := match s.circ.borrower id with
        | none => []
        | some b => reasonsOf s.settings s.clock.day b
      let foreign := s.settings.isForeign id.lib = true
      let fresh := fun (sc : Scan) (mark : Bool) =>
        ({ borrower := sc.label.ident, label := sc.label.digits, category := sc.label.cls, issued := [], mark := mark }
          : Session)
      (∀ sc, s.ServesIdle d (.borrowerCheck id) sc →
          let digits := sc.label.digits
          (foreign →
              exec (.borrowerCheck d) s
                = .next (t.setEng d { e.ended digits { verdict := .foreignLabel } with idleMs := none }))
            ∧ (¬ foreign → rs = [] →
                exec (.borrowerCheck d) s
                  = .next (t.setEng d ((e.ended digits { verdict := .borrowerSet }).inSession (fresh sc false))))
            ∧ (¬ foreign → hasCentral rs = true →
                exec (.borrowerCheck d) s
                  = .next (t.setEng d
                      { e.ended digits { verdict := .centralBlock, reasons := some rs } with idleMs := none }))
            ∧ (¬ foreign → rs ≠ [] → hasCentral rs = false →
                exec (.borrowerCheck d) s
                  = .next (t.setEng d (e.holding { scan := sc, stop := .blocked rs, session := none }))))
        ∧ ∀ h r, s.Overrides d (.borrowerCheck id) h r →
            let digits := h.scan.label.digits
            (foreign →
                exec (.borrowerCheck d) s
                  = .next ((t.setEng d
                      { e.ended digits { verdict := .foreignLabel } with ctx := .idle, idleMs := none }).replied (.desk d) r
                        .ok .empty))
              ∧ (¬ foreign → hasCentral rs = true →
                  exec (.borrowerCheck d) s
                    = .next ((t.setEng d
                        { e.ended digits { verdict := .centralBlock, reasons := some rs } with
                          ctx := .idle, idleMs := none }).replied (.desk d) r .ok .empty))
              ∧ (¬ foreign → hasCentral rs = false →
                  exec (.borrowerCheck d) s
                    = .next ((t.setEng d
                        ((e.ended digits { verdict := .borrowerSet, reasons := some rs }).inSession
                          (fresh h.scan true))).replied (.desk d) r .ok .empty)))
    ∧ (∀ (c : Settings) (today : Nat) (b : Borrower),
        let limit := (c.category b.category).threshold
        ∃ l f o x : List Reason, ∃ k : List Reason,
          reasonsOf c today b = l ++ k ++ f ++ o ++ x
            ∧ (b.localBlock = none → l = []) ∧ (∀ y, b.localBlock = some y → l = [.localBlock y.code])
            ∧ (b.central = none → k = []) ∧ (∀ y, b.central = some y → k = [.central y.code])
            ∧ (limit ≠ 0 ∧ limit ≤ b.owed → f = [.fines]) ∧ (limit = 0 ∨ b.owed < limit → f = [])
            ∧ (0 < b.overdue → o = [.overdue]) ∧ (b.overdue = 0 → o = [])
            ∧ (∀ y, b.expiry = some y → y < today → x = [.expired])
            ∧ ((b.expiry = none ∨ ∃ y, b.expiry = some y ∧ today ≤ y) → x = []))

/-- R59 and R73: the inquiries of the desk engines change nothing in the store and make no record; what each INFO
carries, and when it is FOREIGN_LABEL. -/
def Obligations.EngineInquiriesAnswerInfo : Prop :=
  ∀ (d : Desk) (s : State) (id : Ident) (sc : Scan),
    let t := s.tookFrom (.engine d)
    let e := s.eng d
    (s.ServesIdle d (.itemInquiry id) sc →
        let answers := fun f => exec (.itemInquiry d) s = .next (t.setEng d (e.ended sc.label.digits f))
        let loan := s.circ.loanOf id
        let hold := s.circ.holdOf id
        (loan = none → hold = none → s.settings.isForeign id.lib = true → answers { verdict := .foreignLabel })
          ∧ ((loan ≠ none ∨ hold ≠ none ∨ s.settings.isForeign id.lib = false) →
              answers
                { verdict := .info
                  due := loan.map (fun x => x.2.due)
                  other := loan.map (fun x => x.2.borrower)
                  holder := hold.map (fun x => x.2.holder)
                  deadline := hold.bind (fun x => x.2.deadline)
                  holdState := hold.map (fun x => x.2.state) }))
      ∧ (s.ServesIdle d (.borrowerInquiry id) sc →
          let answers := fun f => exec (.borrowerInquiry d) s = .next (t.setEng d (e.ended sc.label.digits f))
          (∀ b, s.circ.borrower id = some b →
              answers
                { verdict := .info
                  reasons := some (reasonsOf s.settings s.clock.day b)
                  figures := some { loans := b.loans, overdue := b.overdue, owed := b.owed, clamped := b.clamped } })
            ∧ (s.circ.borrower id = none → s.settings.isForeign id.lib = false →
                answers { verdict := .info, reasons := some [] })
            ∧ (s.circ.borrower id = none → s.settings.isForeign id.lib = true → answers { verdict := .foreignLabel }))

/-- R41, R60, R79, R163: a port's inquiry goes to the store, which takes it at once when the store is free and the
turn is the port's own, and else in a later turn (the command's other event). It changes no table. What each is
answered. R176, R193: the uplink's attention line is high while the part runs and the journal is low, the tables-lost
mark is set or the clock is not valid, and during start-up while a retained buffer waits for a sector with none
Erased (R160; that this is the exception to R193 is the model's reading, log entry 31). The seconds left are the
model's choice (log entry 4), and so are the one command for both events (log entry 21) and that a turn which is not
the port's changes nothing (log entry 5); that Identify names a session that has expired, or that a reset left, until
its abort is done is its reading (log entry 13). -/
def Obligations.PortInquiriesAreAnsweredInTurn : Prop :=
  ∀ (p : Port) (s : State),
    (∀ tag lib serial, s.free p → lib < 65536 → serial < 4294967296 →
        let body := be2 lib ++ be4 serial
        let id : Ident := { lib := lib, serial := serial }
        (lib ≤ 999 ∧ serial ≤ 9999999 →
            exec (.inquireItem p (.request tag body)) s
                = exec (.inquireItem p .turn) ((s.taken p .inquireItem tag).sendTxn (portClaimant p) (.inquireItem id))
              ∧ exec (.inquireBorrower p (.request tag body)) s
                = exec (.inquireBorrower p .turn)
                    ((s.taken p .inquireBorrower tag).sendTxn (portClaimant p) (.inquireBorrower id)))
          ∧ (¬ (lib ≤ 999 ∧ serial ≤ 9999999) →
              exec (.inquireItem p (.request tag body)) s = .next (s.answered p .inquireItem tag .badRequest .empty)
                ∧ exec (.inquireBorrower p (.request tag body)) s
                  = .next (s.answered p .inquireBorrower tag .badRequest .empty)))
      ∧ (∀ tag, s.free p →
          exec (.identify p (.request tag [])) s
            = exec (.identify p .turn) ((s.taken p .identify tag).sendTxn (portClaimant p) .identify))
      ∧ (s.turnOf (portClaimant p) = none →
          exec (.inquireItem p .turn) s = .next s ∧ exec (.inquireBorrower p .turn) s = .next s
            ∧ exec (.identify p .turn) s = .next s)
      ∧ ∀ r, (s.port p).inProgress = some r →
          let answers := fun (o : Host.Outcome State Fault Refusal) code ans =>
            o = .next ((s.tookFrom (portClaimant p)).replied p r code ans)
          (∀ id, s.turnOf (portClaimant p) = some (.inquireItem id) →
              let loan := s.circ.loanOf id
              let hold := s.circ.holdOf id
              (loan = none → hold = none → answers (exec (.inquireItem p .turn) s) .notFound .empty)
                ∧ (loan ≠ none ∨ hold ≠ none →
                    answers (exec (.inquireItem p .turn) s) .ok (.item loan (hold.map (fun x => x.2)))))
            ∧ (∀ id, s.turnOf (portClaimant p) = some (.inquireBorrower id) →
                (s.circ.borrower id = none → answers (exec (.inquireBorrower p .turn) s) .notFound .empty)
                  ∧ ∀ b, s.circ.borrower id = some b →
                      answers (exec (.inquireBorrower p .turn) s) .ok
                        (.borrower id b (derivedReasons s.settings s.clock.day b)
                          (s.settings.category b.category).threshold))
            ∧ (s.turnOf (portClaimant p) = some .identify →
                answers (exec (.identify p .turn) s) .ok
                  (.identify
                    { home := s.settings.config.home, opState := s.opState, clock := s.clock, gen := s.roll.gen,
                      phase := s.roll.phase, pending := s.roll.pending, head := s.journal.head, u := s.journal.u,
                      tail := s.journal.tail, next := s.journal.next,
                      erased := (s.journal.sectors.filter (fun x => decide (x.st = .erased))).length,
                      owedAck := s.journal.owedAck, drops := s.journal.drops, loans := s.circ.loans.length,
                      borrowers := s.circ.borrowers.length,
                      holdsWaiting := (s.circ.holds.filter (fun x => decide (x.2.state = .waiting))).length,
                      holdsTrapped := (s.circ.holds.filter (fun x => decide (x.2.state = .trapped))).length,
                      edits := s.settings.edits.length, session := s.exch.session, stored := s.exch.stored,
                      notStored := s.exch.notStored, gapLeft := secondsLeft 30 s.exch.gapMs, tablesLost := s.exch.tablesLost,
                      low := decide ((s.journal.sectors.filter (fun x => decide (x.st = .erased))).length ≤ 4) }))
      ∧ (s.uplinkAttention = true
          ↔ (s.power = .running
                ∧ ((s.journal.sectors.filter (fun x => decide (x.st = .erased))).length ≤ 4 ∨ s.exch.tablesLost = true
                  ∨ s.clock.valid = false))
              ∨ (s.power ≠ .off ∧ s.power ≠ .running ∧ (∃ b ∈ s.journal.waiting, b.target = none)
                  ∧ ∀ x ∈ s.journal.sectors, x.st ≠ .erased))

/-- R75 lines 4 to 7 and R76: a Payment at the store: the smaller of the amount and what is owed is taken with its
record, the clamped mark goes with the last of the debt, a record left empty goes, and the receipt joins the slip
queue or is discarded. R42, R149: while the journal makes the store wait, the transaction stands with the store,
which takes no other; no table has changed and nothing is answered. That the journal's buffers stand as they were
meanwhile is the model's reading (log entry 8). -/
def Obligations.PaymentLowersWhatIsOwed : Prop :=
  (∀ (d : Desk) (s : State) (id : Ident) (amount : Nat) (r : InProgress),
      s.turnOf (.port d) = some (.payment id amount) → (s.port (.desk d)).inProgress = some r → s.journal.idle →
      let t := s.tookFrom (.port d)
      (s.circ.borrower id = none → exec (.paymentTransaction d) s = .next (t.replied (.desk d) r .notFound .empty))
        ∧ ∀ b, s.circ.borrower id = some b →
            (b.owed = 0 → exec (.paymentTransaction d) s = .next (t.replied (.desk d) r .wrongState .empty))
              ∧ (b.owed ≠ 0 →
                  let taken := min amount b.owed
                  let owed := b.owed - taken
                  let drafts : List Draft :=
                    [{ source := .desk d, time := some s.now, flags := { }, body := .payment id taken owed }]
                  (s.journal.accept s.now drafts = .full →
                      exec (.paymentTransaction d) s = .next (t.replied (.desk d) r .journalFull .empty))
                    ∧ ∀ j, s.journal.accept s.now drafts = .done j →
                        let b1 : Borrower := { b with owed := owed, clamped := if owed = 0 then false else b.clamped }
                        let borrowers :=
                          if b.loans = 0 ∧ owed = 0 ∧ b.localBlock = none ∧ b.central = none then
                            Table.del s.circ.borrowers id.key
                          else Table.put s.circ.borrowers id.key b1
                        let done := s.committed (.port d) { s.circ with borrowers := borrowers } j
                        (s.printer.queue.length < 8 →
                            exec (.paymentTransaction d) s
                              = .next (State.replied
                                  { done with printer := s.printer.join (.receipt d taken owed) } (.desk d) r .ok
                                  (.payment taken owed false)))
                          ∧ (8 ≤ s.printer.queue.length →
                              exec (.paymentTransaction d) s
                                = .next (done.replied (.desk d) r .ok (.payment taken owed true)))))
    ∧ (∀ (d : Desk) (s : State) (id : Ident) (amount : Nat) (b : Borrower),
        s.turnOf (.port d) = some (.payment id amount) → s.journal.idle → s.circ.borrower id = some b → b.owed ≠ 0 →
        s.journal.accept s.now
          [{ source := .desk d, time := some s.now, flags := { },
             body := .payment id (min amount b.owed) (b.owed - min amount b.owed) }] = .wait →
        ∃ t, exec (.paymentTransaction d) s = .next t
          ∧ t = { s.tookFrom (.port d) with
                  store := { (s.tookFrom (.port d)).store with
                    holding := some { claimant := .port d, txn := .payment id amount, now := s.now, silent := false } }
                  journal := { s.journal with queue := [.store] } }
          ∧ ∀ c, t.turnOf c = none)

/-- R77 and R78, lines 4 to 7: SetLocalBlock and ClearLocalBlock at the store. -/
def Obligations.LocalBlocksAreSetAndCleared : Prop :=
  ∀ (d : Desk) (s : State) (r : InProgress), (s.port (.desk d)).inProgress = some r → s.journal.idle →
    let replies := fun c code ans => exec c s = .next ((s.tookFrom (.port d)).replied (.desk d) r code ans)
    let commits := fun c borrowers j ans =>
      exec c s = .next ((s.committed (.port d) { s.circ with borrowers := borrowers } j).replied (.desk d) r .ok ans)
    (∀ id category code, s.turnOf (.port d) = some (.setLocal id category code) →
        let c := Instr.setLocalBlockTransaction d
        let drafts : List Draft := [{ source := .desk d, time := none, flags := { }, body := .localSet id code }]
        let reason : Option LocalReason := some { code := code, desk := d }
        (s.circ.borrower id = none → s.settings.isForeign id.lib = true → replies c .notFound .empty)
          ∧ (s.circ.borrower id = none → s.settings.isForeign id.lib = false → 1024 ≤ s.circ.borrowers.length →
              replies c .tableFull .empty)
          ∧ (((s.circ.borrower id).isSome = true ∨
                s.settings.isForeign id.lib = false ∧ s.circ.borrowers.length < 1024) →
              (s.journal.accept s.now drafts = .full → replies c .journalFull .empty)
                ∧ ∀ j, s.journal.accept s.now drafts = .done j →
                    (∀ b, s.circ.borrower id = some b →
                        commits c (Table.put s.circ.borrowers id.key { b with localBlock := reason }) j .empty)
                      ∧ (s.circ.borrower id = none →
                          commits c (Table.put s.circ.borrowers id.key
                            { category := category, expiry := none, owed := 0, clamped := false, loans := 0,
                              overdue := 0, localBlock := reason, central := none }) j .empty)))
      ∧ (∀ id, s.turnOf (.port d) = some (.clearLocal id) →
          let c := Instr.clearLocalBlockTransaction d
          (s.circ.borrower id = none → replies c .notFound .empty)
            ∧ ∀ b, s.circ.borrower id = some b →
                (b.localBlock = none → replies c .wrongState .empty)
                  ∧ ∀ l, b.localBlock = some l →
                      let drafts : List Draft :=
                        [{ source := .desk d, time := none, flags := { }, body := .localClear id l.code }]
                      (s.journal.accept s.now drafts = .full → replies c .journalFull .empty)
                        ∧ ∀ j, s.journal.accept s.now drafts = .done j →
                            commits c
                              (if b.loans = 0 ∧ b.owed = 0 ∧ b.central = none then
                                Table.del s.circ.borrowers id.key
                               else
                                Table.put s.circ.borrowers id.key { b with localBlock := none }) j
                              (.localCleared l.code l.desk))

/-! ### Days, dues, fines and edits -/

/-- R112: the open-day search examines up to 31 days after the day it starts from, in their order, and yields the
first that is open, if one is. No day above 65535 is examined (R111). -/
def Obligations.OpenDaySearchFindsTheFirst : Prop :=
  ∀ (c : Settings) (x : Nat),
    (∀ n, c.openSearch x = some n ↔
        x < n ∧ n ≤ x + 31 ∧ n ≤ 65535 ∧ c.isOpen n = true ∧ ∀ k, x < k → k < n → c.isOpen k = false)
      ∧ (c.openSearch x = none ↔ ∀ k, x < k → k ≤ x + 31 → k ≤ 65535 → c.isOpen k = false)

/-- R118, R120 and R121: a return no later than the due has no fine; else the count less the grace, by the rate, up
to the cap. A minute loan counts the started hours of the open minutes between due and return. R119: the overdue
count of a day loan is the number of open days after the due day up to the return day. -/
def Obligations.FinesFollowTheCount : Prop :=
  (∀ (c : Settings) (r : Rule) (unit : LoanUnit) (due back : Time),
      (back.day < due.day ∨ back.day = due.day ∧ back.minute ≤ due.minute → fineFor c r unit due back = 0)
        ∧ (due.day < back.day ∨ back.day = due.day ∧ due.minute < back.minute →
            fineFor c r unit due back = min ((overdueCount c unit due back - r.grace) * r.rate) r.cap)
        ∧ (due.day ≤ back.day →
            let window : Nat → Nat := fun d =>
              match c.hours d with
              | none => 0
              | some h =>
                min h.closeMin (if d = back.day then back.minute else 1440)
                  - max h.openMin (if d = due.day then due.minute else 0)
            overdueCount c .minute due back
              = ((((List.range (back.day + 1 - due.day)).map (fun i => window (due.day + i))).sum) + 59) / 60))
    ∧ (∀ (c : Settings) (due back : Time),
        overdueCount c .day due back
          = ((List.range (back.day + 1)).filter (fun d => decide (due.day < d) && c.isOpen d)).length)

/-- R113 and R114: the due of a day loan: never before the issue day; without an expiry before the candidate, the
candidate day, moved on when it is closed; with one, the last open day up to it, or the issue day. The minute is the
day's close. R115: the due of a minute loan by the four cases of its table, and the one case in which the card's
expiry moves it. R117: the effective return time, and when a backdate, clamped into the last week, is used. R84: the
pickup deadline. -/
def Obligations.DayLoansFallDueOnOpenDays : Prop :=
  (∀ (c : Settings) (t len : Nat) (x : Option Nat), t ≤ 65535 →
    let due := dayDue c t len x
    let counted := min (t + len) 65535
    let candidate := if c.isOpen counted = true then counted else (c.openSearch counted).getD counted
    ((∀ h, c.hours due.day = some h → due.minute = h.closeMin) ∧ (c.hours due.day = none → due.minute = 1439))
      ∧ ((∀ e, x = some e → candidate ≤ e) → due.day = candidate)
      ∧ (∀ e, x = some e → e < candidate →
          (∀ n, t ≤ n → n ≤ e → c.isOpen n = true → (∀ k, n < k → k ≤ e → c.isOpen k = false) → due.day = n)
            ∧ ((∀ k, t ≤ k → k ≤ e → c.isOpen k = false) → due.day = t)))
    ∧ (∀ (c : Settings) (r : Rule) (t m : Nat) (x : Option Nat), t ≤ 65535 →
        let due := dueFor c r { day := t, minute := m } x
        t ≤ due.day ∧ (r.unit = .day → due = dayDue c t r.length x)
          ∧ (r.unit = .minute →
              let given := fun x => dueFor c r { day := t, minute := m } x
              (∀ h, c.hours t = some h → m < h.closeMin →
                  given none = { day := t, minute := if m + r.length ≤ h.closeMin then m + r.length else h.closeMin })
                ∧ (c.hours t = none ∨ (∃ h, c.hours t = some h ∧ h.closeMin ≤ m) →
                    (∀ n h, c.openSearch t = some n → c.hours n = some h →
                        given none = { day := n, minute := min (h.openMin + r.length) h.closeMin })
                      ∧ (c.openSearch t = none → given none = { day := t, minute := 1439 }))
                ∧ ∀ e,
                    (t < (given none).day ∧ e < (given none).day → given (some e) = { day := t, minute := 1439 })
                      ∧ (¬ (t < (given none).day ∧ e < (given none).day) → given (some e) = given none)))
    ∧ (∀ (time : Time) (b today : Nat),
        let day := if b < today - 7 then today - 7 else if today < b then today else b
        effectiveReturn time none today = (time, none)
          ∧ (day < time.day ∨ day = time.day ∧ 0 < time.minute →
              effectiveReturn time (some b) today = ({ day := day, minute := 0 }, some day))
          ∧ (¬ (day < time.day ∨ day = time.day ∧ 0 < time.minute) →
              effectiveReturn time (some b) today = (time, none)))
    ∧ ∀ (c : Settings) (today : Nat),
        let candidate := min (today + c.config.pickup) 65535
        (c.isOpen candidate = true → pickupDeadline c today = candidate)
          ∧ (c.isOpen candidate = false →
              (∀ n, c.openSearch candidate = some n → pickupDeadline c today = n)
                ∧ (c.openSearch candidate = none → pickupDeadline c today = candidate))

/-- R103: the two rule edits, on the rule table as it stands. R105: the two exception edits, on the exception list as
it stands; which entry every day then has. Of R104, what the three other edits replace: the named category, the named
weekday's entry, the unit configuration; every other setting stands. -/
def Obligations.RuleAndExceptionEditsAct : Prop :=
  (∀ (c : Settings) (today p : Nat) (r : Rule),
      let n := c.rules.length
      (p < n →
          ∃ t, c.apply today (.replaceRule p r) = (t, true) ∧ t = { c with rules := t.rules } ∧ t.rules.length = n
            ∧ t.rules[p]? = some r ∧ ∀ k, k ≠ p → t.rules[k]? = c.rules[k]?)
        ∧ (n ≤ p → n < 32 → c.apply today (.replaceRule p r) = ({ c with rules := c.rules ++ [r] }, true))
        ∧ (p < n →
            ∃ t, c.apply today (.deleteRule p) = (t, true) ∧ t = { c with rules := t.rules } ∧ t.rules.length = n - 1
              ∧ (∀ k, k < p → t.rules[k]? = c.rules[k]?) ∧ ∀ k, p ≤ k → t.rules[k]? = c.rules[k + 1]?)
        ∧ (n ≤ p → c.apply today (.deleteRule p) = (c, false)))
    ∧ (∀ (c : Settings) (today day : Nat) (h : Option Hours), Table.rising c.exceptions = true →
        let holds := (Table.get c.exceptions day).isSome = true
        (day < today → c.apply today (.addException day h) = (c, false))
          ∧ (today ≤ day → (holds ∨ c.exceptions.length < 64) →
              ∃ t, c.apply today (.addException day h) = (t, true) ∧ t = { c with exceptions := t.exceptions }
                ∧ Table.rising t.exceptions = true
                ∧ (holds → t.exceptions.length = c.exceptions.length)
                ∧ ∀ k, Table.get t.exceptions k = if k = day then some h else Table.get c.exceptions k)
          ∧ (today ≤ day → ¬ holds → 64 ≤ c.exceptions.length → c.apply today (.addException day h) = (c, false))
          ∧ (holds →
              ∃ t, c.apply today (.removeException day) = (t, true) ∧ t = { c with exceptions := t.exceptions }
                ∧ Table.rising t.exceptions = true
                ∧ ∀ k, Table.get t.exceptions k = if k = day then none else Table.get c.exceptions k)
          ∧ (¬ holds → c.apply today (.removeException day) = (c, false)))
    ∧ (∀ (c : Settings) (today k : Nat) (x : Category), k < c.categories.length →
        ∃ t, c.apply today (.replaceCategory k x) = (t, true) ∧ t = { c with categories := t.categories }
          ∧ t.categories.length = c.categories.length ∧ t.categories[k]? = some x
          ∧ ∀ n, n ≠ k → t.categories[n]? = c.categories[n]?)
    ∧ (∀ (c : Settings) (today k : Nat) (h : Option Hours), k < c.week.length →
        ∃ t, c.apply today (.replaceWeekday k h) = (t, true) ∧ t = { c with week := t.week }
          ∧ t.week.length = c.week.length ∧ t.week[k]? = some h ∧ ∀ n, n ≠ k → t.week[n]? = c.week[n]?)
    ∧ (∀ (c : Settings) (today : Nat) (x : UnitConfig), c.apply today (.setConfig x) = ({ c with config := x }, true))

/-- R100, R102 to R105 and 12.6: a PostEdit body is the edit's kind and fields in order. Every edit whose fields are
in range is read back from its bytes, and no other body is an edit. A presence byte other than 0 and 1, or a byte
left over, is no edit (the model's choice, log entry 16). -/
def Obligations.EditBodiesReadBackAsTheyWereWritten : Prop :=
  (∀ e : Edit, e.inRange = true → readEdit e.bytes = some e ∧ ReqKind.allows .postEdit e.bytes.length = true)
    ∧ ∀ (body : List Byte) (e : Edit), readEdit body = some e → e.inRange = true ∧ body = e.bytes

/-- R100, R101 and R108: PostEdit: a unit configuration while the home code is unset takes effect at once, with its
EDITS record accepted or dropped; any other edit joins the pending list, which holds 48. That the answer does not
wait for the record is the model's reading (log entry 14). -/
def Obligations.PostEditPostsOrTakesEffect : Prop :=
  ∀ (tag : Byte) (body : List Byte) (s : State), s.free .uplink → ReqKind.allows .postEdit body.length = true →
    let ok := s.answered .uplink .postEdit tag .ok
    ((∀ e : Edit, e.inRange = true → body ≠ e.bytes) →
        exec (.postEdit .uplink tag body) s = .next (s.answered .uplink .postEdit tag .badRequest .empty))
      ∧ ∀ e : Edit, e.inRange = true → body = e.bytes →
          (∀ x, e = .setConfig x → s.settings.config.home = none → s.journal.idle →
              let t := State.deriveState { ok .empty with settings := { s.settings with config := x } }
              let drafts : List Draft := [{ source := .uplink, time := none, flags := { }, body := .edits 1 0 }]
              (∀ j, s.journal.accept s.now drafts = .done j →
                  exec (.postEdit .uplink tag body) s = .next { t with journal := j })
                ∧ (s.journal.accept s.now drafts = .full →
                    exec (.postEdit .uplink tag body) s
                      = .next { t with journal := { s.journal with drops := min (s.journal.drops + 1) 255 } }))
            ∧ (((∀ x, e ≠ .setConfig x) ∨ s.settings.config.home ≠ none) →
                (48 ≤ s.settings.edits.length →
                    exec (.postEdit .uplink tag body) s = .next (s.answered .uplink .postEdit tag .tableFull .empty))
                  ∧ (s.settings.edits.length < 48 →
                      exec (.postEdit .uplink tag body) s
                        = .next { ok (.pendingCount (s.settings.edits.length + 1)) with
                                  settings := { s.settings with edits := s.settings.edits ++ [e] } }))

/-- R107, R185: ReadSettings answers the part its body names, a list from its starting index up to 16 entries, and
changes nothing; an unknown part is BAD_REQUEST. PrinterStatus reports the printer as it stands. Both from every
port. R164, R165: what a ReadJournal window holds: records the journal serves, the first at or after the start, in
consecutive sequence, no more than the count allows, with the pointers; and the request changes nothing else. The
seconds left (log entry 4) and the one-byte index (log entry 16) are the model's choice. -/
def Obligations.ReadsReportAndChangeNothing : Prop :=
  (∀ (p : Port) (tag : Byte) (s : State), s.free p →
      let c := s.settings
      let reads := fun body ans => exec (.readSettings p tag body) s = .next (s.answered p .readSettings tag .ok ans)
      reads [1#8] (.week c.week) ∧ reads [2#8] (.categories c.categories) ∧ reads [3#8] (.config c.config)
        ∧ (∀ i : Byte,
            reads [4#8, i] (.exceptions c.exceptions.length ((c.exceptions.drop i.toNat).take 16))
              ∧ reads [5#8, i] (.rules c.rules.length ((c.rules.drop i.toNat).take 16))
              ∧ reads [6#8, i] (.edits c.edits.length ((c.edits.drop i.toNat).take 16)))
        ∧ (∀ body : List Byte, body.length = 1 ∨ body.length = 2 →
            body ≠ [1#8] → body ≠ [2#8] → body ≠ [3#8] → (∀ i, body ≠ [4#8, i] ∧ body ≠ [5#8, i] ∧ body ≠ [6#8, i]) →
            exec (.readSettings p tag body) s = .next (s.answered p .readSettings tag .badRequest .empty))
        ∧ exec (.printerStatus p tag []) s
            = .next (s.answered p .printerStatus tag .ok (.printer
                { st := s.printer.st, slips := s.printer.queue.length,
                  front := s.printer.queue.head?.map (fun x => (x.kind, x.source)), waitList := s.printer.waitList,
                  inquiryLeft :=
                    if s.printer.st = .paperOut ∨ s.printer.st = .offline then some (secondsLeft 10 s.printer.inquiryMs)
                    else none })))
    ∧ ((∀ (tag : Byte) (start count : Nat) (s : State), s.free .uplink → start < 4294967296 → count < 4294967296 →
          exec (.readJournal .uplink tag (be4 start ++ be4 count)) s
            = .next (s.answered .uplink .readJournal tag .ok (.journal (s.journal.readWindow start count))))
        ∧ ∀ (j : Journal) (start count : Nat),
            let a := j.readWindow start count
            let wanted := if count = 0 then 1 else min count 16
            a.head = j.head ∧ a.tail = j.tail ∧ a.records.length ≤ wanted
              ∧ ((∀ r ∈ j.served, r.seq < start) →
                  a.records = [] ∧ a.first = start ∧ a.startedLater = decide (start < j.tail))
              ∧ ∀ r before after, j.served = before ++ r :: after → (∀ x ∈ before, x.seq < start) → start ≤ r.seq →
                  a.first = r.seq ∧ a.startedLater = decide (start < r.seq)
                    ∧ ∃ n, 1 ≤ n ∧ n ≤ wanted ∧ a.records = ((r :: after).take n).map (fun x => x.bytes)
                        ∧ (∀ i x, ((r :: after).take n)[i]? = some x → x.seq = r.seq + i)
                        ∧ (n = wanted ∨ ∀ x, (r :: after)[n]? = some x → x.seq ≠ r.seq + n))

/-! ### Clock and rollover -/

/-- R126, R128, R131: SetTime refuses a time outside its ranges and a day before the clock's; else the clock is set
and valid with its CLOCK record accepted or dropped, the operating state is derived anew, and a later day is a day
change. That the count inside the second begins again is the model's choice (log entry 3). -/
def Obligations.SetTimeSetsTheClock : Prop :=
  ∀ (tag : Byte) (day minute second : Nat) (s : State), s.free .uplink → day < 65536 → minute < 65536 → second < 256 →
    let c : Instr := .setTime .uplink tag (be2 day ++ be2 minute ++ [BitVec.ofNat 8 second])
    (1439 < minute ∨ 59 < second → exec c s = .next (s.answered .uplink .setTime tag .badRequest .empty))
      ∧ (minute ≤ 1439 → second ≤ 59 → day < s.clock.day →
          exec c s = .next (s.answered .uplink .setTime tag .timeBackward .empty))
      ∧ (minute ≤ 1439 → second ≤ 59 → s.clock.day ≤ day → s.journal.idle →
          let set := fun j =>
            let t := State.deriveState
              { s.answered .uplink .setTime tag .ok .empty with
                clock := { day := day, minute := minute, second := second, ms := 0, valid := true }, journal := j }
            if s.clock.day < day then t.dayChange else t
          let drafts : List Draft :=
            [{ source := .uplink, time := none, flags := { },
               body := .clock { day := s.clock.day, minute := s.clock.minute } { day := day, minute := minute } }]
          (∀ j, s.journal.accept s.now drafts = .done j → exec c s = .next (set j))
            ∧ (s.journal.accept s.now drafts = .full →
                exec c s = .next (set { s.journal with drops := min (s.journal.drops + 1) 255 })))

/-- R131, R132, R137: a refresh starts a rollover, or is BUSY while one is in flight; in Recording the rollover's one
record is accepted or dropped and it ends, a pending one starting at once. What a start sets. ROLLOVER_RECORD in
another phase changes nothing (the model's choice, log entry 5). -/
def Obligations.RolloversStartAndEnd : Prop :=
  ∀ (s : State),
    let started := fun r : Rollover =>
      { r with phase := .applying, day := s.clock.day, place := 0, cursor := 0, moved := 0, flagsSet := 0,
               flagsCleared := 0, expired := 0 }
    (∀ tag, s.free .uplink →
        (s.roll.phase = .none →
            exec (.refreshRules .uplink tag []) s
              = .next { s.answered .uplink .refreshRules tag .ok .empty with roll := started s.roll })
          ∧ (s.roll.phase ≠ .none →
              exec (.refreshRules .uplink tag []) s = .next (s.answered .uplink .refreshRules tag .busy .empty)))
      ∧ (s.roll.phase = .none → s.dayChange = { s with roll := started s.roll })
      ∧ (s.roll.phase ≠ .none → s.dayChange = { s with roll := { s.roll with pending := true } })
      ∧ (s.power = .running → s.roll.phase = .recording → s.journal.idle →
          let next :=
            if s.roll.pending = true then started { s.roll with pending := false }
            else { s.roll with phase := .none }
          let drafts : List Draft :=
            [{ source := .unit, time := none, flags := { },
               body := .rollover s.roll.gen s.roll.moved s.roll.flagsSet s.roll.flagsCleared s.roll.expired }]
          (∀ j, s.journal.accept s.now drafts = .done j →
              exec .rolloverRecord s = .next { s with roll := next, journal := j })
            ∧ (s.journal.accept s.now drafts = .full →
                exec .rolloverRecord s
                  = .next { s with roll := next,
                                   journal := { s.journal with drops := min (s.journal.drops + 1) 255 } }))
      ∧ (s.roll.phase ≠ .recording → exec .rolloverRecord s = .next s)

/-- R101, R102, R106, R133: the application step takes the whole pending list, so that an edit posted from then on
joins an empty one; it advances the generation, applies the edits in posting order and goes on to the hold pass; its
EDITS record, made when the list held an edit, is accepted or dropped, or makes it wait with the edits it has taken.
The operating state is derived anew from the configuration it leaves. While it waits the journal's buffers stand as
they were (the model's reading, log entry 8). Edits for which a step lost with power left no room in the list come
into it as this one takes it (the model's choice, log entry 27). -/
def Obligations.ApplicationStepAppliesTheEdits : Prop :=
  ∀ s : State, s.turnOf .rollover = some .application →
    let t := s.tookFrom .rollover
    let roll := { s.roll with gen := (s.roll.gen + 1) % 256, phase := .holdPass, place := 0, taken := [] }
    let es := s.settings.edits
    let left := { s.settings with edits := s.roll.taken }
    (es = [] → s.stateFollows → exec .applicationStep s = .next { t with settings := left, roll := roll })
      ∧ (es ≠ [] → s.journal.idle →
          let applied := left.applyAll s.clock.day es
          let done := fun j => State.deriveState { t with settings := applied.1, roll := roll, journal := j }
          let drafts : List Draft :=
            [{ source := .unit, time := none, flags := { }, body := .edits applied.2 (es.length - applied.2) }]
          applied.1.edits = left.edits
            ∧ (∀ j, s.journal.accept s.now drafts = .done j → exec .applicationStep s = .next (done j))
            ∧ (s.journal.accept s.now drafts = .full →
                exec .applicationStep s = .next (done { s.journal with drops := min (s.journal.drops + 1) 255 }))
            ∧ (s.journal.accept s.now drafts = .wait →
                exec .applicationStep s
                  = .next { t with
                      settings := left
                      roll := { s.roll with taken := es }
                      store := { t.store with
                        holding := some { claimant := .rollover, txn := .application, now := s.now, silent := false } }
                      journal := { s.journal with queue := [.store] } }))

/-- R88, R133: a visit of the hold pass removes a Trapped hold whose deadline has passed, with its record accepted or
dropped, and counts it; any other place is left. The place moves on, and after 511 the sweep begins. -/
def Obligations.HoldPassExpiresTrappedHolds : Prop :=
  ∀ (s : State) (place : Nat), s.turnOf .rollover = some (.holdVisit place) →
    let t := s.tookFrom .rollover
    let roll := fun n =>
      if place < 511 then { s.roll with expired := s.roll.expired + n, place := place + 1 }
      else { s.roll with expired := s.roll.expired + n, place := 512, phase := .sweep, cursor := 0 }
    place = s.roll.place
      ∧ ((∀ h, Table.get s.circ.holds place = some h →
            h.state = .waiting ∨ h.deadline = none ∨ ∃ x, h.deadline = some x ∧ s.clock.day ≤ x) →
          exec .holdPassVisit s = .next { t with roll := roll 0 })
      ∧ ∀ h x, Table.get s.circ.holds place = some h → h.state = .trapped → h.deadline = some x → x < s.clock.day →
          s.journal.idle →
          let done := fun j =>
            { t with roll := roll 1, circ := { s.circ with holds := Table.del s.circ.holds place }, journal := j }
          let drafts : List Draft :=
            [{ source := .unit, time := none, flags := { }, body := .holdExpire h.item h.holder }]
          (∀ j, s.journal.accept s.now drafts = .done j → exec .holdPassVisit s = .next (done j))
            ∧ (s.journal.accept s.now drafts = .full →
                exec .holdPassVisit s = .next (done { s.journal with drops := min (s.journal.drops + 1) 255 }))

/-- R134 to R136: a visit of the sweep moves the due of a day loan that has come to lie on a closed day, sets or
clears the overdue flag with its borrower's count, stamps the loan and counts what it did; an empty slot or a loan of
this generation is left. The cursor moves on, and after 4095 the rollover is Recording. -/
def Obligations.SweepVisitsTheLoan : Prop :=
  ∀ (s : State) (slot : Nat), s.turnOf .rollover = some (.sweepVisit slot) →
    let t := s.tookFrom .rollover
    let roll := fun m up down =>
      { s.roll with
        moved := s.roll.moved + m
        flagsSet := s.roll.flagsSet + up
        flagsCleared := s.roll.flagsCleared + down
        cursor := slot + 1
        phase := if slot < 4095 then s.roll.phase else .recording }
    slot = s.roll.cursor
      ∧ ((∀ l, Table.get s.circ.loans slot = some l → l.gen = s.roll.gen) →
          exec .sweepVisit s = .next { t with roll := roll 0 0 0 })
      ∧ ∀ l b, Table.get s.circ.loans slot = some l → l.gen ≠ s.roll.gen → s.circ.borrower l.borrower = some b →
          let moves := l.unit = .day ∧ s.clock.day ≤ l.due.day ∧ s.settings.isOpen l.due.day = false
          let category := s.settings.category b.category
          ∀ (due : Time) (m : Nat) (want : Bool),
            (moves → ∀ n, s.settings.openSearch l.due.day = some n →
                due = { day := n, minute := s.settings.closeMinute n } ∧ m = 1) →
            (¬ moves ∨ s.settings.openSearch l.due.day = none → due = l.due ∧ m = 0) →
            (want = true ↔ category.blockDays ≠ 0 ∧ min (due.day + category.blockDays) 65535 < s.clock.day) →
            let loans := Table.put s.circ.loans slot { l with due := due, overdue := want, gen := s.roll.gen }
            (want = l.overdue →
                exec .sweepVisit s = .next { t with roll := roll m 0 0, circ := { s.circ with loans := loans } })
              ∧ (want = true → l.overdue = false →
                  exec .sweepVisit s
                    = .next { t with
                        roll := roll m 1 0
                        circ := { s.circ with
                          loans := loans
                          borrowers := Table.put s.circ.borrowers l.borrower.key { b with overdue := b.overdue + 1 } } })
              ∧ (want = false → l.overdue = true →
                  exec .sweepVisit s
                    = .next { t with
                        roll := roll m 0 1
                        circ := { s.circ with
                          loans := loans
                          borrowers := Table.put s.circ.borrowers l.borrower.key { b with overdue := b.overdue - 1 } } })

/-! ### The journal -/

/-- R147, R148, R156: the buffer timer at 5 s closes the Filling buffer; a Waiting buffer's program begins when no
other is in progress, suspending a running erase, whose count rises to 64 at most; after the 64th suspension the
program waits. R148, R156, R141: a page program's completion writes the buffer's page, and no other byte of the
array, advances the programmed tail to one past its last record, and frees the buffer; a suspended erase resumes when
no buffer is Waiting. R149, R154: an acceptance that waited is taken up again at that completion, an ACK owed before
it. R126: a CLOCK acceptance that waited, its day not before the clock's at that moment, sets the clock then, with
the clock's time at that moment as its record's old time (that both are read at the acceptance is the model's
reading, log entry 7). R166: the ACK record of an AckJournal that waited behind another acceptance is offered then,
and is owed only when its own space test has failed (its reading, log entry 24). R146, R147, R150, R152: what one
acceptance does: its records get consecutive sequence numbers from next sequence and stand in the buffers in the
order offered, behind those accepted before; none is accepted that would use the last number, nor one of a desk with
no sector Erased after it; a record goes into the Filling buffer, the next page or a sector opened for it, and waits
while no buffer is Free or the next sector is Erasing. A command that cannot act changes nothing (the model's choice,
log entry 5); that a program begins with its own command is its reading (log entry 25), and so is that a buffer
without a page holds back neither an erase nor its resuming, and that a waiting acceptance closes nothing (log entry
8). -/
def Obligations.PageBuffersCloseAndAreProgrammed : Prop :=
  (∀ s : State, s.power ≠ .off →
      let j := s.journal
      (∀ b, j.filling = some b → 5000 ≤ j.fillMs →
          exec .bufferTimer s
            = .next { s with journal := { j with filling := none, waiting := j.waiting ++ [b], fillMs := 0 } })
        ∧ (j.filling = none ∨ j.fillMs < 5000 → exec .bufferTimer s = .next s)
        ∧ (∀ b rest t, j.waiting = b :: rest → b.target = some t → j.programming = none →
            (j.erase = none ∨ (∃ r, j.erase = some r ∧ r.suspended = true) →
                exec .pageProgramStart s = .next { s with journal := { j with waiting := rest, programming := some b } })
              ∧ ∀ r, j.erase = some r → r.suspended = false →
                  (r.count < 64 →
                      exec .pageProgramStart s
                        = .next { s with journal :=
                            { j with waiting := rest, programming := some b,
                                     erase := some { r with suspended := true, count := r.count + 1 } } })
                    ∧ (64 ≤ r.count → exec .pageProgramStart s = .next s))
        ∧ (j.waiting = [] ∨ j.programming ≠ none → exec .pageProgramStart s = .next s))
    ∧ (∀ (s : State) (b : PageBuf) (n p : Nat), s.power ≠ .off → s.journal.programming = some b → b.target = some (n, p) →
        n < 128 → p < 16 → Memory.wf s.journal.array = true → s.journal.queue = [] →
        let j := s.journal
        let x := j.sector n
        let content := (if p = 0 then sectorHeader x.lap x.first n else []) ++ b.recs.flatMap Rec.bytes
        ∃ array : List Host.Cell,
          exec .pageProgramComplete s
              = .next { s with journal :=
                  { j with array := array
                           tail := lastStop j.tail b.recs
                           programming := none
                           erase := j.erase.map (fun r =>
                             { r with suspended := r.suspended && j.waiting.head?.any (fun y => y.target.isSome) }) } }
            ∧ Memory.wf array = true
            ∧ (∀ i, i < 256 → Memory.read array (n * 4096 + p * 256 + i) = (pageBytes content).getD i 0#8)
            ∧ (∀ a, a < n * 4096 + p * 256 ∨ n * 4096 + p * 256 + 256 ≤ a → Memory.read array a = Memory.read j.array a))
    ∧ (∀ (s : State) (b : PageBuf) (n p : Nat) (a : Acceptance), s.power ≠ .off → s.journal.programming = some b →
        b.target = some (n, p) → s.journal.queue = [a] →
        let j := s.journal
        let x := j.sector n
        let content := (if p = 0 then sectorHeader x.lap x.first n else []) ++ b.recs.flatMap Rec.bytes
        let done : Journal :=
          { j with array := Memory.writeAll j.array (n * 4096 + p * 256) (pageBytes content)
                   tail := lastStop j.tail b.recs
                   programming := none }
        let goesOn := fun f => exec .pageProgramComplete s = .next (s.takenUp done a f).resumed
        (∀ h, a = .store → s.store.holding = some h → goesOn (s.heldMeets h))
          ∧ (∀ day minute second, a = .clock day minute second → s.clock.day ≤ day →
              goesOn (fun k =>
                let draft : Draft :=
                  { source := .uplink, time := none, flags := { },
                    body := .clock { day := s.clock.day, minute := s.clock.minute } { day := day, minute := minute } }
                match k.accept s.now [draft] with
                | .done k1 => (State.setClock { s with journal := k1 } day minute second).respond .uplink .ok .empty
                | .full =>
                  (State.setClock { s with journal := { k with drops := min (k.drops + 1) 255 } } day minute
                    second).respond .uplink .ok .empty
                | .wait => { s with journal := { k with queue := [a] } }))
          ∧ (∀ clamped, a = .ack clamped true →
              goesOn (fun k =>
                let draft : Draft := { source := .uplink, time := none, flags := { }, body := .ack k.u }
                match k.accept s.now [draft] with
                | .done k1 => State.respond { s with journal := k1 } .uplink .ok (.ack j.u clamped)
                | .full =>
                  State.respond { s with journal := { k with owedAck := true } } .uplink .ok (.ack j.u clamped)
                | .wait => { s with journal := { k with queue := [a] } })))
    ∧ (∀ (j k : Journal) (now : Time) (ds : List Draft), j.accept now ds = .done k →
        (∃ rs : List Rec, k.buffered = j.buffered ++ rs ∧ rs.length = ds.length
          ∧ ∀ (i : Nat) (r : Rec) (d : Draft), rs[i]? = some r → ds[i]? = some d →
              r = { seq := j.next + i, source := d.source, time := d.time.getD now, flags := d.flags, body := d.body })
          ∧ k = { j with sectors := k.sectors, active := k.active, page := k.page, filling := k.filling,
                         fillMs := k.fillMs, waiting := k.waiting, next := j.next + ds.length }
          ∧ k.next ≤ 4294967295
          ∧ ((∃ d ∈ ds, ∃ x, d.source = .desk x) → 1 ≤ (k.sectors.filter (fun x => decide (x.st = .erased))).length))
    ∧ ∀ (j : Journal) (now : Time) (d : Draft),
        let r : Rec :=
          { seq := j.next, source := d.source, time := d.time.getD now, flags := d.flags, body := d.body }
        let comesTo := fun (k : Journal) =>
          (4294967295 ≤ j.next → j.accept now [d] = .full)
            ∧ (j.next < 4294967295 →
                ((∃ x, d.source = .desk x) → (∀ x ∈ k.sectors, x.st ≠ .erased) → j.accept now [d] = .full)
                  ∧ ((∃ x ∈ k.sectors, x.st = .erased) ∨ d.source = .uplink ∨ d.source = .unit →
                      j.accept now [d] = .done { k with next := j.next + 1 }))
        let full := ∀ b n p, j.filling = some b → b.target = some (n, p) → pageRoom p < recsSize b.recs + r.body.size
        let closed := j.withClosed
        (∀ b n p, j.filling = some b → b.target = some (n, p) → recsSize b.recs + r.body.size ≤ pageRoom p →
            comesTo (j.withRecord n p b.recs r))
          ∧ (full → (2 ≤ j.filling.toList.length + j.waiting.length + j.programming.toList.length
                ∨ ∃ b ∈ j.waiting, b.target = none) → j.accept now [d] = .wait)
          ∧ (full → j.filling.toList.length + j.waiting.length + j.programming.toList.length < 2 →
              (∀ b ∈ j.waiting, b.target ≠ none) →
              (∀ a, j.active = some a → j.page ≤ 15 →
                  comesTo (Journal.withRecord { closed with page := j.page + 1 } a j.page [] r))
                ∧ (j.active = none ∨ 15 < j.page →
                    let n := j.nextSector.1
                    ((j.sector n).st = .erasing → j.accept now [d] = .wait)
                      ∧ ((j.sector n).st = .erased →
                          comesTo ((closed.withOpened n j.nextSector.2 r.seq).withRecord n 0 [] r))
                      ∧ ((j.sector n).st = .active ∨ (j.sector n).st = .sealed ∨ (j.sector n).st = .reclaimable →
                          j.accept now [d] = .full)))

/-- R155, R156, R158, R143: the erase engine, idle and with no program in progress and no buffer ready for one, takes
a sector left Erasing, else the oldest Reclaimable one in ring order, so that no Active or Sealed sector is ever
erased; its suspension count begins at 0, and head advances to the first sequence of the oldest sector that is
neither Erased nor Erasing. The erase's completion leaves the sector blank and Erased and no other byte changed; one
that leaves a byte not erased is begun again. R149, R154: an ACK owed is offered at that completion, and an
acceptance that waited is taken up again. A suspended erase does not complete. A command that cannot act changes
nothing (the model's choice, log entry 5); what a failed erase leaves is an operand (log entry 6); a Waiting buffer
that has no page holds back no erase (the model's reading, log entry 8). -/
def Obligations.ErasesBlankTheirSector : Prop :=
  ∀ s : State, s.power ≠ .off →
    let j := s.journal
    let ready := ∃ b rest, j.waiting = b :: rest ∧ b.target ≠ none
    let live := fun n =>
      (j.sector n).st = .active ∨ (j.sector n).st = .sealed ∨ (j.sector n).st = .reclaimable
    let ring := fun i => ((match j.active with | none => 0 | some a => a + 1) + i) % 128
    let left := fun i => (j.eraseFrom + i) % 128
    (j.erase = none → j.programming = none → ¬ ready →
        let takes := fun n =>
          (∀ i, i < 128 → live (ring i) → ring i ≠ n → (∀ k, k < i → ¬ live (ring k) ∨ ring k = n) →
              exec .eraseStart s
                = .next { s with journal :=
                    { j with sectors := j.sectors.set n { j.sector n with st := .erasing }
                             erase := some { sector := n, suspended := false, count := 0 }
                             head := max j.head (j.sector (ring i)).first } })
            ∧ ((∀ i, i < 128 → ¬ live (ring i) ∨ ring i = n) →
              exec .eraseStart s
                = .next { s with journal :=
                    { j with sectors := j.sectors.set n { j.sector n with st := .erasing }
                             erase := some { sector := n, suspended := false, count := 0 } } })
        (∀ i, i < 128 → (j.sector (left i)).st = .erasing → (∀ k, k < i → (j.sector (left k)).st ≠ .erasing) →
            takes (left i))
          ∧ ((∀ n, n < 128 → (j.sector n).st ≠ .erasing) →
              (∀ i, i < 128 → (j.sector (ring i)).st = .reclaimable →
                  (∀ k, k < i → (j.sector (ring k)).st ≠ .reclaimable) → takes (ring i))
                ∧ ((∀ n, n < 128 → (j.sector n).st ≠ .reclaimable) → exec .eraseStart s = .next s)))
      ∧ (j.erase ≠ none ∨ j.programming ≠ none ∨ ready → exec .eraseStart s = .next s)
      ∧ (∀ left, (∀ c ∈ left, c.1 < 4096) → j.erase = none → exec (.eraseComplete left) s = .next s)
      ∧ ∀ r left, j.erase = some r → (∀ c ∈ left, c.1 < 4096) →
          (r.suspended = true → exec (.eraseComplete left) s = .next s)
            ∧ (r.suspended = false → r.sector < 128 → Memory.wf j.array = true →
                ((∀ c ∈ left, c.2 = 0xFF#8) → (∀ b ∈ j.waiting, b.target ≠ none) →
                    ∃ array,
                      let done : Journal :=
                        { j with array := array
                                 sectors := j.sectors.set r.sector { st := .erased, lap := 0, first := 0, stop := 0 }
                                 erase := none }
                      (Memory.wf array = true
                        ∧ ∀ a, Memory.read array a
                            = if r.sector * 4096 ≤ a ∧ a < r.sector * 4096 + 4096 then 0xFF#8
                              else Memory.read j.array a)
                        ∧ (j.queue = [] → j.owedAck = false →
                            exec (.eraseComplete left) s = .next { s with journal := done })
                        ∧ (j.queue = [] → j.owedAck = true →
                            exec (.eraseComplete left) s
                              = .next (s.takenUp done .owed (fun k => { s with journal := k })))
                        ∧ ∀ h, j.queue = [.store] → s.store.holding = some h →
                            exec (.eraseComplete left) s = .next (s.takenUp done .store (s.heldMeets h)))
                  ∧ ((∃ c ∈ left, c.2 ≠ 0xFF#8) →
                      ∃ array,
                        exec (.eraseComplete left) s
                            = .next { s with journal := { j with array := array, erase := some { r with count := 0 } } }
                          ∧ ∀ a, a < r.sector * 4096 ∨ r.sector * 4096 + 4096 ≤ a →
                              Memory.read array a = Memory.read j.array a))

/-- R154, R166: AckJournal moves U forward, as far as the programmed tail; one that does not move it asks for no
record; one that does makes the Sealed sectors below it Reclaimable and offers an ACK record, which stays owed when
it has no room. -/
def Obligations.AcknowledgementsMoveUForward : Prop :=
  ∀ (tag : Byte) (seq : Nat) (s : State), s.free .uplink → seq < 4294967296 →
    let j := s.journal
    let u := min (max j.u seq) j.tail
    let clamped := decide (j.tail < seq)
    let c : Instr := .ackJournal .uplink tag (be4 seq)
    let answered := s.answered .uplink .ackJournal tag .ok (.ack u clamped)
    (u = j.u → exec c s = .next answered)
      ∧ (u ≠ j.u → s.journal.idle →
          let moved : Journal :=
            { j with
              u := u
              sectors := j.sectors.map (fun x => if x.st = .sealed ∧ x.stop ≤ u then { x with st := .reclaimable } else x) }
          let drafts : List Draft := [{ source := .uplink, time := none, flags := { }, body := .ack u }]
          (∀ k, moved.accept s.now drafts = .done k → exec c s = .next { answered with journal := k })
            ∧ (moved.accept s.now drafts = .full →
                exec c s = .next { answered with journal := { moved with owedAck := true } }))

/-! ### The nightly exchange -/

/-- R167 to R169, R172, R173: the exchange's requests. Begin goes to the store unless a session is in progress;
Entry, End and Abort go there with the gap timer stopped, and find no session TOO_LATE once after an expiry, else
WRONG_STATE; an entry outside its ranges, or whose body does not fit the session's kind, is BAD_REQUEST, the session
goes on, and the gap timer starts again after the answer. The gap timer at 30 s sends the store an abort. The timer's
command before its time changes nothing (the model's choice, log entry 5); a session whose expiry has been taken is
over at once (its reading, log entry 13); a presence byte other than 0 and 1 fits no entry (its choice, log entry
16). -/
def Obligations.DownloadRequestsReachTheStore : Prop :=
  ∀ (tag : Byte) (s : State),
    let x := s.exch
    let current := x.expired = false ∧ x.session ≠ none
    let sends := fun k t => ((s.taken .uplink k tag).sendTxn .uplink t)
    (s.free .uplink →
        (∀ k : ListKind, ¬ current →
            exec (.beginDownload .uplink tag [BitVec.ofNat 8 k.number]) s
              = .next { sends .beginDownload (.markStale k) with exch := { x with late := false } })
          ∧ (∀ k : ListKind, current →
              exec (.beginDownload .uplink tag [BitVec.ofNat 8 k.number]) s
                = .next (s.answered .uplink .beginDownload tag .busy .empty))
          ∧ (∀ b : Byte, b ≠ 1#8 → b ≠ 2#8 →
              exec (.beginDownload .uplink tag [b]) s
                = .next (s.answered .uplink .beginDownload tag .badRequest .empty))
          ∧ (current →
              exec (.endDownload .uplink tag []) s
                  = .next { sends .endDownload .downloadEnd with exch := { x with gapMs := none } }
                ∧ exec (.abortDownload .uplink tag []) s
                  = .next { sends .abortDownload (.downloadAbort .request) with exch := { x with gapMs := none } })
          ∧ (¬ current → ∀ code, code = (if x.late = true then RespCode.tooLate else RespCode.wrongState) →
              (∀ body : List Byte, body.length = 9 ∨ body.length = 11 ∨ body.length = 12 →
                  exec (.downloadEntry .uplink tag body) s
                    = .next { s.answered .uplink .downloadEntry tag code .empty with exch := { x with late := false } })
                ∧ exec (.endDownload .uplink tag []) s
                    = .next { s.answered .uplink .endDownload tag code .empty with exch := { x with late := false } }
                ∧ exec (.abortDownload .uplink tag []) s
                    = .next { s.answered .uplink .abortDownload tag code .empty with exch := { x with late := false } })
          ∧ (x.expired = false → x.session = some .holds →
              (∀ lib serial lib2 serial2 : Nat, lib < 65536 → serial < 4294967296 → lib2 < 65536 → serial2 < 4294967296 →
                  let body := be2 lib ++ be4 serial ++ be2 lib2 ++ be4 serial2
                  let inside := lib ≤ 999 ∧ serial ≤ 9999999 ∧ lib2 ≤ 999 ∧ serial2 ≤ 9999999
                  (inside →
                      exec (.downloadEntry .uplink tag body) s
                        = .next { sends .downloadEntry
                              (.holdEntry { lib := lib, serial := serial } { lib := lib2, serial := serial2 }) with
                            exch := { x with gapMs := none } })
                    ∧ (¬ inside → exec (.downloadEntry .uplink tag body) s = .next (s.entryRefused tag)))
                ∧ ∀ body : List Byte, body.length ≠ 12 →
                    exec (.downloadEntry .uplink tag body) s = .next (s.entryRefused tag))
          ∧ (x.expired = false → x.session = some .blocks →
              (∀ lib serial category code : Nat, ∀ expiry : Option Nat, lib < 65536 → serial < 4294967296 →
                  category < 256 → code < 256 → (∀ e, expiry = some e → e ≤ 65535) →
                  let body := be2 lib ++ be4 serial ++ [BitVec.ofNat 8 category]
                    ++ (match expiry with | none => [0#8] | some e => 1#8 :: be2 e) ++ [BitVec.ofNat 8 code]
                  let inside := lib ≤ 999 ∧ serial ≤ 9999999 ∧ category ≤ 7 ∧ 1 ≤ code
                  (inside →
                      exec (.downloadEntry .uplink tag body) s
                        = .next { sends .downloadEntry (.blockEntry
                              { borrower := { lib := lib, serial := serial }, category := category, expiry := expiry,
                                code := code }) with
                            exch := { x with gapMs := none } })
                    ∧ (¬ inside → exec (.downloadEntry .uplink tag body) s = .next (s.entryRefused tag)))
                ∧ ∀ body : List Byte, ¬ (body.length = 9 ∧ body[7]? = some 0#8) →
                    ¬ (body.length = 11 ∧ body[7]? = some 1#8) →
                    exec (.downloadEntry .uplink tag body) s = .next (s.entryRefused tag)))
      ∧ (s.power = .running →
          (∀ ms, current → x.gapMs = some ms → 30000 ≤ ms →
              exec .gapTimerExpiry s
                = .next { s.sendTxn .uplink (.downloadAbort .timer) with
                          exch := { x with gapMs := none, late := true, expired := true } })
            ∧ ((¬ current ∨ ∀ ms, x.gapMs = some ms → ms < 30000) → exec .gapTimerExpiry s = .next s))

/-- R70, R89, R167 to R171: the store takes a Begin, whose session starts with every mark of its list stale, and the
entries: what each does to the tables, whether it counts as stored, and the answer, after which the gap timer starts. -/
def Obligations.DownloadEntriesChangeTheTables : Prop :=
  ∀ (s : State) (r : InProgress), s.portU.inProgress = some r →
    let t := s.tookFrom .uplink
    let c := s.circ
    let answers := fun (u : State) ans =>
      u.setPort .uplink { u.portU with tx := u.portU.tx ++ [{ ownFrame r.tag .ok ans with startsGap := true }] }
    (∀ k, s.turnOf .uplink = some (.markStale k) →
        let exch := { s.exch with session := some k, stored := 0, notStored := 0, gapMs := none }
        exec .downloadMarkStale s = .next (answers { t with circ := c.marked k true, exch := exch } .empty))
      ∧ (s.exch.session ≠ none →
          let counted := fun (stored : Bool) circ =>
            let x := s.exch
            let y : Exchange :=
              if stored then { x with stored := min (x.stored + 1) 65535 }
              else { x with notStored := min (x.notStored + 1) 65535 }
            answers { t with circ := circ, exch := y } (.counts y.stored y.notStored)
          (∀ e, s.turnOf .uplink = some (.blockEntry e) →
              let central : Option CentralReason := some { code := e.code, stale := false }
              let writes := fun b : Borrower =>
                exec .blockEntry s
                  = .next (counted true { c with borrowers := Table.put c.borrowers e.borrower.key b })
              (∀ b, c.borrower e.borrower = some b →
                  writes { b with category := e.category, expiry := e.expiry, central := central })
                ∧ (c.borrower e.borrower = none → c.borrowers.length < 1024 →
                    writes
                      { category := e.category, expiry := e.expiry, owed := 0, clamped := false, loans := 0, overdue := 0,
                        localBlock := none, central := central })
                ∧ (c.borrower e.borrower = none → 1024 ≤ c.borrowers.length →
                    exec .blockEntry s = .next (counted false c)))
            ∧ ∀ item holder, s.turnOf .uplink = some (.holdEntry item holder) →
                let writes := fun (place : Nat) (h : Hold) =>
                  exec .holdEntry s = .next (counted true { c with holds := Table.put c.holds place h })
                (c.holdOf item = none → c.holds.length < 512 →
                    writes (Table.lowestFree c.holds)
                      { item := item, holder := holder, state := .waiting, deadline := none, stale := false })
                  ∧ (c.holdOf item = none → 512 ≤ c.holds.length → exec .holdEntry s = .next (counted false c))
                  ∧ ∀ p h, c.holdOf item = some (p, h) →
                      (h.state = .waiting → writes p { h with holder := holder, stale := false })
                        ∧ (h.state = .trapped → h.holder = holder → exec .holdEntry s = .next (counted true c))
                        ∧ (h.state = .trapped → h.holder ≠ holder → exec .holdEntry s = .next (counted false c)))

/-- R172 to R175: the store ends a session: an End removes the reasons, or the Waiting holds, still marked stale, and
the records they leave empty, answers the counts, and for a block list clears the tables-lost mark; an abort clears
every mark, and only a request for it is answered. Each makes a DOWNLOAD record, accepted or dropped. The session's
counts stay to be read by Identify, of which R174 speaks for an abort (after an End, the model's choice, log entry
29). -/
def Obligations.DownloadsEndOrAbort : Prop :=
  ∀ (s : State) (kind : ListKind) (k : Journal), s.exch.session = some kind → s.journal.idle →
    let x := s.exch
    let t := s.tookFrom .uplink
    let drafts := fun (removed : Nat) (aborted : Bool) =>
      ([{ source := .uplink, time := none, flags := { aborted := aborted },
          body := .download kind x.stored x.notStored (min removed 65535) }] : List Draft)
    let leaves := fun ds => s.journal.accept s.now ds = .done k
      ∨ s.journal.accept s.now ds = .full ∧ k = { s.journal with drops := min (s.journal.drops + 1) 255 }
    let removed :=
      match kind with
      | .blocks => (s.circ.borrowers.filter (fun e => e.2.central.any CentralReason.stale)).length
      | .holds => (s.circ.holds.filter (fun e => e.2.stale && decide (e.2.state = .waiting))).length
    (∀ r, s.turnOf .uplink = some .downloadEnd → s.portU.inProgress = some r → leaves (drafts removed false) →
        let lost := s.exch.tablesLost && decide (kind = .holds)
        let exch := { s.exch with session := none, gapMs := none, expired := false, tablesLost := lost }
        exec .downloadEnd s
          = .next (State.replied { t with circ := s.circ.cleared kind, journal := k, exch := exch } .uplink r .ok
              (.ended x.stored x.notStored removed)))
      ∧ ∀ cause, s.turnOf .uplink = some (.downloadAbort cause) → leaves (drafts 0 true) →
          let shut := s.exch.shut && decide (cause ≠ .reset)
          let exch := { s.exch with session := none, gapMs := none, expired := false, shut := shut }
          let u : State := { t with circ := s.circ.marked kind false, journal := k, exch := exch }
          (cause ≠ .request → exec .downloadAbort s = .next u)
            ∧ ∀ r, cause = .request → s.portU.inProgress = some r →
                exec .downloadAbort s = .next (u.replied .uplink r .ok .empty)

/-! ### The slip printer -/

/-- R181 to R184: the printer's answers. DONE takes the front slip off and sends the next, and hands the freed place
to the desk at the head of the waiting list, whose follow-on is performed (R25, R30); PAPER_OUT keeps the front slip
and starts the inquiry timer; READY answers an Inquiry and sends the front slip whole; an answer not expected, and
any other message, changes nothing. R182: characters are assembled up to each carriage return; a line feed and a
character received with a line error are discarded. R182 and R183: the answer timer starts once a message's last
character has been sent; 5 s without an answer make the printer Offline; after 10 s in PaperOut or Offline an
Inquiry, the single character ENQ, is sent. No timer acts before its time. An answer is expected once the last
character of its message has been sent, so that a slip is always sent whole (the model's reading, log entry 12); a
message goes on past a character it discards (its reading, log entry 30); the codes of the letters, carriage return
and line feed are its choice (log entry 17), and a command that cannot act changes nothing (log entry 5). -/
def Obligations.PrinterAnswersAndTimers : Prop :=
  (∀ s : State, s.power = .running →
      let p := s.printer
      let heard := fun m => { s with printer := { p with rx := m } }
      let answers := [Instr.printerDone, Instr.printerPaperOut, Instr.printerReady]
      let after := fun (q : List Slip) (w : List Desk) =>
        match q with
        | [] =>
          { p with st := .ready, queue := [], waitList := w, outstanding := none, sending := none, answerMs := none,
                   inquiryMs := none }
        | x :: rest =>
          { p with st := .printing, queue := x :: rest, waitList := w, outstanding := some .slip,
                   sending := some x.message, answerMs := none, inquiryMs := none }
      (∀ chars, noReturn chars = true →
          let m := p.rx ++ keptChars chars
          let ends := chars ++ [.char 0x0D#8]
          exec (.printerMessageDiscard chars) s = .next (heard m)
            ∧ (m = [0x44#8] → exec (.printerMessageDiscard ends) s = exec .printerDone (heard []))
            ∧ (m = [0x50#8] → exec (.printerMessageDiscard ends) s = exec .printerPaperOut (heard []))
            ∧ (m = [0x52#8] → exec (.printerMessageDiscard ends) s = exec .printerReady (heard []))
            ∧ (m ≠ [0x44#8] → m ≠ [0x50#8] → m ≠ [0x52#8] →
                exec (.printerMessageDiscard ends) s = .next (heard [])))
        ∧ (∀ c ∈ answers, p.rx ≠ [] → exec c s = .next (heard []))
        ∧ (p.rx = [] → (∀ c ∈ answers, p.outstanding = none ∨ p.sending ≠ none → exec c s = .next s)
          ∧ (p.sending = none →
              (p.outstanding = some .inquiry →
                  exec .printerDone s = .next s ∧ exec .printerReady s = .next { s with printer := after p.queue p.waitList })
              ∧ (p.outstanding ≠ none →
                  exec .printerPaperOut s
                    = .next { s with printer :=
                        { p with st := .paperOut, outstanding := none, sending := none, answerMs := none,
                                 inquiryMs := some 0 } })
              ∧ (p.outstanding = some .slip →
                  exec .printerReady s = .next s
                    ∧ (p.waitList = [] → exec .printerDone s = .next { s with printer := after p.queue.tail [] })
                    ∧ ∀ d rest x f, p.waitList = d :: rest → (s.eng d).ctx = .slipWait x f → (s.eng d).deferred = [] →
                        let t := { s with printer := after (p.queue.tail ++ [x]) rest }
                        (f = .idle →
                            exec .printerDone s = .next (t.setEng d { s.eng d with ctx := .idle, idleMs := none }))
                          ∧ (∀ ss, f = .resume ss →
                              exec .printerDone s = .next (t.setEng d { s.eng d with ctx := .session ss, idleMs := some 0 }))
                          ∧ (∀ sc, f = .serveBorrower sc → s.opState = .opened →
                              exec .printerDone s
                                = .next ((t.setEng d
                                    { s.eng d with ctx := .idle, idleMs := none, service := some (.entry sc) }).sendTxn (.engine d)
                                      (.borrowerCheck sc.label.ident)))
                          ∧ (∀ sc, f = .serveBorrower sc → s.opState ≠ .opened →
                              exec .printerDone s
                                = .next (t.setEng d
                                    { s.eng d with
                                      ctx := .idle
                                      idleMs := none
                                      results := (s.eng d).results
                                        ++ [{ label := sc.label.digits, fields := { verdict := .notOpen } }] }))
                          ∧ (∀ ss, f = .closeResumed ss →
                              exec .printerDone s = .next (t.sessionClosed d ss (s.eng d)))))))
    ∧ (∀ s : State, s.power = .running →
        let p := s.printer
        (p.sending ≠ none → exec .messageSent s = .next { s with printer := { p with sending := none, answerMs := some 0 } })
          ∧ (p.sending = none → exec .messageSent s = .next s)
          ∧ (∀ ms, p.answerMs = some ms → 5000 ≤ ms →
              exec .answerTimerExpiry s
                = .next { s with printer :=
                    { p with st := .offline, outstanding := none, sending := none, answerMs := none, inquiryMs := some 0 } })
          ∧ ((∀ ms, p.answerMs = some ms → ms < 5000) → exec .answerTimerExpiry s = .next s)
          ∧ (∀ ms, p.inquiryMs = some ms → 10000 ≤ ms →
              exec .inquiryTimerExpiry s
                = .next { s with printer :=
                    { p with outstanding := some .inquiry, sending := some [0x05#8], answerMs := none, inquiryMs := none } })
          ∧ ((∀ ms, p.inquiryMs = some ms → ms < 10000) → exec .inquiryTimerExpiry s = .next s))

/-! ### Ports -/

/-- R187: a frame whose check is wrong is discarded with no response, and one whose check is right is no such event;
a partly received frame is discarded at a line error or after 100 ms; a start byte whose length is above 600 is
stray, and the port goes on from what follows it. A command that cannot act changes nothing (the model's choice, log
entry 5). R187: a frame is its start byte, length, tag, code, body and check; the frame of a body that fits is whole
and its check is correct. -/
def Obligations.BadFramesAreDiscarded : Prop :=
  (∀ (p : Port) (s : State), s.accepts p = true →
      let held := fun bs => s.setPort p { s.port p with rx := bs, rxMs := 0 }
      (∀ (tag code hi lo : Byte) (body rest : List Byte), body.length ≤ 600 →
          let checked := be2 body.length ++ [tag, code] ++ body
          (s.port p).rx ++ rest = 0xD4#8 :: checked ++ [hi, lo] →
          (hi.toNat * 256 + lo.toNat ≠ (checked.map BitVec.toNat).sum % 65536 →
              exec (.frameCheckError p rest) s = .next (held []))
            ∧ (hi.toNat * 256 + lo.toNat = (checked.map BitVec.toNat).sum % 65536 →
                exec (.frameCheckError p rest) s = .next s))
        ∧ ((s.port p).rx ≠ [] → exec (.frameTimeout p .lineError) s = .next (held []))
        ∧ ((s.port p).rx ≠ [] → 100 ≤ (s.port p).rxMs → exec (.frameTimeout p .gap) s = .next (held []))
        ∧ ((s.port p).rx = [] ∨ (s.port p).rxMs < 100 → exec (.frameTimeout p .gap) s = .next s)
        ∧ ∀ hi lo : Byte, (s.port p).rx = [] →
            (hi.toNat * 256 + lo.toNat ≤ 600 → exec (.strayStartByte p hi lo) s = .next (held [0xD4#8, hi, lo]))
              ∧ (600 < hi.toNat * 256 + lo.toNat →
                  (hi = 0xD4#8 → exec (.strayStartByte p hi lo) s = .next (held [hi, lo]))
                    ∧ (hi ≠ 0xD4#8 → lo = 0xD4#8 → exec (.strayStartByte p hi lo) s = .next (held [lo]))
                    ∧ (hi ≠ 0xD4#8 → lo ≠ 0xD4#8 → exec (.strayStartByte p hi lo) s = .next (held []))))
    ∧ (∀ (tag code : Byte) (body : List Byte), body.length ≤ 600 →
        wholeFrame (frameBytes tag code body) = true ∧ checkCorrect (frameBytes tag code body) = true
          ∧ (frameBytes tag code body).length = body.length + 7)

/-- R188 to R190: an unknown code is BAD_REQUEST and disarms its port; RestartArm arms it; Restart is NOT_ARMED, or
answered OK with the restart due once that answer is sent, or, behind another port's Restart, a request in progress
with no answer; sending the response to the request in progress ends its progress, and the BUSY responses to the
frames that met it follow that response whole, in their order; sending a response starts the gap timer of a session
it answers. RESPONSE_SENT with nothing to send changes nothing (the model's choice, log entry 5). -/
def Obligations.RestartsAreArmedAndResponsesSent : Prop :=
  ∀ (p : Port) (tag : Byte) (s : State),
    (s.free p →
        (∀ code body, code = 0#8 ∨ 27 < code.toNat →
            exec (.unknownRequest p tag code body) s
              = .next (s.setPort p
                  { s.port p with rx := [], inProgress := some { kind := none, tag := tag }, arm := false,
                                  tx := (s.port p).tx ++ [ownFrame tag .badRequest .empty] }))
          ∧ exec (.restartArm p tag []) s
              = .next (s.setPort p
                  { s.port p with rx := [], inProgress := some { kind := some .restartArm, tag := tag }, arm := true,
                                  tx := (s.port p).tx ++ [ownFrame tag .ok .empty] })
          ∧ ((s.port p).arm = false →
              exec (.restart p tag []) s = .next (s.answered p .restart tag .notArmed .empty))
          ∧ ((s.port p).arm = true → s.restartDue = false → (∀ q, ∀ t ∈ (s.port q).tx, t.restarts = false) →
              exec (.restart p tag []) s
                = .next (s.setPort p
                    { s.port p with rx := [], inProgress := some { kind := some .restart, tag := tag }, arm := false,
                                    tx := (s.port p).tx ++ [{ ownFrame tag .ok .empty with restarts := true }] }))
          ∧ ((s.port p).arm = true → s.restartDue = true ∨ (∃ q, ∃ t ∈ (s.port q).tx, t.restarts = true) →
              exec (.restart p tag []) s
                = .next (s.setPort p
                    { s.port p with rx := [], inProgress := some { kind := some .restart, tag := tag }, arm := false })))
      ∧ (∀ t rest, s.power = .running → (s.port p).tx = t :: rest →
          let x := s.port p
          let busy : List TxFrame := x.busy.map (fun g =>
            { tag := g, code := .busy, answer := .empty, own := false, startsGap := false, restarts := false })
          let sent := s.setPort p
            (if t.own = true then { x with tx := rest ++ busy, inProgress := none, busy := [] } else { x with tx := rest })
          let gap := if t.startsGap = true ∧ s.exch.session ≠ none ∧ s.exch.expired = false then some 0 else s.exch.gapMs
          exec (.responseSent p) s
            = .next { sent with restartDue := s.restartDue || t.restarts, exch := { s.exch with gapMs := gap } })
      ∧ ((s.port p).tx = [] → exec (.responseSent p) s = .next s)

/-! ### Resets -/

/-- R14, R38, R62, R91, R139, R161, R177, R186, R191: a unit restart, due once the answer to Restart has been sent,
keeps the clock, the tables, the settings and the journal, gives the desks, the printer and the ports their values
after reset, begins a rollover's pass again, makes its RESTART record, and sends the abort of a session it
interrupted, which is over for every request. A transaction the store has taken and an acceptance the journal has
taken stay, behind them an ACK and the store's own acceptance, and start-up waits with them (what stays of the rest,
and the count of what is dropped: log entry 23); such a transaction completes with its outcome discarded. A BUSY
response not yet sent is discarded with the ports' other responses (the model's reading, log entry 22). The command
before it is due changes nothing (the model's choice, log entry 5). -/
def Obligations.UnitRestartKeepsTheTables : Prop :=
  (∀ s : State, s.restartDue = false → exec .unitRestart s = .next s)
    ∧ (∀ s : State, s.power = .running → s.restartDue = true → s.journal.drops ≤ 255 →
        let starting : State :=
          { power := .starting .restart, written := s.written, restartDue := false, clock := s.clock,
            openLine := s.openLine,
            opState := deriveOp s.clock.valid s.settings.config.home s.openLine s.settings.config.policy,
            wandA := Wand.initial, wandB := Wand.initial, engA := Engine.initial, engB := Engine.initial,
            store := Store.initial, circ := s.circ, settings := s.settings,
            roll := { s.roll with
              place := if s.roll.phase = .holdPass then 0 else s.roll.place
              cursor := if s.roll.phase = .sweep then 0 else s.roll.cursor },
            journal := { s.journal with erase := none, fillMs := 0 },
            exch := { s.exch with gapMs := none, late := false, expired := s.exch.session.isSome, shut := false },
            printer := { st := .offline, rx := [], queue := [], waitList := [], outstanding := none, sending := none,
                         answerMs := none, inquiryMs := none },
            portA := PortState.initial, portB := PortState.initial, portU := PortState.initial,
            pending := s.pending }
        let kept := { s.journal with erase := none, fillMs := 0 }
        let drafts : List Draft :=
          [{ source := .unit, time := none, flags := { }, body := .restart .restart s.journal.drops }]
        (∀ j : Journal, s.store.holding = none → s.journal.queue = [] → s.journal.owedAck = false →
            (kept.accept s.now drafts = .done j
              ∨ kept.accept s.now drafts = .full ∧ j = { kept with drops := min (s.journal.drops + 1) 255 }) →
            exec .unitRestart s
              = .next { starting with
                  power := .running
                  store := { Store.initial with
                    uplink := if s.exch.session.isSome then [.downloadAbort .reset] else [] }
                  journal := j
                  exch := { starting.exch with shut := s.exch.session.isSome }
                  printer := { starting.printer with outstanding := some .inquiry, sending := some [0x05#8] } })
          ∧ ∀ (a : Acceptance) (rest : List Acceptance), s.journal.queue = a :: rest → s.journal.filling = none →
              2 ≤ s.journal.waiting.length + s.journal.programming.toList.length →
              ((∃ h, a = .store ∧ s.store.holding = some h ∧ s.txnRecords h ≠ [])
                ∨ a = .edits ∨ a = .rollover ∨ ∃ clamped, a = .ack clamped true) →
              exec .unitRestart s
                = .next { starting with
                    store := { Store.initial with
                      holding := s.store.holding.map (fun h => { h with silent := true }) }
                    journal := { kept with
                      queue := a :: (rest.filter Acceptance.ownsAck ++ rest.filter (fun b => decide (b = .store)))
                        ++ [.restart .restart]
                      drops := min (s.journal.drops + (rest.filter (fun b => decide (b = .edits))).length) 255 } })
    ∧ ∀ (s : State) (h : Held) (p : Plan), h.silent = true → s.planOf h = some p →
        s.finishTxn h true = { s with circ := p.circ, store := { s.store with holding := none } }

/-- R125, R140, R192: a power-on. Below 2.0 V, and when retained memory has never been written, it is cold: the
tables, settings, clock and rollover are emptied and the tables-lost mark set. Else it is warm and keeps them, a
session over for every request (R177); below 2.2 V the clock begins again at the rollover day, not valid. Its RESTART
record says which, and the desks, printer and ports have their values after reset. R158 to R160: its journal is what
the scan makes of the array and of the retained buffers: what becomes of blank, damaged and headed sectors, of a void
page and of the records in the buffers; where head, the programmed tail, U and next sequence stand; which sector
comes next. The model's choice: the command with power on changes nothing (log entry 5), the session counts of a cold
power-on (log entry 29), the clock's count inside a second (log entry 3), what a rollover whose application step was
lost with power goes on with (log entry 27), every sector retained as Erasing stays so (log entry 26), and the sector
opened again (log entry 28). -/
def Obligations.PowerOnIsColdOrWarm : Prop :=
  (∀ (v : Nat) (high : Bool) (s : State), s.power ≠ .off → exec (.powerOn v high) s = .next s)
    ∧ (∀ (s : State) (warm : Bool), Memory.wf s.journal.array = true →
        ∃ found, s.journal.Scanned warm found (s.journal.scan warm))
    ∧ ∀ (v : Nat) (high : Bool) (s : State) (j : Journal), s.power = .off →
        let cold := decide (v < 2000) || !s.written
        let found := s.journal.scan (!cold)
        let clock : Clock :=
          if cold then { day := 0, minute := 0, second := 0, ms := 0, valid := false }
          else if v < 2200 then { day := s.roll.day, minute := 0, second := 0, ms := 0, valid := false }
          else s.clock
        let drafts : List Draft :=
          [{ source := .unit, time := none, flags := { },
             body := .restart (if cold then .cold else .warm) found.drops }]
        found.owedAck = false →
        (found.accept { day := clock.day, minute := clock.minute } drafts = .done j
          ∨ found.accept { day := clock.day, minute := clock.minute } drafts = .full
              ∧ j = { found with drops := min (found.drops + 1) 255 }) →
        ∃ t, exec (.powerOn v high) s = .next t
          ∧ t.power = .running ∧ t.written = true ∧ t.clock = clock ∧ t.openLine = high ∧ t.journal = j ∧ t.pending = s.pending
          ∧ t.wandA = Wand.initial ∧ t.wandB = Wand.initial ∧ t.engA = Engine.initial ∧ t.engB = Engine.initial
          ∧ t.portA = PortState.initial ∧ t.portB = PortState.initial ∧ t.portU = PortState.initial
          ∧ t.opState = deriveOp clock.valid t.settings.config.home high t.settings.config.policy
          ∧ t.printer = { Printer.initial with outstanding := some .inquiry, sending := some [0x05#8] }
          ∧ (cold = true →
              t.circ = { loans := [], borrowers := [], holds := [] } ∧ t.settings = Settings.cold
                ∧ t.roll = Rollover.cold ∧ t.store = Store.initial
                ∧ t.exch = { session := none, stored := 0, notStored := 0, gapMs := none, late := false,
                             tablesLost := true, expired := false, shut := false })
          ∧ (cold = false →
              t.circ = s.circ ∧ t.settings = s.settings ∧ t.roll.gen = s.roll.gen
                ∧ t.exch = { s.exch with
                    gapMs := none, late := false, expired := s.exch.session.isSome, shut := s.exch.session.isSome }
                ∧ (s.roll.phase = .none → clock.valid = true → s.roll.day < clock.day →
                    t.roll.phase = .applying ∧ t.roll.day = clock.day)
                ∧ (s.roll.phase ≠ .none → clock.valid = true → s.roll.day < clock.day →
                    t.roll.phase = s.roll.phase ∧ t.roll.pending = true)
                ∧ (clock.valid = false ∨ clock.day ≤ s.roll.day →
                    t.roll.phase = s.roll.phase ∧ t.roll.day = s.roll.day ∧ t.roll.pending = s.roll.pending))

/-- R42, R148, R155, R158: a power loss takes the part down: the store's work and what was offered to the journal are
gone, what is retained stands, and of the array only the page being programmed and the sector being erased can
change. R42, R109, R139: of an application step the store held nothing is done, its edits stand in the list again
before those posted since, and its rollover is in the hold pass; the edits past the 48 the list holds wait outside it
(the model's choice, log entry 27). What page and sector then hold is an operand (the model's choice, log entry 6);
the command without power changes nothing (log entry 5); an acknowledgement's ACK record not yet placed stays owed
(its reading, log entry 23). -/
def Obligations.PowerLossTearsOnlyWorkInProgress : Prop :=
  ∀ (page sector : List Host.Cell) (s : State), (∀ c ∈ page, c.1 < 256) → (∀ c ∈ sector, c.1 < 4096) →
    (s.power = .off → exec (.powerLoss page sector) s = .next s)
      ∧ (s.power ≠ .off → s.journal.Held →
          let held := s.store.holding.any (fun h => decide (h.txn = .application))
          let es := s.roll.taken ++ s.settings.edits
          ∃ array,
            exec (.powerLoss page sector) s
                = .next { s with
                    settings := if held then { s.settings with edits := es.take 48 } else s.settings
                    roll := if held then { s.roll with phase := .holdPass, place := 0, taken := es.drop 48 } else s.roll
                    power := .off
                    restartDue := false
                    store := Store.initial
                    journal := { s.journal with
                      array := array
                      owedAck := s.journal.owedAck || s.journal.queue.any Acceptance.ownsAck
                      queue := [] } }
              ∧ Memory.wf array = true
              ∧ ∀ a,
                  (∀ b n p, s.journal.programming = some b → b.target = some (n, p) →
                    a < n * 4096 + p * 256 ∨ n * 4096 + p * 256 + 256 ≤ a) →
                  (∀ r, s.journal.erase = some r → a < r.sector * 4096 ∨ r.sector * 4096 + 4096 ≤ a) →
                  Memory.read array a = Memory.read s.journal.array a)

end
end

