-- ==== Sys2Proof/Laws/State.lean ====
section
/-! SUPPORT. One lemma per field per update of State: what each update of a desk's, a port's or a claimant's part leaves as
it was, and what it reads back as. -/

namespace Sys2Proof.Machine

variable (s : State)

/-! ### setWand -/

@[simp] theorem State.setWand_power (d : Desk) (w : Wand) : (s.setWand d w).power = s.power := by cases d <;> rfl
@[simp] theorem State.setWand_written (d : Desk) (w : Wand) : (s.setWand d w).written = s.written := by cases d <;> rfl
@[simp] theorem State.setWand_restartDue (d : Desk) (w : Wand) : (s.setWand d w).restartDue = s.restartDue := by cases d <;> rfl
@[simp] theorem State.setWand_clock (d : Desk) (w : Wand) : (s.setWand d w).clock = s.clock := by cases d <;> rfl
@[simp] theorem State.setWand_openLine (d : Desk) (w : Wand) : (s.setWand d w).openLine = s.openLine := by cases d <;> rfl
@[simp] theorem State.setWand_opState (d : Desk) (w : Wand) : (s.setWand d w).opState = s.opState := by cases d <;> rfl
@[simp] theorem State.setWand_engA (d : Desk) (w : Wand) : (s.setWand d w).engA = s.engA := by cases d <;> rfl
@[simp] theorem State.setWand_engB (d : Desk) (w : Wand) : (s.setWand d w).engB = s.engB := by cases d <;> rfl
@[simp] theorem State.setWand_store (d : Desk) (w : Wand) : (s.setWand d w).store = s.store := by cases d <;> rfl
@[simp] theorem State.setWand_circ (d : Desk) (w : Wand) : (s.setWand d w).circ = s.circ := by cases d <;> rfl
@[simp] theorem State.setWand_settings (d : Desk) (w : Wand) : (s.setWand d w).settings = s.settings := by cases d <;> rfl
@[simp] theorem State.setWand_roll (d : Desk) (w : Wand) : (s.setWand d w).roll = s.roll := by cases d <;> rfl
@[simp] theorem State.setWand_journal (d : Desk) (w : Wand) : (s.setWand d w).journal = s.journal := by cases d <;> rfl
@[simp] theorem State.setWand_exch (d : Desk) (w : Wand) : (s.setWand d w).exch = s.exch := by cases d <;> rfl
@[simp] theorem State.setWand_printer (d : Desk) (w : Wand) : (s.setWand d w).printer = s.printer := by cases d <;> rfl
@[simp] theorem State.setWand_portA (d : Desk) (w : Wand) : (s.setWand d w).portA = s.portA := by cases d <;> rfl
@[simp] theorem State.setWand_portB (d : Desk) (w : Wand) : (s.setWand d w).portB = s.portB := by cases d <;> rfl
@[simp] theorem State.setWand_portU (d : Desk) (w : Wand) : (s.setWand d w).portU = s.portU := by cases d <;> rfl
@[simp] theorem State.setWand_pending (d : Desk) (w : Wand) : (s.setWand d w).pending = s.pending := by cases d <;> rfl

/-! ### setEng -/

@[simp] theorem State.setEng_power (d : Desk) (e : Engine) : (s.setEng d e).power = s.power := by cases d <;> rfl
@[simp] theorem State.setEng_written (d : Desk) (e : Engine) : (s.setEng d e).written = s.written := by cases d <;> rfl
@[simp] theorem State.setEng_restartDue (d : Desk) (e : Engine) : (s.setEng d e).restartDue = s.restartDue := by cases d <;> rfl
@[simp] theorem State.setEng_clock (d : Desk) (e : Engine) : (s.setEng d e).clock = s.clock := by cases d <;> rfl
@[simp] theorem State.setEng_openLine (d : Desk) (e : Engine) : (s.setEng d e).openLine = s.openLine := by cases d <;> rfl
@[simp] theorem State.setEng_opState (d : Desk) (e : Engine) : (s.setEng d e).opState = s.opState := by cases d <;> rfl
@[simp] theorem State.setEng_wandA (d : Desk) (e : Engine) : (s.setEng d e).wandA = s.wandA := by cases d <;> rfl
@[simp] theorem State.setEng_wandB (d : Desk) (e : Engine) : (s.setEng d e).wandB = s.wandB := by cases d <;> rfl
@[simp] theorem State.setEng_store (d : Desk) (e : Engine) : (s.setEng d e).store = s.store := by cases d <;> rfl
@[simp] theorem State.setEng_circ (d : Desk) (e : Engine) : (s.setEng d e).circ = s.circ := by cases d <;> rfl
@[simp] theorem State.setEng_settings (d : Desk) (e : Engine) : (s.setEng d e).settings = s.settings := by cases d <;> rfl
@[simp] theorem State.setEng_roll (d : Desk) (e : Engine) : (s.setEng d e).roll = s.roll := by cases d <;> rfl
@[simp] theorem State.setEng_journal (d : Desk) (e : Engine) : (s.setEng d e).journal = s.journal := by cases d <;> rfl
@[simp] theorem State.setEng_exch (d : Desk) (e : Engine) : (s.setEng d e).exch = s.exch := by cases d <;> rfl
@[simp] theorem State.setEng_printer (d : Desk) (e : Engine) : (s.setEng d e).printer = s.printer := by cases d <;> rfl
@[simp] theorem State.setEng_portA (d : Desk) (e : Engine) : (s.setEng d e).portA = s.portA := by cases d <;> rfl
@[simp] theorem State.setEng_portB (d : Desk) (e : Engine) : (s.setEng d e).portB = s.portB := by cases d <;> rfl
@[simp] theorem State.setEng_portU (d : Desk) (e : Engine) : (s.setEng d e).portU = s.portU := by cases d <;> rfl
@[simp] theorem State.setEng_pending (d : Desk) (e : Engine) : (s.setEng d e).pending = s.pending := by cases d <;> rfl

/-! ### setPort -/

@[simp] theorem State.setPort_power (p : Port) (x : PortState) : (s.setPort p x).power = s.power := by rcases p with (_ | _) | _ <;> rfl
@[simp] theorem State.setPort_written (p : Port) (x : PortState) : (s.setPort p x).written = s.written := by rcases p with (_ | _) | _ <;> rfl
@[simp] theorem State.setPort_restartDue (p : Port) (x : PortState) : (s.setPort p x).restartDue = s.restartDue := by rcases p with (_ | _) | _ <;> rfl
@[simp] theorem State.setPort_clock (p : Port) (x : PortState) : (s.setPort p x).clock = s.clock := by rcases p with (_ | _) | _ <;> rfl
@[simp] theorem State.setPort_openLine (p : Port) (x : PortState) : (s.setPort p x).openLine = s.openLine := by rcases p with (_ | _) | _ <;> rfl
@[simp] theorem State.setPort_opState (p : Port) (x : PortState) : (s.setPort p x).opState = s.opState := by rcases p with (_ | _) | _ <;> rfl
@[simp] theorem State.setPort_wandA (p : Port) (x : PortState) : (s.setPort p x).wandA = s.wandA := by rcases p with (_ | _) | _ <;> rfl
@[simp] theorem State.setPort_wandB (p : Port) (x : PortState) : (s.setPort p x).wandB = s.wandB := by rcases p with (_ | _) | _ <;> rfl
@[simp] theorem State.setPort_engA (p : Port) (x : PortState) : (s.setPort p x).engA = s.engA := by rcases p with (_ | _) | _ <;> rfl
@[simp] theorem State.setPort_engB (p : Port) (x : PortState) : (s.setPort p x).engB = s.engB := by rcases p with (_ | _) | _ <;> rfl
@[simp] theorem State.setPort_store (p : Port) (x : PortState) : (s.setPort p x).store = s.store := by rcases p with (_ | _) | _ <;> rfl
@[simp] theorem State.setPort_circ (p : Port) (x : PortState) : (s.setPort p x).circ = s.circ := by rcases p with (_ | _) | _ <;> rfl
@[simp] theorem State.setPort_settings (p : Port) (x : PortState) : (s.setPort p x).settings = s.settings := by rcases p with (_ | _) | _ <;> rfl
@[simp] theorem State.setPort_roll (p : Port) (x : PortState) : (s.setPort p x).roll = s.roll := by rcases p with (_ | _) | _ <;> rfl
@[simp] theorem State.setPort_journal (p : Port) (x : PortState) : (s.setPort p x).journal = s.journal := by rcases p with (_ | _) | _ <;> rfl
@[simp] theorem State.setPort_exch (p : Port) (x : PortState) : (s.setPort p x).exch = s.exch := by rcases p with (_ | _) | _ <;> rfl
@[simp] theorem State.setPort_printer (p : Port) (x : PortState) : (s.setPort p x).printer = s.printer := by rcases p with (_ | _) | _ <;> rfl
@[simp] theorem State.setPort_pending (p : Port) (x : PortState) : (s.setPort p x).pending = s.pending := by rcases p with (_ | _) | _ <;> rfl

/-! ### sendTxn -/

@[simp] theorem State.sendTxn_power (c : Claimant) (t : Txn) : (s.sendTxn c t).power = s.power := by rcases c with (_ | _) | (_ | _) | _ | _ <;> rfl
@[simp] theorem State.sendTxn_written (c : Claimant) (t : Txn) : (s.sendTxn c t).written = s.written := by rcases c with (_ | _) | (_ | _) | _ | _ <;> rfl
@[simp] theorem State.sendTxn_restartDue (c : Claimant) (t : Txn) : (s.sendTxn c t).restartDue = s.restartDue := by rcases c with (_ | _) | (_ | _) | _ | _ <;> rfl
@[simp] theorem State.sendTxn_clock (c : Claimant) (t : Txn) : (s.sendTxn c t).clock = s.clock := by rcases c with (_ | _) | (_ | _) | _ | _ <;> rfl
@[simp] theorem State.sendTxn_openLine (c : Claimant) (t : Txn) : (s.sendTxn c t).openLine = s.openLine := by rcases c with (_ | _) | (_ | _) | _ | _ <;> rfl
@[simp] theorem State.sendTxn_opState (c : Claimant) (t : Txn) : (s.sendTxn c t).opState = s.opState := by rcases c with (_ | _) | (_ | _) | _ | _ <;> rfl
@[simp] theorem State.sendTxn_wandA (c : Claimant) (t : Txn) : (s.sendTxn c t).wandA = s.wandA := by rcases c with (_ | _) | (_ | _) | _ | _ <;> rfl
@[simp] theorem State.sendTxn_wandB (c : Claimant) (t : Txn) : (s.sendTxn c t).wandB = s.wandB := by rcases c with (_ | _) | (_ | _) | _ | _ <;> rfl
@[simp] theorem State.sendTxn_engA (c : Claimant) (t : Txn) : (s.sendTxn c t).engA = s.engA := by rcases c with (_ | _) | (_ | _) | _ | _ <;> rfl
@[simp] theorem State.sendTxn_engB (c : Claimant) (t : Txn) : (s.sendTxn c t).engB = s.engB := by rcases c with (_ | _) | (_ | _) | _ | _ <;> rfl
@[simp] theorem State.sendTxn_circ (c : Claimant) (t : Txn) : (s.sendTxn c t).circ = s.circ := by rcases c with (_ | _) | (_ | _) | _ | _ <;> rfl
@[simp] theorem State.sendTxn_settings (c : Claimant) (t : Txn) : (s.sendTxn c t).settings = s.settings := by rcases c with (_ | _) | (_ | _) | _ | _ <;> rfl
@[simp] theorem State.sendTxn_roll (c : Claimant) (t : Txn) : (s.sendTxn c t).roll = s.roll := by rcases c with (_ | _) | (_ | _) | _ | _ <;> rfl
@[simp] theorem State.sendTxn_journal (c : Claimant) (t : Txn) : (s.sendTxn c t).journal = s.journal := by rcases c with (_ | _) | (_ | _) | _ | _ <;> rfl
@[simp] theorem State.sendTxn_exch (c : Claimant) (t : Txn) : (s.sendTxn c t).exch = s.exch := by rcases c with (_ | _) | (_ | _) | _ | _ <;> rfl
@[simp] theorem State.sendTxn_printer (c : Claimant) (t : Txn) : (s.sendTxn c t).printer = s.printer := by rcases c with (_ | _) | (_ | _) | _ | _ <;> rfl
@[simp] theorem State.sendTxn_portA (c : Claimant) (t : Txn) : (s.sendTxn c t).portA = s.portA := by rcases c with (_ | _) | (_ | _) | _ | _ <;> rfl
@[simp] theorem State.sendTxn_portB (c : Claimant) (t : Txn) : (s.sendTxn c t).portB = s.portB := by rcases c with (_ | _) | (_ | _) | _ | _ <;> rfl
@[simp] theorem State.sendTxn_portU (c : Claimant) (t : Txn) : (s.sendTxn c t).portU = s.portU := by rcases c with (_ | _) | (_ | _) | _ | _ <;> rfl
@[simp] theorem State.sendTxn_pending (c : Claimant) (t : Txn) : (s.sendTxn c t).pending = s.pending := by rcases c with (_ | _) | (_ | _) | _ | _ <;> rfl

/-! ### clearTxn -/

@[simp] theorem State.clearTxn_power (c : Claimant) : (s.clearTxn c).power = s.power := by rcases c with (_ | _) | (_ | _) | _ | _ <;> rfl
@[simp] theorem State.clearTxn_written (c : Claimant) : (s.clearTxn c).written = s.written := by rcases c with (_ | _) | (_ | _) | _ | _ <;> rfl
@[simp] theorem State.clearTxn_restartDue (c : Claimant) : (s.clearTxn c).restartDue = s.restartDue := by rcases c with (_ | _) | (_ | _) | _ | _ <;> rfl
@[simp] theorem State.clearTxn_clock (c : Claimant) : (s.clearTxn c).clock = s.clock := by rcases c with (_ | _) | (_ | _) | _ | _ <;> rfl
@[simp] theorem State.clearTxn_openLine (c : Claimant) : (s.clearTxn c).openLine = s.openLine := by rcases c with (_ | _) | (_ | _) | _ | _ <;> rfl
@[simp] theorem State.clearTxn_opState (c : Claimant) : (s.clearTxn c).opState = s.opState := by rcases c with (_ | _) | (_ | _) | _ | _ <;> rfl
@[simp] theorem State.clearTxn_wandA (c : Claimant) : (s.clearTxn c).wandA = s.wandA := by rcases c with (_ | _) | (_ | _) | _ | _ <;> rfl
@[simp] theorem State.clearTxn_wandB (c : Claimant) : (s.clearTxn c).wandB = s.wandB := by rcases c with (_ | _) | (_ | _) | _ | _ <;> rfl
@[simp] theorem State.clearTxn_engA (c : Claimant) : (s.clearTxn c).engA = s.engA := by rcases c with (_ | _) | (_ | _) | _ | _ <;> rfl
@[simp] theorem State.clearTxn_engB (c : Claimant) : (s.clearTxn c).engB = s.engB := by rcases c with (_ | _) | (_ | _) | _ | _ <;> rfl
@[simp] theorem State.clearTxn_circ (c : Claimant) : (s.clearTxn c).circ = s.circ := by rcases c with (_ | _) | (_ | _) | _ | _ <;> rfl
@[simp] theorem State.clearTxn_settings (c : Claimant) : (s.clearTxn c).settings = s.settings := by rcases c with (_ | _) | (_ | _) | _ | _ <;> rfl
@[simp] theorem State.clearTxn_roll (c : Claimant) : (s.clearTxn c).roll = s.roll := by rcases c with (_ | _) | (_ | _) | _ | _ <;> rfl
@[simp] theorem State.clearTxn_journal (c : Claimant) : (s.clearTxn c).journal = s.journal := by rcases c with (_ | _) | (_ | _) | _ | _ <;> rfl
@[simp] theorem State.clearTxn_exch (c : Claimant) : (s.clearTxn c).exch = s.exch := by rcases c with (_ | _) | (_ | _) | _ | _ <;> rfl
@[simp] theorem State.clearTxn_printer (c : Claimant) : (s.clearTxn c).printer = s.printer := by rcases c with (_ | _) | (_ | _) | _ | _ <;> rfl
@[simp] theorem State.clearTxn_portA (c : Claimant) : (s.clearTxn c).portA = s.portA := by rcases c with (_ | _) | (_ | _) | _ | _ <;> rfl
@[simp] theorem State.clearTxn_portB (c : Claimant) : (s.clearTxn c).portB = s.portB := by rcases c with (_ | _) | (_ | _) | _ | _ <;> rfl
@[simp] theorem State.clearTxn_portU (c : Claimant) : (s.clearTxn c).portU = s.portU := by rcases c with (_ | _) | (_ | _) | _ | _ <;> rfl
@[simp] theorem State.clearTxn_pending (c : Claimant) : (s.clearTxn c).pending = s.pending := by rcases c with (_ | _) | (_ | _) | _ | _ <;> rfl

/-! ### Reading back -/

@[simp] theorem State.eng_setEng (d : Desk) (e : Engine) : (s.setEng d e).eng d = e := by cases d <;> rfl
@[simp] theorem State.wand_setWand (d : Desk) (w : Wand) : (s.setWand d w).wand d = w := by cases d <;> rfl
@[simp] theorem State.port_setPort (p : Port) (x : PortState) : (s.setPort p x).port p = x := by
  rcases p with (_ | _) | _ <;> rfl
@[simp] theorem State.wand_setEng (d d' : Desk) (e : Engine) : (s.setEng d e).wand d' = s.wand d' := by
  cases d <;> cases d' <;> rfl
@[simp] theorem State.eng_setWand (d d' : Desk) (w : Wand) : (s.setWand d w).eng d' = s.eng d' := by
  cases d <;> cases d' <;> rfl
@[simp] theorem State.port_setEng (d : Desk) (e : Engine) (p : Port) : (s.setEng d e).port p = s.port p := by
  rcases p with (_ | _) | _ <;> cases d <;> rfl
@[simp] theorem State.port_setWand (d : Desk) (w : Wand) (p : Port) : (s.setWand d w).port p = s.port p := by
  rcases p with (_ | _) | _ <;> cases d <;> rfl
@[simp] theorem State.eng_setPort (p : Port) (x : PortState) (d : Desk) : (s.setPort p x).eng d = s.eng d := by
  rcases p with (_ | _) | _ <;> cases d <;> rfl
@[simp] theorem State.wand_setPort (p : Port) (x : PortState) (d : Desk) : (s.setPort p x).wand d = s.wand d := by
  rcases p with (_ | _) | _ <;> cases d <;> rfl
@[simp] theorem State.eng_sendTxn (c : Claimant) (t : Txn) (d : Desk) : (s.sendTxn c t).eng d = s.eng d := by
  cases d <;> simp [State.eng]
@[simp] theorem State.port_sendTxn (c : Claimant) (t : Txn) (p : Port) : (s.sendTxn c t).port p = s.port p := by
  rcases p with (_ | _) | _ <;> simp [State.port]
@[simp] theorem State.eng_clearTxn (c : Claimant) (d : Desk) : (s.clearTxn c).eng d = s.eng d := by
  cases d <;> simp [State.eng]
@[simp] theorem State.port_clearTxn (c : Claimant) (p : Port) : (s.clearTxn c).port p = s.port p := by
  rcases p with (_ | _) | _ <;> simp [State.port]

theorem State.eng_setEng_ne {d d' : Desk} (h : d' ≠ d) (e : Engine) : (s.setEng d e).eng d' = s.eng d' := by
  cases d <;> cases d' <;> first | rfl | exact absurd rfl h
theorem State.wand_setWand_ne {d d' : Desk} (h : d' ≠ d) (w : Wand) : (s.setWand d w).wand d' = s.wand d' := by
  cases d <;> cases d' <;> first | rfl | exact absurd rfl h
theorem State.port_setPort_ne {p p' : Port} (h : p' ≠ p) (x : PortState) : (s.setPort p x).port p' = s.port p' := by
  rcases p with (_ | _) | _ <;> rcases p' with (_ | _) | _ <;> first | rfl | exact absurd rfl h

@[simp] theorem State.setEng_setEng (d : Desk) (e e' : Engine) : (s.setEng d e).setEng d e' = s.setEng d e' := by
  cases d <;> rfl
@[simp] theorem State.setPort_setPort (p : Port) (x y : PortState) : (s.setPort p x).setPort p y = s.setPort p y := by
  rcases p with (_ | _) | _ <;> rfl
@[simp] theorem State.setWand_setWand (d : Desk) (w w' : Wand) : (s.setWand d w).setWand d w' = s.setWand d w' := by
  cases d <;> rfl
@[simp] theorem State.setEng_eng (d : Desk) : s.setEng d (s.eng d) = s := by cases d <;> rfl
@[simp] theorem State.setPort_port (p : Port) : s.setPort p (s.port p) = s := by rcases p with (_ | _) | _ <;> rfl
@[simp] theorem State.setWand_wand (d : Desk) : s.setWand d (s.wand d) = s := by cases d <;> rfl

theorem State.setPort_setEng_comm (d : Desk) (e : Engine) (p : Port) (x : PortState) :
    (s.setPort p x).setEng d e = (s.setEng d e).setPort p x := by
  rcases p with (_ | _) | _ <;> cases d <;> rfl

end Sys2Proof.Machine
end

