-- ==== Sys2Proof/Laws/Ops.lean ====
section
/-! SUPPORT. What the shared operations come to: a request a free port takes, an event an engine acts on at once, an
acceptance the journal carries on, a transaction the store takes, a character of the printer's line. Proofs about commands
cite these and unfold none of the operations. -/

namespace Sys2Proof.Machine

/-! ### Requests -/

/-- A request of a free port, permitted and of an allowed length, is its owner's answer on the state with it in progress. -/
theorem State.request_free {s : State} {p : Port} {k : ReqKind} {tag : Byte} {body : List Byte} (f : State → State)
    (h : s.free p) (hp : k.permitted p = true) (ha : k.allows body.length = true) (h1 : k ≠ .restartArm)
    (h2 : k ≠ .restart) : s.request p k tag body f = f (s.taken p k tag) := by
  obtain ⟨ha', hi⟩ := h
  unfold State.request
  rw [if_neg (by simp [ha'])]
  simp [hi, hp, ha, State.takeRequest, State.taken, ReqKind.keepsArm, h1, h2]

/-- The same for a request of a desk's port that only the desks may send. -/
theorem State.deskRequest_free {s : State} {d : Desk} {k : ReqKind} {tag : Byte} {body : List Byte}
    (f : Desk → State → State) (h : s.free (.desk d)) (hp : k.permitted (.desk d) = true)
    (ha : k.allows body.length = true) (h1 : k ≠ .restartArm) (h2 : k ≠ .restart) :
    s.deskRequest (.desk d) k tag body f = f d (s.taken (.desk d) k tag) := by
  unfold State.deskRequest
  rw [State.request_free _ h hp ha h1 h2]

/-- The response to a request just taken. -/
theorem State.respond_taken (s : State) (p : Port) (k : ReqKind) (tag : Byte) (code : RespCode) (ans : Answer) :
    (s.taken p k tag).respond p code ans = s.answered p k tag code ans := by
  rcases p with (_ | _) | _ <;> rfl

/-- The response to a request in progress. -/
theorem State.respond_replied {s : State} {p : Port} {r : InProgress} (h : (s.port p).inProgress = some r)
    (code : RespCode) (ans : Answer) : s.respond p code ans = s.replied p r code ans := by
  unfold State.respond State.respondWith State.replied ownFrame
  rw [h]

/-- A port with no request in progress sends nothing (R191). -/
theorem State.respond_none {s : State} {p : Port} (h : (s.port p).inProgress = none) (code : RespCode) (ans : Answer) :
    s.respond p code ans = s := by
  unfold State.respond State.respondWith
  rw [h]

/-- The response to the request in progress, wholly sent: the BUSY responses that waited behind it come next (R189). -/
theorem PortState.sent_own {t : TxFrame} (x : PortState) (rest : List TxFrame) (h : t.own = true) :
    x.sent t rest = { x with tx := rest ++ x.busy.map busyFrame, inProgress := none, busy := [] } := if_pos h

/-- A BUSY response wholly sent leaves the request in progress and the frames that met it (R189). -/
theorem PortState.sent_busy (x : PortState) (tag : Byte) (rest : List TxFrame) :
    x.sent (busyFrame tag) rest = { x with tx := rest } := rfl

/-! ### The uplink attention line -/

/-- While a retained buffer waits for a sector the journal is low (R153, R160). -/
theorem Journal.low_of_wantsSector {j : Journal} (h : j.wantsSector = true) : j.low = true := by
  simp [Journal.wantsSector] at h
  simp [Journal.low, h.1]

/-- During start-up the line is high exactly while a retained buffer waits for a sector (R160, R192, R193; log entry 31). -/
theorem State.uplinkAttention_starting {s : State} {k : StartKind} (h : s.power = .starting k) :
    s.uplinkAttention = s.journal.wantsSector := by
  have e : (s.journal.low && s.journal.wantsSector) = s.journal.wantsSector := by
    cases hw : s.journal.wantsSector
    · simp
    · simp [Journal.low_of_wantsSector hw]
  simp [State.uplinkAttention, h, e]

/-- Start-up that ends with the journal low ends with the line high (R176, R193). -/
theorem State.uplinkAttention_finishStartup {s : State} (h : s.journal.low = true) :
    s.finishStartup.uplinkAttention = true := by
  unfold State.finishStartup
  cases s.exch.session <;> simp [State.uplinkAttention, h]

/-! ### Engines -/

/-- A context that nothing waits for has nothing to act on. -/
theorem State.settle_nil {s : State} {d : Desk} (h : (s.eng d).deferred = []) : s.settle d = s := by
  simp [State.settle, h, State.runDeferred]

/-- A context acts on nothing while an entry is in service (R16). -/
theorem State.settle_service {s : State} {d : Desk} (h : (s.eng d).service ≠ none) : s.settle d = s := by
  unfold State.settle
  cases (s.eng d).deferred.length with
  | zero => rfl
  | succ n => simp [State.runDeferred, Option.isSome_iff_ne_none.mpr h]

/-- The end of a service that nothing waited for. -/
theorem State.endService_nil {s : State} {d : Desk} (h : (s.eng d).deferred = []) :
    s.endService d = s.setEng d (s.eng d).restIdle := by
  have h1 : ((s.setEng d (s.eng d).restIdle).eng d).deferred = [] := by
    rw [State.eng_setEng, Engine.restIdle]
    split <;> simpa using h
  simp only [State.endService, h1, List.length_nil, State.runDeferred]

/-! ### The store and the journal -/

theorem State.turnOf_holding {s : State} {c : Claimant} {t : Txn} (h : s.turnOf c = some t) :
    s.store.holding = none ∧ s.power = .running ∧ s.turn = some c ∧ s.waitingTxn c = some t := by
  unfold State.turnOf at h
  split at h
  · next g => exact ⟨g.2.1, g.1, g.2.2, h⟩
  · cases h

theorem State.takeIf_turn {s : State} {c : Claimant} {t : Txn} {kind : Txn → Bool} (h : s.turnOf c = some t)
    (hk : kind t = true) : s.takeIf c kind = s.storeTake c t := by
  simp [State.takeIf, h, hk]

theorem State.takeIf_none {s : State} {c : Claimant} {kind : Txn → Bool} (h : s.turnOf c = none) :
    s.takeIf c kind = s := by simp [State.takeIf, h]

/-- What the store holds of a transaction it takes now. -/
def State.heldNow (s : State) (c : Claimant) (t : Txn) : Held :=
  { claimant := c, txn := t, now := s.now, silent := false }

/-- Only the application step takes the pending edits with it (R101). -/
theorem State.takeList_ne {t : Txn} (s : State) (h : t ≠ .application) : s.takeList t = s := if_neg h

@[simp] theorem State.takeList_journal (s : State) (t : Txn) : (s.takeList t).journal = s.journal := by
  unfold State.takeList; split <;> rfl
@[simp] theorem State.takeList_clock (s : State) (t : Txn) : (s.takeList t).clock = s.clock := by
  unfold State.takeList; split <;> rfl
@[simp] theorem State.takeList_store (s : State) (t : Txn) : (s.takeList t).store = s.store := by
  unfold State.takeList; split <;> rfl
@[simp] theorem State.takeList_circ (s : State) (t : Txn) : (s.takeList t).circ = s.circ := by
  unfold State.takeList; split <;> rfl

theorem State.takeList_step (s : State) :
    s.takeList .application
      = { s with settings := { s.settings with edits := s.roll.taken }, roll := { s.roll with taken := s.settings.edits } } :=
  if_pos rfl

/-- Power lost with no application step held leaves the edits and the rollover. -/
theorem State.undoStep_none {s : State} (h : s.store.holdsStep = false) : s.undoStep = s := by
  rw [State.undoStep, h]; exact if_neg Bool.false_ne_true

/-- Power lost with it held: of all the edits, in their order, the first 48 in the list and the rest outside it. -/
theorem State.undoStep_held {s : State} (h : s.store.holdsStep = true) :
    s.undoStep.settings.edits ++ s.undoStep.roll.taken = s.roll.taken ++ s.settings.edits
      ∧ s.undoStep.settings.edits.length ≤ 48
      ∧ s.undoStep = { s with
          settings := { s.settings with edits := s.undoStep.settings.edits }
          roll := { s.roll with phase := .holdPass, place := 0, taken := s.undoStep.roll.taken } } := by
  rw [State.undoStep, h, if_pos rfl]
  exact ⟨List.take_append_drop 48 _, List.length_take_le 48 _, rfl⟩

/-- The state in which a transaction's plan is made and finished: taken from its claimant, the uplink port open again if it
was a reset's abort, the pending edits taken if it was the application step. -/
def State.takenFrom (s : State) (c : Claimant) (t : Txn) : State :=
  State.takeList { s.tookFrom c with exch := { s.exch with shut := s.exch.shut && decide (t ≠ Txn.downloadAbort .reset) } } t

theorem State.takenFrom_eq {s : State} {c : Claimant} {t : Txn} (h : t ≠ Txn.downloadAbort .reset)
    (ha : t ≠ .application) : s.takenFrom c t = s.tookFrom c := by
  rw [State.takenFrom, State.takeList_ne _ ha]
  rcases c with (_ | _) | (_ | _) | _ | _ <;> simp [h, State.tookFrom, State.clearTxn]

/-- A transaction without records is finished at once. -/
theorem State.storeTake_plain {s : State} {c : Claimant} {t : Txn}
    (hr : (s.takenFrom c t).txnRecords (s.heldNow c t) = []) :
    s.storeTake c t = (s.takenFrom c t).finishTxn (s.heldNow c t) true := by
  have e : s.storeTake c t = if (s.takenFrom c t).txnRecords (s.heldNow c t) = [] then
      (s.takenFrom c t).finishTxn (s.heldNow c t) true
    else State.offer { s.takenFrom c t with
      store := { (s.takenFrom c t).store with holding := some (s.heldNow c t) } } .store := by
    rcases c with (_ | _) | (_ | _) | _ | _ <;> rfl
  rw [e, if_pos hr]

/-- What a transaction asks of the journal does not depend on how the store holds it. -/
theorem State.txnRecords_store (s : State) (x : Store) (h : Held) :
    ({ s with store := x } : State).txnRecords h = s.txnRecords h := by
  cases ht : h.txn <;> simp [State.txnRecords, State.planOf, State.unitRecords, ht, State.desktop, Plan.answer]

/-- Finishing a transaction takes it from the store's hold. -/
theorem State.finishTxn_store (s : State) (x : Store) (h : Held) (a : Bool) :
    State.finishTxn { s with store := { x with holding := some h } } h a
      = State.finishTxn { s with store := { x with holding := none } } h a := by
  cases ht : h.txn <;> simp [State.finishTxn, State.planOf, State.desktop, ht] <;> rfl

/-- With one acceptance offered and no ACK owed, that acceptance is carried to its end, or waits. -/
theorem State.pumpN_one {s : State} {a : Acceptance} (hq : s.journal.queue = [a]) (ho : s.journal.owedAck = false) :
    State.pumpN 1 s = (State.acceptFront { s with journal := { s.journal with queue := [] } } a).getD s := by
  have h1 : s.journal.offerOwed s.now = .done s.journal := by unfold Journal.offerOwed; rw [ho]; rfl
  have h2 : ({ s with journal := { s.journal with queue := [a] } } : State) = s := by rw [← hq]
  unfold State.pumpN
  rw [hq]
  simp only []
  rw [h1]
  simp only []
  cases State.acceptFront { s with journal := { s.journal with queue := [] } } a with
  | none => exact h2
  | some x => rfl

/-- The one acceptance offered is carried on: an owed ACK is offered before it, and it comes to its end, or waits (R149,
R154). -/
theorem State.pump_single {s : State} {a : Acceptance} (hq : s.journal.queue = [a]) :
    s.pump =
      match s.journal.offerOwed s.now with
      | .done j =>
        (State.acceptFront { s with journal := { j with queue := [] } } a).getD
          { s with journal := { j with queue := [a] } }
      | _ => s := by
  unfold State.pump
  rw [hq]
  simp only [List.length_singleton, State.pumpN, hq]
  cases s.journal.offerOwed s.now with
  | wait => rfl
  | full => rfl
  | done j =>
    simp only []
    cases State.acceptFront { s with journal := { j with queue := [] } } a <;> rfl

/-- An owed ACK, as it is offered: placed, still owed, or waiting (R154). -/
theorem Journal.offerOwed_owed {j : Journal} {now : Time} (h : j.owedAck = true) :
    j.offerOwed now =
      match j.accept now [j.ackDraft] with
      | .wait => .wait
      | .full => .done j
      | .done k => .done { k with owedAck := false } := by
  cases ha : j.accept now [j.ackDraft] <;> simp [Journal.offerOwed, h, ha]

/-- An acceptance offered to a journal with nothing offered before it and no ACK owed is carried to its end, or waits. -/
theorem State.offer_idle {s : State} {a : Acceptance} (h : s.journal.idle) :
    s.offer a = (s.acceptFront a).getD { s with journal := { s.journal with queue := [a] } } := by
  obtain ⟨hq, ho⟩ := h
  have e : ({ s with journal := { s.journal with queue := [] } } : State) = s := by rw [← hq]
  unfold State.offer State.pump
  rw [hq]
  have e3 := State.pumpN_one (s := { s with journal := { s.journal with queue := [a] } }) (a := a) rfl ho
  have e4 : ({ ({ s with journal := { s.journal with queue := [a] } } : State) with
      journal := { ({ s with journal := { s.journal with queue := [a] } } : State).journal with queue := [] } } : State) = s := e
  rw [e4] at e3
  exact e3

/-- The store's own acceptance, offered to an idle journal. -/
theorem State.offer_store {s : State} {h : Held} (hj : s.journal.idle) (hh : s.store.holding = some h) :
    s.offer .store = (s.acceptHeld h).getD { s with journal := { s.journal with queue := [.store] } } := by
  rw [State.offer_idle hj, State.acceptFront, hh]

theorem State.acceptHeld_done {s : State} {h : Held} {j : Journal}
    (ha : s.journal.accept s.now (s.txnRecords h) = .done j) :
    s.acceptHeld h = some (State.finishTxn { s with journal := j } h true) := by rw [State.acceptHeld, ha]

theorem State.acceptHeld_wait {s : State} {h : Held} (ha : s.journal.accept s.now (s.txnRecords h) = .wait) :
    s.acceptHeld h = none := by rw [State.acceptHeld, ha]

theorem State.acceptHeld_full {s : State} {h : Held} (ha : s.journal.accept s.now (s.txnRecords h) = .full) :
    s.acceptHeld h =
      match s.planOf h with
      | some _ => some (s.finishTxn h false)
      | none => some (State.finishTxn { s with journal := s.journal.dropOne } h true) := by
  cases hp : s.planOf h <;> simp [State.acceptHeld, ha, hp]

/-- The store holds a transaction. -/
def State.withHeld (s : State) (h : Held) : State := { s with store := { s.store with holding := some h } }

/-- The store holds none. -/
def State.released (s : State) : State := { s with store := { s.store with holding := none } }

theorem State.takenFrom_journal (s : State) (c : Claimant) (t : Txn) : (s.takenFrom c t).journal = s.journal := by
  rw [State.takenFrom, State.takeList_journal]
  rcases c with (_ | _) | (_ | _) | _ | _ <;> rfl

theorem State.takenFrom_now (s : State) (c : Claimant) (t : Txn) : (s.takenFrom c t).now = s.now := by
  rw [State.now, State.takenFrom, State.takeList_clock]
  rcases c with (_ | _) | (_ | _) | _ | _ <;> rfl

theorem State.storeTake_offer {s : State} {c : Claimant} {t : Txn}
    (hr : (s.takenFrom c t).txnRecords (s.heldNow c t) ≠ []) :
    s.storeTake c t = ((s.takenFrom c t).withHeld (s.heldNow c t)).offer .store := by
  rcases c with (_ | _) | (_ | _) | _ | _ <;> exact if_neg hr

theorem State.withHeld_accept {s : State} {c : Claimant} {t : Txn} :
    ((s.takenFrom c t).withHeld (s.heldNow c t)).journal.accept ((s.takenFrom c t).withHeld (s.heldNow c t)).now
        (((s.takenFrom c t).withHeld (s.heldNow c t)).txnRecords (s.heldNow c t))
      = s.journal.accept s.now ((s.takenFrom c t).txnRecords (s.heldNow c t)) := by
  have e1 := State.takenFrom_journal s c t
  have e2 := State.takenFrom_now s c t
  have e3 := State.txnRecords_store (s.takenFrom c t) { (s.takenFrom c t).store with holding := some (s.heldNow c t) }
    (s.heldNow c t)
  unfold State.withHeld
  rw [e3]
  exact e1 ▸ e2 ▸ rfl

/-- A transaction with records, accepted at once. -/
theorem State.storeTake_done {s : State} {c : Claimant} {t : Txn} {j : Journal} (hj : s.journal.idle)
    (hr : (s.takenFrom c t).txnRecords (s.heldNow c t) ≠ [])
    (ha : s.journal.accept s.now ((s.takenFrom c t).txnRecords (s.heldNow c t)) = .done j) :
    s.storeTake c t
      = State.finishTxn (State.released { s.takenFrom c t with journal := j }) (s.heldNow c t) true := by
  rw [State.storeTake_offer hr, State.offer_store (h := s.heldNow c t) _ rfl,
    State.acceptHeld_done (State.withHeld_accept.trans ha), Option.getD_some]
  · exact State.finishTxn_store { s.takenFrom c t with journal := j } (s.takenFrom c t).store _ _
  · exact (State.takenFrom_journal s c t).symm ▸ hj

/-- A transaction with records that the journal makes wait stands with the store (R42, R149). -/
theorem State.storeTake_wait {s : State} {c : Claimant} {t : Txn} (hj : s.journal.idle)
    (hr : (s.takenFrom c t).txnRecords (s.heldNow c t) ≠ [])
    (ha : s.journal.accept s.now ((s.takenFrom c t).txnRecords (s.heldNow c t)) = .wait) :
    s.storeTake c t
      = { (s.takenFrom c t).withHeld (s.heldNow c t) with journal := { s.journal with queue := [.store] } } := by
  rw [State.storeTake_offer hr, State.offer_store (h := s.heldNow c t) _ rfl,
    State.acceptHeld_wait (State.withHeld_accept.trans ha), Option.getD_none]
  · exact (State.takenFrom_journal s c t) ▸ rfl
  · exact (State.takenFrom_journal s c t).symm ▸ hj

/-- A desk's transaction with records that the journal has no room for is refused (R42). -/
theorem State.storeTake_refused {s : State} {c : Claimant} {t : Txn} {p : Plan} (hj : s.journal.idle)
    (hp : (s.takenFrom c t).planOf (s.heldNow c t) = some p) (hr : p.recs ≠ [])
    (ha : s.journal.accept s.now p.recs = .full) :
    s.storeTake c t = State.finishTxn (s.takenFrom c t).released (s.heldNow c t) false := by
  have e : (s.takenFrom c t).txnRecords (s.heldNow c t) = p.recs := by rw [State.txnRecords, hp]
  have hp2 : ((s.takenFrom c t).withHeld (s.heldNow c t)).planOf (s.heldNow c t) = some p := by
    rw [← hp]; cases t <;> rfl
  rw [State.storeTake_offer (e ▸ hr), State.offer_store (h := s.heldNow c t) _ rfl,
    State.acceptHeld_full (State.withHeld_accept.trans (e ▸ ha)), hp2]
  · exact State.finishTxn_store (s.takenFrom c t) (s.takenFrom c t).store _ _
  · exact (State.takenFrom_journal s c t).symm ▸ hj

/-- The work of the exchange or of the rollover is done with its record dropped (R151). -/
theorem State.storeTake_dropped {s : State} {c : Claimant} {t : Txn} (hj : s.journal.idle)
    (hp : (s.takenFrom c t).planOf (s.heldNow c t) = none)
    (hr : (s.takenFrom c t).txnRecords (s.heldNow c t) ≠ [])
    (ha : s.journal.accept s.now ((s.takenFrom c t).txnRecords (s.heldNow c t)) = .full) :
    s.storeTake c t
      = State.finishTxn (State.released { s.takenFrom c t with journal := s.journal.dropOne }) (s.heldNow c t) true := by
  have hp2 : ((s.takenFrom c t).withHeld (s.heldNow c t)).planOf (s.heldNow c t) = none := by
    rw [← hp]; cases t <;> rfl
  rw [State.storeTake_offer hr, State.offer_store (h := s.heldNow c t) _ rfl,
    State.acceptHeld_full (State.withHeld_accept.trans ha), hp2, Option.getD_some]
  · have e := State.finishTxn_store { s.takenFrom c t with journal := s.journal.dropOne } (s.takenFrom c t).store
      (s.heldNow c t) true
    have e2 := State.takenFrom_journal s c t
    unfold State.withHeld State.released
    simp only [e2]
    exact e
  · exact (State.takenFrom_journal s c t).symm ▸ hj

/-! ### The printer's line -/

@[simp] theorem State.printerChar_lineError (s : State) : s.printerChar .lineError = s := rfl

@[simp] theorem State.printerChar_lineFeed (s : State) : s.printerChar (.char 0x0A#8) = s := rfl

@[simp] theorem State.printerChar_return (s : State) :
    s.printerChar (.char 0x0D#8) = (s.setPrinterRx []).printerMessage s.printer.rx := rfl

theorem State.printerChar_kept {b : Byte} (s : State) (h1 : b ≠ 0x0A#8) (h2 : b ≠ 0x0D#8) :
    s.printerChar (.char b) = s.setPrinterRx (s.printer.rx ++ [b]) := by
  simp [State.printerChar, h1, h2]

theorem State.printerHears_running {s : State} (h : s.power = .running) (chars : List WandChar) :
    s.printerHears chars = chars.foldl State.printerChar s := if_pos h

/-- A message that is none of the three changes nothing (R182). -/
theorem State.printerMessage_other {m : List Byte} (s : State) (h1 : m ≠ [0x44#8]) (h2 : m ≠ [0x50#8])
    (h3 : m ≠ [0x52#8]) : s.printerMessage m = s := by
  simp [State.printerMessage, h1, h2, h3]

/-- An answer that is not expected changes nothing (R182). -/
theorem State.printerMessage_unexpected {s : State} (h : s.printer.outstanding = none ∨ s.printer.sending ≠ none)
    (m : List Byte) : s.printerMessage m = s := by
  have e : ∀ x, s.printer.expects x = false := by
    intro x
    rcases h with h | h
    · simp [Printer.expects, h]
    · cases hs : s.printer.sending with
      | none => exact absurd hs h
      | some y => simp [Printer.expects, hs]
  simp [State.printerMessage, e]

end Sys2Proof.Machine
end

