-- ==== Sys2Proof/Laws/Deferral.lean ====
section
/-! SUPPORT. The events that wait for a context while an entry is in service (R16): what the engine makes of the store's
outcome does not read them, and the end of service acts on them after it. -/

namespace Sys2Proof.Machine

/-- The state with these events waiting for the context of a desk. -/
def State.withDeferred (s : State) (d : Desk) (q : List CtxEvent) : State := s.setEng d { s.eng d with deferred := q }

variable (s : State) (d : Desk) (q : List CtxEvent)

theorem State.withDeferred_putResult (label : List Nat) (f : Fields) :
    (s.withDeferred d q).putResult d label f = (s.putResult d label f).withDeferred d q := by cases d <;> rfl

theorem State.withDeferred_toIdle : (s.withDeferred d q).toIdle d = (s.toIdle d).withDeferred d q := by cases d <;> rfl

theorem State.withDeferred_toSession (ss : Session) :
    (s.withDeferred d q).toSession d ss = (s.toSession d ss).withDeferred d q := by cases d <;> rfl

theorem State.withDeferred_toAwait (h : HeldScan) :
    (s.withDeferred d q).toAwait d h = (s.toAwait d h).withDeferred d q := by cases d <;> rfl

theorem State.withDeferred_toSlipWait (x : Slip) (f : FollowOn) :
    (s.withDeferred d q).toSlipWait d x f = (s.toSlipWait d x f).withDeferred d q := by cases d <;> rfl

theorem State.withDeferred_respond (code : RespCode) (ans : Answer) :
    (s.withDeferred d q).respond (.desk d) code ans = (s.respond (.desk d) code ans).withDeferred d q := by
  cases d
  · unfold State.respond State.respondWith
    change (match s.portA.inProgress with | none => _ | some r => _)
      = State.withDeferred (match s.portA.inProgress with | none => _ | some r => _) _ _
    cases s.portA.inProgress <;> rfl
  · unfold State.respond State.respondWith
    change (match s.portB.inProgress with | none => _ | some r => _)
      = State.withDeferred (match s.portB.inProgress with | none => _ | some r => _) _ _
    cases s.portB.inProgress <;> rfl

theorem State.withDeferred_follow (f : FollowOn) (h : f = .idle ∨ ∃ ss, f = .resume ss) :
    (s.withDeferred d q).follow d f = (s.follow d f).withDeferred d q := by
  rcases h with rfl | ⟨ss, rfl⟩ <;> cases d <;> rfl

theorem State.withDeferred_offerSlip (x : Slip) (f : FollowOn) (h : f = .idle ∨ ∃ ss, f = .resume ss) :
    (s.withDeferred d q).offerSlip d x f = (s.offerSlip d x f).withDeferred d q := by
  have hp : (s.withDeferred d q).printer = s.printer := by cases d <;> rfl
  unfold State.offerSlip
  rw [hp]
  split
  · rcases h with rfl | ⟨ss, rfl⟩ <;> cases d <;> rfl
  · exact State.withDeferred_toSlipWait ..

theorem State.withDeferred_closeSession (ss : Session) :
    (s.withDeferred d q).closeSession d ss .idle = (s.closeSession d ss .idle).withDeferred d q := by
  have hs : (s.withDeferred d q).dueSlip d ss = s.dueSlip d ss := by cases d <;> rfl
  unfold State.closeSession
  rw [hs, State.withDeferred_toIdle]
  split
  · exact State.withDeferred_follow _ _ _ _ (.inl rfl)
  · exact State.withDeferred_offerSlip _ _ _ _ _ (.inl rfl)

theorem State.withDeferred_addIssued (ss : Session) (e : Issued) :
    (s.withDeferred d q).addIssued d ss e = (s.addIssued d ss e).withDeferred d q := by
  have hs : (s.withDeferred d q).dueSlip d ss = s.dueSlip d ss := by cases d <;> rfl
  unfold State.addIssued
  rw [hs]
  split
  · exact State.withDeferred_toSession ..
  · exact State.withDeferred_offerSlip _ _ _ _ _ (.inr ⟨_, rfl⟩)

theorem State.withDeferred_issueOutcome (sc : Scan) (ss : Session) (f : Fields) :
    (s.withDeferred d q).issueOutcome d sc ss f = (s.issueOutcome d sc ss f).withDeferred d q := by
  unfold State.issueOutcome
  dsimp only
  rw [State.withDeferred_putResult]
  split
  · exact State.withDeferred_addIssued ..
  · exact State.withDeferred_closeSession ..
  · exact State.withDeferred_toSession ..

theorem State.withDeferred_ctx : ((s.withDeferred d q).eng d).ctx = (s.eng d).ctx := by cases d <;> rfl

theorem State.withDeferred_service : ((s.withDeferred d q).eng d).service = (s.eng d).service := by cases d <;> rfl

theorem State.withDeferred_issueDone (sc : Scan) (f : Fields) :
    (s.withDeferred d q).issueDone d sc f = (s.issueDone d sc f).withDeferred d q := by
  unfold State.issueDone
  rw [State.withDeferred_ctx]
  split
  · split
    · exact State.withDeferred_toAwait ..
    · exact State.withDeferred_issueOutcome ..
  · exact State.withDeferred_putResult ..

theorem State.withDeferred_overrideDone (h : HeldScan) (f : Fields) :
    (s.withDeferred d q).overrideDone d h f = (s.overrideDone d h f).withDeferred d q := by
  unfold State.overrideDone
  dsimp only
  rw [← State.withDeferred_respond]
  congr 1
  split
  · exact State.withDeferred_toAwait ..
  · exact State.withDeferred_issueOutcome ..
  · rw [State.withDeferred_putResult, State.withDeferred_toIdle]

theorem State.withDeferred_plainDone (sc : Scan) (f : Fields) :
    (s.withDeferred d q).plainDone d sc f = (s.plainDone d sc f).withDeferred d q := by
  unfold State.plainDone
  dsimp only
  rw [State.withDeferred_putResult]
  split
  · exact State.withDeferred_offerSlip _ _ _ _ _ (.inl rfl)
  · rfl

theorem State.withDeferred_checkDone (sc : Scan) (r : CheckReply) :
    (s.withDeferred d q).checkDone d sc r = (s.checkDone d sc r).withDeferred d q := by
  unfold State.checkDone
  split
  · rw [State.withDeferred_putResult, State.withDeferred_toIdle]
  · rw [State.withDeferred_putResult, State.withDeferred_toSession]
  · split
    · rw [State.withDeferred_putResult, State.withDeferred_toIdle]
    · exact State.withDeferred_toAwait ..

theorem State.withDeferred_overrideCheckDone (h : HeldScan) (r : CheckReply) :
    (s.withDeferred d q).overrideCheckDone d h r = (s.overrideCheckDone d h r).withDeferred d q := by
  unfold State.overrideCheckDone
  dsimp only
  rw [← State.withDeferred_respond]
  congr 1
  split
  · rw [State.withDeferred_putResult, State.withDeferred_toIdle]
  · split
    · rw [State.withDeferred_putResult, State.withDeferred_toIdle]
    · rw [State.withDeferred_putResult, State.withDeferred_toSession]

/-- The end of service before the events that waited are acted on. -/
def State.rested (s : State) (d : Desk) : State := s.setEng d (s.eng d).restIdle

theorem State.endService_withDeferred :
    (s.withDeferred d q).endService d = State.runDeferred d true q.length ((s.rested d).withDeferred d q) := by
  have e : (s.withDeferred d q).setEng d ((s.withDeferred d q).eng d).restIdle = (s.rested d).withDeferred d q := by
    cases d
    · simp only [State.withDeferred, State.rested, State.setEng, State.eng, Engine.restIdle]; cases s.engA.ctx <;> rfl
    · simp only [State.withDeferred, State.rested, State.setEng, State.eng, Engine.restIdle]; cases s.engB.ctx <;> rfl
  have e2 : (((s.rested d).withDeferred d q).eng d).deferred = q := by cases d <;> rfl
  unfold State.endService
  dsimp only
  rw [e, e2]

end Sys2Proof.Machine
end

