-- ==== Sys2Proof/Laws/Memory.lean ====
section
/-! SUPPORT. The numbered collections and the journal array: every operation keeps the one form, and what a read gives
after a write. -/

namespace Sys2Proof.Machine

variable {α : Type}

/-! ### Tables -/

theorem Table.risingFrom_mono {t : Table α} {m n : Nat} (h : Table.risingFrom t n = true) (hm : m ≤ n) :
    Table.risingFrom t m = true := by
  cases t with
  | nil => rfl
  | cons e t => obtain ⟨i, v⟩ := e; simp [Table.risingFrom] at h ⊢; exact ⟨by omega, h.2⟩

theorem Table.risingFrom_put {t : Table α} {n k : Nat} (v : α) (h : Table.risingFrom t n = true) (hk : n ≤ k) :
    Table.risingFrom (Table.put t k v) n = true := by
  induction t generalizing n with
  | nil => simp [Table.put, Table.risingFrom, hk]
  | cons e t ih =>
    obtain ⟨i, w⟩ := e
    simp [Table.risingFrom] at h
    unfold Table.put
    split
    · simp [Table.risingFrom, hk, h.2]; omega
    · split
      · next h2 => subst h2; simp [Table.risingFrom, h.1, h.2]
      · simp [Table.risingFrom, h.1]; exact ih h.2 (by omega)

theorem Table.rising_put {t : Table α} (k : Nat) (v : α) (h : Table.rising t = true) :
    Table.rising (Table.put t k v) = true := Table.risingFrom_put v h (Nat.zero_le _)

theorem Table.risingFrom_filter {t : Table α} {n : Nat} (p : Nat × α → Bool) (h : Table.risingFrom t n = true) :
    Table.risingFrom (t.filter p) n = true := by
  induction t generalizing n with
  | nil => rfl
  | cons e t ih =>
    simp [Table.risingFrom] at h
    rw [List.filter_cons]
    split
    · simp [Table.risingFrom, h.1, ih h.2]
    · exact Table.risingFrom_mono (ih h.2) (by omega)

theorem Table.rising_filter {t : Table α} (p : Nat × α → Bool) (h : Table.rising t = true) :
    Table.rising (t.filter p) = true := Table.risingFrom_filter p h

theorem Table.rising_del {t : Table α} (k : Nat) (h : Table.rising t = true) : Table.rising (Table.del t k) = true :=
  Table.rising_filter _ h

theorem Table.risingFrom_mapEntries {t : Table α} {n : Nat} (f : α → α) :
    Table.risingFrom (Table.mapEntries t f) n = Table.risingFrom t n := by
  induction t generalizing n with
  | nil => rfl
  | cons e t ih => simp only [Table.mapEntries, List.map_cons, Table.risingFrom] at *; rw [ih]

theorem Table.rising_mapEntries {t : Table α} (f : α → α) (h : Table.rising t = true) :
    Table.rising (Table.mapEntries t f) = true := by rw [Table.rising, Table.risingFrom_mapEntries]; exact h

theorem Table.get_of_lt {t : Table α} {n k : Nat} (h : Table.risingFrom t n = true) (hk : k < n) :
    Table.get t k = none := by
  induction t generalizing n with
  | nil => rfl
  | cons e t ih =>
    obtain ⟨i, v⟩ := e
    simp [Table.risingFrom] at h
    simp [Table.get, show i ≠ k by omega]
    exact ih h.2 (by omega)

theorem Table.get_put {t : Table α} (k a : Nat) (v : α) (h : Table.rising t = true) :
    Table.get (Table.put t k v) a = if a = k then some v else Table.get t a := by
  have key : ∀ (t : Table α) n, Table.risingFrom t n = true →
      Table.get (Table.put t k v) a = if a = k then some v else Table.get t a := by
    intro t
    induction t with
    | nil => intro n _; by_cases e : a = k <;> simp [Table.put, Table.get, e, eq_comm]
             intro c; exact absurd c.symm e
    | cons e t ih =>
      obtain ⟨i, w⟩ := e
      intro n h
      simp [Table.risingFrom] at h
      unfold Table.put
      split
      · by_cases e : a = k <;> simp [Table.get, e, eq_comm]
        intro c; exact absurd c.symm e
      · split
        · next h2 =>
          subst h2
          by_cases e : a = k
          · simp [Table.get, e]
          · simp [Table.get, e, Ne.symm e]
        · next h2 =>
          simp only [Table.get]
          by_cases e : i = a
          · subst e; simp [Ne.symm h2]
          · simp [e, ih _ h.2]
  exact key t 0 h

theorem Table.get_del {t : Table α} (k a : Nat) :
    Table.get (Table.del t k) a = if a = k then none else Table.get t a := by
  induction t with
  | nil => simp [Table.del, Table.get]
  | cons e t ih =>
    obtain ⟨i, w⟩ := e
    simp only [Table.del, List.filter_cons] at *
    by_cases h1 : i = k
    · subst h1
      by_cases h2 : a = i
      · subst h2; simpa using ih
      · simp [Table.get, h2, Ne.symm h2]; simpa [h2] using ih
    · by_cases h2 : i = a
      · subst h2; simp [h1, Table.get]
      · simp [h1, Table.get, h2]; simpa using ih

theorem Table.length_put_le {t : Table α} (k : Nat) (v : α) : (Table.put t k v).length ≤ t.length + 1 := by
  induction t with
  | nil => simp [Table.put]
  | cons e t ih =>
    obtain ⟨i, w⟩ := e
    unfold Table.put
    split
    · simp
    · split <;> simp; omega

theorem Table.length_put_of_get {t : Table α} {k : Nat} {x : α} (v : α) (h : Table.rising t = true)
    (hx : Table.get t k = some x) : (Table.put t k v).length = t.length := by
  have key : ∀ (t : Table α) n, Table.risingFrom t n = true → Table.get t k = some x →
      (Table.put t k v).length = t.length := by
    intro t
    induction t with
    | nil => intro n _ hx; simp [Table.get] at hx
    | cons e t ih =>
      obtain ⟨i, w⟩ := e
      intro n h hx
      simp [Table.risingFrom] at h
      unfold Table.put
      split
      · next h3 =>
        simp [Table.get, show i ≠ k by omega] at hx
        rw [Table.get_of_lt h.2 (by omega)] at hx
        exact absurd hx (by simp)
      · split
        · simp
        · next h3 =>
          simp [Table.get, Ne.symm h3] at hx
          simp [ih _ h.2 hx]
  exact key t 0 h hx

theorem Table.length_del_le {t : Table α} (k : Nat) : (Table.del t k).length ≤ t.length := List.length_filter_le _ _

@[simp] theorem Table.length_mapEntries (t : Table α) (f : α → α) : (Table.mapEntries t f).length = t.length := by
  simp [Table.mapEntries]

/-! ### The journal array -/

/-- Within an erased or written array a read outside the place written is unchanged, and a read of it gives the byte. -/
theorem Memory.read_write {m : List Host.Cell} (a k : Nat) (b : Byte) (h : Table.rising m = true) :
    Memory.read (Memory.write m k b) a = if a = k then b else Memory.read m a := by
  unfold Memory.write Memory.read
  split
  · next hb => subst hb; rw [Table.get_del]; by_cases e : a = k <;> simp [e]
  · rw [Table.get_put _ _ _ h]; by_cases e : a = k <;> simp [e]

theorem Table.all_put {t : Table α} {k : Nat} {v : α} {p : Nat × α → Bool} (h : t.all p = true) (hv : p (k, v) = true) :
    (Table.put t k v).all p = true := by
  induction t with
  | nil => simp [Table.put, hv]
  | cons e t ih =>
    obtain ⟨i, w⟩ := e
    rw [List.all_cons, Bool.and_eq_true] at h
    unfold Table.put
    split
    · rw [List.all_cons, List.all_cons, hv, h.1, h.2]; rfl
    · split
      · rw [List.all_cons, hv, h.2]; rfl
      · rw [List.all_cons, h.1, ih h.2]; rfl

theorem Memory.wf_write {m : List Host.Cell} {a : Nat} {b : Byte} (h : Memory.wf m = true) (ha : a < arraySize) :
    Memory.wf (Memory.write m a b) = true := by
  unfold Memory.wf at *
  rw [Bool.and_eq_true] at h ⊢
  unfold Memory.write
  split
  · refine ⟨Table.rising_del _ h.1, ?_⟩
    rw [List.all_eq_true] at h ⊢
    intro x hx
    exact h.2 x (List.mem_filter.mp hx).1
  · next hb =>
    refine ⟨Table.rising_put _ _ h.1, Table.all_put h.2 ?_⟩
    simp [ha, hb]

theorem Memory.rising_of_wf {m : List Host.Cell} (h : Memory.wf m = true) : Table.rising m = true := by
  unfold Memory.wf at h
  rw [Bool.and_eq_true] at h
  exact h.1

theorem Memory.wf_writeAll {bs : List Byte} : ∀ {m : List Host.Cell} {a : Nat}, Memory.wf m = true →
    a + bs.length ≤ arraySize → Memory.wf (Memory.writeAll m a bs) = true := by
  induction bs with
  | nil => intro m a h _; exact h
  | cons b bs ih =>
    intro m a h ha
    simp at ha
    exact ih (Memory.wf_write h (by omega)) (by omega)

/-- A read after bytes are written from `a` up: the byte written there, or what stood there before. -/
theorem Memory.read_writeAll {bs : List Byte} : ∀ {m : List Host.Cell} {a : Nat} (k : Nat), Memory.wf m = true →
    a + bs.length ≤ arraySize →
    Memory.read (Memory.writeAll m a bs) k = if a ≤ k ∧ k < a + bs.length then bs.getD (k - a) 0#8 else Memory.read m k := by
  induction bs with
  | nil =>
    intro m a k _ _
    rw [if_neg (fun h => absurd h.2 (Nat.not_lt.mpr h.1))]
    rfl
  | cons b bs ih =>
    intro m a k h ha
    simp at ha
    rw [Memory.writeAll, ih k (Memory.wf_write h (by omega)) (by omega), Memory.read_write _ _ _ (Memory.rising_of_wf h)]
    by_cases h1 : a + 1 ≤ k ∧ k < a + 1 + bs.length
    · have h2 : k - a = (k - (a + 1)) + 1 := by omega
      rw [if_pos h1, if_pos (by simp; omega), h2]; simp
    · rw [if_neg h1]
      by_cases h2 : k = a
      · subst h2; simp
      · rw [if_neg h2, if_neg (by simp; omega)]

theorem Memory.wf_filter {m : List Host.Cell} (p : Host.Cell → Bool) (h : Memory.wf m = true) :
    Memory.wf (m.filter p) = true := by
  unfold Memory.wf at *
  rw [Bool.and_eq_true] at h ⊢
  refine ⟨Table.rising_filter _ h.1, ?_⟩
  rw [List.all_eq_true] at h ⊢
  intro x hx
  exact h.2 x (List.mem_filter.mp hx).1

theorem Memory.wf_erase {m : List Host.Cell} (a n : Nat) (h : Memory.wf m = true) :
    Memory.wf (Memory.erase m a n) = true := Memory.wf_filter _ h

theorem Memory.read_erase {m : List Host.Cell} (a n k : Nat) :
    Memory.read (Memory.erase m a n) k = if a ≤ k ∧ k < a + n then 0xFF#8 else Memory.read m k := by
  unfold Memory.read Memory.erase
  induction m with
  | nil => simp [Table.get]
  | cons e m ih =>
    obtain ⟨i, b⟩ := e
    rw [List.filter_cons]
    split
    · next h =>
      simp at h
      simp only [Table.get]
      by_cases e : i = k
      · subst e; rw [if_pos rfl, if_neg (by omega), if_pos rfl]
      · rw [if_neg e, if_neg e]; exact ih
    · next h =>
      simp at h
      rw [ih]
      simp only [Table.get]
      by_cases e : i = k
      · subst e; rw [if_pos (by omega), if_pos (by omega)]
      · rw [if_neg e]

theorem Memory.wf_writeCells {cs : List Host.Cell} : ∀ {m : List Host.Cell} {a n : Nat}, Memory.wf m = true →
    a + n ≤ arraySize → (∀ c ∈ cs, c.1 < n) → Memory.wf (Memory.writeCells m a cs) = true := by
  induction cs with
  | nil => intro m a n h _ _; exact h
  | cons c cs ih =>
    intro m a n h ha hc
    exact ih (Memory.wf_write h (by have := hc c (by simp); omega)) ha (fun x hx => hc x (by simp [hx]))

/-- A page lies inside the array. -/
theorem pageAddr_fits {n p : Nat} (hn : n < 128) (hp : p < 16) : pageAddr n p + 256 ≤ arraySize := by
  unfold pageAddr arraySize; omega

@[simp] theorem length_pageBytes (bs : List Byte) : (pageBytes bs).length = 256 := by
  simp [pageBytes, be2]; omega

/-- The completion of a page program keeps the array's form, when the page is one of the array's. -/
theorem Journal.wf_finishProgram {j : Journal} {b : PageBuf} (h : Memory.wf j.array = true)
    (hb : ∀ n p, b.target = some (n, p) → n < 128 ∧ p < 16) : Memory.wf (j.finishProgram b).array = true := by
  unfold Journal.finishProgram
  split
  · exact h
  · next n p e =>
    obtain ⟨hn, hp⟩ := hb n p e
    apply Memory.wf_writeAll h
    rw [Journal.bufferBytes, length_pageBytes]
    exact pageAddr_fits hn hp

/-- The memory after reset is in the one form. -/
theorem reset_wf : Memory.wf State.reset.journal.array = true := rfl

end Sys2Proof.Machine
end

