-- ==== Sys2Proof/Laws/Scan.lean ====
section
/-! SUPPORT. What the power-on scan comes to (R158 to R160): the sectors in ring order, what is read of one, the giving of
pages to the retained buffers, and `Journal.scan_spec`, which says the whole and is cited in place of unfolding the scan. -/

namespace Sys2Proof.Machine

/-! ### Sectors in ring order -/

/-- `a` comes before `b` in the ring. -/
def HeadedSector.older (a b : HeadedSector) : Prop := ringBefore a.lap a.number b.lap b.number

theorem HeadedSector.before_iff (a b : HeadedSector) :
    a.before b = true ↔ a.older b ∨ (a.lap = b.lap ∧ a.number = b.number) := by
  simp only [HeadedSector.before, HeadedSector.older, ringBefore, Bool.or_eq_true, Bool.and_eq_true, decide_eq_true_eq]
  omega

theorem HeadedSector.before_of_not {a b : HeadedSector} (h : a.before b = false) : b.before a = true := by
  have h1 := mt (HeadedSector.before_iff a b).mpr (by simp [h])
  rw [HeadedSector.before_iff]
  simp only [HeadedSector.older, ringBefore] at *
  omega

theorem HeadedSector.before_trans {a b c : HeadedSector} (h1 : a.before b = true) (h2 : b.before c = true) :
    a.before c = true := by
  rw [HeadedSector.before_iff] at *
  simp only [HeadedSector.older, ringBefore] at *
  omega

theorem mem_insertSector {x y : HeadedSector} {xs : List HeadedSector} :
    y ∈ insertSector x xs ↔ y = x ∨ y ∈ xs := by
  induction xs with
  | nil => simp [insertSector]
  | cons z zs ih =>
    unfold insertSector
    split <;> simp [ih]
    tauto

/-- Sorting keeps the sectors. -/
theorem mem_sortSectors {y : HeadedSector} {xs : List HeadedSector} : y ∈ sortSectors xs ↔ y ∈ xs := by
  induction xs with
  | nil => simp [sortSectors]
  | cons z zs ih =>
    change y ∈ insertSector z (sortSectors zs) ↔ _
    rw [mem_insertSector, ih, List.mem_cons]

theorem pairwise_insertSector {x : HeadedSector} {xs : List HeadedSector}
    (h : xs.Pairwise (fun a b => a.before b = true)) : (insertSector x xs).Pairwise (fun a b => a.before b = true) := by
  induction xs with
  | nil => simp [insertSector]
  | cons z zs ih =>
    obtain ⟨hz, hzs⟩ := List.pairwise_cons.mp h
    unfold insertSector
    split
    · next hb =>
      refine List.pairwise_cons.mpr ⟨?_, h⟩
      intro w hw
      rcases List.mem_cons.mp hw with rfl | hw
      · exact hb
      · exact HeadedSector.before_trans hb (hz w hw)
    · next hb =>
      refine List.pairwise_cons.mpr ⟨?_, ih hzs⟩
      intro w hw
      rcases mem_insertSector.mp hw with rfl | hw
      · exact HeadedSector.before_of_not (by simpa using hb)
      · exact hz w hw

/-- Sorted sectors stand in ring order. -/
theorem pairwise_sortSectors (xs : List HeadedSector) : (sortSectors xs).Pairwise (fun a b => a.before b = true) := by
  induction xs with
  | nil => simp [sortSectors]
  | cons z zs ih => exact pairwise_insertSector ih

theorem perm_insertSector (x : HeadedSector) (xs : List HeadedSector) : (insertSector x xs).Perm (x :: xs) := by
  induction xs with
  | nil => exact List.Perm.refl _
  | cons z zs ih =>
    unfold insertSector
    split
    · exact List.Perm.refl _
    · exact (List.Perm.cons z ih).trans (List.Perm.swap x z zs)

theorem perm_sortSectors (xs : List HeadedSector) : (sortSectors xs).Perm xs := by
  induction xs with
  | nil => exact List.Perm.refl _
  | cons z zs ih => exact (perm_insertSector z _).trans (List.Perm.cons z ih)

/-- The sectors that `f` finds, one for each number it is asked for, in ring order strictly. -/
theorem pairwise_found {f : Nat → Option HeadedSector} (hf : ∀ n x, f n = some x → x.number = n) :
    (sortSectors ((List.range 128).filterMap f)).Pairwise HeadedSector.older := by
  have h1 := pairwise_sortSectors ((List.range 128).filterMap f)
  have h2 : ((List.range 128).filterMap f).Pairwise (fun a b => a.number ≠ b.number) := by
    rw [List.pairwise_filterMap]
    refine List.Pairwise.imp_of_mem ?_ List.nodup_range
    intro a b _ _ hab x hx y hy
    have ex := hf _ _ hx
    have ey := hf _ _ hy
    omega
  have h3 := (List.Perm.pairwise_iff (fun {a b} (h : a.number ≠ b.number) => Ne.symm h) (perm_sortSectors _)).mpr h2
  refine (List.Pairwise.and h1 h3).imp ?_
  rintro a b ⟨hb, hn⟩
  rcases (HeadedSector.before_iff a b).mp hb with h | ⟨_, h⟩
  · exact h
  · exact absurd h hn

theorem mem_found {f : Nat → Option HeadedSector} (hf : ∀ n x, f n = some x → x.number = n) {x : HeadedSector} :
    x ∈ sortSectors ((List.range 128).filterMap f) ↔ x.number < 128 ∧ f x.number = some x := by
  rw [mem_sortSectors, List.mem_filterMap]
  constructor
  · rintro ⟨n, hn, hx⟩
    have e := hf _ _ hx
    subst e
    exact ⟨List.mem_range.mp hn, hx⟩
  · rintro ⟨hn, hx⟩
    exact ⟨_, List.mem_range.mpr hn, hx⟩

/-- In a list in strict ring order the last is newer than every other, and no other is. -/
theorem getLast_older {xs : List HeadedSector} (h : xs.Pairwise HeadedSector.older) {x : HeadedSector} :
    xs.getLast? = some x ↔ x ∈ xs ∧ ∀ y ∈ xs, ¬ x.older y := by
  induction xs with
  | nil => simp
  | cons z zs ih =>
    obtain ⟨hz, hzs⟩ := List.pairwise_cons.mp h
    cases zs with
    | nil =>
      simp only [List.getLast?_singleton, Option.some.injEq, List.mem_singleton]
      constructor
      · rintro rfl
        exact ⟨rfl, by rintro y rfl; simp only [HeadedSector.older, ringBefore]; omega⟩
      · rintro ⟨rfl, _⟩; rfl
    | cons w ws =>
      rw [List.getLast?_cons_cons, ih hzs]
      constructor
      · rintro ⟨hm, hn⟩
        refine ⟨List.mem_cons_of_mem _ hm, ?_⟩
        intro y hy
        rcases List.mem_cons.mp hy with rfl | hy
        · have := hz x hm
          simp only [HeadedSector.older, ringBefore] at *
          omega
        · exact hn y hy
      · rintro ⟨hm, hn⟩
        rcases List.mem_cons.mp hm with rfl | hm
        · exact absurd (hz w (List.mem_cons_self ..)) (hn w (by simp))
        · exact ⟨hm, fun y hy => hn y (List.mem_cons_of_mem _ hy)⟩

theorem head_older {xs : List HeadedSector} (h : xs.Pairwise HeadedSector.older) {x : HeadedSector} :
    xs.head? = some x ↔ x ∈ xs ∧ ∀ y ∈ xs, ¬ y.older x := by
  cases xs with
  | nil => simp
  | cons z zs =>
    obtain ⟨hz, hzs⟩ := List.pairwise_cons.mp h
    simp only [List.head?_cons, Option.some.injEq]
    constructor
    · rintro rfl
      refine ⟨List.mem_cons_self .., ?_⟩
      intro y hy
      rcases List.mem_cons.mp hy with rfl | hy
      · simp only [HeadedSector.older, ringBefore]; omega
      · have := hz y hy
        simp only [HeadedSector.older, ringBefore] at *
        omega
    · rintro ⟨hm, hn⟩
      rcases List.mem_cons.mp hm with rfl | hm
      · rfl
      · exact absurd (hz x hm) (hn z (List.mem_cons_self ..))

theorem dropVoidOlder_sublist (u : Nat) (xs : List HeadedSector) : (dropVoidOlder u xs).Sublist xs := by
  induction xs with
  | nil => exact List.Sublist.refl _
  | cons z zs ih =>
    unfold dropVoidOlder
    split
    · exact ih.cons z
    · exact ih.cons_cons z

/-- What is dropped of a list in strict ring order: a sector with a void page that is older than one that begins at or
below `u`. -/
theorem mem_dropVoidOlder {u : Nat} {xs : List HeadedSector} (h : xs.Pairwise HeadedSector.older) {x : HeadedSector} :
    x ∈ dropVoidOlder u xs ↔ x ∈ xs ∧ ¬ (x.hasVoid = true ∧ ∃ y ∈ xs, x.older y ∧ y.first ≤ u) := by
  induction xs with
  | nil => simp [dropVoidOlder]
  | cons z zs ih =>
    obtain ⟨hz, hzs⟩ := List.pairwise_cons.mp h
    have irr : ¬ z.older z := by simp only [HeadedSector.older, ringBefore]; omega
    have hzx : ∀ y ∈ zs, ¬ y.older z := by
      intro y hy
      have := hz y hy
      simp only [HeadedSector.older, ringBefore] at *
      omega
    have hne : ∀ y ∈ zs, y ≠ z := by rintro y hy rfl; exact irr (hz y hy)
    have hx : ∀ y ∈ zs,
        ((∃ w ∈ z :: zs, y.older w ∧ w.first ≤ u) ↔ ∃ w ∈ zs, y.older w ∧ w.first ≤ u) := by
      intro y hy
      constructor
      · rintro ⟨w, hw, ho, hl⟩
        rcases List.mem_cons.mp hw with rfl | hw
        · exact absurd ho (hzx y hy)
        · exact ⟨w, hw, ho, hl⟩
      · rintro ⟨w, hw, ho, hl⟩; exact ⟨w, List.mem_cons_of_mem _ hw, ho, hl⟩
    unfold dropVoidOlder
    split
    · next hc =>
      obtain ⟨hv, ha⟩ := hc
      obtain ⟨w, hw, hl⟩ := List.any_eq_true.mp ha
      rw [ih hzs]
      constructor
      · rintro ⟨hm, hn⟩
        exact ⟨List.mem_cons_of_mem _ hm, by rwa [hx x hm]⟩
      · rintro ⟨hm, hn⟩
        rcases List.mem_cons.mp hm with rfl | hm
        · exact absurd ⟨hv, w, List.mem_cons_of_mem _ hw, hz w hw, by simpa using hl⟩ hn
        · exact ⟨hm, by rwa [← hx x hm]⟩
    · next hc =>
      rw [List.mem_cons, ih hzs]
      constructor
      · rintro (rfl | ⟨hm, hn⟩)
        · refine ⟨List.mem_cons_self .., ?_⟩
          rintro ⟨hv, w, hw, ho, hl⟩
          rcases List.mem_cons.mp hw with rfl | hw
          · exact irr ho
          · exact hc ⟨hv, List.any_eq_true.mpr ⟨w, hw, by simpa using hl⟩⟩
        · exact ⟨List.mem_cons_of_mem _ hm, by rwa [hx x hm]⟩
      · rintro ⟨hm, hn⟩
        rcases List.mem_cons.mp hm with rfl | hm
        · exact .inl rfl
        · exact .inr ⟨hm, by rwa [← hx x hm]⟩

/-! ### What is read of a sector -/

theorem Table.get_mem {α : Type} {t : Table α} {k : Nat} {v : α} (h : Table.get t k = some v) : (k, v) ∈ t := by
  induction t with
  | nil => cases h
  | cons e es ih =>
    obtain ⟨i, w⟩ := e
    unfold Table.get at h
    split at h
    · next hi => cases h; exact hi ▸ List.mem_cons_self ..
    · exact List.mem_cons_of_mem _ (ih h)

theorem Table.get_of_mem {α : Type} {t : Table α} {n k : Nat} {v : α} (h : Table.risingFrom t n = true)
    (hm : (k, v) ∈ t) :
    Table.get t k = some v ∧ n ≤ k := by
  induction t generalizing n with
  | nil => cases hm
  | cons e es ih =>
    obtain ⟨i, w⟩ := e
    simp only [Table.risingFrom, Bool.and_eq_true, decide_eq_true_eq] at h
    rcases List.mem_cons.mp hm with he | hm
    · cases he; exact ⟨by simp [Table.get], h.1⟩
    · obtain ⟨h1, h2⟩ := ih h.2 hm
      refine ⟨?_, by omega⟩
      unfold Table.get
      rw [if_neg (by omega)]
      exact h1

/-- In the canonical form a sector has no cell exactly when it reads erased. -/
theorem sectorBlank_iff {m : List Host.Cell} (h : Memory.wf m = true) (n : Nat) :
    sectorBlank m n = true ↔ sectorErased m n := by
  simp only [Memory.wf, Bool.and_eq_true, List.all_eq_true] at h
  obtain ⟨hr, hc⟩ := h
  constructor
  · intro hb a h1 h2
    unfold Memory.read
    cases hg : Table.get m a with
    | none => rfl
    | some b =>
      have := List.all_eq_true.mp hb _ (Table.get_mem hg)
      simp only [Bool.or_eq_true, decide_eq_true_eq] at this
      omega
  · intro he
    refine List.all_eq_true.mpr ?_
    rintro ⟨a, b⟩ hm
    by_contra hn
    simp only [Bool.or_eq_true, decide_eq_true_eq, not_or, not_lt, not_le] at hn
    have hg := (Table.get_of_mem (n := 0) hr hm).1
    have hv := he a hn.1 hn.2
    rw [Memory.read, hg] at hv
    have := (hc _ hm).2
    simp only [Option.getD_some] at hv
    simp [hv] at this

/-- A sector with a marker does not read erased. -/
theorem not_blank_of_header {m : List Host.Cell} {n lap first : Nat} (h : headerAt m n lap first) :
    sectorBlank m n = false := by
  rw [Bool.eq_false_iff]
  intro hb
  obtain ⟨_, hm, _⟩ := h
  have e : Memory.read m (n * 4096) = 0x4C#8 := by
    have := congrArg (fun l => l.getD 0 0#8) hm
    simpa [Memory.readAll, List.range_succ_eq_map] using this
  unfold Memory.read at e
  cases hg : Table.get m (n * 4096) with
  | none => rw [hg] at e; exact absurd e (by decide)
  | some b =>
    have := List.all_eq_true.mp hb _ (Table.get_mem hg)
    simp only [Bool.or_eq_true, decide_eq_true_eq] at this
    omega

theorem headerOf_iff {m : List Host.Cell} {n lap first : Nat} :
    headerAt m n lap first ↔ n < 128 ∧ headerOf m n = some (lap, first) := by
  unfold headerAt headerOf
  simp only
  constructor
  · rintro ⟨hn, h1, h2, rfl, rfl⟩
    exact ⟨hn, by rw [if_pos ⟨h1, h2⟩]⟩
  · rintro ⟨hn, h⟩
    split at h
    · next hc => cases h; exact ⟨hn, hc.1, hc.2, rfl, rfl⟩
    · cases h

theorem readPages_eq (m : List Host.Cell) (n : Nat) :
    readPages m n = readPage m n 0 :: (List.range 15).map (fun p => readPage m n (p + 1)) := by
  rw [readPages, List.range_succ_eq_map]
  simp [Function.comp_def]

theorem headedSector_number {m : List Host.Cell} {n : Nat} {x : HeadedSector} (h : headedSector m n = some x) :
    x.number = n ∧ x.pages = readPages m n := by
  unfold headedSector at h
  split at h
  · cases h
  · split at h
    · cases h
    · dsimp only at h
      split at h
      · cases h; exact ⟨rfl, rfl⟩
      · cases h

/-- A sector of the class headed (R158). -/
theorem headedSector_iff {m : List Host.Cell} {n : Nat} {x : HeadedSector} (hn : n < 128) :
    headedSector m n = some x ↔
      headerAt m n x.lap x.first ∧ (∃ rs, readPage m n 0 = .good rs) ∧ x.number = n ∧ x.pages = readPages m n := by
  constructor
  · intro h
    obtain ⟨e1, e2⟩ := headedSector_number h
    unfold headedSector at h
    split at h
    · cases h
    · split at h
      · cases h
      · next lap first ho =>
        dsimp only at h
        rw [readPages_eq] at h
        split at h
        · next rs tl hp =>
          cases h
          exact ⟨headerOf_iff.mpr ⟨hn, ho⟩, ⟨rs, (List.cons.inj hp).1⟩, rfl, e2⟩
        · cases h
  · rintro ⟨h1, ⟨rs, h2⟩, h3, h4⟩
    have hb := not_blank_of_header h1
    have ho := (headerOf_iff.mp h1).2
    unfold headedSector
    rw [if_neg (by simp [hb]), ho]
    dsimp only
    rw [readPages_eq, h2]
    cases x
    simp only at h3 h4
    subst h3
    rw [h4, readPages_eq, h2]

theorem headedSector_blank {m : List Host.Cell} {n : Nat} (h : sectorBlank m n = true) : headedSector m n = none := by
  rw [headedSector, if_pos h]

/-- The records up to the first blank page, of good pages only, page by page. -/
theorem recordsUpToBlank_eq (ps : List Nat) (f : Nat → PageFound) :
    recordsUpToBlank (ps.map f)
      = (ps.takeWhile (fun p => decide (f p ≠ .blank))).flatMap (fun p => match f p with | .good rs => rs | _ => []) := by
  induction ps with
  | nil => rfl
  | cons p ps ih =>
    rw [List.map_cons]
    cases hp : f p with
    | blank => simp [recordsUpToBlank, hp]
    | void => simp [recordsUpToBlank, hp, ih]
    | good rs => simp [recordsUpToBlank, hp, ih]

theorem sectorRecords_eq (m : List Host.Cell) (n : Nat) : recordsUpToBlank (readPages m n) = sectorFinds m n :=
  recordsUpToBlank_eq _ _

theorem hasVoid_iff {m : List Host.Cell} {x : HeadedSector} {n : Nat} (h : x.pages = readPages m n) :
    x.hasVoid = true ↔ ∃ p, p < 16 ∧ readPage m n p = .void := by
  simp only [HeadedSector.hasVoid, h, readPages, List.any_map, List.any_eq_true, List.mem_range, Function.comp_apply,
    beq_iff_eq]

theorem blankPage_eq {m : List Host.Cell} {x : HeadedSector} {n p : Nat} (h : x.pages = readPages m n) (hp : p < 16)
    (hb : readPage m n p = .blank) (hq : ∀ q, q < p → readPage m n q ≠ .blank) : x.blankPage = p := by
  unfold HeadedSector.blankPage
  rw [h, readPages]
  have hl : p < ((List.range 16).map (readPage m n)).length := by simpa using hp
  rw [List.findIdx_eq hl]
  constructor
  · simp [hb]
  · intro q hq'
    have := hq q hq'
    simpa using this

theorem stop_eq {m : List Host.Cell} {x : HeadedSector} {n : Nat} (h : x.pages = readPages m n) :
    x.stop = stopAfter x.first (sectorFinds m n) := by
  unfold HeadedSector.stop HeadedSector.records stopAfter
  rw [h, sectorRecords_eq]
  cases (sectorFinds m n).getLast? <;> rfl

/-! ### Pages for retained buffers -/

/-- Reading a sector after one is set. -/
theorem Journal.sector_setSector (j : Journal) (n k : Nat) (x : Sector) (h : n < j.sectors.length) :
    (j.setSector n x).sector k = if k = n then x else j.sector k := by
  unfold Journal.sector Journal.setSector
  simp only [List.getD_eq_getElem?_getD, List.getElem?_set]
  split
  · next e => subst e; simp
  · next e => rw [if_neg (Ne.symm e)]

theorem splitFit_append (room : Nat) (rs : List Rec) : (splitFit room rs).1 ++ (splitFit room rs).2 = rs := by
  induction rs generalizing room with
  | nil => rfl
  | cons r rs ih =>
    unfold splitFit
    split
    · simp only [List.cons_append, ih]
    · rfl

/-- Opening a sector: it was Erased, and the journal stands as `withOpened` says. -/
theorem Journal.openSector_done {j j1 : Journal} {seq n p : Nat} (h : j.openSector seq = .done (j1, (n, p))) :
    (j.sector n).st = .erased ∧ j1 = j.withOpened n j.nextSector.2 seq := by
  unfold Journal.openSector at h
  dsimp only at h
  split at h
  · next he =>
    cases h
    refine ⟨he, ?_⟩
    unfold Journal.withOpened Journal.setSector fullState
    cases j.active <;> rfl
  · cases h
  · cases h

/-- What giving a page leaves: of the journal only its sectors, the Active one and the page given next change, and of the
sectors only one that was Erased and the one that was Active. -/
theorem Journal.givePage_done {j j1 : Journal} {seq n p : Nat} (h : j.givePage seq = .done (j1, (n, p))) :
    j1 = { j with sectors := j1.sectors, active := j1.active, page := j1.page } ∧ j1.active = some n
      ∧ (j1.sectors = j.sectors ∧ j.active = some n
          ∨ (j.sector n).st = .erased ∧ j1 = j.withOpened n j.nextSector.2 seq) := by
  have opened : ∀ {j1 : Journal} {n p : Nat}, j.openSector seq = .done (j1, (n, p)) →
      j1 = { j with sectors := j1.sectors, active := j1.active, page := j1.page } ∧ j1.active = some n
        ∧ (j1.sectors = j.sectors ∧ j.active = some n
            ∨ (j.sector n).st = .erased ∧ j1 = j.withOpened n j.nextSector.2 seq) := by
    intro j1 n p h
    have ho := Journal.openSector_done h
    refine ⟨?_, ?_, .inr ho⟩ <;> rw [ho.2] <;> rfl
  unfold Journal.givePage at h
  cases ha : j.active with
  | none => rw [ha] at h; exact ha ▸ opened h
  | some a =>
    rw [ha] at h
    dsimp only at h
    split at h
    · cases h
      exact ⟨ha ▸ rfl, ha ▸ rfl, .inl ⟨rfl, rfl⟩⟩
    · exact ha ▸ opened h

/-- The Active sector, where there is one, is not one that waits to be erased. -/
def Journal.activeUsed (j : Journal) : Prop := ∀ a, j.active = some a → (j.sector a).st ≠ .erasing

theorem fullState_ne (u : Nat) (x : Sector) : fullState u x ≠ .erasing := by
  unfold fullState; split <;> decide

/-- Setting a sector that does not wait to be erased to one that does not leaves every sector that does. -/
theorem set_erasing {xs : List Sector} {n k : Nat} {x : Sector} (h1 : (xs.getD n Sector.blank).st ≠ .erasing)
    (h2 : (xs.getD k Sector.blank).st = .erasing) : ((xs.set n x).getD k Sector.blank).st = .erasing := by
  rw [List.getD_eq_getElem?_getD] at *
  rw [List.getElem?_set]
  split
  · next e => subst e; exact absurd h2 h1
  · exact h2

theorem set_not_erasing {xs : List Sector} {n k : Nat} {x : Sector} (hx : x.st ≠ .erasing)
    (h : (xs.getD k Sector.blank).st ≠ .erasing) : ((xs.set n x).getD k Sector.blank).st ≠ .erasing := by
  rw [List.getD_eq_getElem?_getD] at *
  rw [List.getElem?_set]
  split
  · split
    · exact hx
    · exact (by decide : Sector.blank.st ≠ .erasing)
  · exact h

/-- Opening an Erased sector leaves every sector that waits to be erased. -/
theorem Journal.withOpened_erasing {j : Journal} {n lap seq : Nat} (hn : (j.sector n).st = .erased) (ha : j.activeUsed) :
    ((j.withOpened n lap seq).sector n).st ≠ .erasing
      ∧ ∀ k, (j.sector k).st = .erasing → ((j.withOpened n lap seq).sector k).st = .erasing := by
  have hne : (j.sector n).st ≠ .erasing := by rw [hn]; decide
  unfold Journal.withOpened
  cases hact : j.active with
  | none => exact ⟨set_not_erasing (by decide : SectorState.active ≠ .erasing) hne, fun k hk => set_erasing hne hk⟩
  | some a =>
    have hf := fullState_ne j.u (j.sector a)
    have hna : ((j.sectors.set a { j.sector a with st := fullState j.u (j.sector a) }).getD n Sector.blank).st ≠ .erasing :=
      set_not_erasing hf hne
    exact ⟨set_not_erasing (by decide : SectorState.active ≠ .erasing) hna,
      fun k hk => set_erasing hna (set_erasing (ha a hact) hk)⟩

theorem Journal.givePage_erasing {j j1 : Journal} {seq n p : Nat} (h : j.givePage seq = .done (j1, (n, p)))
    (hl : j.sectors.length = 128) (ha : j.activeUsed) :
    j1.sectors.length = 128 ∧ (j1.sector n).st ≠ .erasing
      ∧ ∀ k, (j.sector k).st = .erasing → (j1.sector k).st = .erasing := by
  obtain ⟨-, -, ⟨he, hact⟩ | ⟨hst, he⟩⟩ := Journal.givePage_done h
  · have hs : ∀ k, j1.sector k = j.sector k := by intro k; unfold Journal.sector; rw [he]
    refine ⟨by rw [he, hl], by rw [hs]; exact ha n hact, fun k hk => by rw [hs]; exact hk⟩
  · obtain ⟨h1, h2⟩ := Journal.withOpened_erasing (lap := j.nextSector.2) (seq := seq) hst ha
    rw [he]
    refine ⟨?_, h1, h2⟩
    unfold Journal.withOpened
    cases j.active <;> simp [hl]

/-- What giving the waiting buffers their pages does: it leaves all of the journal but its sectors, the Active one, the page
given next and the waiting buffers; it keeps the waiting records and their order, and a sector that waits to be erased. -/
theorem Journal.retarget_spec (n : Nat) (j : Journal) (pre todo : List PageBuf) (hl : j.sectors.length = 128)
    (ha : j.activeUsed) :
    let k := Journal.retarget n j pre todo
    k = { j with sectors := k.sectors, active := k.active, page := k.page, waiting := k.waiting }
      ∧ k.waiting.flatMap (fun b => b.recs) = (pre ++ todo).flatMap (fun b => b.recs)
      ∧ (∃ more, k.waiting = pre ++ more)
      ∧ k.sectors.length = 128
      ∧ ∀ i, (j.sector i).st = .erasing → (k.sector i).st = .erasing := by
  induction n generalizing j pre todo with
  | zero =>
    refine ⟨rfl, rfl, ⟨todo, rfl⟩, hl, fun i hi => hi⟩
  | succ n ih =>
    cases todo with
    | nil => exact ⟨rfl, by simp [Journal.retarget], ⟨[], by simp [Journal.retarget]⟩, hl, fun i hi => hi⟩
    | cons b bs =>
      intro k
      have hk : k = Journal.retarget (n + 1) j pre (b :: bs) := rfl
      unfold Journal.retarget at hk
      split at hk
      · obtain ⟨h1, h2, ⟨more, h3⟩, h4, h5⟩ := ih j (pre ++ [b]) bs hl ha
        rw [hk]
        exact ⟨h1, by rw [h2, List.append_assoc]; rfl, ⟨b :: more, by rw [h3, List.append_assoc]; rfl⟩, h4, h5⟩
      · next ht hr =>
        obtain ⟨h1, h2, h3, h4, h5⟩ := ih j pre bs hl ha
        rw [hk]
        exact ⟨h1, by rw [h2]; simp [hr], h3, h4, h5⟩
      · next r rs ht hr =>
        split at hk
        · next j1 s p hg =>
          obtain ⟨e1, hact, -⟩ := Journal.givePage_done hg
          obtain ⟨hl1, hs1, hk1⟩ := Journal.givePage_erasing hg hl ha
          dsimp only at hk
          generalize hj2 : j1.setSector s
            { j1.sector s with stop := lastStop r.seq (splitFit (pageRoom p) (r :: rs)).1 } = j2 at hk
          have hl2 : j2.sectors.length = 128 := by rw [← hj2]; exact (List.length_set).trans hl1
          have ha2 : j2.active = some s := by rw [← hj2]; exact hact
          have get2 : ∀ i, (j2.sector i).st = (j1.sector i).st := by
            intro i
            rw [← hj2]
            by_cases hh : s < j1.sectors.length
            · rw [Journal.sector_setSector _ _ _ _ hh]; split
              · next e => rw [e]
              · rfl
            · unfold Journal.sector Journal.setSector
              rw [List.set_eq_of_length_le (by omega)]
          obtain ⟨h1, h2, ⟨more, h3⟩, h4, h5⟩ := ih j2
            (pre ++ [{ target := some (s, p), recs := (splitFit (pageRoom p) (r :: rs)).1 }])
            (if (splitFit (pageRoom p) (r :: rs)).2 = [] then bs
              else { target := none, recs := (splitFit (pageRoom p) (r :: rs)).2 } :: bs) hl2
            (by intro a e; rw [ha2] at e; cases e; rw [get2]; exact hs1)
          rw [hk]
          refine ⟨?_, ?_, ⟨{ target := some (s, p), recs := (splitFit (pageRoom p) (r :: rs)).1 } :: more,
            by rw [h3, List.append_assoc]; rfl⟩, h4, fun i hi => h5 i (by rw [get2]; exact hk1 i hi)⟩
          · rw [h1, ← hj2, e1]; rfl
          · rw [h2]
            have hsp := splitFit_append (pageRoom p) (r :: rs)
            simp only [List.flatMap_append, List.flatMap_cons, List.flatMap_nil, List.append_nil, hr]
            conv_rhs => rw [← hsp]
            split
            · next h0 => rw [h0]; simp
            · simp
        · rw [hk]
          exact ⟨rfl, rfl, ⟨b :: bs, rfl⟩, hl, fun i hi => hi⟩

/-! ### The sectors headed and kept, the newest header, the last acknowledgement -/

theorem Journal.cut_iff {j : Journal} {warm : Bool} {n : Nat} : j.cut warm n = true ↔ j.namesErasing warm n := by
  simp only [Journal.cut, Journal.namesErasing, Bool.and_eq_true, decide_eq_true_eq]

theorem Journal.headed_number (j : Journal) (warm : Bool) (n : Nat) (x : HeadedSector)
    (h : (if j.cut warm n then none else headedSector j.array n) = some x) : x.number = n := by
  split at h
  · cases h
  · exact (headedSector_number h).1

/-- What the scan has in its list of headed sectors. -/
theorem Journal.mem_headed {j : Journal} {warm : Bool} {x : HeadedSector} :
    x ∈ j.headed warm ↔ j.headedAt warm x.number x.lap x.first ∧ x.pages = readPages j.array x.number := by
  unfold Journal.headed
  rw [mem_found (j.headed_number warm), Journal.headedAt, ← Journal.cut_iff]
  constructor
  · rintro ⟨hn, h⟩
    split at h
    · cases h
    · next hc =>
      obtain ⟨h1, h2, -, h4⟩ := (headedSector_iff hn).mp h
      exact ⟨⟨h1, h2, hc⟩, h4⟩
  · rintro ⟨⟨h1, h2, hc⟩, h4⟩
    have hn := (headerOf_iff.mp h1).1
    rw [if_neg hc]
    exact ⟨hn, (headedSector_iff hn).mpr ⟨h1, h2, rfl, h4⟩⟩

theorem Journal.headed_older (j : Journal) (warm : Bool) : (j.headed warm).Pairwise HeadedSector.older :=
  pairwise_found (j.headed_number warm)

/-- The headed sector of this number, lap and first sequence, as the scan lists it. -/
def headedOf (m : List Host.Cell) (n lap first : Nat) : HeadedSector :=
  { number := n, lap := lap, first := first, pages := readPages m n }

theorem Journal.headedOf_mem {j : Journal} {warm : Bool} {n lap first : Nat} (h : j.headedAt warm n lap first) :
    headedOf j.array n lap first ∈ j.headed warm := Journal.mem_headed.mpr ⟨h, rfl⟩

theorem cutShort_iff {j : Journal} {warm : Bool} {x : HeadedSector} {found : Option Nat} (hx : x ∈ j.headed warm) :
    j.cutShort warm found x.number x.lap ↔
      ∃ u, found = some u ∧ x.hasVoid = true ∧ ∃ y ∈ j.headed warm, x.older y ∧ y.first ≤ u := by
  have hp := (Journal.mem_headed.mp hx).2
  unfold Journal.cutShort
  rw [← hasVoid_iff hp]
  constructor
  · rintro ⟨hv, u, n2, lap2, first2, hf, hh, ho, hl⟩
    exact ⟨u, hf, hv, _, Journal.headedOf_mem hh, ho, hl⟩
  · rintro ⟨u, hf, hv, y, hy, ho, hl⟩
    exact ⟨hv, u, _, _, _, hf, (Journal.mem_headed.mp hy).1, ho, hl⟩

/-- The sectors kept: those not cut short (R158). -/
theorem Journal.mem_kept {j : Journal} {warm : Bool} {found : Option Nat} {x : HeadedSector} :
    x ∈ keptSectors found (j.headed warm) ↔ x ∈ j.headed warm ∧ ¬ j.cutShort warm found x.number x.lap := by
  cases found with
  | none =>
    refine ⟨fun h => ⟨h, ?_⟩, fun h => h.1⟩
    rintro ⟨_, u, n2, lap2, first2, hf, _⟩
    cases hf
  | some u =>
    unfold keptSectors
    dsimp only
    rw [mem_dropVoidOlder (j.headed_older warm)]
    refine and_congr_right fun hx => not_congr ?_
    rw [cutShort_iff hx]
    constructor
    · rintro ⟨h1, h2⟩; exact ⟨u, rfl, h1, h2⟩
    · rintro ⟨w, hw, h1, h2⟩; cases hw; exact ⟨h1, h2⟩

theorem Journal.kept_older (j : Journal) (warm : Bool) (found : Option Nat) :
    (keptSectors found (j.headed warm)).Pairwise HeadedSector.older := by
  cases found with
  | none => exact j.headed_older warm
  | some u => exact List.Pairwise.sublist (dropVoidOlder_sublist u _) (j.headed_older warm)

/-- The newest headed sector is kept, and is the last of those kept. -/
theorem Journal.kept_last {j : Journal} {warm : Bool} {found : Option Nat} {n lap first : Nat}
    (h : j.newestAt warm n lap first) :
    (keptSectors found (j.headed warm)).getLast? = some (headedOf j.array n lap first) := by
  have hm := Journal.headedOf_mem h.1
  have hn : ∀ y ∈ j.headed warm, ¬ (headedOf j.array n lap first).older y := fun y hy =>
    h.2 _ _ _ (Journal.mem_headed.mp hy).1
  rw [getLast_older (j.kept_older warm found)]
  refine ⟨Journal.mem_kept.mpr ⟨hm, ?_⟩, fun y hy => hn y (Journal.mem_kept.mp hy).1⟩
  rw [cutShort_iff hm]
  rintro ⟨u, _, _, y, hy, ho, _⟩
  exact hn y hy ho

theorem Journal.newest_of_last {j : Journal} {warm : Bool} {x : HeadedSector}
    (h : (j.headed warm).getLast? = some x) : j.newestAt warm x.number x.lap x.first := by
  obtain ⟨hm, hn⟩ := (getLast_older (j.headed_older warm)).mp h
  exact ⟨(Journal.mem_headed.mp hm).1, fun n2 lap2 first2 h2 => hn _ (Journal.headedOf_mem h2)⟩

/-- No sector is headed, and none is kept. -/
theorem Journal.kept_nil {j : Journal} {warm : Bool} (found : Option Nat)
    (h : ∀ n lap first, ¬ j.headedAt warm n lap first) : keptSectors found (j.headed warm) = [] := by
  refine List.eq_nil_iff_forall_not_mem.mpr fun x hx => ?_
  exact h _ _ _ (Journal.mem_headed.mp (Journal.mem_kept.mp hx).1).1

theorem newestHeader_iff {m : List Host.Cell} {n lap first : Nat} :
    newestHeader m = some { number := n, lap := lap, first := first, pages := [] } ↔
      headerAt m n lap first ∧ ∀ n2 lap2 first2, headerAt m n2 lap2 first2 → ¬ ringBefore lap n lap2 n2 := by
  have hf : ∀ k x, (if sectorBlank m k then none
      else (headerOf m k).map (fun h => ({ number := k, lap := h.1, first := h.2, pages := [] } : HeadedSector))) = some x →
      x.number = k := by
    intro k x h
    split at h
    · cases h
    · cases ho : headerOf m k with
      | none => rw [ho] at h; cases h
      | some y => rw [ho] at h; cases h; rfl
  have mem : ∀ x, x ∈ sortSectors ((List.range 128).filterMap (fun k => if sectorBlank m k then none
      else (headerOf m k).map (fun h => ({ number := k, lap := h.1, first := h.2, pages := [] } : HeadedSector)))) ↔
      headerAt m x.number x.lap x.first ∧ x.pages = [] := by
    intro x
    rw [mem_found hf]
    constructor
    · rintro ⟨hn, h⟩
      split at h
      · cases h
      · cases ho : headerOf m x.number with
        | none => rw [ho] at h; cases h
        | some y =>
          rw [ho] at h
          obtain ⟨a, b⟩ := y
          simp only [Option.map_some, Option.some.injEq] at h
          rw [← h]
          exact ⟨headerOf_iff.mpr ⟨hn, ho⟩, rfl⟩
    · rintro ⟨h, hp⟩
      obtain ⟨hn, ho⟩ := headerOf_iff.mp h
      refine ⟨hn, ?_⟩
      rw [if_neg (by simp [not_blank_of_header h]), ho]
      cases x
      simp only at hp
      rw [hp]
      rfl
  rw [newestHeader, getLast_older (pairwise_found hf), mem]
  constructor
  · rintro ⟨⟨h, _⟩, hn⟩
    exact ⟨h, fun n2 lap2 first2 h2 =>
      hn { number := n2, lap := lap2, first := first2, pages := [] } ((mem _).mpr ⟨h2, rfl⟩)⟩
  · rintro ⟨h, hn⟩
    exact ⟨⟨h, rfl⟩, fun y hy => hn _ _ _ ((mem y).mp hy).1⟩

theorem newestHeader_none {m : List Host.Cell} (h : ∀ n lap first, ¬ headerAt m n lap first) : newestHeader m = none := by
  unfold newestHeader
  have : ((List.range 128).filterMap (fun k => if sectorBlank m k then none
      else (headerOf m k).map (fun h => ({ number := k, lap := h.1, first := h.2, pages := [] } : HeadedSector)))) = [] := by
    refine List.filterMap_eq_nil_iff.mpr fun k hk => ?_
    split
    · rfl
    · cases ho : headerOf m k with
      | none => rfl
      | some y => exact absurd (headerOf_iff.mpr ⟨List.mem_range.mp hk, ho⟩) (h k y.1 y.2)
  rw [this]
  rfl

theorem lastSome_eq {α β : Type} (f : α → Option β) (xs : List α) : lastSome f xs = (xs.filterMap f).getLast? := rfl

/-- The last acknowledgement in a list of sectors in ring order. -/
theorem lastSome_sectors {xs : List HeadedSector} (h : xs.Pairwise HeadedSector.older) :
    ((∀ x ∈ xs, (x.records.filterMap Found.ackValue).getLast? = none) →
        lastSome Found.ackValue (xs.flatMap HeadedSector.records) = none)
      ∧ ∀ x ∈ xs, ∀ u, (x.records.filterMap Found.ackValue).getLast? = some u →
          (∀ y ∈ xs, x.older y → (y.records.filterMap Found.ackValue).getLast? = none) →
          lastSome Found.ackValue (xs.flatMap HeadedSector.records) = some u := by
  induction xs with
  | nil => exact ⟨fun _ => rfl, fun x hx => by cases hx⟩
  | cons z zs ih =>
    obtain ⟨hz, hzs⟩ := List.pairwise_cons.mp h
    obtain ⟨ih1, ih2⟩ := ih hzs
    have e : lastSome Found.ackValue ((z :: zs).flatMap HeadedSector.records)
        = ((z.records.filterMap Found.ackValue) ++ (zs.flatMap HeadedSector.records).filterMap Found.ackValue).getLast? := by
      rw [lastSome_eq, List.flatMap_cons, List.filterMap_append]
    rw [e, List.getLast?_append]
    rw [lastSome_eq] at ih1 ih2
    constructor
    · intro hn
      rw [ih1 (fun x hx => hn x (List.mem_cons_of_mem _ hx)), hn z (List.mem_cons_self ..)]
      rfl
    · intro x hx u hu hn
      rcases List.mem_cons.mp hx with rfl | hx
      · rw [ih1 (fun y hy => hn y (List.mem_cons_of_mem _ hy) (hz y hy)), hu]
        rfl
      · rw [ih2 x hx u hu (fun y hy => hn y (List.mem_cons_of_mem _ hy))]
        rfl

theorem headed_records {j : Journal} {warm : Bool} {x : HeadedSector} (h : x ∈ j.headed warm) :
    x.records = sectorFinds j.array x.number := by
  rw [HeadedSector.records, (Journal.mem_headed.mp h).2, sectorRecords_eq]

/-- What the scan takes for the last acknowledgement (R159). -/
theorem Journal.foundU_lastAck (j : Journal) (warm : Bool) : j.lastAck warm (j.foundU warm (j.headed warm)) := by
  have hs := lastSome_sectors (j.headed_older warm)
  have arr : ∀ found, found = lastSome Found.ackValue ((j.headed warm).flatMap HeadedSector.records) →
      ((∀ n lap first, j.headedAt warm n lap first →
            ((sectorFinds j.array n).filterMap Found.ackValue).getLast? = none) →
          found = none)
        ∧ ∀ n lap first u, j.headedAt warm n lap first →
            ((sectorFinds j.array n).filterMap Found.ackValue).getLast? = some u →
            (∀ n2 lap2 first2, j.headedAt warm n2 lap2 first2 → ringBefore lap n lap2 n2 →
              ((sectorFinds j.array n2).filterMap Found.ackValue).getLast? = none) → found = some u := by
    rintro found rfl
    constructor
    · intro h
      refine hs.1 fun x hx => ?_
      rw [headed_records hx]
      exact h _ _ _ (Journal.mem_headed.mp hx).1
    · intro n lap first u h hu hn
      refine hs.2 _ (Journal.headedOf_mem h) u ?_ fun y hy ho => ?_
      · rw [headed_records (Journal.headedOf_mem h)]; exact hu
      · rw [headed_records hy]
        exact hn _ _ _ (Journal.mem_headed.mp hy).1 ho
  unfold Journal.lastAck
  dsimp only
  have hb : j.buffered = j.retained.flatMap (fun b => b.recs) := rfl
  rw [hb]
  cases warm with
  | false =>
    refine ⟨by simp, fun _ => ⟨by simp, fun _ => arr _ ?_⟩⟩
    simp [Journal.foundU]
  | true =>
    cases ho : j.owedAck with
    | true => exact ⟨fun _ _ => by simp [Journal.foundU, ho], by simp⟩
    | false =>
      refine ⟨by simp, fun _ => ⟨fun u hu => ?_, fun hn => arr _ ?_⟩⟩
      · simp only [if_true] at hu
        simp [Journal.foundU, ho, lastSome_eq, hu]
      · simp only [if_true] at hn
        simp [Journal.foundU, ho, lastSome_eq, hn]

/-! ### The scan -/

theorem scannedSector_cut {m : List Host.Cell} {cut : Nat → Bool} {kept : List HeadedSector} {u n : Nat}
    (h : cut n = true) : (scannedSector m cut kept u n).st = .erasing := by
  rw [scannedSector, if_pos h]

theorem find_number {xs : List HeadedSector} {x : HeadedSector}
    (hd : ∀ y ∈ xs, y.number = x.number → y = x) (hx : x ∈ xs) :
    xs.find? (fun y => y.number == x.number) = some x := by
  have : (xs.find? (fun y => y.number == x.number)).isSome = true := by
    rw [List.find?_isSome]
    exact ⟨x, hx, by simp⟩
  obtain ⟨y, hy⟩ := Option.isSome_iff_exists.mp this
  have e := List.find?_some hy
  rw [hy, hd y (List.mem_of_find?_eq_some hy) (by simpa using e)]

/-- A sector read twice is the same. -/
theorem Journal.headed_unique {j : Journal} {warm : Bool} {x y : HeadedSector} (hx : x ∈ j.headed warm)
    (hy : y ∈ j.headed warm) (h : y.number = x.number) : y = x := by
  obtain ⟨⟨a1, _, _⟩, a2⟩ := Journal.mem_headed.mp hx
  obtain ⟨⟨b1, _, _⟩, b2⟩ := Journal.mem_headed.mp hy
  rw [h] at b1 b2
  have e1 := (headerOf_iff.mp a1).2
  have e2 := (headerOf_iff.mp b1).2
  rw [e1] at e2
  cases x; cases y
  simp only [Option.some.injEq, Prod.mk.injEq] at *
  simp [h, e2, a2, b2]

theorem scanned_sector {j : Journal} {warm : Bool} {found : Option Nat} {kept : List HeadedSector} {n : Nat}
    (hn : n < 128) : (j.scanned warm found kept).sector n
      = scannedSector j.array (j.cut warm) kept (j.scanned warm found kept).u n := by
  unfold Journal.sector
  simp only [Journal.scanned, List.getD_eq_getElem?_getD, List.getElem?_map, List.getElem?_range hn, Option.map_some,
    Option.getD_some]

theorem kept_sector {j : Journal} {warm : Bool} {found : Option Nat} {x : HeadedSector} {u : Nat}
    (hx : x ∈ keptSectors found (j.headed warm)) :
    scannedSector j.array (j.cut warm) (keptSectors found (j.headed warm)) u x.number
      = { st := if (keptSectors found (j.headed warm)).getLast?.map HeadedSector.number = some x.number then .active
                else if stopAfter x.first (sectorFinds j.array x.number) ≤ u then .reclaimable else .sealed
          lap := x.lap, first := x.first, stop := stopAfter x.first (sectorFinds j.array x.number) } := by
  have hh := (Journal.mem_kept.mp hx).1
  obtain ⟨⟨_, _, hc⟩, hp⟩ := Journal.mem_headed.mp hh
  rw [← Journal.cut_iff] at hc
  have hf : (keptSectors found (j.headed warm)).find? (fun y => y.number == x.number) = some x := by
    refine find_number (fun y hy e => ?_) hx
    exact Journal.headed_unique hh (Journal.mem_kept.mp hy).1 e
  rw [scannedSector, if_neg hc, hf, ← stop_eq hp]

theorem lost_sector {j : Journal} {warm : Bool} {found : Option Nat} {n u : Nat}
    (hx : ∀ x ∈ keptSectors found (j.headed warm), x.number ≠ n) (hb : sectorBlank j.array n = false) :
    (scannedSector j.array (j.cut warm) (keptSectors found (j.headed warm)) u n).st = .erasing := by
  have hf : (keptSectors found (j.headed warm)).find? (fun y => y.number == n) = none := by
    rw [List.find?_eq_none]
    intro x h
    simpa using hx x h
  unfold scannedSector
  split
  · rfl
  · rw [hf]; simp [hb]

theorem scanned_active {j : Journal} {warm : Bool} {found : Option Nat} :
    (j.scanned warm found (keptSectors found (j.headed warm))).activeUsed := by
  intro a ha
  change (keptSectors found (j.headed warm)).getLast?.map HeadedSector.number = some a at ha
  cases hl : (keptSectors found (j.headed warm)).getLast? with
  | none => rw [hl] at ha; cases ha
  | some x =>
    rw [hl] at ha
    cases ha
    have hx := List.mem_of_getLast? hl
    have hn : x.number < 128 := (headerOf_iff.mp (Journal.mem_headed.mp (Journal.mem_kept.mp hx).1).1.1).1
    rw [scanned_sector hn, kept_sector hx, hl]
    simp

theorem openBuffers_recs (j : Journal) (warm : Bool) (tail : Nat) :
    (j.openBuffers warm tail).flatMap (fun b => b.recs) = j.keptRecs warm tail := by
  cases warm with
  | false => rfl
  | true =>
    unfold Journal.openBuffers Journal.keptRecs
    simp only [if_true]
    change _ = (j.retained.flatMap (fun b => b.recs)).filter _
    generalize j.retained = bs
    induction bs with
    | nil => rfl
    | cons b bs ih =>
      rw [List.map_cons, List.flatMap_cons, List.filter_append, ← ih, List.filter_cons]
      split
      · rw [List.flatMap_cons]; rfl
      · next h =>
        have h0 : (b.recs.filter (fun r => decide (tail ≤ r.seq))) = [] := by simpa [PageBuf.aboveTail] using h
        rw [h0, List.nil_append]

theorem openBuffers_nil {j : Journal} {warm : Bool} {tail : Nat} (h : j.keptRecs warm tail = []) :
    j.openBuffers warm tail = [] := by
  have h1 := openBuffers_recs j warm tail
  rw [h] at h1
  cases hb : j.openBuffers warm tail with
  | nil => rfl
  | cons b bs =>
    rw [hb] at h1
    have hm : b ∈ j.openBuffers warm tail := by rw [hb]; exact List.mem_cons_self ..
    unfold Journal.openBuffers at hm
    split at hm
    · have := (List.mem_filter.mp hm).2
      rw [List.flatMap_cons, List.append_eq_nil_iff] at h1
      simp [h1.1] at this
    · cases hm

/-- The scan against what the rules say of it. -/
theorem Journal.scan_spec (j : Journal) (warm : Bool) (hw : Memory.wf j.array = true) :
    j.Scanned warm (j.foundU warm (j.headed warm)) (j.scan warm) := by
  generalize hf : j.foundU warm (j.headed warm) = found
  have hack : j.lastAck warm found := hf ▸ j.foundU_lastAck warm
  generalize hkept : keptSectors found (j.headed warm) = kept
  generalize hb : j.scanned warm found kept = b
  have hk : j.scan warm = b.retargetWaiting := by simp only [Journal.scan, hf, hkept, hb]
  have hlen : b.sectors.length = 128 := by rw [← hb]; simp [Journal.scanned]
  have hact : b.activeUsed := by rw [← hb, ← hkept]; exact scanned_active
  obtain ⟨r1, r2, -, r4, r5⟩ := Journal.retarget_spec 6 b [] b.waiting hlen hact
  change b.retargetWaiting = _ at r1
  change b.retargetWaiting.waiting.flatMap _ = _ at r2
  rw [← hk] at r1 r2
  change ∀ i, (b.sector i).st = .erasing → (b.retargetWaiting.sector i).st = .erasing at r5
  rw [← hk] at r5
  rw [List.nil_append] at r2
  generalize hkk : j.scan warm = k at *
  have tail_eq : k.tail = foundTail j.array kept := by rw [r1, ← hb]; rfl
  have head_eq : k.head = match kept.head? with | none => k.tail | some x => x.first := by rw [r1, ← hb]; rfl
  have u_eq : k.u = min (max (found.getD k.head) k.head) k.tail := by rw [r1, ← hb]; rfl
  have bu : b.u = k.u := by rw [r1]
  have bw : b.waiting = j.openBuffers warm k.tail := by rw [tail_eq, ← hb]; rfl
  have recs : k.waiting.flatMap (fun b => b.recs) = j.keptRecs warm k.tail := by rw [r2, bw, openBuffers_recs]
  have sec : ∀ n, n < 128 → b.sector n = scannedSector j.array (j.cut warm) kept k.u n := by
    intro n hn
    rw [← bu, ← hb, scanned_sector hn]
  have plain : k.waiting = [] → k = { b with waiting := [] } := by
    intro h
    rw [h, List.flatMap_nil] at recs
    have h0 := openBuffers_nil recs.symm
    rw [← bw] at h0
    rw [hk, Journal.retargetWaiting, h0]
    rfl
  have plainSec : k.waiting = [] → ∀ n, n < 128 → k.sector n = scannedSector j.array (j.cut warm) kept k.u n := by
    intro h n hn
    rw [← sec n hn]
    conv_lhs => rw [plain h]
    rfl
  have seed_eq : (k.seedSector, k.seedLap) = j.foundSeed warm (j.openBuffers warm k.tail) := by
    rw [tail_eq, r1, ← hb]; rfl
  have headedLast : ∀ n lap first, j.headedAt warm n lap first →
      ∃ x, kept.getLast? = some x ∧ j.newestAt warm x.number x.lap x.first := by
    intro n lap first h
    cases hl : (j.headed warm).getLast? with
    | none =>
      have := List.getLast?_eq_none_iff.mp hl
      have hm := Journal.headedOf_mem h
      rw [this] at hm; cases hm
    | some x =>
      have hx := Journal.newest_of_last hl
      refine ⟨_, hkept ▸ Journal.kept_last (found := found) hx, ?_⟩
      exact hx
  exact
    { ack := hack
      named := by
        intro n hn h
        refine r5 n ?_
        rw [sec n hn, scannedSector_cut (Journal.cut_iff.mpr h)]
      damaged := by
        intro n hn he h
        refine r5 n ?_
        rw [sec n hn, ← hkept]
        refine lost_sector ?_ ?_
        · rintro x hx rfl
          exact h _ _ (Journal.mem_headed.mp (Journal.mem_kept.mp hx).1).1
        · rw [Bool.eq_false_iff]; exact fun hb => he ((sectorBlank_iff hw n).mp hb)
      blank := by
        intro n hn he h hwt
        have hbl := (sectorBlank_iff hw n).mpr he
        rw [plainSec hwt n hn, scannedSector, if_neg (fun hc => h (Journal.cut_iff.mp hc))]
        have : kept.find? (fun x => x.number == n) = none := by
          rw [List.find?_eq_none]
          intro x hx
          rw [← hkept] at hx
          have h1 := (Journal.mem_headed.mp (Journal.mem_kept.mp hx).1).1.1
          have h2 := not_blank_of_header h1
          intro e
          rw [beq_iff_eq] at e
          rw [e, hbl] at h2
          cases h2
        rw [this]
        simp [hbl, Sector.blank]
      newest := by
        intro n lap first h
        have hl : kept.getLast? = some (headedOf j.array n lap first) := hkept ▸ Journal.kept_last h
        refine ⟨fun hwt => ?_, fun hne => ?_⟩
        · have hn : n < 128 := (headerOf_iff.mp h.1.1).1
          constructor
          · rw [plain hwt, ← hb]
            change kept.getLast?.map HeadedSector.number = some n
            rw [hl]; rfl
          · rw [plainSec hwt n hn]
            have hm : headedOf j.array n lap first ∈ keptSectors found (j.headed warm) := by
              rw [hkept]; exact List.mem_of_getLast? hl
            have := kept_sector (u := k.u) hm
            rw [hkept, hl] at this
            exact this.trans (by simp [headedOf])
        · rw [tail_eq, foundTail]
          obtain ⟨ini, hini⟩ : ∃ ini, kept = ini ++ [headedOf j.array n lap first] := by
            obtain ⟨ini, h⟩ := List.getLast?_eq_some_iff.mp hl
            exact ⟨ini, h⟩
          have hr : (headedOf j.array n lap first).records = sectorFinds j.array n := sectorRecords_eq _ _
          obtain ⟨r, hr2⟩ : ∃ r, (sectorFinds j.array n).getLast? = some r := by
            cases hg : (sectorFinds j.array n).getLast? with
            | none => exact absurd (List.getLast?_eq_none_iff.mp hg) hne
            | some r => exact ⟨r, rfl⟩
          have : (kept.flatMap HeadedSector.records).getLast? = some r := by
            rw [hini, List.flatMap_append, List.getLast?_append]
            simp [hr, hr2]
          simp only [this, stopAfter, hr2]
          rfl
      older := by
        intro n lap first h hnew hwt
        have hn : n < 128 := (headerOf_iff.mp h.1).1
        have hm := Journal.headedOf_mem h
        rw [plainSec hwt n hn]
        constructor
        · intro hc
          rw [← hkept]
          refine lost_sector ?_ (not_blank_of_header h.1)
          rintro x hx rfl
          have hx2 := Journal.mem_kept.mp hx
          have e := Journal.headed_unique hm hx2.1 rfl
          exact hx2.2 (by rw [e]; exact hc)
        · intro hc
          have hx : headedOf j.array n lap first ∈ keptSectors found (j.headed warm) := Journal.mem_kept.mpr ⟨hm, hc⟩
          have := kept_sector (u := k.u) hx
          rw [hkept] at this
          refine this.trans ?_
          have hne : ¬ kept.getLast?.map HeadedSector.number = some n := by
            intro e
            obtain ⟨x, hx1, hx2⟩ := headedLast _ _ _ h
            rw [hx1] at e
            simp only [Option.map_some, Option.some.injEq] at e
            have hx3 : x ∈ j.headed warm := by
              have := List.mem_of_getLast? hx1
              rw [← hkept] at this
              exact (Journal.mem_kept.mp this).1
            have e2 := Journal.headed_unique hm hx3 e
            rw [e2] at hx2
            exact hnew hx2
          rw [if_neg (show ¬ _ = some (headedOf j.array n lap first).number from hne)]
          rfl
      head := by
        intro n lap first h hc hold
        have hm := Journal.headedOf_mem h
        have : kept.head? = some (headedOf j.array n lap first) := by
          rw [← hkept, head_older (j.kept_older warm found)]
          refine ⟨Journal.mem_kept.mpr ⟨hm, hc⟩, fun y hy ho => ?_⟩
          have hy2 := Journal.mem_kept.mp hy
          exact hy2.2 (hold _ _ _ (Journal.mem_headed.mp hy2.1).1 ho)
        rw [head_eq, this]
        rfl
      noneKept := by
        intro h
        have hn : kept = [] := hkept ▸ Journal.kept_nil found h
        have cold : warm = false → k.nextSector = j.foundSeed warm (j.openBuffers warm k.tail) := by
          intro hwm
          have hwt : k.waiting = [] := by
            subst hwm
            cases hq : k.waiting with
            | nil => rfl
            | cons c cs =>
              rw [hk, Journal.retargetWaiting, bw] at hq
              cases hq
          have : k.active = none := by
            rw [plain hwt, ← hb]
            change kept.getLast?.map HeadedSector.number = none
            rw [hn]; rfl
          rw [← seed_eq, Journal.nextSector, this]
        refine ⟨by rw [head_eq, hn]; rfl, fun hh => ?_, fun n lap first h1 h2 => ?_⟩
        · have e := newestHeader_none hh
          refine ⟨by rw [tail_eq, foundTail, hn, e]; rfl, fun hwm => ?_⟩
          rw [cold hwm, Journal.foundSeed, hwm, e]
          rfl
        · have e := newestHeader_iff.mpr ⟨h1, h2⟩
          refine ⟨by rw [tail_eq, foundTail, hn, e]; rfl, fun hwm => ?_⟩
          rw [cold hwm, Journal.foundSeed, hwm, e]
          rfl
      again := by
        intro h hwm bf n p h1 h2 h3 h4 he
        have hs := congrArg Prod.fst seed_eq
        change k.seedSector = _ at hs
        rw [hs, Journal.foundSeed, hwm]
        have hnm : j.namedSector = some n := by
          simp [Journal.namedSector, lastSome, Journal.retained, h1, h2, h3, h4]
        have hbl : sectorBlank j.array n = false := by
          rw [Bool.eq_false_iff]; exact fun hb => he ((sectorBlank_iff hw n).mp hb)
        simp only [if_true, hnm, Option.filter_some, hbl, Bool.not_false, Bool.or_true]
        unfold seedOf
        cases newestHeader j.array <;> rfl
      u := u_eq
      next := by
        have : k.next = lastStop k.tail ((j.openBuffers warm k.tail).flatMap (fun b => b.recs)) := by
          rw [← bw]
          rw [r1, ← hb]
          rfl
        rw [this, openBuffers_recs, lastStop]
        cases (j.keptRecs warm k.tail).getLast? <;> rfl
      records := recs
      page := by
        intro n lap first p h hp hpb hq bf hbf
        have hl : kept.getLast? = some (headedOf j.array n lap first) := hkept ▸ Journal.kept_last h
        have ba : b.active = some n := by
          rw [← hb]; change kept.getLast?.map HeadedSector.number = some n; rw [hl]; rfl
        have bp : b.page = p := by
          rw [← hb]; change (kept.getLast?.map HeadedSector.blankPage).getD 0 = p
          rw [hl]
          exact blankPage_eq (x := headedOf j.array n lap first) rfl hp hpb hq
        have hsome : ∀ c ∈ b.waiting, c.target = none ∧ c.recs ≠ [] := by
          intro c hc
          rw [bw, Journal.openBuffers] at hc
          split at hc
          · obtain ⟨hc1, hc2⟩ := List.mem_filter.mp hc
            obtain ⟨d, _, rfl⟩ := List.mem_map.mp hc1
            exact ⟨rfl, by simpa using hc2⟩
          · cases hc
        rw [hk, Journal.retargetWaiting] at hbf
        cases hbw : b.waiting with
        | nil => rw [hbw] at hbf; cases hbf
        | cons c cs =>
          obtain ⟨hc1, hc2⟩ := hsome c (by rw [hbw]; exact List.mem_cons_self ..)
          obtain ⟨ct, cr⟩ := c
          simp only at hc1 hc2
          subst hc1
          cases cr with
          | nil => exact absurd rfl hc2
          | cons r rs =>
            have hg : b.givePage r.seq = .done ({ b with page := b.page + 1 }, (n, p)) := by
              rw [Journal.givePage, ba]
              simp only
              rw [if_pos (by omega), bp]
            rw [hbw] at hbf
            unfold Journal.retarget at hbf
            simp only [hg] at hbf
            have hl2 : (({ b with page := b.page + 1 } : Journal).setSector n
                { ({ b with page := b.page + 1 } : Journal).sector n with
                  stop := lastStop r.seq (splitFit (pageRoom p) (r :: rs)).1 }).sectors.length = 128 :=
              List.length_set.trans hlen
            have ha2 : (({ b with page := b.page + 1 } : Journal).setSector n
                { ({ b with page := b.page + 1 } : Journal).sector n with
                  stop := lastStop r.seq (splitFit (pageRoom p) (r :: rs)).1 }).activeUsed := by
              intro a e
              change b.active = some a at e
              rw [ba] at e
              cases e
              rw [Journal.sector_setSector _ _ _ _
                (by change n < b.sectors.length; rw [hlen]; exact (headerOf_iff.mp h.1.1).1), if_pos rfl]
              exact hact n ba
            obtain ⟨_, _, ⟨more, hm⟩, _, _⟩ := Journal.retarget_spec 5 _
              ([] ++ [{ target := some (n, p), recs := (splitFit (pageRoom p) (r :: rs)).1 }]) _ hl2 ha2
            rw [hm] at hbf
            simp only [List.nil_append, List.singleton_append, List.head?_cons, Option.some.injEq] at hbf
            rw [← hbf]
      rest := by
        rw [r1, ← hb]
        exact ⟨rfl, rfl, rfl, rfl, rfl, rfl, rfl⟩ }

end Sys2Proof.Machine
end

