-- ==== Sys2Proof/Tests/Slice0.lean ====
section
/-! SUPPORT. The model's own tests: ill-formed commands refused, worked figures of the spec, and for every statement with
hypotheses a concrete state and operands that meet them, clause by clause. Expected figures are the spec's. -/

namespace Sys2Proof.Tests

open Machine

/-! ### Ill-formed commands -/

theorem test_wf_refuses_return_in_message : Instr.wellFormed (.wandMessage .a [.char 0x33#8, .char 0x0D#8]) = false := by
  decide

theorem test_wf_refuses_no_printer_characters : Instr.wellFormed (.printerMessageDiscard []) = false := by decide

theorem test_wf_refuses_long_body : Instr.wellFormed (.keyIn .uplink 1#8 (List.replicate 601 0#8)) = false := by
  simp only [Instr.wellFormed, bodyFits, List.length_replicate]; decide

theorem test_wf_refuses_long_inquiry : Instr.wellFormed (.identify .uplink (.request 1#8 (List.replicate 601 0#8))) = false := by
  simp only [Instr.wellFormed, Ask.wellFormed, bodyFits, List.length_replicate]; decide

theorem test_wf_refuses_offset_past_page : Instr.wellFormed (.powerLoss [(256, 0#8)] []) = false := by decide

theorem test_wf_refuses_offset_past_sector : Instr.wellFormed (.eraseComplete [(4096, 0#8)]) = false := by decide

theorem test_wf_refuses_cells_out_of_order : Instr.wellFormed (.eraseComplete [(5, 0#8), (5, 1#8)]) = false := by decide

theorem test_wf_refuses_empty_frame_rest : Instr.wellFormed (.frameCheckError .uplink []) = false := by decide

theorem test_wf_refuses_known_code : Instr.wellFormed (.unknownRequest .uplink 1#8 27#8 []) = false := by decide

theorem test_wf_refuses_supply_above_its_range : Instr.wellFormed (.powerOn 3601 true) = false := by decide

theorem test_wf_refuses_length_that_fits : Instr.wellFormed (.strayStartByte .uplink 2#8 88#8) = false := by decide

theorem test_wf_accepts_stray_length : Instr.wellFormed (.strayStartByte .uplink 2#8 89#8) = true := by decide

/-! ### Decoding: the table gives no row any bits -/

theorem test_decode_none : decodeTableWord 0 0 = none := rfl

theorem test_fetch_changes_nothing : State.reset.withFetchWord 0 0 = State.reset := rfl

theorem test_core_step : Sys2Proof.core.step = Machine.step := rfl

/-! ### Worked figures of the spec -/

/-- The characters of a string of digits. -/
def chars (ds : List Nat) : List WandChar := ds.map (fun d => .char (BitVec.ofNat 8 (48 + d)))

/-- 30741200045217: class 07, library 412, serial 4521 (1.1). -/
def itemLabel : Label :=
  { digits := [3, 0, 7, 4, 1, 2, 0, 0, 0, 4, 5, 2, 1, 7], kind := .item, cls := 7, ident := { lib := 412, serial := 4521 } }

/-- 20341200000884: category 03, library 412, serial 88 (1.1). -/
def cardLabel : Label :=
  { digits := [2, 0, 3, 4, 1, 2, 0, 0, 0, 0, 0, 8, 8, 4], kind := .borrower, cls := 3, ident := { lib := 412, serial := 88 } }

theorem test_label_item : labelOf (chars [3, 0, 7, 4, 1, 2, 0, 0, 0, 4, 5, 2, 1, 7]) = some itemLabel := by decide

theorem test_label_borrower : labelOf (chars [2, 0, 3, 4, 1, 2, 0, 0, 0, 0, 0, 8, 8, 4]) = some cardLabel := by decide

theorem test_label_wrong_check_digit : labelOf (chars [3, 0, 7, 4, 1, 2, 0, 0, 0, 4, 5, 2, 1, 8]) = none := by decide

theorem test_label_class_16 : labelOf (chars [3, 1, 6, 4, 1, 2, 0, 0, 0, 4, 5, 2, 1, 0]) = none := by decide

theorem test_label_category_08 : labelOf (chars [2, 0, 8, 4, 1, 2, 0, 0, 0, 0, 0, 8, 8, 0]) = none := by decide

/-- The calendar of Worked case A (7.2): Mon–Fri 540–1200, Sat 600–1020, Sun closed, day 20,014 Closed; class 07 under
the rule Day, 14 days, 2 renewals, grace 1, rate 25, cap 500; home code 412; pickup days 4. -/
def settings : Settings :=
  let weekday : Option Hours := some { openMin := 540, closeMin := 1200 }
  { week := [weekday, weekday, weekday, weekday, weekday, some { openMin := 600, closeMin := 1020 }, none]
    exceptions := [(20014, none)]
    rules := [{ cls := some 7, cat := none, unit := .day, length := 14, renewals := 2, grace := 1, rate := 25, cap := 500 }]
    categories := List.replicate 8 { limit := 10, threshold := 1000, blockDays := 3, renewOverdue := false }
    config := { home := some 412, consortium := [415], policy := .returns, pickup := 4, window := 2 }
    edits := [] }

theorem test_due_day_loan :
    dueFor settings (settings.rule 7 0) { day := 20000, minute := 600 } none = { day := 20015, minute := 1200 } := by decide

theorem test_due_clamped_by_expiry :
    dueFor settings (settings.rule 7 0) { day := 20000, minute := 600 } (some 20005) = { day := 20004, minute := 1020 } := by
  decide

theorem test_due_expired_card :
    dueFor settings (settings.rule 7 0) { day := 20000, minute := 600 } (some 19990) = { day := 20000, minute := 1200 } := by
  decide

/-- The rule of Worked case B (7.3). -/
def minuteRule : Rule :=
  { cls := none, cat := none, unit := .minute, length := 120, renewals := 1, grace := 0, rate := 50, cap := 400 }

theorem test_due_minute_loan_clamped :
    dueFor settings minuteRule { day := 20000, minute := 1110 } none = { day := 20000, minute := 1200 } := by decide

theorem test_due_minute_loan_after_close :
    dueFor settings minuteRule { day := 20004, minute := 1030 } none = { day := 20006, minute := 660 } := by decide

theorem test_due_minute_loan_expiry :
    dueFor settings minuteRule { day := 20004, minute := 1030 } (some 20004) = { day := 20004, minute := 1439 } := by decide

/-- Six open days after 20,015 up to 20,022, grace 1, rate 25: 125 (3.8). -/
theorem test_fine_of_worked_case_a :
    fineFor settings (settings.rule 7 0) .day { day := 20015, minute := 1200 } { day := 20022, minute := 616 } = 125 := by
  decide

theorem test_pickup_deadline_past_sunday : pickupDeadline settings 20022 = 20027 := by decide

/-- 999,950 owed and a fine of 125 (4.6): 1,000,000, clamped. -/
theorem test_owed_amount_clamps :
    Borrower.charge { category := 0, expiry := none, owed := 999950, clamped := false, loans := 2, overdue := 1,
                      localBlock := none, central := none } 125
      = { category := 0, expiry := none, owed := 1000000, clamped := true, loans := 2, overdue := 1, localBlock := none,
          central := none } := by decide

/-! ### States the tests begin from -/

/-- An open unit: the clock at day 20,022, minute 616, the OPEN line high (3.8). -/
def openUnit : State :=
  { State.reset with
    clock := { day := 20022, minute := 616, second := 0, ms := 0, valid := true }
    openLine := true
    opState := .opened
    settings := settings }

/-- The same unit in ReturnsOnly, Closed and Unset. -/
def returnsUnit : State := { openUnit with openLine := false, opState := .returnsOnly }

def closedUnit : State := { openUnit with opState := .closed }

def unsetUnit : State := { openUnit with opState := .unset }

def borrower88 : Ident := { lib := 412, serial := 88 }

def borrower150 : Ident := { lib := 412, serial := 150 }

def borrower777 : Ident := { lib := 412, serial := 777 }

def item4521 : Ident := { lib := 412, serial := 4521 }

def foreignItem : Ident := { lib := 999, serial := 1 }

/-- A borrower's record with one loan. -/
def record88 : Borrower :=
  { category := 3, expiry := none, owed := 0, clamped := false, loans := 1, overdue := 0, localBlock := none,
    central := none }

/-- An item on loan to borrower 88, due (20,024, 1200). -/
def loan88 : Loan :=
  { item := item4521, cls := 7, borrower := borrower88, unit := .day, issued := { day := 20010, minute := 600 },
    due := { day := 20024, minute := 1200 }, renewals := 0, source := .a, gen := 0, overdue := false,
    overrideUsed := false, foreign := false }

def lent : Circ := { loans := [(0, loan88)], borrowers := [(borrower88.key, record88)], holds := [] }

def hold777 : Hold := { item := item4521, holder := borrower777, state := .waiting, deadline := none, stale := false }

def itemScan : Scan := { label := itemLabel, arrival := { day := 20022, minute := 616 } }

def cardScan : Scan := { label := cardLabel, arrival := { day := 20022, minute := 616 } }

/-- The session of borrower 150, nothing issued yet. -/
def session150 : Session :=
  { borrower := borrower150, label := cardLabel.digits, category := 3, issued := [], mark := false }

/-- The same session with one item issued. -/
def session150One : Session :=
  { session150 with issued := [{ item := item4521, due := { day := 20036, minute := 1200 } }] }

/-- A unit whose Desk A engine is this one. -/
def withEngine (s : State) (e : Engine) : State := { s with engA := e }

/-- Desk A idle with these entries queued, in this mode. -/
def queued (m : Mode) (es : List Entry) : Engine := { Engine.initial with mode := m, queue := es }

def inSession (m : Mode) (ss : Session) (es : List Entry) : Engine := { queued m es with ctx := .session ss }

/-- Desk A waiting behind a slip. -/
def slipWaiting (f : FollowOn) : Engine := { Engine.initial with ctx := .slipWait (.receipt .a 1 0) f }

/-- Desk A awaiting an override of this stop. -/
def awaiting (st : Stop) (ss : Option Session) : Engine :=
  { Engine.initial with ctx := .awaitOverride { scan := itemScan, stop := st, session := ss }, overrideMs := some 60000 }

def aResult : ResultRec := { label := itemLabel.digits, fields := { verdict := .returned } }

/-- Sixteen scans, and eight slips: a full scan queue and a full slip queue. -/
def sixteen : List Entry := List.replicate 16 (.scan itemScan)

def eightSlips : Printer := { Printer.initial with queue := List.replicate 8 (.receipt .a 1 0) }

/-- A journal whose every sector is Full and unacknowledged, its last page given: the space test fails. -/
def fullJournal : Journal :=
  { State.reset.journal with
    sectors := List.replicate 128 { st := .sealed, lap := 0, first := 0, stop := 1 }
    page := 16
    filling := none }

/-- A journal with both page buffers in use: an acceptance waits. -/
def busyJournal : Journal :=
  { State.reset.journal with
    filling := none
    waiting := [{ target := some (0, 1), recs := [Rec.coldRestart] }]
    programming := some { target := some (0, 0), recs := [Rec.coldRestart] } }

/-- Desk A with the item's scan in service, its transaction at the store. -/
def serving (s : State) (ctx : Ctx) (sc : Scan) (t : Txn) : State :=
  { s with
    engA := { Engine.initial with ctx := ctx, service := some (.entry sc) }
    store := { Store.initial with engA := some t } }

/-- Desk A overriding, its transaction at the store and the Override in progress. -/
def overriding (s : State) (st : Stop) (ss : Option Session) (t : Txn) : State :=
  { s with
    engA := { awaiting st ss with service := some .overriding, overrideMs := none }
    store := { Store.initial with engA := some t }
    portA := { PortState.initial with inProgress := some { kind := some .override, tag := 9#8 } } }

/-- A request in progress at a port. -/
def asked (k : ReqKind) : PortState := { PortState.initial with inProgress := some { kind := some k, tag := 9#8 } }

theorem each_none {α : Type} {P : α → Prop} {o : Option α} (h : o = none) : ∀ x, o = some x → P x := by
  intro x hx; rw [h] at hx; cases hx

theorem each_some {α : Type} {P : α → Prop} {o : Option α} {y : α} (h : o = some y) (hy : P y) : ∀ x, o = some x → P x := by
  intro x hx; rw [h] at hx; cases hx; exact hy

theorem each_pair_none {α β : Type} {P : α → β → Prop} {o : Option (α × β)} (h : o = none) :
    ∀ a b, o = some (a, b) → P a b := by
  intro a b hx; rw [h] at hx; cases hx

theorem each_pair_some {α β : Type} {P : α → β → Prop} {o : Option (α × β)} {a : α} {b : β} (h : o = some (a, b))
    (hy : P a b) : ∀ a b, o = some (a, b) → P a b := by
  intro a b hx; rw [h] at hx; cases hx; exact hy

/-! ### One step each -/

/-- A valid read is queued and sounds the good tone (R5, R10, R4). -/
theorem test_wand_queues :
    (exec (.wandMessage .a (chars itemLabel.digits)) openUnit)
      = .next { openUnit with
          wandA := { Wand.initial with
            memory := some { digits := itemLabel.digits, reading := 0 }
            tone := some { pulses := 1, inPulse := true, ms := 0 } }
          engA := { Engine.initial with queue := [.scan itemScan] } } := rfl

/-- The same unit closed: the refuse tone, nothing queued (R6). -/
theorem test_wand_closed :
    exec (.wandMessage .a (chars itemLabel.digits)) closedUnit
      = .next { closedUnit with
          wandA := { Wand.initial with tone := some { pulses := 3, inPulse := true, ms := 0 } } } := rfl

/-- Midnight: the day goes on and the rollover begins (R124, R131). -/
theorem test_day_change :
    exec .clockTick { openUnit with clock := { openUnit.clock with minute := 1439, second := 59 } }
      = .next { (openUnit.elapse 1000) with
          clock := { openUnit.clock with day := 20023, minute := 0, second := 0 }
          roll := { Rollover.cold with phase := .applying, day := 20023 } } := rfl

/-- The unknown code 28 is BAD_REQUEST (R188). -/
theorem test_unknown_code :
    exec (.unknownRequest .uplink 7#8 28#8 []) openUnit
      = .next { openUnit with portU := { PortState.initial with
          inProgress := some { kind := none, tag := 7#8 }
          tx := [{ tag := 7#8, code := .badRequest, answer := .empty, own := true, startsGap := false, restarts := false }] } } :=
  rfl

/-- A port whose response to the request in progress has joined its responses, or not yet, and the tags that met it. -/
def meeting (tx : List TxFrame) (busy : List Byte) : State :=
  { openUnit with portU := { asked .identify with tx := tx, busy := busy } }

/-- A frame that meets a request waiting for its answer is answered BUSY behind that answer, which is composed after it
(R189). -/
theorem test_busy_follows_the_answer :
    exec (.status .uplink 7#8 []) (meeting [] []) = .next (meeting [] [7#8])
      ∧ exec (.responseSent .uplink) (meeting [] [7#8]) = .next (meeting [] [7#8])
      ∧ exec (.responseSent .uplink) ((meeting [] [7#8]).respond .uplink .ok .empty)
          = .next { openUnit with portU := { PortState.initial with
              tx := [{ tag := 7#8, code := .busy, answer := .empty, own := false, startsGap := false, restarts := false }] } } :=
  ⟨rfl, rfl, rfl⟩

/-- An item in Return mode that is not on loan at a store that holds nothing: NOT_ON_LOAN (R51). -/
theorem test_discharge_not_on_loan :
    exec (.discharge .a) (serving openUnit .idle itemScan (.discharge item4521 itemScan.arrival none))
      = .next { openUnit with
          engA := { Engine.initial with results := [{ label := itemLabel.digits, fields := { verdict := .notOnLoan } }] }
          store := { Store.initial with last := .engine .a } } := rfl

/-- A warm start-up with no sector Erased: a retained buffer and the RESTART record behind it wait for sector 0's erase. -/
def awaitingSector : State :=
  { openUnit with
    power := .starting .warm
    journal := { fullJournal with
      sectors := { st := .erasing, lap := 0, first := 0, stop := 1 } :: fullJournal.sectors.tail
      active := some 127
      waiting := [{ target := none, recs := [Rec.coldRestart] }]
      erase := some { sector := 0, suspended := false, count := 0 }
      queue := [.restart .warm] } }

/-- The low condition calls the uplink while the buffer waits, and from the end of start-up; a start-up that waits for no
sector has the line low, whatever its conditions (R160, R176, R192, R193; log entry 31). -/
theorem test_low_journal_calls_while_a_buffer_waits :
    awaitingSector.uplinkAttention = true
      ∧ State.uplinkAttention { State.reset with power := .starting .warm } = false
      ∧ ∃ t, exec (.eraseComplete []) awaitingSector = .next t ∧ t.power = .running ∧ t.uplinkAttention = true :=
  ⟨by decide +kernel, by decide +kernel, _, rfl, by decide +kernel, by decide +kernel⟩

/-- An ERASE_COMPLETE that names a byte past the sector is no event of the part. -/
theorem test_fault_outside_sector :
    exec (.eraseComplete [(4096, 0#8)]) openUnit = .fault .noSuchAddress := rfl

/-! ### Witnesses: the hypotheses of every statement are met -/

theorem witness_time :
    (State.reset.pending = [] ∧ State.reset.clock.ms < 999)
      ∧ (∃ s : State, s.pending = [] ∧ s.clock.ms = 998) ∧ (∃ s : State, s.pending = [] ∧ s.clock.ms = 999) ∧ (∃ s : State, s.clock.second = 58)
      ∧ (∃ s : State, s.clock.second = 59 ∧ s.clock.minute = 1438)
      ∧ (∃ s : State, s.clock.second = 59 ∧ s.clock.minute = 1439 ∧ s.clock.day = 65534 ∧ s.power ≠ .off)
      ∧ (∃ s : State, s.clock.second = 59 ∧ s.clock.minute = 1439 ∧ s.clock.day = 65534 ∧ s.power = .off)
      ∧ (∃ s : State, s.clock.second = 59 ∧ s.clock.minute = 1439 ∧ s.clock.day = 65535)
      ∧ (∃ s : State, s.power = .off) ∧ ∃ s : State, s.power ≠ .off ∧ s.journal.filling.isSome = true :=
  ⟨⟨rfl, by decide⟩, ⟨{ openUnit with clock := { openUnit.clock with ms := 998 } }, rfl, rfl⟩,
    ⟨{ openUnit with clock := { openUnit.clock with ms := 999 } }, rfl, rfl⟩,
    ⟨{ openUnit with clock := { openUnit.clock with second := 58 } }, rfl⟩,
    ⟨{ openUnit with clock := { openUnit.clock with second := 59, minute := 1438 } }, rfl, rfl⟩,
    ⟨{ openUnit with clock := { openUnit.clock with second := 59, minute := 1439, day := 65534 } }, rfl, rfl, rfl,
      by decide⟩,
    ⟨{ openUnit with clock := { openUnit.clock with second := 59, minute := 1439, day := 65534 }, power := .off }, rfl, rfl,
      rfl, rfl⟩,
    ⟨{ openUnit with clock := { openUnit.clock with second := 59, minute := 1439, day := 65535 } }, rfl, rfl, rfl⟩,
    ⟨{ openUnit with power := .off }, rfl⟩, ⟨openUnit, by decide, rfl⟩⟩

theorem witness_state_follows : openUnit.stateFollows ∧ ∃ t, exec (.openLine false) openUnit = .next t :=
  ⟨by unfold State.stateFollows; decide, _, rfl⟩

theorem reset_state_follows : State.reset.stateFollows := by unfold State.stateFollows; decide

theorem witness_within_sizes : State.reset.WithinSizes ∧ ∃ t, exec (.wandMessage .a (chars itemLabel.digits)) State.reset = .next t :=
  ⟨by constructor <;> decide, _, rfl⟩

theorem reset_held : State.reset.journal.Held :=
  { array := by decide
    sectors := by simp [State.reset]
    active := each_some rfl (by decide)
    page := by decide
    seed := by decide
    filling := by
      intro b hb n p ht
      cases hb; cases ht; decide
    waiting := by intro b hb; cases hb
    programming := by intro b hb; cases hb
    erase := by intro r hr; cases hr }

theorem witness_held : State.reset.journal.Held ∧ ∃ t, exec .bufferTimer State.reset = .next t := ⟨reset_held, _, rfl⟩

theorem initial_keeps_places : Engine.initial.KeepsPlaces :=
  { results := by decide
    room := fun _ => by decide
    entry := by intro sc h; cases h
    overriding := by intro h; cases h
    idleTimer := by intro h; cases h
    overrideTimer := by intro h; cases h }

theorem witness_keeps_places :
    (queued .inquiry [.scan itemScan]).KeepsPlaces ∧ Engine.initial.KeepsPlaces
      ∧ ∃ t, exec (.takeEntry .a) (withEngine openUnit (queued .inquiry [.scan itemScan])) = .next t :=
  ⟨{ results := by decide
     room := fun _ => by decide
     entry := by intro sc h; cases h
     overriding := by intro h; cases h
     idleTimer := by intro h; cases h
     overrideTimer := by intro h; cases h }, initial_keeps_places, _, rfl⟩

/-- The unset clauses of the power-on statement: a valid clock lost at 2199 mV, a home code lost at 1999 mV, and both at
2200 mV in a part whose retained memory has never been written. -/
theorem witness_edits_valid :
    openUnit.editsValid
      ∧ (∃ t, exec (.powerOn 2199 true) { openUnit with power := .off } = .next t ∧ t.clock.valid = false
          ∧ t.settings.config.home = some 412)
      ∧ (∃ t, exec (.powerOn 1999 true) { openUnit with power := .off } = .next t ∧ t.settings.config.home = none)
      ∧ ∃ t, exec (.powerOn 2200 true) { openUnit with power := .off, written := false } = .next t
          ∧ t.clock.valid = false ∧ t.settings.config.home = none ∧ t.written = true :=
  ⟨(by intro e he; cases he), ⟨_, rfl, rfl, rfl⟩, ⟨_, rfl, rfl⟩, _, rfl, rfl, rfl, rfl⟩

theorem witness_without_power :
    ∃ (c : Instr) (s : State), s.power = .off ∧ c ≠ .clockTick ∧ ∀ v high, c ≠ .powerOn v high :=
  ⟨.messageSent, { openUnit with power := .off }, rfl, by decide, by intro v high h; cases h⟩

/-- The four checks of a wand message, each failing, and all four passed; the window ends at exactly 2000 ms. -/
theorem witness_wand :
    noReturn (chars itemLabel.digits) = true ∧ openUnit.power = .running
      ∧ Wand.initial.message [.char 0x0A#8] = []
      ∧ (Wand.initial.message (chars itemLabel.digits) ≠ [] ∧ closedUnit.opState = .closed ∧ unsetUnit.opState = .unset)
      ∧ labelOf (Wand.initial.message (chars [3])) = none
      ∧ (labelOf (Wand.initial.message (chars itemLabel.digits)) = some itemLabel ∧ Wand.initial.overLong = false)
      ∧ (Wand.reads { Wand.initial with memory := some { digits := itemLabel.digits, reading := 1 }, elapsedMs := 2000 } 2
          itemLabel.digits)
      ∧ (¬ Wand.reads { Wand.initial with memory := some { digits := itemLabel.digits, reading := 0 }, elapsedMs := 2000 } 2
          itemLabel.digits)
      ∧ 16 ≤ sixteen.length ∧ sixteen.tail.length < 16 := by
  refine ⟨by decide, rfl, by decide, ⟨by decide, rfl, rfl⟩, by decide, ⟨by decide, rfl⟩, ⟨_, rfl, rfl, by decide⟩, ?_,
    by decide, by decide⟩
  rintro ⟨m, hm, _, h⟩
  cases hm
  exact absurd h (by decide)

theorem witness_wand_characters :
    openUnit.power = .running ∧ Wand.initial.buffer = []
      ∧ (WandChar.char 0x33#8 ≠ .char 0x0D#8 ∧ WandChar.char 0x33#8 ≠ .char 0x0A#8)
      ∧ (List.replicate 31 (WandChar.char 0x33#8)).length < 32 ∧ 32 ≤ (List.replicate 32 (WandChar.char 0x33#8)).length
      ∧ (∃ w : Wand, w.buffer ≠ [] ∧ w.silentMs = 500) ∧ (∃ w : Wand, w.buffer ≠ [] ∧ w.silentMs = 499)
      ∧ (∃ w : Wand, w.tone = some { pulses := 1, inPulse := true, ms := 100 })
      ∧ (∃ w : Wand, w.tone = some { pulses := 2, inPulse := false, ms := 100 })
      ∧ ∃ w : Wand, ∀ t, w.tone = some t → t.ms < 100 :=
  ⟨rfl, rfl, by decide, by decide, by decide,
    ⟨{ Wand.initial with buffer := [.lineError], silentMs := 500 }, by decide, rfl⟩,
    ⟨{ Wand.initial with buffer := [.lineError], silentMs := 499 }, by decide, rfl⟩,
    ⟨{ Wand.initial with tone := some { pulses := 1, inPulse := true, ms := 100 } }, rfl⟩,
    ⟨{ Wand.initial with tone := some { pulses := 2, inPulse := false, ms := 100 } }, rfl⟩,
    ⟨{ Wand.initial with tone := some { pulses := 2, inPulse := false, ms := 99 } }, each_some rfl (by decide)⟩⟩

theorem witness_request_tests :
    requestOf (.status .uplink 1#8 []) = some (.status, .uplink, 1#8, [])
      ∧ State.accepts { openUnit with power := .off } .uplink = false
      ∧ (State.accepts { openUnit with portU := asked .identify } .uplink = true
          ∧ (State.port { openUnit with portU := asked .identify } .uplink).inProgress ≠ none)
      ∧ (openUnit.free .uplink ∧ ReqKind.permitted .status .uplink = false)
      ∧ (openUnit.free (.desk .a) ∧ ReqKind.permitted .status (.desk .a) = true ∧ ReqKind.allows .status 1 = false) :=
  ⟨rfl, by decide, ⟨by decide, by decide⟩, ⟨⟨by decide, rfl⟩, by decide⟩, ⟨by decide, rfl⟩, by decide, by decide⟩

theorem open_free : openUnit.free (.desk .a) ∧ openUnit.free .uplink := ⟨⟨by decide, rfl⟩, by decide, rfl⟩

/-- KeyIn and SetMode: bodies of 0, 1, 32 and 33 characters, a label, the four operating states, a scan queue of 15 and
of 16, and the modes' bodies. -/
theorem witness_key_in_and_set_mode :
    openUnit.free (.desk .a) ∧ openUnit.free .uplink ∧ 32 < (List.replicate 33 0x33#8).length
      ∧ (1 ≤ (List.replicate 1 0x33#8).length ∧ (List.replicate 32 0x33#8).length ≤ 32
          ∧ labelOf ([0x33#8].map .char) = none)
      ∧ labelOf ((digitBytes itemLabel.digits).map .char) = some itemLabel
      ∧ (unsetUnit.opState = .unset ∧ unsetUnit.free (.desk .a)) ∧ (closedUnit.opState = .closed ∧ closedUnit.free (.desk .a))
      ∧ (returnsUnit.opState = .returnsOnly ∧ (returnsUnit.eng .a).queue.length < 16)
      ∧ (((withEngine openUnit (queued .returns sixteen)).free (.desk .a))
          ∧ 16 ≤ ((withEngine openUnit (queued .returns sixteen)).eng .a).queue.length)
      ∧ ((withEngine openUnit (queued .returns sixteen.tail)).eng .a).queue.length < 16
      ∧ ([4#8, 0#8] : List Byte) = [BitVec.ofNat 8 Mode.inquiry.number, 0#8]
      ∧ ((65535 : Nat) ≤ 65535 ∧ ([2#8, 1#8, 255#8, 255#8] : List Byte)
          = [2#8, 1#8, BitVec.ofNat 8 (65535 / 256), BitVec.ofNat 8 65535])
      ∧ ((∀ m : Mode, ([5#8, 0#8] : List Byte) ≠ [BitVec.ofNat 8 m.number, 0#8])
          ∧ ∀ hi lo : Byte, ([5#8, 0#8] : List Byte) ≠ [2#8, 1#8, hi, lo]) := by
  refine ⟨open_free.1, open_free.2, by decide, by decide, by decide, ⟨rfl, by decide, rfl⟩, ⟨rfl, by decide, rfl⟩,
    ⟨rfl, by decide⟩, ⟨⟨by decide, rfl⟩, by decide⟩, by decide, by decide, ⟨le_refl _, by decide⟩, ?_, by simp⟩
  intro m
  cases m <;> decide

theorem witness_status_and_results :
    openUnit.free (.desk .a) ∧ (openUnit.eng .a).results = [] ∧ (openUnit.eng .a).ctx = .idle
      ∧ ((withEngine openUnit { Engine.initial with results := [aResult] }).free (.desk .a)
          ∧ ((withEngine openUnit { Engine.initial with results := [aResult] }).eng .a).results = [aResult])
      ∧ ((withEngine openUnit (inSession .checkout session150 [])).eng .a).ctx = .session session150
      ∧ (∃ h, ((withEngine openUnit (awaiting (.onLoan borrower88) none)).eng .a).ctx = .awaitOverride h)
      ∧ (∃ x f, ((withEngine openUnit (slipWaiting .idle)).eng .a).ctx = .slipWait x f)
      ∧ closedUnit.free (.desk .a) ∧ unsetUnit.free (.desk .a) :=
  ⟨open_free.1, rfl, rfl, ⟨⟨by decide, rfl⟩, rfl⟩, rfl, ⟨_, rfl⟩, ⟨_, _, rfl⟩, ⟨by decide, rfl⟩, by decide, rfl⟩

/-- Override: an entry in service; the late mark; the operating states; a context that holds nothing; each stop. -/
theorem witness_override :
    ((serving openUnit .idle itemScan (.itemInquiry item4521)).free (.desk .a)
        ∧ ((serving openUnit .idle itemScan (.itemInquiry item4521)).eng .a).service ≠ none)
      ∧ (∀ o : OpState, ∀ late : Bool,
          ({ withEngine openUnit { Engine.initial with late := late } with opState := o }).free (.desk .a)
            ∧ (∀ h, (Engine.initial).ctx ≠ .awaitOverride h) ∧ Engine.initial.service = none ∧ Engine.initial.deferred = [])
      ∧ ∀ st : Stop, ∀ ss : Session,
          (withEngine openUnit (awaiting st (some ss))).free (.desk .a)
            ∧ (awaiting st (some ss)).service = none ∧ (awaiting st (some ss)).deferred = []
            ∧ (awaiting st (some ss)).late = false ∧ openUnit.opState = .opened
            ∧ ∃ h, (awaiting st (some ss)).ctx = .awaitOverride h ∧ h.stop = st ∧ h.session = some ss :=
  ⟨⟨⟨by decide, rfl⟩, by decide⟩,
    fun _ _ => ⟨⟨rfl, rfl⟩, fun h => (by intro e; cases e), rfl, rfl⟩,
    fun _ _ => ⟨⟨rfl, rfl⟩, rfl, rfl, rfl, rfl, _, rfl, rfl, rfl⟩⟩

/-- Decline and the override timer, which expires at exactly 60 s, with a session behind and without. -/
theorem witness_decline :
    (∀ ss : Option Session,
        (withEngine openUnit (awaiting (.onLoan borrower88) ss)).free (.desk .a)
          ∧ (withEngine openUnit (awaiting (.onLoan borrower88) ss)).engineFree .a
          ∧ (awaiting (.onLoan borrower88) ss).late = false
          ∧ (∃ h, (awaiting (.onLoan borrower88) ss).ctx = .awaitOverride h ∧ h.session = ss)
          ∧ (awaiting (.onLoan borrower88) ss).overrideMs = some 60000
          ∧ (withEngine openUnit { awaiting (.onLoan borrower88) ss with overrideMs := some 59999 }).engineFree .a
          ∧ ∀ ms, ({ awaiting (.onLoan borrower88) ss with overrideMs := some 59999 } : Engine).overrideMs = some ms →
              ms < 60000)
      ∧ (openUnit.engineFree .a ∧ ∀ h, (openUnit.eng .a).ctx ≠ .awaitOverride h)
      ∧ ((withEngine openUnit { Engine.initial with late := true }).free (.desk .a)
          ∧ ((withEngine openUnit { Engine.initial with late := true }).eng .a).late = true)
      ∧ (closedUnit.opState = .closed ∧ unsetUnit.opState = .unset) :=
  ⟨fun _ => ⟨⟨rfl, rfl⟩, ⟨rfl, rfl, rfl⟩, rfl, ⟨_, rfl, rfl⟩, rfl, ⟨rfl, rfl, rfl⟩,
      each_some rfl (by decide)⟩,
    ⟨⟨rfl, rfl, rfl⟩, fun h => (by intro e; cases e)⟩, ⟨⟨rfl, rfl⟩, rfl⟩, rfl, rfl⟩

/-- DropSlip: every follow-on, in Open and in ReturnsOnly. -/
theorem witness_drop_slip :
    (∀ f : FollowOn,
        (withEngine openUnit (slipWaiting f)).free (.desk .a) ∧ (slipWaiting f).service = none
          ∧ (slipWaiting f).deferred = [] ∧ (∃ x, (slipWaiting f).ctx = .slipWait x f)
          ∧ (withEngine openUnit (slipWaiting f)).opState = .opened
          ∧ (withEngine returnsUnit (slipWaiting f)).free (.desk .a)
          ∧ (withEngine returnsUnit (slipWaiting f)).opState = .returnsOnly)
      ∧ (∀ x f, (openUnit.eng .a).ctx ≠ .slipWait x f)
      ∧ (serving openUnit .idle itemScan (.itemInquiry item4521)).free (.desk .a) :=
  ⟨fun _ => ⟨⟨rfl, rfl⟩, rfl, rfl, ⟨_, rfl⟩, rfl, ⟨rfl, rfl⟩, rfl⟩, fun _ _ => (by intro e; cases e), rfl, rfl⟩

/-- A marker at the front, outside a session and in one, with 15 results; the contexts that take nothing. -/
theorem witness_markers :
    (∀ m b ss,
        let e := { queued .checkout [.modeMarker m b] with results := List.replicate 15 aResult }
        (withEngine openUnit e).engineFree .a ∧ e.results.length < 16 ∧ e.queue = [.modeMarker m b] ∧ e.ctx = .idle
          ∧ (withEngine openUnit (inSession .checkout ss [.modeMarker m b])).engineFree .a
          ∧ (inSession .checkout ss [.modeMarker m b]).ctx = .session ss)
      ∧ (∀ ss, (withEngine openUnit (inSession .checkout ss [.closeMarker])).engineFree .a
          ∧ (inSession .checkout ss [.closeMarker]).queue = [.closeMarker])
      ∧ (withEngine openUnit { Engine.initial with results := List.replicate 16 aResult }).power = .running
      ∧ 16 ≤ (List.replicate 16 aResult).length :=
  ⟨fun _ _ _ => ⟨⟨rfl, rfl, rfl⟩, (by show (15 : Nat) < 16; decide), rfl, rfl, ⟨rfl, rfl, rfl⟩, rfl⟩, fun _ => ⟨⟨rfl, rfl, rfl⟩, rfl⟩, rfl,
    by decide⟩

/-- Scans taken in each mode, of each kind of label, in each operating state, outside a session and in one. -/
theorem witness_scans :
    ∀ (m : Mode) (sc : Scan) (o : OpState) (ss : Session),
      let idle := { withEngine openUnit (queued m [.scan sc]) with opState := o }
      let inside := { withEngine openUnit (inSession m ss [.scan sc]) with opState := o }
      idle.engineFree .a ∧ (idle.eng .a).results.length < 16 ∧ (idle.eng .a).queue = [.scan sc]
        ∧ (idle.eng .a).ctx = .idle ∧ (idle.eng .a).mode = m ∧ idle.opState = o
        ∧ inside.engineFree .a ∧ (inside.eng .a).results.length < 16 ∧ (inside.eng .a).queue = [.scan sc]
        ∧ (inside.eng .a).ctx = .session ss ∧ (inside.eng .a).mode = m ∧ inside.opState = o :=
  fun _ _ _ _ => ⟨⟨rfl, rfl, rfl⟩, Nat.succ_pos 15, rfl, rfl, rfl, rfl, ⟨rfl, rfl, rfl⟩, Nat.succ_pos 15, rfl, rfl, rfl, rfl⟩

/-- The clauses of a borrower's scan in a session: the session's own borrower and another, an issued list empty and
not, a slip queue of seven and of eight. -/
theorem witness_borrower_scan :
    itemScan.label.kind = .item ∧ cardScan.label.kind = .borrower
      ∧ cardScan.label.ident = ({ session150 with borrower := borrower88 } : Session).borrower
      ∧ cardScan.label.ident ≠ session150.borrower ∧ session150.issued = [] ∧ session150One.issued ≠ []
      ∧ eightSlips.queue.tail.length < 8 ∧ 8 ≤ eightSlips.queue.length := by decide

/-- The idle timer at exactly 180 s, and 1 ms before. -/
theorem witness_idle_timer :
    (∀ ss, (withEngine openUnit { inSession .checkout ss [] with idleMs := some 180000 }).engineFree .a
        ∧ ({ inSession .checkout ss [] with idleMs := some 180000 } : Engine).ctx = .session ss)
      ∧ session150.issued = [] ∧ session150One.issued ≠ [] ∧ eightSlips.queue.tail.length < 8 ∧ 8 ≤ eightSlips.queue.length
      ∧ ∃ e : Engine, (withEngine openUnit e).engineFree .a ∧ ∀ ms, e.idleMs = some ms → ms < 180000 :=
  ⟨fun _ => ⟨⟨rfl, rfl, rfl⟩, rfl⟩, rfl, by decide, by decide, by decide,
    { inSession .checkout session150 [] with idleMs := some 179999 }, ⟨rfl, rfl, rfl⟩, each_some rfl (by decide)⟩

theorem witness_open_line :
    (openUnit.power ≠ .off ∧ openUnit.clock.valid = true ∧ openUnit.settings.config.home ≠ none ∧ openUnit.opState = .opened
        ∧ .leaveOpen ∉ openUnit.engA.deferred ∧ .leaveOpen ∉ openUnit.engB.deferred)
      ∧ (State.reset.clock.valid = false ∧ State.reset.settings.config.home = none) ∧ closedUnit.opState ≠ .opened
      ∧ ∀ ctx : Ctx,
          let s := withEngine returnsUnit { Engine.initial with ctx := ctx, deferred := [.leaveOpen] }
          s.power = .running ∧ (s.eng .a).service = none ∧ (s.eng .a).deferred = [.leaveOpen] ∧ (s.eng .a).ctx = ctx :=
  ⟨⟨by decide, rfl, by decide, rfl, by decide, by decide⟩, ⟨rfl, rfl⟩, by decide, fun _ => ⟨rfl, rfl, rfl, rfl⟩⟩

/-- Desk A's item inquiry at the store while these events wait for its context, a request of the terminal in progress. -/
def waitingFor (q : List CtxEvent) : State :=
  { serving openUnit .idle itemScan (.itemInquiry item4521) with
    engA := { Engine.initial with service := some (.entry itemScan), deferred := q }
    portA := asked .override }

/-- The service ends with each event waiting, alone and before or behind the leaving of Open; the contexts a request can
meet are those of the witnesses of the three requests. -/
theorem witness_waiting_events :
    (∀ q : List CtxEvent,
        ((waitingFor q).eng .a).service ≠ none ∧ ((waitingFor q).eng .a).deferred = q ∧ (waitingFor q).journal.idle
          ∧ ∃ t, exec (.itemInquiry .a)
                ((waitingFor q).setEng .a { (waitingFor q).eng .a with deferred := [] }) = .next t
              ∧ (t.eng .a).service = none ∧ (t.port (.desk .a)).inProgress = some { kind := some .override, tag := 9#8 })
      ∧ ∀ (ctx : Ctx) (ev : CtxEvent),
          let s := { withEngine returnsUnit { Engine.initial with ctx := ctx, deferred := [.leaveOpen, ev] } with
            portA := asked .override }
          s.power = .running ∧ (s.eng .a).service = none ∧ (s.eng .a).deferred = [.leaveOpen, ev]
            ∧ ∃ t, exec (.leaveOpen .a) (s.setEng .a { s.eng .a with deferred := [.leaveOpen] }) = .next t :=
  ⟨fun _ => ⟨(by intro h; cases h), rfl, ⟨rfl, rfl⟩, _, rfl, rfl, rfl⟩, fun _ _ => ⟨rfl, rfl, rfl, _, rfl⟩⟩

/-- An Override that waited meets a context that has become Idle: WRONG_STATE (R16, R36). -/
theorem test_override_waits_for_the_service :
    ∃ u, exec (.itemInquiry .a) (waitingFor [.override]) = .next u ∧ (u.eng .a).deferred = []
      ∧ u.portA.tx = [ownFrame 9#8 .wrongState .empty] := ⟨_, rfl, rfl, rfl⟩

/-- The borrower requests at the ends of their ranges, and one past each. -/
theorem witness_borrower_requests :
    openUnit.free (.desk .a)
      ∧ ((999 : Nat) ≤ 999 ∧ (9999999 : Nat) ≤ 9999999 ∧ (1 : Nat) ≤ 1000000)
      ∧ (¬ ((1000 : Nat) ≤ 999 ∧ (0 : Nat) ≤ 9999999)) ∧ ¬ ((1 : Nat) ≤ 0)
      ∧ (digitBytes cardLabel.digits).length = 14
      ∧ (labelOf ((digitBytes cardLabel.digits).map .char) = some cardLabel ∧ cardLabel.kind = .borrower)
      ∧ (labelOf ((digitBytes itemLabel.digits).map .char) = some itemLabel ∧ itemLabel.kind = .item)
      ∧ labelOf ((List.replicate 14 0x30#8).map .char) = none :=
  ⟨open_free.1, by decide, by decide, by decide, by decide, by decide, by decide, by decide⟩

/-! ### Witnesses at the store -/

/-- An Issue's request by borrower 150. -/
def request : LoanReq :=
  { item := item4521, cls := 7, borrower := borrower150, category := 3, mark := false,
    time := { day := 20022, minute := 616 } }

/-- Desk A's Issue at the store, over these tables and this journal. -/
def issuing (circ : Circ) (j : Journal) (q : LoanReq) : State :=
  { serving openUnit (.session session150) itemScan (.issue q) with circ := circ, journal := j }

theorem issuing_serves (circ : Circ) (j : Journal) (q : LoanReq) :
    (issuing circ j q).ServesInSession .a (.issue q) itemScan session150 :=
  { turn := rfl, service := rfl, ctx := rfl, deferred := rfl }

/-- Whether an acceptance is done. -/
def accepted (p : Placed Journal) : Bool :=
  match p with
  | .done _ => true
  | .wait => false
  | .full => false

theorem of_accepted {p : Placed Journal} (h : accepted p = true) : ∃ j, p = .done j := by
  cases p with
  | wait => cases h
  | full => cases h
  | done j => exact ⟨j, rfl⟩

theorem full_refuses (now : Time) (d : Draft) (ds : List Draft) : fullJournal.accept now (d :: ds) = .full := rfl

theorem busy_waits (now : Time) (d : Draft) (ds : List Draft) : busyJournal.accept now (d :: ds) = .wait := rfl

/-- An Issue that passes, with no hold and with the borrower's own hold, and one the journal refuses. -/
theorem witness_issue :
    (∀ circ, circ = Circ.cold ∨ circ = { Circ.cold with holds := [(0, { hold777 with holder := borrower150 })] } →
        circ.borrower borrower150 = none ∧ circ.loanOf item4521 = none
          ∧ (∀ p h, circ.holdOf item4521 = some (p, h) → h.holder = borrower150)
          ∧ circ.loanCount borrower150 < 10 ∧ circ.loans.length < 4096 ∧ circ.borrowers.length < 1024)
      ∧ settings.isForeign 412 = false ∧ openUnit.journal.idle ∧ fullJournal.idle
      ∧ (∃ j, openUnit.journal.accept openUnit.now
          [{ source := .desk .a, time := some request.time, flags := { },
             body := .issue item4521 borrower150 { day := 20036, minute := 1200 } }] = .done j)
      ∧ (∃ j, openUnit.journal.accept openUnit.now
          [{ source := .desk .a, time := some request.time, flags := { }, body := .holdPickup item4521 borrower150 },
           { source := .desk .a, time := some request.time, flags := { },
             body := .issue item4521 borrower150 { day := 20036, minute := 1200 } }] = .done j)
      ∧ fullJournal.accept openUnit.now
          [{ source := .desk .a, time := some request.time, flags := { },
             body := .issue item4521 borrower150 { day := 20036, minute := 1200 } }] = .full := by
  refine ⟨?_, by decide, ⟨rfl, rfl⟩, ⟨rfl, rfl⟩, of_accepted (by decide +kernel),
    of_accepted (by decide +kernel), full_refuses _ _ _⟩
  rintro circ (rfl | rfl)
  · exact ⟨by decide, by decide, each_pair_none (by decide), by decide, by decide, by decide⟩
  · exact ⟨by decide, by decide,
      each_pair_some (a := 0) (b := { hold777 with holder := borrower150 }) (by decide) rfl, by decide, by decide, by decide⟩

/-- The checks an Issue can fail, each with a state that passes those before it. -/
theorem witness_issue_fails :
    settings.isForeign foreignItem.lib = true
      ∧ (∃ b, Circ.borrower { Circ.cold with borrowers := [(borrower150.key,
            { record88 with central := some { code := 1, stale := false } })] } borrower150 = some b ∧ b.central ≠ none)
      ∧ (lent.borrower borrower150 = none ∧ lent.loanOf item4521 = some (0, loan88) ∧ loan88.borrower ≠ borrower150
          ∧ loan88.borrower = borrower88 ∧ record88.central = none ∧ lent.borrower borrower88 = some record88)
      ∧ (Circ.holdOf { Circ.cold with holds := [(0, hold777)] } item4521 = some (0, hold777) ∧ hold777.holder ≠ borrower150)
      ∧ (∃ b, Circ.borrower { Circ.cold with borrowers := [(borrower150.key, { record88 with loans := 10 })] } borrower150
            = some b ∧ (settings.category b.category).limit ≤ b.loans)
      ∧ 4096 ≤ (List.replicate 4096 (0, loan88)).length ∧ 1024 ≤ (List.replicate 1024 (0, record88)).length := by
  refine ⟨by decide, ⟨{ record88 with central := some { code := 1, stale := false } }, by decide, by decide⟩, by decide,
    by decide, ⟨{ record88 with loans := 10 }, by decide, by decide⟩, ?_, ?_⟩ <;>
    rw [List.length_replicate]

theorem overriding_overrides (s : State) (st : Stop) (t : Txn) (hp : s.power = .running) :
    (overriding s st (some session150) t).Overrides .a t { scan := itemScan, stop := st, session := some session150 }
      { kind := some .override, tag := 9#8 } := by
  refine { turn := ?_, service := rfl, ctx := rfl, deferred := rfl, port := rfl }
  simp [State.turnOf, State.turn, State.waitingTxn, overriding, Store.initial, Claimant.cycleAfter, hp]

/-- The override of a loan: the named borrower's, no one's, a third borrower's, and a hold for a third; and of a hold:
the named one, gone, and a new holder's. -/
theorem witness_overrides_at_the_store :
    openUnit.power = .running
      ∧ (lent.loanOf item4521 = some (0, loan88) ∧ loan88.borrower = borrower88 ∧ borrower88 ≠ borrower150
          ∧ lent.holdOf item4521 = none ∧ lent.borrower borrower150 = none ∧ lent.loanCount borrower150 < 10
          ∧ lent.borrowers.length < 1024 ∧ lent.loans.length ≤ 4096)
      ∧ Circ.cold.loanOf item4521 = none ∧ loan88.borrower ≠ borrower777
      ∧ (Circ.holdOf { lent with holds := [(0, hold777)] } item4521 = some (0, hold777) ∧ hold777.holder ≠ borrower150
          ∧ hold777.holder ≠ borrower88)
      ∧ (∃ j, openUnit.journal.accept openUnit.now
          [{ source := .desk .a, time := some request.time, flags := { overrideUsed := true },
             body := .discharge item4521 borrower88 0 none },
           { source := .desk .a, time := some request.time, flags := { overrideUsed := true },
             body := .issue item4521 borrower150 { day := 20036, minute := 1200 } }] = .done j)
      ∧ ∃ j, openUnit.journal.accept openUnit.now
          [{ source := .desk .a, time := some request.time, flags := { overrideUsed := true },
             body := .issue item4521 borrower150 { day := 20036, minute := 1200 } }] = .done j :=
  ⟨rfl, by decide, rfl, by decide, by decide, of_accepted (by decide +kernel),
    of_accepted (by decide +kernel)⟩

/-- The checks an override can fail, each with tables that pass those before it, and a journal that refuses the records. -/
theorem witness_override_refusals :
    settings.isForeign foreignItem.lib = true ∧ settings.isForeign item4521.lib = false
      ∧ (∃ b, Circ.borrower { lent with borrowers := [(borrower150.key,
            { record88 with central := some { code := 1, stale := false } })] } borrower150 = some b ∧ b.central ≠ none)
      ∧ (Circ.loanOf { lent with loans := [(0, { loan88 with borrower := borrower150 })] } item4521
          = some (0, { loan88 with borrower := borrower150 }))
      ∧ ((settings.category 3).limit
          ≤ Circ.loanCount { lent with borrowers := [(borrower150.key, { record88 with loans := 10 })] } borrower150)
      ∧ (lent.loanCount borrower150 < (settings.category 3).limit ∧ lent.borrower borrower150 = none
          ∧ lent.borrowers.length < 1024 ∧ lent.loans.length ≤ 4096)
      ∧ (1024 ≤ (List.replicate 1024 (0, record88)).length ∧ 4096 ≤ (List.replicate 4096 (0, loan88)).length)
      ∧ fullJournal.idle ∧ (∀ ds : List Draft, ds ≠ [] → fullJournal.accept openUnit.now ds = .full) := by
  refine ⟨by decide, by decide, ⟨{ record88 with central := some { code := 1, stale := false } }, by decide, by decide⟩,
    by decide, by decide, by decide, ⟨?_, ?_⟩, ⟨rfl, rfl⟩, ?_⟩
  · rw [List.length_replicate]
  · rw [List.length_replicate]
  · rintro (_ | ⟨d, ds⟩) h
    · exact absurd rfl h
    · exact full_refuses _ _ _

/-- Desk A's transaction at the store outside a session, over these tables. -/
def storing (circ : Circ) (sc : Scan) (t : Txn) : State := { serving openUnit .idle sc t with circ := circ }

theorem storing_serves (circ : Circ) (sc : Scan) (t : Txn) : (storing circ sc t).ServesIdle .a t sc :=
  { turn := rfl, service := rfl, ctx := rfl, deferred := rfl }

/-- A trapped hold and a waiting one; an item on loan and not; a foreign one; a journal with room and without. -/
theorem witness_discharge :
    (∀ circ, (storing circ itemScan (.discharge item4521 itemScan.arrival none)).ServesIdle .a
        (.discharge item4521 itemScan.arrival none) itemScan)
      ∧ (lent.loanOf item4521 = some (0, loan88) ∧ lent.holdOf item4521 = none)
      ∧ (Circ.holdOf { lent with holds := [(0, hold777)] } item4521 = some (0, hold777) ∧ hold777.state = .waiting)
      ∧ (Circ.holdOf { lent with holds := [(0, { hold777 with state := .trapped })] } item4521
          = some (0, { hold777 with state := .trapped }))
      ∧ Circ.loanOf { Circ.cold with holds := [(0, hold777)] } item4521 = none
      ∧ settings.isForeign item4521.lib = false ∧ settings.isForeign foreignItem.lib = true
      ∧ openUnit.journal.idle ∧ fullJournal.idle
      ∧ fullJournal.accept openUnit.now
          [{ source := .desk .a, time := some itemScan.arrival, flags := { }, body := .holdTrap item4521 borrower777 }] = .full
      ∧ (∃ j, openUnit.journal.accept openUnit.now
          [{ source := .desk .a, time := some itemScan.arrival, flags := { },
             body := .discharge item4521 borrower88 0 none }] = .done j)
      ∧ ∃ j, openUnit.journal.accept openUnit.now
          [{ source := .desk .a, time := some itemScan.arrival, flags := { },
             body := .discharge item4521 borrower88 0 none },
           { source := .desk .a, time := some itemScan.arrival, flags := { }, body := .holdTrap item4521 borrower777 }]
            = .done j :=
  ⟨fun _ => storing_serves _ _ _, by decide, by decide, by decide, by decide, by decide, by decide, ⟨rfl, rfl⟩, ⟨rfl, rfl⟩,
    full_refuses _ _ _, of_accepted (by decide +kernel), of_accepted (by decide +kernel)⟩

/-- A Renew's checks: two renewals used, a hold, a loan past its due, a new due that is not later, and a renewal. -/
theorem witness_renew :
    (∀ circ, (storing circ itemScan (.renew item4521 itemScan.arrival)).ServesIdle .a (.renew item4521 itemScan.arrival)
        itemScan)
      ∧ Circ.cold.loanOf item4521 = none
      ∧ (lent.loanOf item4521 = some (0, loan88) ∧ lent.borrower borrower88 = some record88 ∧ record88.central = none
          ∧ loan88.renewals < (settings.rule 7 3).renewals ∧ lent.holdOf loan88.item = none)
      ∧ ((settings.rule 7 3).renewals ≤ ({ loan88 with renewals := 2 } : Loan).renewals)
      ∧ Circ.holdOf { lent with holds := [(0, hold777)] } item4521 ≠ none
      ∧ (({ day := 20015, minute := 1200 } : Time).earlier itemScan.arrival = true
          ∧ (settings.category 3).renewOverdue = false)
      ∧ loan88.due.earlier itemScan.arrival = false
      ∧ loan88.due.earlier (dueFor settings (settings.rule 7 3) itemScan.arrival none) = true
      ∧ loan88.due.earlier (dueFor settings (settings.rule 7 3) itemScan.arrival (some 20024)) = false
      ∧ openUnit.journal.idle
      ∧ ∃ j, openUnit.journal.accept openUnit.now
          [{ source := .desk .a, time := some itemScan.arrival, flags := { },
             body := .renew item4521 borrower88 { day := 20036, minute := 1200 } none }] = .done j :=
  ⟨fun _ => storing_serves _ _ _, by decide, by decide, by decide, by decide, by decide, by decide, by decide, by decide,
    ⟨rfl, rfl⟩, of_accepted (by decide +kernel)⟩

/-- The borrower check from a scan and from an override; each list of reasons. -/
theorem witness_borrower_check :
    (∀ circ, (storing circ cardScan (.borrowerCheck borrower88)).ServesIdle .a (.borrowerCheck borrower88) cardScan)
      ∧ (overriding openUnit (.blocked [.overdue]) (some session150) (.borrowerCheck borrower88)).Overrides .a
          (.borrowerCheck borrower88)
          { scan := itemScan, stop := .blocked [.overdue], session := some session150 }
          { kind := some .override, tag := 9#8 }
      ∧ settings.isForeign foreignItem.lib = true ∧ settings.isForeign borrower88.lib = false
      ∧ reasonsOf settings 20022 record88 = []
      ∧ reasonsOf settings 20022 { record88 with owed := 1000 } = [.fines]
      ∧ reasonsOf settings 20022 { record88 with owed := 999 } = []
      ∧ reasonsOf settings 20022 { record88 with expiry := some 20021 } = [.expired]
      ∧ reasonsOf settings 20022 { record88 with expiry := some 20022 } = []
      ∧ reasonsOf settings 20022 { record88 with localBlock := some { code := 5, desk := .b }, overdue := 1 }
          = [.localBlock 5, .overdue]
      ∧ hasCentral (reasonsOf settings 20022 { record88 with central := some { code := 2, stale := true } }) = true :=
  ⟨fun _ => storing_serves _ _ _, overriding_overrides _ _ _ rfl, by decide, by decide, by decide, by decide, by decide,
    by decide, by decide, by decide, by decide⟩

theorem witness_engine_inquiries :
    (∀ circ, (storing circ itemScan (.itemInquiry item4521)).ServesIdle .a (.itemInquiry item4521) itemScan)
      ∧ (∀ circ, (storing circ cardScan (.borrowerInquiry borrower88)).ServesIdle .a (.borrowerInquiry borrower88) cardScan)
      ∧ (Circ.cold.loanOf foreignItem = none ∧ Circ.cold.holdOf foreignItem = none
          ∧ settings.isForeign foreignItem.lib = true)
      ∧ lent.loanOf item4521 ≠ none ∧ lent.borrower borrower88 = some record88 ∧ lent.borrower borrower150 = none
      ∧ settings.isForeign borrower150.lib = false :=
  ⟨fun _ => storing_serves _ _ _, fun _ => storing_serves _ _ _, by decide, by decide, by decide, by decide, by decide⟩

/-- Port A's transaction at the store, its request in progress. -/
def porting (circ : Circ) (k : ReqKind) (t : Txn) : State :=
  { openUnit with circ := circ, store := { Store.initial with portA := some t }, portA := asked k }

theorem witness_port_inquiries :
    openUnit.free (.desk .a) ∧ openUnit.turnOf (portClaimant (.desk .a)) = none
      ∧ ((999 : Nat) < 65536 ∧ (9999999 : Nat) < 4294967296 ∧ ¬ ((1000 : Nat) ≤ 999))
      ∧ (∀ circ id, (porting circ .inquireItem (.inquireItem id)).turnOf (portClaimant (.desk .a)) = some (.inquireItem id)
          ∧ (porting circ .inquireItem (.inquireItem id)).portA.inProgress = some { kind := some .inquireItem, tag := 9#8 })
      ∧ (∀ circ id,
          (porting circ .inquireBorrower (.inquireBorrower id)).turnOf (portClaimant (.desk .a))
            = some (.inquireBorrower id))
      ∧ (∀ circ, (porting circ .identify .identify).turnOf (portClaimant (.desk .a)) = some .identify)
      ∧ lent.loanOf item4521 ≠ none ∧ Circ.cold.loanOf item4521 = none ∧ Circ.cold.holdOf item4521 = none
      ∧ lent.borrower borrower88 = some record88 ∧ lent.borrower borrower150 = none :=
  ⟨open_free.1, rfl, by decide, fun _ _ => ⟨rfl, rfl⟩, fun _ _ => rfl, fun _ => rfl, by decide, by decide, by decide,
    by decide, by decide⟩

/-- A Payment: no record, nothing owed, a debt; a journal with room, without, and one that makes it wait. -/
theorem witness_payment :
    (∀ circ, (porting circ .payment (.payment borrower88 500)).turnOf (.port .a) = some (.payment borrower88 500)
        ∧ ((porting circ .payment (.payment borrower88 500)).port (.desk .a)).inProgress
            = some { kind := some .payment, tag := 9#8 })
      ∧ openUnit.journal.idle ∧ fullJournal.idle ∧ busyJournal.idle
      ∧ lent.borrower borrower150 = none ∧ (lent.borrower borrower88 = some record88 ∧ record88.owed = 0)
      ∧ (Circ.borrower { Circ.cold with borrowers := [(borrower88.key, { record88 with owed := 1065 })] } borrower88
          = some { record88 with owed := 1065 })
      ∧ (∃ j, openUnit.journal.accept openUnit.now
          [{ source := .desk .a, time := some openUnit.now, flags := { }, body := .payment borrower88 500 565 }] = .done j)
      ∧ (∀ b, fullJournal.accept openUnit.now [{ source := .desk .a, time := none, flags := { }, body := b }] = .full)
      ∧ (∀ b, busyJournal.accept openUnit.now [{ source := .desk .a, time := none, flags := { }, body := b }] = .wait)
      ∧ eightSlips.queue.tail.length < 8 ∧ 8 ≤ eightSlips.queue.length :=
  ⟨fun _ => ⟨rfl, rfl⟩, ⟨rfl, rfl⟩, ⟨rfl, rfl⟩, ⟨rfl, rfl⟩, by decide, by decide, by decide,
    of_accepted (by decide +kernel), fun _ => full_refuses _ _ _, fun _ => busy_waits _ _ _, by decide, by decide⟩

theorem witness_local_blocks :
    (∀ circ, (porting circ .setLocalBlock (.setLocal borrower88 3 5)).turnOf (.port .a) = some (.setLocal borrower88 3 5)
        ∧ (porting circ .setLocalBlock (.setLocal borrower88 3 5)).portA.inProgress ≠ none)
      ∧ (∀ circ, (porting circ .clearLocalBlock (.clearLocal borrower88)).turnOf (.port .a) = some (.clearLocal borrower88)
          ∧ (porting circ .clearLocalBlock (.clearLocal borrower88)).portA.inProgress ≠ none)
      ∧ (lent.borrower borrower88 = some record88 ∧ record88.localBlock = none)
      ∧ (Circ.cold.borrower borrower88 = none ∧ Circ.cold.borrowers.length < 1024
          ∧ settings.isForeign borrower88.lib = false ∧ settings.isForeign foreignItem.lib = true)
      ∧ 1024 ≤ (List.replicate 1024 (0, record88)).length
      ∧ (Circ.borrower { Circ.cold with
            borrowers := [(borrower88.key, { record88 with localBlock := some { code := 5, desk := .b } })] } borrower88
          = some { record88 with localBlock := some { code := 5, desk := .b } })
      ∧ openUnit.journal.idle
      ∧ (∃ j, openUnit.journal.accept openUnit.now
          [{ source := .desk .a, time := none, flags := { }, body := .localSet borrower88 5 }] = .done j)
      ∧ ∃ j, openUnit.journal.accept openUnit.now
          [{ source := .desk .a, time := none, flags := { }, body := .localClear borrower88 5 }] = .done j := by
  refine ⟨fun _ => ⟨rfl, by intro h; cases h⟩, fun _ => ⟨rfl, by intro h; cases h⟩, by decide, by decide, ?_, by decide,
    ⟨rfl, rfl⟩, of_accepted (by decide +kernel), of_accepted (by decide +kernel)⟩
  rw [List.length_replicate]

/-! ### Witnesses for days, edits and requests of the uplink -/

/-- Times before, at and after a due; an expiry at the candidate and one day before it. -/
theorem witness_dues :
    ((20015 : Nat) < 20016 ∧ (1200 : Nat) ≤ 1200 ∧ (1200 : Nat) < 1201)
      ∧ (settings.isOpen 20014 = false ∧ settings.openSearch 20014 = some 20015)
      ∧ (¬ (20015 : Nat) < 20015 ∧ (20014 : Nat) < 20015)
      ∧ (settings.isOpen 20013 = true ∧ ∀ k, 20013 < k → k ≤ 20014 → settings.isOpen k = false)
      ∧ ∀ k, 20019 ≤ k → k ≤ 20019 → settings.isOpen k = false := by
  refine ⟨by decide, by decide, by decide, ⟨by decide, ?_⟩, ?_⟩
  · intro k h1 h2
    rw [show k = 20014 by omega]; decide
  · intro k h1 h2
    rw [show k = 20019 by omega]; decide

/-- A minute loan that ends at the close and one minute past it, one given at the close, one on a day without hours, and one
with no open day after; an expiry on the due day and the day before; a backdate before the last week, on its first day,
today and after today; a return at minute 0; a pickup day open, closed, and closed with no open day after. -/
theorem witness_minute_dues :
    (settings.hours 20000 = some { openMin := 540, closeMin := 1200 } ∧ (1080 : Nat) < 1200
        ∧ 1080 + minuteRule.length ≤ 1200 ∧ ¬ 1081 + minuteRule.length ≤ 1200)
      ∧ (settings.hours 20004 = some { openMin := 600, closeMin := 1020 } ∧ (1020 : Nat) ≤ 1020)
      ∧ (settings.hours 20005 = none ∧ settings.openSearch 20005 = some 20006
          ∧ settings.hours 20006 = some { openMin := 540, closeMin := 1200 })
      ∧ Settings.openSearch { settings with week := [] } 20005 = none
      ∧ (20004 < (dueFor settings minuteRule { day := 20004, minute := 1030 } none).day
          ∧ 20005 < (dueFor settings minuteRule { day := 20004, minute := 1030 } none).day
          ∧ ¬ 20006 < (dueFor settings minuteRule { day := 20004, minute := 1030 } none).day)
      ∧ ((20014 : Nat) < 20022 - 7 ∧ ¬ (20015 : Nat) < 20022 - 7 ∧ ¬ (20022 : Nat) < 20022 ∧ (20022 : Nat) < 20023)
      ∧ ((0 : Nat) < 1 ∧ ¬ (0 : Nat) < 0)
      ∧ (settings.isOpen (min (20016 + settings.config.pickup) 65535) = true
          ∧ settings.isOpen (min (20022 + settings.config.pickup) 65535) = false
          ∧ settings.openSearch (min (20022 + settings.config.pickup) 65535) = some 20027)
      ∧ Settings.isOpen { settings with week := [] } 20026 = false := by
  refine ⟨by decide, by decide, by decide, by decide, by decide, by decide, by decide, by decide, by decide⟩

/-- Rule positions at 0, the last entry, one past it and 32; exceptions before today, held, new, and a full list; the last
category and the last weekday. -/
theorem witness_edits :
    (0 < settings.rules.length ∧ settings.rules.length ≤ 1 ∧ settings.rules.length < 32)
      ∧ Table.rising settings.exceptions = true ∧ (Table.get settings.exceptions 20014).isSome = true
      ∧ (Table.get settings.exceptions 20023).isSome = false ∧ settings.exceptions.length < 64
      ∧ ((20021 : Nat) < 20022 ∧ (20022 : Nat) ≤ 20022)
      ∧ (Table.rising ((List.range 64).map (fun d => (d, (none : Option Hours)))) = true
          ∧ 64 ≤ ((List.range 64).map (fun d => (d, (none : Option Hours)))).length)
      ∧ 7 < settings.categories.length ∧ 6 < settings.week.length := by decide

/-- An edit of every kind, its fields at the ends of their ranges. -/
theorem witness_edit_bodies :
    (∀ e ∈ ([.replaceRule 31 minuteRule, .deleteRule 0, .replaceCategory 7 (settings.category 7),
          .replaceWeekday 6 (some { openMin := 0, closeMin := 1439 }), .addException 65535 none, .removeException 0,
          .setConfig settings.config] : List Edit), e.inRange = true)
      ∧ readEdit (Edit.deleteRule 31).bytes = some (.deleteRule 31) := by decide

theorem witness_post_edit :
    openUnit.free .uplink ∧ ReqKind.allows .postEdit (Edit.deleteRule 0).bytes.length = true
      ∧ State.reset.free .uplink ∧ State.reset.settings.config.home = none ∧ State.reset.journal.idle
      ∧ (∃ j, State.reset.journal.accept State.reset.now
          [{ source := .uplink, time := none, flags := { }, body := .edits 1 0 }] = .done j)
      ∧ fullJournal.accept State.reset.now [{ source := .uplink, time := none, flags := { }, body := .edits 1 0 }] = .full
      ∧ openUnit.settings.config.home ≠ none ∧ 48 ≤ (List.replicate 48 (Edit.deleteRule 0)).length
      ∧ (List.replicate 47 (Edit.deleteRule 0)).length < 48
      ∧ (ReqKind.allows .postEdit [9#8, 0#8].length = true
          ∧ ∀ e : Edit, e.inRange = true → ([9#8, 0#8] : List Byte) ≠ e.bytes) := by
  refine ⟨open_free.2, by decide, ⟨by decide, rfl⟩, rfl, ⟨rfl, rfl⟩, of_accepted (by decide +kernel), full_refuses _ _ _,
    by decide, by decide, by decide, by decide, ?_⟩
  intro e _ hb
  cases e <;> simp [Edit.bytes, byte1, byteOf] at hb

theorem witness_reads :
    (∀ p : Port, openUnit.free p)
      ∧ (∀ body ∈ ([[0#8], [4#8], [1#8, 0#8]] : List (List Byte)),
          (body.length = 1 ∨ body.length = 2) ∧ body ≠ [1#8] ∧ body ≠ [2#8] ∧ body ≠ [3#8])
      ∧ ((0 : Nat) < 4294967296 ∧ (4294967295 : Nat) < 4294967296)
      ∧ (∀ r ∈ State.reset.journal.served, r.seq < 1) := by
  refine ⟨?_, by decide, by decide, by decide +kernel⟩
  intro p
  cases p with
  | desk d => cases d <;> exact ⟨by decide, rfl⟩
  | uplink => exact ⟨by decide, rfl⟩

/-- SetTime at minute 1439 and 1440, second 59 and 60, and days before, at and after the clock's. -/
theorem witness_set_time :
    openUnit.free .uplink ∧ ((1439 : Nat) ≤ 1439 ∧ (59 : Nat) ≤ 59 ∧ (1439 : Nat) < 1440 ∧ (59 : Nat) < 60)
      ∧ (20021 < openUnit.clock.day ∧ openUnit.clock.day ≤ 20022 ∧ openUnit.clock.day < 20023) ∧ openUnit.journal.idle
      ∧ (∃ j, openUnit.journal.accept openUnit.now
          [{ source := .uplink, time := none, flags := { },
             body := .clock { day := 20022, minute := 616 } { day := 20023, minute := 0 } }] = .done j)
      ∧ fullJournal.accept openUnit.now
          [{ source := .uplink, time := none, flags := { },
             body := .clock { day := 20022, minute := 616 } { day := 20023, minute := 0 } }] = .full :=
  ⟨open_free.2, by decide, by decide, ⟨rfl, rfl⟩, of_accepted (by decide +kernel), full_refuses _ _ _⟩

/-- A unit whose rollover is in this phase, over these tables. -/
def rolling (phase : Phase) (circ : Circ) : State :=
  { openUnit with roll := { Rollover.cold with phase := phase, day := 20022, gen := 41 }, circ := circ }

theorem witness_rollover :
    (openUnit.free .uplink ∧ openUnit.roll.phase = .none)
      ∧ ((rolling .recording Circ.cold).free .uplink ∧ (rolling .recording Circ.cold).power = .running
          ∧ (rolling .recording Circ.cold).roll.phase = .recording ∧ (rolling .recording Circ.cold).journal.idle)
      ∧ (∃ j, openUnit.journal.accept openUnit.now
          [{ source := .unit, time := none, flags := { }, body := .rollover 41 0 0 0 0 }] = .done j)
      ∧ fullJournal.accept openUnit.now
          [{ source := .unit, time := none, flags := { }, body := .rollover 41 0 0 0 0 }] = .full :=
  ⟨⟨open_free.2, rfl⟩, ⟨⟨by decide, rfl⟩, rfl, rfl, rfl, rfl⟩, of_accepted (by decide +kernel), full_refuses _ _ _⟩

/-- The step with an empty list, with an edit, and with one that a power loss left no room for in the list; a journal that
makes it wait. -/
theorem witness_application :
    ((rolling .applying Circ.cold).turnOf .rollover = some .application
        ∧ (rolling .applying Circ.cold).settings.edits = [] ∧ (rolling .applying Circ.cold).roll.taken = []
        ∧ (rolling .applying Circ.cold).stateFollows)
      ∧ (State.turnOf { rolling .applying Circ.cold with settings := { settings with edits := [.deleteRule 0] } } .rollover
          = some .application)
      ∧ (State.turnOf { rolling .applying Circ.cold with
            roll := { Rollover.cold with phase := .applying, taken := [.deleteRule 0] } } .rollover = some .application)
      ∧ openUnit.journal.idle ∧ busyJournal.idle
      ∧ (∃ j, openUnit.journal.accept openUnit.now
          [{ source := .unit, time := none, flags := { }, body := .edits 1 0 }] = .done j)
      ∧ fullJournal.accept openUnit.now [{ source := .unit, time := none, flags := { }, body := .edits 1 0 }] = .full
      ∧ busyJournal.accept openUnit.now [{ source := .unit, time := none, flags := { }, body := .edits 1 0 }] = .wait :=
  ⟨⟨rfl, rfl, rfl, by unfold State.stateFollows; decide⟩, rfl, rfl, ⟨rfl, rfl⟩, ⟨rfl, rfl⟩, of_accepted (by decide +kernel),
    full_refuses _ _ _, busy_waits _ _ _⟩

/-- Places 0, 510 and 511; a deadline of yesterday and of today. -/
theorem witness_hold_pass :
    (∀ circ, (rolling .holdPass circ).turnOf .rollover = some (.holdVisit 0))
      ∧ (∀ n, State.turnOf { rolling .holdPass Circ.cold with
            roll := { Rollover.cold with phase := .holdPass, place := n } } .rollover = some (.holdVisit n))
      ∧ ((510 : Nat) < 511 ∧ ¬ (511 : Nat) < 511)
      ∧ (∃ h : Hold, Table.get [(0, h)] 0 = some h ∧ h.state = .trapped ∧ h.deadline = some 20021 ∧ 20021 < openUnit.clock.day)
      ∧ (∃ h : Hold, Table.get [(0, h)] 0 = some h ∧ h.deadline = some 20022 ∧ openUnit.clock.day ≤ 20022)
      ∧ openUnit.journal.idle
      ∧ ∃ j, openUnit.journal.accept openUnit.now
          [{ source := .unit, time := none, flags := { }, body := .holdExpire item4521 borrower777 }] = .done j :=
  ⟨fun _ => rfl, fun _ => rfl, by decide,
    ⟨{ hold777 with state := .trapped, deadline := some 20021 }, rfl, rfl, rfl, by decide⟩,
    ⟨{ hold777 with state := .trapped, deadline := some 20022 }, rfl, rfl, by decide⟩, ⟨rfl, rfl⟩,
    of_accepted (by decide +kernel)⟩

/-- The sweep over a loan of an older generation: its due day open, closed with an open day after, and closed with
none; the overdue test at its bound, the due day and 3 block days against today. -/
theorem witness_sweep :
    (rolling .sweep lent).turnOf .rollover = some (.sweepVisit 0)
      ∧ (Table.get lent.loans 0 = some loan88 ∧ loan88.gen ≠ 41 ∧ lent.borrower loan88.borrower = some record88)
      ∧ (Table.get lent.loans 1 = none)
      ∧ (settings.isOpen 20024 = true ∧ settings.isOpen 20026 = false ∧ settings.openSearch 20026 = some 20027)
      ∧ (Settings.openSearch { settings with week := [] } 20026 = none)
      ∧ ((settings.category 3).blockDays = 3 ∧ min (20018 + 3) 65535 < 20022 ∧ ¬ min (20019 + 3) 65535 < 20022) := by
  refine ⟨rfl, by decide, by decide, by decide, by decide, by decide⟩

/-! ### Witnesses for the journal, the exchange, the printer, the ports and the resets -/

/-- A unit with this journal. -/
def withJournal (j : Journal) : State := { openUnit with journal := j }

def oneBuffer : PageBuf := { target := some (0, 0), recs := [Rec.coldRestart] }

/-- The buffer timer at exactly 5 s and 1 ms before; an erase at its 63rd and its 64th suspension; a program that
completes with nothing offered and with each acceptance waiting. -/
theorem witness_page_buffers :
    (openUnit.power ≠ .off ∧ openUnit.journal.filling = some oneBuffer ∧ (5000 : Nat) ≤ 5000 ∧ (4999 : Nat) < 5000)
      ∧ (busyJournal.waiting = [{ oneBuffer with target := some (0, 1) }] ∧ busyJournal.programming ≠ none)
      ∧ (∀ r : EraseRun,
          let j := { busyJournal with programming := none, erase := some r }
          j.waiting = [{ oneBuffer with target := some (0, 1) }] ∧ j.programming = none ∧ j.erase = some r)
      ∧ ((63 : Nat) < 64 ∧ (64 : Nat) ≤ 64)
      ∧ (busyJournal.programming = some oneBuffer ∧ oneBuffer.target = some (0, 0) ∧ Memory.wf busyJournal.array = true
          ∧ busyJournal.queue = [])
      ∧ ((127 : Nat) < 128 ∧ (15 : Nat) < 16)
      ∧ (∀ a : Acceptance, ({ busyJournal with queue := [a] } : Journal).programming = some oneBuffer
          ∧ ({ busyJournal with queue := [a] } : Journal).queue = [a])
      ∧ (openUnit.clock.day ≤ 20022 ∧ ∃ h, ({ Store.initial with holding := some h } : Store).holding = some h) :=
  ⟨⟨by decide, rfl, by decide, by decide⟩, ⟨rfl, by decide⟩, fun _ => ⟨rfl, rfl, rfl⟩, by decide,
    ⟨rfl, rfl, by decide, rfl⟩, by decide, fun _ => ⟨rfl, rfl⟩, by decide,
    { claimant := .uplink, txn := .downloadEnd, now := openUnit.now, silent := false }, rfl⟩

/-- A desk's draft of 28 bytes and the unit's of 14. -/
def deskDraft : Draft :=
  { source := .desk .a, time := none, flags := { }, body := .issue item4521 borrower88 { day := 20036, minute := 1200 } }

def unitDraft : Draft := { source := .unit, time := none, flags := { }, body := .edits 1 0 }

/-- A journal whose Filling buffer has 16 bytes left in page 1 of its sector, with the page given next, and
the next sector in this state. -/
def nearlyFull (page : Nat) (next : SectorState) : Journal :=
  { State.reset.journal with
    sectors := State.reset.journal.sectors.set 1 { Sector.blank with st := next }
    page := page
    filling := some { target := some (0, 1), recs := List.replicate 17 Rec.coldRestart } }

/-- What an acceptance meets: records accepted, from a desk and from the unit; the last number but one and the last; no
sector Erased after it; a record that just fits its page and one that does not; both buffers in use; a buffer without a
page; page 15 and page 16 next; the sector opened next in each state. -/
theorem witness_acceptance :
    (∃ k, State.reset.journal.accept openUnit.now [deskDraft, unitDraft] = .done k)
      ∧ (∃ x, deskDraft.source = .desk x) ∧ unitDraft.source = .unit
      ∧ ((4294967294 : Nat) < 4294967295 ∧ (4294967295 : Nat) ≤ 4294967295)
      ∧ (∀ x ∈ fullJournal.sectors, x.st ≠ .erased)
      ∧ (∃ x ∈ State.reset.journal.sectors, x.st = .erased)
      ∧ (recsSize oneBuffer.recs + deskDraft.body.size ≤ pageRoom 0)
      ∧ (∀ b n p, (nearlyFull 2 .erased).filling = some b → b.target = some (n, p) →
          pageRoom p < recsSize b.recs + deskDraft.body.size ∧ recsSize b.recs + unitDraft.body.size ≤ pageRoom p)
      ∧ ((nearlyFull 2 .erased).filling.toList.length + (nearlyFull 2 .erased).waiting.length
            + (nearlyFull 2 .erased).programming.toList.length < 2 ∧ (nearlyFull 2 .erased).active = some 0)
      ∧ (2 ≤ busyJournal.filling.toList.length + busyJournal.waiting.length + busyJournal.programming.toList.length)
      ∧ (∃ b ∈ ({ busyJournal with waiting := [{ oneBuffer with target := none }] } : Journal).waiting, b.target = none)
      ∧ ((nearlyFull 15 .erased).page ≤ 15 ∧ 15 < (nearlyFull 16 .erased).page)
      ∧ ∀ st ∈ ([.erased, .erasing, .active, .sealed, .reclaimable] : List SectorState),
          (nearlyFull 16 st).nextSector.1 = 1 ∧ ((nearlyFull 16 st).sector 1).st = st := by
  refine ⟨of_accepted (by decide +kernel), ⟨.a, rfl⟩, rfl, by decide, by decide +kernel, by decide +kernel, by decide, ?_,
    by decide, by decide, by decide, by decide, by decide +kernel⟩
  intro b n p hb ht
  cases hb
  cases ht
  decide

/-- A journal with a Reclaimable sector 1. -/
def reclaimableJournal : Journal :=
  { State.reset.journal with
    sectors :=
      { st := .active, lap := 1, first := 9, stop := 10 } :: { st := .reclaimable, lap := 0, first := 0, stop := 9 }
        :: List.replicate 126 Sector.blank }

/-- The same with sector 3 left Erasing; and with no sector live but the one taken. -/
def erasingJournal : Journal :=
  { reclaimableJournal with sectors := reclaimableJournal.sectors.set 3 { Sector.blank with st := .erasing } }

def lastJournal : Journal :=
  { reclaimableJournal with
    active := none
    sectors := (List.replicate 128 Sector.blank).set 1 { Sector.blank with st := .reclaimable } }

/-- An erase takes the Reclaimable sector 1, the third left by `ring` being the Active one; a sector left Erasing goes before
it; nothing to take; a program in progress and one ready; an erase that completes, running and suspended, with every byte
erased and with its last byte not, with nothing offered, an ACK owed, and the store's acceptance waiting. -/
theorem witness_erases :
    (openUnit.power ≠ .off ∧ reclaimableJournal.erase = none ∧ reclaimableJournal.programming = none
        ∧ ¬ ∃ b rest, reclaimableJournal.waiting = b :: rest ∧ b.target ≠ none)
      ∧ ((∀ n, n < 128 → (reclaimableJournal.sector n).st ≠ .erasing)
          ∧ reclaimableJournal.active = some 0 ∧ (reclaimableJournal.sector ((0 + 1 + 0) % 128)).st = .reclaimable)
      ∧ ((reclaimableJournal.sector ((0 + 1 + 127) % 128)).st = .active ∧ (0 + 1 + 127) % 128 ≠ 1
          ∧ ∀ k, k < 127 → (reclaimableJournal.sector ((0 + 1 + k) % 128)).st = .erased ∨ (0 + 1 + k) % 128 = 1)
      ∧ ((erasingJournal.sector ((erasingJournal.eraseFrom + 3) % 128)).st = .erasing
          ∧ ∀ k, k < 3 → (erasingJournal.sector ((erasingJournal.eraseFrom + k) % 128)).st ≠ .erasing)
      ∧ (lastJournal.active = none ∧ (lastJournal.sector 1).st = .reclaimable
          ∧ ∀ i, i < 128 → (lastJournal.sector ((0 + i) % 128)).st = .erased ∨ (0 + i) % 128 = 1)
      ∧ (∀ n, n < 128 → (State.reset.journal.sector n).st ≠ .reclaimable)
      ∧ (busyJournal.programming ≠ none ∧ ∃ b rest, busyJournal.waiting = b :: rest ∧ b.target ≠ none)
      ∧ ((∀ c ∈ ([] : List Host.Cell), c.1 < 4096 ∧ c.2 = 0xFF#8) ∧ (∀ c ∈ ([(4095, 0xFE#8)] : List Host.Cell), c.1 < 4096)
          ∧ ∃ c ∈ ([(4095, 0xFE#8)] : List Host.Cell), c.2 ≠ 0xFF#8)
      ∧ (∀ (n count : Nat) (suspended owed : Bool) (q : List Acceptance),
          let j : Journal :=
            { reclaimableJournal with erase := some { sector := n, suspended := suspended, count := count }
                                      owedAck := owed, queue := q }
          j.erase = some { sector := n, suspended := suspended, count := count } ∧ j.owedAck = owed ∧ j.queue = q
            ∧ Memory.wf j.array = true ∧ ∀ b ∈ j.waiting, b.target ≠ none)
      ∧ ((127 : Nat) < 128 ∧ ∃ h, ({ Store.initial with holding := some h } : Store).holding = some h) :=
  ⟨⟨by decide, rfl, rfl, by rintro ⟨b, rest, h, _⟩; cases h⟩, ⟨by decide +kernel, rfl, rfl⟩, ⟨by decide, by decide, by decide +kernel⟩,
    by decide, ⟨rfl, by decide, by decide +kernel⟩, by decide +kernel, ⟨by decide, _, _, rfl, by decide⟩, ⟨by decide, by decide, by decide⟩,
    fun _ _ _ _ _ => ⟨rfl, rfl, rfl, rfl, by intro b hb; cases hb⟩, by decide,
    { claimant := .uplink, txn := .downloadEnd, now := openUnit.now, silent := false }, rfl⟩

/-- An acknowledgement at U, at the programmed tail and past it; its record accepted and refused. -/
theorem witness_acknowledgements :
    openUnit.free .uplink ∧ min (max 0 5) 0 = 0
      ∧ (let j := { openUnit.journal with tail := 9 }
         min (max j.u 9) j.tail = 9 ∧ min (max j.u 10) j.tail = 9 ∧ min (max j.u 9) j.tail ≠ j.u ∧ j.idle)
      ∧ (∃ k, Journal.accept { openUnit.journal with tail := 9, u := 9 } openUnit.now
          [{ source := .uplink, time := none, flags := { }, body := .ack 9 }] = .done k)
      ∧ fullJournal.accept openUnit.now [{ source := .uplink, time := none, flags := { }, body := .ack 9 }] = .full :=
  ⟨open_free.2, by decide, ⟨by decide, by decide, by decide, rfl, rfl⟩, of_accepted (by decide +kernel), full_refuses _ _ _⟩

/-- A unit in a download session. -/
def downloading (k : ListKind) : State :=
  { openUnit with exch :=
      { openUnit.exch with session := some k, gapMs := some 30000 } }

theorem witness_download_requests :
    (openUnit.free .uplink ∧ ¬ (openUnit.exch.expired = false ∧ openUnit.exch.session ≠ none))
      ∧ (∀ k, (downloading k).free .uplink
          ∧ ((downloading k).exch.expired = false ∧ (downloading k).exch.session ≠ none)
          ∧ (downloading k).exch.session = some k)
      ∧ ((0#8 : Byte) ≠ 1#8 ∧ (0#8 : Byte) ≠ 2#8 ∧ (3#8 : Byte) ≠ 1#8 ∧ (3#8 : Byte) ≠ 2#8)
      ∧ ((downloading .blocks).power = .running ∧ (downloading .blocks).exch.gapMs = some 30000 ∧ (30000 : Nat) ≤ 30000)
      ∧ (∀ ms, (some 29999 : Option Nat) = some ms → ms < 30000)
      ∧ ((999 : Nat) ≤ 999 ∧ (9999999 : Nat) ≤ 9999999 ∧ ¬ ((10000000 : Nat) ≤ 9999999) ∧ (1 : Nat) ≤ 255
          ∧ ∀ e, (some 65535 : Option Nat) = some e → e ≤ 65535)
      ∧ (¬ ((999 : Nat) ≤ 999 ∧ (0 : Nat) ≤ 9999999 ∧ (8 : Nat) ≤ 7 ∧ (1 : Nat) ≤ 1)
          ∧ ¬ ((999 : Nat) ≤ 999 ∧ (0 : Nat) ≤ 9999999 ∧ (7 : Nat) ≤ 7 ∧ (1 : Nat) ≤ 0)
          ∧ ((7 : Nat) ≤ 7 ∧ (1 : Nat) ≤ 1 ∧ (255 : Nat) < 256))
      ∧ ((List.replicate 11 0#8).length ≠ 12
          ∧ ¬ ((List.replicate 12 0#8 : List Byte).length = 9 ∧ (List.replicate 12 0#8)[7]? = some 0#8)
          ∧ ¬ ((List.replicate 12 0#8 : List Byte).length = 11 ∧ (List.replicate 12 0#8)[7]? = some 1#8)
          ∧ ¬ ((List.replicate 9 2#8 : List Byte).length = 9 ∧ (List.replicate 9 2#8)[7]? = some 0#8)
          ∧ ¬ ((List.replicate 9 2#8 : List Byte).length = 11 ∧ (List.replicate 9 2#8)[7]? = some 1#8)) := by
  refine ⟨⟨open_free.2, by decide⟩, fun k => ⟨⟨by cases k <;> decide, rfl⟩, ⟨rfl, ?_⟩, rfl⟩, by decide,
    ⟨rfl, rfl, by decide⟩, each_some rfl (by decide), ⟨by decide, by decide, by decide, by decide, each_some rfl (by decide)⟩,
    by decide, by decide⟩
  intro h; cases h

/-- An Entry of 10 bytes, which fits no kind, in a session and outside one (the port's own test). -/
theorem witness_entry_of_no_length :
    requestOf (.downloadEntry .uplink 1#8 (List.replicate 10 0#8)) = some (.downloadEntry, .uplink, 1#8, List.replicate 10 0#8)
      ∧ ReqKind.permitted .downloadEntry .uplink = true ∧ ReqKind.allows .downloadEntry (List.replicate 10 0#8).length = false
      ∧ (openUnit.free .uplink ∧ openUnit.exch.session = none)
      ∧ ∀ k, (downloading k).free .uplink ∧ (downloading k).exch.expired = false ∧ (downloading k).exch.session ≠ none :=
  ⟨rfl, rfl, by decide, ⟨open_free.2, rfl⟩, fun _ => ⟨⟨rfl, rfl⟩, rfl, by intro h; cases h⟩⟩

/-- The uplink's transaction at the store, its request in progress, a session of this list in progress. -/
def exchanging (circ : Circ) (k : ListKind) (t : Txn) : State :=
  { downloading k with circ := circ, store := { Store.initial with uplink := [t] }, portU := asked .downloadEntry }

theorem witness_download_entries :
    (∀ circ k t,
        (exchanging circ k t).turnOf .uplink = some t
          ∧ (exchanging circ k t).portU.inProgress = some { kind := some .downloadEntry, tag := 9#8 }
          ∧ (exchanging circ k t).exch.session = some k)
      ∧ (lent.borrower borrower88 = some record88 ∧ lent.borrower borrower150 = none ∧ lent.borrowers.length < 1024)
      ∧ 1024 ≤ (List.replicate 1024 (0, record88)).length
      ∧ (Circ.cold.holdOf item4521 = none ∧ Circ.cold.holds.length < 512)
      ∧ 512 ≤ (List.replicate 512 (0, hold777)).length
      ∧ (Circ.holdOf { Circ.cold with holds := [(0, hold777)] } item4521 = some (0, hold777) ∧ hold777.state = .waiting)
      ∧ (Circ.holdOf { Circ.cold with holds := [(0, { hold777 with state := .trapped })] } item4521
          = some (0, { hold777 with state := .trapped }))
      ∧ hold777.holder = borrower777 ∧ hold777.holder ≠ borrower150 := by
  refine ⟨fun _ _ _ => ⟨rfl, rfl, rfl⟩, by decide, ?_, by decide, ?_, by decide, by decide, by decide, by decide⟩ <;>
    rw [List.length_replicate]

theorem witness_downloads_end :
    (∀ circ k, (exchanging circ k .downloadEnd).exch.session = some k
        ∧ (exchanging circ k .downloadEnd).journal.idle ∧ (exchanging circ k .downloadEnd).turnOf .uplink = some .downloadEnd
        ∧ (exchanging circ k .downloadEnd).portU.inProgress ≠ none)
      ∧ (∀ circ k cause, (exchanging circ k (.downloadAbort cause)).turnOf .uplink = some (.downloadAbort cause))
      ∧ (∃ j, openUnit.journal.accept openUnit.now
          [{ source := .uplink, time := none, flags := { }, body := .download .blocks 0 0 0 }] = .done j)
      ∧ fullJournal.accept openUnit.now
          [{ source := .uplink, time := none, flags := { aborted := true }, body := .download .blocks 0 0 0 }] = .full :=
  ⟨fun _ _ => ⟨rfl, ⟨rfl, rfl⟩, rfl, by intro h; cases h⟩, fun _ _ _ => rfl, of_accepted (by decide +kernel),
    full_refuses _ _ _⟩

/-- A unit whose printer has a slip at it and this outstanding message. -/
def printing (o : Option PrinterMsg) : State :=
  { openUnit with printer :=
      { Printer.initial with st := .printing, queue := [.receipt .a 500 565], outstanding := o, answerMs := some 5000 } }

/-- The printer's answers with each message outstanding, and while it is being sent; a message under way, ended and not,
with a line feed and a character received with a line error in it; a desk waiting with each follow-on, in Open and outside
it; its timers at exactly 5 s and 10 s, and 1 ms before. -/
theorem witness_printer :
    (∀ o, (printing o).power = .running ∧ (printing o).printer.outstanding = o ∧ (printing o).printer.waitList = []
        ∧ (printing o).printer.rx = [] ∧ (printing o).printer.sending = none)
      ∧ (openUnit.printer.rx = [] ∧ openUnit.printer.sending ≠ none ∧ openUnit.printer.outstanding ≠ none)
      ∧ (∀ b : Byte, b ≠ 0x0A#8 → b ≠ 0x0D#8 →
          noReturn [.char b, .char 0x0A#8, .lineError] = true
            ∧ Printer.initial.rx ++ keptChars [.char b, .char 0x0A#8, .lineError] = [b])
      ∧ (({ Printer.initial with rx := [0x44#8] } : Printer).rx ≠ []
          ∧ ({ Printer.initial with rx := [0x44#8] } : Printer).rx ++ keptChars [] = [0x44#8])
      ∧ (∀ (f : FollowOn) (o : OpState),
          let s := { withEngine openUnit (slipWaiting f) with
            opState := o
            printer := { (printing (some .slip)).printer with waitList := [.a] } }
          s.power = .running ∧ s.printer.rx = [] ∧ s.printer.sending = none ∧ s.printer.outstanding = some .slip
            ∧ s.printer.waitList = [.a] ∧ (∃ x, (s.eng .a).ctx = .slipWait x f) ∧ (s.eng .a).deferred = [] ∧ s.opState = o)
      ∧ ((printing none).printer.answerMs = some 5000 ∧ (5000 : Nat) ≤ 5000
          ∧ ∀ ms, (some 4999 : Option Nat) = some ms → ms < 5000)
      ∧ (∃ p : Printer, p.inquiryMs = some 10000 ∧ (10000 : Nat) ≤ 10000)
      ∧ ∀ ms, (some 9999 : Option Nat) = some ms → ms < 10000 := by
  refine ⟨fun _ => ⟨rfl, rfl, rfl, rfl, rfl⟩, ⟨rfl, by decide, by decide⟩, ?_, ⟨by decide, by decide⟩,
    fun _ _ => ⟨rfl, rfl, rfl, rfl, rfl, ⟨_, rfl⟩, rfl, rfl⟩, ⟨rfl, by decide, each_some rfl (by decide)⟩,
    ⟨{ Printer.initial with inquiryMs := some 10000 }, rfl, by decide⟩, each_some rfl (by decide)⟩
  intro b h1 h2
  refine ⟨?_, ?_⟩
  · simpa [noReturn] using Ne.symm h2
  · simp [keptChars, Printer.initial, h1]

/-- The uplink port with these bytes received, the last of them this long ago. -/
def receiving (bs : List Byte) (ms : Nat) : State :=
  { openUnit with portU := { PortState.initial with rx := bs, rxMs := ms } }

/-- A status frame of tag 1 with a wrong check and with its own; silence of 100 ms and of 99; lengths 600 and 601. -/
theorem witness_bad_frames :
    (receiving [0xD4#8, 0#8, 0#8, 1#8] 0).accepts .uplink = true
      ∧ (0 ≤ 600 ∧ [0xD4#8, 0#8, 0#8, 1#8] ++ [2#8, 0#8, 4#8] = 0xD4#8 :: (be2 0 ++ [1#8, 2#8] ++ []) ++ [0#8, 4#8]
          ∧ 0 * 256 + 4 ≠ ((be2 0 ++ [1#8, 2#8] ++ []).map BitVec.toNat).sum % 65536
          ∧ 0 * 256 + 3 = ((be2 0 ++ [1#8, 2#8] ++ []).map BitVec.toNat).sum % 65536)
      ∧ (((receiving [0xD4#8] 100).port .uplink).rx ≠ [] ∧ 100 ≤ ((receiving [0xD4#8] 100).port .uplink).rxMs)
      ∧ ((receiving [0xD4#8] 99).port .uplink).rxMs < 100 ∧ (openUnit.port .uplink).rx = []
      ∧ ((2#8 : Byte).toNat * 256 + (88#8 : Byte).toNat ≤ 600 ∧ 600 < (2#8 : Byte).toNat * 256 + (89#8 : Byte).toNat)
      ∧ (600 < (0xD4#8 : Byte).toNat * 256 + (0#8 : Byte).toNat
          ∧ 600 < (3#8 : Byte).toNat * 256 + (0xD4#8 : Byte).toNat ∧ (3#8 : Byte) ≠ 0xD4#8) := by decide

theorem no_responses : ∀ q, ∀ t ∈ (openUnit.port q).tx, t.restarts = false := by
  rintro (d | _) t ht
  · cases d <;> cases ht
  · cases ht

/-- A port not armed and armed; another port's Restart answered, its answer not sent. -/
theorem witness_restarts :
    openUnit.free .uplink ∧ ((0#8 : Byte) = 0#8 ∧ 27 < (28#8 : Byte).toNat)
      ∧ ((openUnit.port .uplink).arm = false)
      ∧ (State.free { openUnit with portU := { PortState.initial with arm := true } } .uplink
          ∧ (State.port { openUnit with portU := { PortState.initial with arm := true } } .uplink).arm = true)
      ∧ ((∀ q, ∀ t ∈ (openUnit.port q).tx, t.restarts = false) ∧ openUnit.restartDue = false)
      ∧ (let t : TxFrame := { ownFrame 1#8 .ok .empty with restarts := true }
         let s := { openUnit with portA := { PortState.initial with tx := [t] }, portU := { PortState.initial with arm := true } }
         s.free .uplink ∧ (s.port .uplink).arm = true ∧ ∃ q, ∃ t ∈ (s.port q).tx, t.restarts = true)
      ∧ (∀ own, let f : TxFrame := { ownFrame 9#8 .ok .empty with own := own }
          ((meeting [f] [7#8]).power = .running ∧ (State.port (meeting [f] [7#8]) .uplink).tx = [f]))
      ∧ (openUnit.port .uplink).tx = [] :=
  ⟨open_free.2, by decide, rfl, ⟨⟨by decide, rfl⟩, rfl⟩, ⟨no_responses, rfl⟩,
    ⟨⟨by decide, rfl⟩, rfl, .desk .a, _, List.mem_singleton_self _, rfl⟩, fun _ => ⟨rfl, rfl⟩, rfl⟩

theorem witness_unit_restart :
    openUnit.restartDue = false
      ∧ (let s := { openUnit with restartDue := true }
         s.power = .running ∧ s.restartDue = true ∧ s.store.holding = none ∧ s.journal.queue = [] ∧ s.journal.owedAck = false
           ∧ s.journal.drops ≤ 255)
      ∧ (∀ (a : Acceptance) (rest : List Acceptance),
          let s := { openUnit with restartDue := true, journal := { busyJournal with queue := a :: rest } }
          s.power = .running ∧ s.journal.drops ≤ 255 ∧ s.journal.queue = a :: rest ∧ s.journal.filling = none
            ∧ 2 ≤ s.journal.waiting.length + s.journal.programming.toList.length)
      ∧ (let h : Held := { claimant := .port .a, txn := .payment borrower88 500, now := openUnit.now, silent := false }
         let s := { openUnit with
           store := { Store.initial with holding := some h }
           circ := { Circ.cold with borrowers := [(borrower88.key, { record88 with owed := 1065 })] } }
         s.store.holding = some h ∧ s.txnRecords h ≠ [] ∧ ∃ p, s.planOf { h with silent := true } = some p)
      ∧ (∃ j, Journal.accept { openUnit.journal with erase := none, fillMs := 0 } openUnit.now
          [{ source := .unit, time := none, flags := { }, body := .restart .restart 0 }] = .done j)
      ∧ fullJournal.accept openUnit.now [{ source := .unit, time := none, flags := { }, body := .restart .restart 0 }]
          = .full :=
  ⟨rfl, ⟨rfl, rfl, rfl, rfl, rfl, by decide⟩, fun _ _ => ⟨rfl, Nat.zero_le 255, rfl, rfl, le_refl 2⟩,
    ⟨rfl, by decide +kernel, _, rfl⟩, of_accepted (by decide +kernel), full_refuses _ _ _⟩

/-- The backup supply at 1999, 2000, 2199 and 2200 mV; retained memory written and never written; a cold and a warm power-on
over the array as it is. -/
theorem witness_power_on :
    openUnit.power ≠ .off ∧ ({ openUnit with power := .off } : State).power = .off
      ∧ openUnit.written = true ∧ ({ openUnit with written := false } : State).written = false
      ∧ ((1999 : Nat) < 2000 ∧ (2000 : Nat) ≤ 2000 ∧ (2199 : Nat) < 2200 ∧ ¬ (2200 : Nat) < 2200)
      ∧ ((openUnit.journal.scan false).owedAck = false ∧ (openUnit.journal.scan true).owedAck = false)
      ∧ (∃ j, (openUnit.journal.scan false).accept { day := 0, minute := 0 }
          [{ source := .unit, time := none, flags := { }, body := .restart .cold 0 }] = .done j)
      ∧ (∃ j, (openUnit.journal.scan true).accept { day := 20022, minute := 616 }
          [{ source := .unit, time := none, flags := { }, body := .restart .warm 0 }] = .done j)
      ∧ (openUnit.roll.phase = .none ∧ openUnit.clock.valid = true ∧ openUnit.roll.day < openUnit.clock.day)
      ∧ ((rolling .sweep Circ.cold).roll.phase ≠ .none
          ∧ (rolling .sweep Circ.cold).clock.day ≤ (rolling .sweep Circ.cold).roll.day) :=
  ⟨by decide, rfl, rfl, rfl, by decide, by decide +kernel, of_accepted (by decide +kernel), of_accepted (by decide +kernel),
    by decide, by decide⟩

theorem witness_power_loss :
    (∀ c ∈ ([(255, 0#8)] : List Host.Cell), c.1 < 256) ∧ (∀ c ∈ ([(4095, 0#8)] : List Host.Cell), c.1 < 4096)
      ∧ openUnit.power ≠ .off ∧ openUnit.journal.Held :=
  ⟨by decide, by decide, by decide, reset_held⟩

/-- An application step that waits at the journal with the edits it took, edits posted since in the list. -/
def stepHeld (taken posted : List Edit) : State :=
  { rolling .applying Circ.cold with
    settings := { settings with edits := posted }
    roll := { Rollover.cold with phase := .applying, taken := taken }
    store := { Store.initial with
      holding := some { claimant := .rollover, txn := .application, now := openUnit.now, silent := false } } }

/-- Power lost then: the edits taken stand before those posted since, and the rollover is in its hold pass (R109, R139). -/
theorem test_power_loss_returns_the_edits :
    exec (.powerLoss [] []) (stepHeld [.deleteRule 1, .deleteRule 2] [.deleteRule 3])
      = .next { stepHeld [] [.deleteRule 1, .deleteRule 2, .deleteRule 3] with
          power := .off
          store := Store.initial
          roll := { Rollover.cold with phase := .holdPass } } := rfl

/-! ### Witnesses for the power-on scan -/

/-- The bytes of sector 5, lap 3: a header and one record of sequence 7 in its page 0 (R141, R145). -/
def cellsOf5 : List Host.Cell :=
  [(20480, 76#8), (20481, 68#8), (20482, 74#8), (20483, 82#8), (20484, 0#8), (20485, 0#8), (20486, 0#8), (20487,
   3#8), (20488, 0#8), (20489, 0#8), (20490, 0#8), (20491, 7#8), (20492, 0#8), (20493, 5#8), (20494, 1#8), (20495,
   59#8), (20496, 0#8), (20497, 0#8), (20498, 0#8), (20499, 7#8), (20500, 15#8), (20501, 3#8), (20502, 0#8), (20503,
   0#8), (20504, 0#8), (20505, 0#8), (20506, 14#8), (20507, 0#8), (20508, 3#8), (20509, 0#8), (20734, 224#8),
   (20735, 193#8)]

/-- The bytes of sector 6 after it: an ACK record of sequence 8, with U 8, in its page 0. -/
def cellsOf6 : List Host.Cell :=
  [(24576, 76#8), (24577, 68#8), (24578, 74#8), (24579, 82#8), (24580, 0#8), (24581, 0#8), (24582, 0#8), (24583,
   3#8), (24584, 0#8), (24585, 0#8), (24586, 0#8), (24587, 8#8), (24588, 0#8), (24589, 6#8), (24590, 1#8), (24591,
   61#8), (24592, 0#8), (24593, 0#8), (24594, 0#8), (24595, 8#8), (24596, 14#8), (24597, 3#8), (24598, 0#8), (24599,
   0#8), (24600, 0#8), (24601, 0#8), (24602, 16#8), (24603, 0#8), (24604, 0#8), (24605, 0#8), (24606, 0#8), (24607,
   8#8), (24830, 222#8), (24831, 206#8)]

/-- Both sectors; and both with page 1 of sector 5 void. -/
def twoSectors : List Host.Cell := cellsOf5 ++ cellsOf6

def voidOlder : List Host.Cell := cellsOf5 ++ (20736, 0#8) :: cellsOf6

/-- Sector 5 alone, its page 0 void under a correct header; and its first byte alone programmed. -/
def headerOnly : List Host.Cell := cellsOf5.dropLast

def tornSector : List Host.Cell := [(20480, 0#8)]

/-- A journal over this array, both page buffers Free, U 8 and an ACK owed or not. -/
def scanning (m : List Host.Cell) (owed : Bool) : Journal :=
  { State.reset.journal with array := m, filling := none, u := 8, owedAck := owed }

/-- Whether every header of an array stands for a sector not newer than sector `n` of this lap. -/
def noneNewer (m : List Host.Cell) (lap n : Nat) : Bool :=
  (List.range 128).all (fun n2 => sectorBlank m n2 ||
    (match headerOf m n2 with
     | some h => decide (h.1 < lap ∨ h.1 = lap ∧ n2 ≤ n)
     | none => true))

theorem header_not_newer {m : List Host.Cell} {lap n : Nat} (h : noneNewer m lap n = true) :
    ∀ n2 lap2 first2, headerAt m n2 lap2 first2 → ¬ ringBefore lap n lap2 n2 := by
  intro n2 lap2 first2 hh
  obtain ⟨hn, ho⟩ := headerOf_iff.mp hh
  have h2 := List.all_eq_true.mp h n2 (List.mem_range.mpr hn)
  rw [not_blank_of_header hh, ho] at h2
  simp only [Bool.false_or, decide_eq_true_eq] at h2
  unfold ringBefore
  omega

/-- Whether a page reads good. -/
def goodPage (p : PageFound) : Bool :=
  match p with
  | .good _ => true
  | _ => false

theorem of_good {p : PageFound} (h : goodPage p = true) : ∃ rs, p = .good rs := by
  cases p with
  | good rs => exact ⟨rs, rfl⟩
  | blank => cases h
  | void => cases h

theorem headed_cold {m : List Host.Cell} {n lap first : Nat} (owed : Bool) (hn : n < 128)
    (h1 : headerOf m n = some (lap, first)) (h2 : goodPage (readPage m n 0) = true) :
    (scanning m owed).headedAt false n lap first :=
  ⟨headerOf_iff.mpr ⟨hn, h1⟩, of_good h2, fun h => by cases h.1⟩

theorem headed_warm {m : List Host.Cell} {n lap first : Nat} (owed : Bool) (hn : n < 128)
    (h1 : headerOf m n = some (lap, first)) (h2 : goodPage (readPage m n 0) = true)
    (h3 : ((scanning m owed).sector n).st ≠ .erasing) : (scanning m owed).headedAt true n lap first :=
  ⟨headerOf_iff.mpr ⟨hn, h1⟩, of_good h2, fun h => h3 h.2⟩

theorem not_headed {m : List Host.Cell} (owed warm : Bool)
    (h : (List.range 128).all (fun n => sectorBlank m n || (headerOf m n).isNone || !goodPage (readPage m n 0)) = true) :
    ∀ n lap first, ¬ (scanning m owed).headedAt warm n lap first := by
  rintro n lap first ⟨h1, ⟨rs, h2⟩, _⟩
  change headerAt m n lap first at h1
  obtain ⟨hn, ho⟩ := headerOf_iff.mp h1
  have h3 := List.all_eq_true.mp h n (List.mem_range.mpr hn)
  rw [not_blank_of_header h1, ho] at h3
  change readPage m n 0 = .good rs at h2
  rw [h2] at h3
  cases h3

theorem scan_arrays :
    Memory.wf twoSectors = true ∧ Memory.wf voidOlder = true ∧ Memory.wf headerOnly = true ∧ Memory.wf tornSector = true := by
  decide +kernel

theorem scan_headers :
    headerOf twoSectors 5 = some (3, 7) ∧ headerOf twoSectors 6 = some (3, 8) ∧ headerOf voidOlder 5 = some (3, 7)
      ∧ headerOf voidOlder 6 = some (3, 8) ∧ headerOf headerOnly 5 = some (3, 7) ∧ noneNewer twoSectors 3 6 = true
      ∧ noneNewer headerOnly 3 5 = true := by
  decide +kernel

theorem scan_pages_5 : goodPage (readPage twoSectors 5 0) = true ∧ goodPage (readPage voidOlder 5 0) = true := by
  decide +kernel

theorem scan_pages_6 : goodPage (readPage twoSectors 6 0) = true ∧ goodPage (readPage voidOlder 6 0) = true := by
  decide +kernel

theorem scan_void : readPage voidOlder 5 1 = .void := by decide +kernel

theorem scan_blank : readPage twoSectors 6 1 = .blank := by decide +kernel

theorem scan_none_headed :
    ((List.range 128).all (fun n => sectorBlank headerOnly n || (headerOf headerOnly n).isNone
        || !goodPage (readPage headerOnly n 0)) = true)
      ∧ ((List.range 128).all (fun n => sectorBlank tornSector n || (headerOf tornSector n).isNone
          || !goodPage (readPage tornSector n 0)) = true) := by
  decide +kernel

/-- The last acknowledgement: owed; in a retained buffer; in sector 6, none newer; none at all. -/
theorem witness_last_ack :
    (scanning [] true).owedAck = true ∧ (scanning [] false).owedAck = false
      ∧ (let j := { scanning [] false with
           waiting := [{ oneBuffer with recs := [{ Rec.coldRestart with body := .ack 8 }] }] }
         (j.buffered.filterMap Rec.ackValue).getLast? = some 8)
      ∧ ((scanning twoSectors false).newestAt false 6 3 8
          ∧ ((sectorFinds twoSectors 6).filterMap Found.ackValue).getLast? = some 8)
      ∧ ∀ n lap first, ¬ (scanning [] false).headedAt false n lap first := by
  refine ⟨rfl, rfl, rfl, ⟨⟨headed_cold _ (by decide) scan_headers.2.1 scan_pages_6.1, fun n2 l f h =>
    header_not_newer scan_headers.2.2.2.2.2.1 _ _ _ h.1⟩, by decide +kernel⟩, ?_⟩
  intro n lap first h
  have := not_blank_of_header h.1
  cases this

/-- A sector retained as Erasing; one damaged, one that reads erased; the newest and an older one; an older one with a void
page, an ACK found at the newer one's first sequence, and without; no headed sector under a correct header and under none;
the page being programmed in a sector that does not read erased; the newest sector's first blank page. -/
theorem witness_scan :
    (Memory.wf twoSectors = true ∧ Memory.wf voidOlder = true ∧ Memory.wf headerOnly = true ∧ Memory.wf tornSector = true)
      ∧ Journal.namesErasing { scanning [] false with sectors := List.replicate 128 { Sector.blank with st := .erasing } } true 5
      ∧ (¬ sectorErased tornSector 5 ∧ (∀ n lap first, ¬ (scanning tornSector false).headedAt true n lap first)
          ∧ ∀ n lap first, ¬ headerAt tornSector n lap first)
      ∧ (sectorErased twoSectors 7 ∧ ¬ (scanning twoSectors false).namesErasing true 7)
      ∧ ((scanning twoSectors false).newestAt false 6 3 8 ∧ sectorFinds twoSectors 6 ≠ []
          ∧ (∀ q, q < 1 → readPage twoSectors 6 q ≠ .blank) ∧ readPage twoSectors 6 1 = .blank)
      ∧ ((scanning twoSectors false).headedAt false 5 3 7 ∧ ringBefore 3 5 3 6
          ∧ ¬ (scanning twoSectors false).newestAt false 5 3 7)
      ∧ ((scanning voidOlder true).headedAt true 5 3 7 ∧ ¬ (scanning voidOlder true).newestAt true 5 3 7
          ∧ (scanning voidOlder true).cutShort true (some 8) 5 3 ∧ ¬ (scanning voidOlder true).cutShort true none 5 3)
      ∧ ((∀ n lap first, ¬ (scanning headerOnly false).headedAt false n lap first) ∧ headerAt headerOnly 5 3 7
          ∧ (∀ n2 lap2 first2, headerAt headerOnly n2 lap2 first2 → ¬ ringBefore 3 5 lap2 n2)
          ∧ ¬ sectorErased headerOnly 5)
      ∧ ((scanning [] false).scan false).waiting = [] := by
  have h5 := headed_cold (m := twoSectors) false (by decide) scan_headers.1 scan_pages_5.1
  have h6 := headed_cold (m := twoSectors) false (by decide) scan_headers.2.1 scan_pages_6.1
  have v5 := headed_warm (m := voidOlder) true (by decide) scan_headers.2.2.1 scan_pages_5.2 (by decide)
  have v6 := headed_warm (m := voidOlder) true (by decide) scan_headers.2.2.2.1 scan_pages_6.2 (by decide)
  refine ⟨scan_arrays, ⟨rfl, by decide⟩, ⟨fun h => ?_, not_headed _ _ scan_none_headed.2, fun n lap first h => ?_⟩,
    ⟨(sectorBlank_iff scan_arrays.1 7).mp (by decide +kernel), fun h => absurd h.2 (by decide)⟩,
    ⟨⟨h6, fun n2 l f h => header_not_newer scan_headers.2.2.2.2.2.1 _ _ _ h.1⟩, by decide +kernel, ?_, scan_blank⟩,
    ⟨h5, .inr ⟨rfl, by decide⟩, fun h => h.2 _ _ _ h6 (.inr ⟨rfl, by decide⟩)⟩,
    ⟨v5, fun h => h.2 _ _ _ v6 (.inr ⟨rfl, by decide⟩),
      ⟨⟨1, by decide, scan_void⟩, 8, 6, 3, 8, rfl, v6, .inr ⟨rfl, by decide⟩, le_refl 8⟩, ?_⟩,
    ⟨not_headed _ _ scan_none_headed.1, headerOf_iff.mpr ⟨by decide, scan_headers.2.2.2.2.1⟩,
      header_not_newer scan_headers.2.2.2.2.2.2,
      fun h => absurd (h 20480 (by decide) (by decide)) (by decide)⟩, rfl⟩
  · exact absurd (h 20480 (by decide) (by decide)) (by decide)
  · obtain ⟨hn, ho⟩ := headerOf_iff.mp h
    have h3 := List.all_eq_true.mp (show (List.range 128).all (fun n => sectorBlank tornSector n
      || (headerOf tornSector n).isNone) = true by decide +kernel) n (List.mem_range.mpr hn)
    rw [not_blank_of_header h, ho] at h3
    cases h3
  · intro q hq hb
    have e : q = 0 := by omega
    obtain ⟨rs, hr⟩ := of_good scan_pages_6.1
    rw [e, hr] at hb
    cases hb
  · rintro ⟨_, u, _, _, _, hu, _⟩
    cases hu

end Sys2Proof.Tests
end

section
/-! PROOFS. The settings' edits (R103 to R105): what each edit makes of the settings, case by case, and what the edited
rule table, exception list, categories and week then hold. -/

namespace Sys2Proof.Machine

/-! ### What an edit makes of the settings -/

theorem Settings.apply_replaceRule_held {c : Settings} {p : Nat} (today : Nat) (r : Rule) (h : p < c.rules.length) :
    c.apply today (.replaceRule p r) = ({ c with rules := c.rules.set p r }, true) := if_pos h

theorem Settings.apply_replaceRule_append {c : Settings} {p : Nat} (today : Nat) (r : Rule) (h : c.rules.length ≤ p)
    (room : c.rules.length < 32) : c.apply today (.replaceRule p r) = ({ c with rules := c.rules ++ [r] }, true) :=
  (if_neg (Nat.not_lt.mpr h)).trans (if_pos room)

theorem Settings.apply_deleteRule_held {c : Settings} {p : Nat} (today : Nat) (h : p < c.rules.length) :
    c.apply today (.deleteRule p) = ({ c with rules := c.rules.eraseIdx p }, true) := if_pos h

theorem Settings.apply_deleteRule_past {c : Settings} {p : Nat} (today : Nat) (h : c.rules.length ≤ p) :
    c.apply today (.deleteRule p) = (c, false) := if_neg (Nat.not_lt.mpr h)

theorem Settings.apply_addException_before {c : Settings} {today day : Nat} (h : Option Hours) (past : day < today) :
    c.apply today (.addException day h) = (c, false) := if_pos past

theorem Settings.apply_addException_put {c : Settings} {today day : Nat} (h : Option Hours) (due : today ≤ day)
    (fits : (Table.get c.exceptions day).isSome = true ∨ c.exceptions.length < 64) :
    c.apply today (.addException day h) = ({ c with exceptions := Table.put c.exceptions day h }, true) :=
  (if_neg (Nat.not_lt.mpr due)).trans (if_pos fits)

theorem Settings.apply_addException_full {c : Settings} {today day : Nat} (h : Option Hours) (due : today ≤ day)
    (absent : ¬ (Table.get c.exceptions day).isSome = true) (full : 64 ≤ c.exceptions.length) :
    c.apply today (.addException day h) = (c, false) :=
  (if_neg (Nat.not_lt.mpr due)).trans (if_neg (not_or.mpr ⟨absent, Nat.not_lt.mpr full⟩))

theorem Settings.apply_removeException_held {c : Settings} {day : Nat} (today : Nat)
    (held : (Table.get c.exceptions day).isSome = true) :
    c.apply today (.removeException day) = ({ c with exceptions := Table.del c.exceptions day }, true) := if_pos held

theorem Settings.apply_removeException_absent {c : Settings} {day : Nat} (today : Nat)
    (absent : ¬ (Table.get c.exceptions day).isSome = true) :
    c.apply today (.removeException day) = (c, false) := if_neg absent

/-! ### What the edited collections hold -/

/-- One entry is replaced and the others stand (R103, R104). -/
theorem set_replaces_entry {α : Type} {xs : List α} {k : Nat} (x : α) (h : k < xs.length) :
    (xs.set k x).length = xs.length ∧ (xs.set k x)[k]? = some x ∧ ∀ n, n ≠ k → (xs.set k x)[n]? = xs[n]? :=
  ⟨List.length_set, List.getElem?_set_self h, fun _ hn => List.getElem?_set_ne hn.symm⟩

/-- One entry goes and the later ones move up by one (R103). -/
theorem eraseIdx_moves_up {α : Type} {xs : List α} {p : Nat} (h : p < xs.length) :
    (xs.eraseIdx p).length = xs.length - 1 ∧ (∀ k, k < p → (xs.eraseIdx p)[k]? = xs[k]?)
      ∧ ∀ k, p ≤ k → (xs.eraseIdx p)[k]? = xs[k + 1]? :=
  ⟨List.length_eraseIdx_of_lt h, fun _ hk => List.getElem?_eraseIdx_of_lt hk,
    fun _ hk => List.getElem?_eraseIdx_of_ge hk⟩

/-- `Table.length_put_of_get` for a key known only to have an entry. -/
theorem Table.length_put_held {α : Type} {t : Table α} {k : Nat} (v : α) (rising : Table.rising t = true)
    (held : (Table.get t k).isSome = true) : (Table.put t k v).length = t.length := by
  obtain ⟨x, hx⟩ := Option.isSome_iff_exists.mp held
  exact Table.length_put_of_get v rising hx

/-! ### The obligation -/

/-- Settles O40: each edit's case is its equation above, and what the new collection holds is the law of the one
operation on it. -/
theorem ruleAndExceptionEditsAct : Obligations.RuleAndExceptionEditsAct := by
  refine ⟨fun c today p r => ⟨fun hp => ?replaceHeld, Settings.apply_replaceRule_append today r, fun hp => ?deleteHeld,
      Settings.apply_deleteRule_past today⟩,
    fun c today day h rising => ⟨Settings.apply_addException_before h, fun due fits => ?putException,
      Settings.apply_addException_full h, fun held => ?removeHeld, Settings.apply_removeException_absent today⟩,
    fun c today k x hk => ⟨_, rfl, rfl, set_replaces_entry x hk⟩,
    fun c today k h hk => ⟨_, rfl, rfl, set_replaces_entry h hk⟩, fun c today x => rfl⟩
  case replaceHeld => exact ⟨_, Settings.apply_replaceRule_held today r hp, rfl, set_replaces_entry r hp⟩
  case deleteHeld => exact ⟨_, Settings.apply_deleteRule_held today hp, rfl, eraseIdx_moves_up hp⟩
  case putException =>
    exact ⟨_, Settings.apply_addException_put h due fits, rfl, Table.rising_put day h rising,
      Table.length_put_held h rising, fun k => Table.get_put day k h rising⟩
  case removeHeld =>
    exact ⟨_, Settings.apply_removeException_held today held, rfl, Table.rising_del day rising,
      fun k => Table.get_del day k⟩

end Sys2Proof.Machine
end

section
/-! PROOFS. Days, dues and fines (chapter 7, R94, R111, R112): which day each search over days yields, what the counts of
overdue days and minutes come to, and the due, return and deadline each case gives. -/

namespace Sys2Proof.Machine

/-! ### Searches over days -/

/-- R111: no day above 65535 is examined. -/
theorem Settings.searchFrom_last_day {c : Settings} {x : Nat} (len : Nat) (past : 65535 < x + 1) :
    c.searchFrom x (len + 1) = none := if_pos past

theorem Settings.searchFrom_open {c : Settings} {x : Nat} (len : Nat) (inRange : ¬ 65535 < x + 1)
    (opened : c.isOpen (x + 1) = true) : c.searchFrom x (len + 1) = some (x + 1) :=
  (if_neg inRange).trans (if_pos opened)

theorem Settings.searchFrom_closed {c : Settings} {x : Nat} (len : Nat) (inRange : ¬ 65535 < x + 1)
    (closed : ¬ c.isOpen (x + 1) = true) : c.searchFrom x (len + 1) = c.searchFrom (x + 1) len :=
  (if_neg inRange).trans (if_neg closed)

/-- The upward search yields the first open day of its range and no other (R112). -/
theorem Settings.searchFrom_eq_some_iff {c : Settings} {len x n : Nat} :
    c.searchFrom x len = some n ↔
      x < n ∧ n ≤ x + len ∧ n ≤ 65535 ∧ c.isOpen n = true ∧ ∀ k, x < k → k < n → c.isOpen k = false := by
  induction len generalizing x with
  | zero => exact ⟨nofun, fun ⟨above, upTo, _⟩ => by omega⟩
  | succ len ih =>
    by_cases past : 65535 < x + 1
    · rw [searchFrom_last_day len past]
      exact ⟨nofun, fun ⟨above, _, inRange, _⟩ => by omega⟩
    by_cases opened : c.isOpen (x + 1) = true
    · rw [searchFrom_open len past opened, Option.some_inj]
      constructor
      · rintro rfl
        exact ⟨by omega, by omega, by omega, opened, fun k _ _ => by omega⟩
      · rintro ⟨above, _, _, _, closedBefore⟩
        by_contra other
        exact absurd opened (Bool.eq_false_iff.mp (closedBefore (x + 1) (by omega) (by omega)))
    · rw [searchFrom_closed len past opened, ih]
      constructor
      · rintro ⟨above, upTo, inRange, openThen, closedBefore⟩
        refine ⟨by omega, by omega, inRange, openThen, fun k low high => ?_⟩
        obtain rfl | later : k = x + 1 ∨ x + 1 < k := by omega
        · exact Bool.eq_false_iff.mpr opened
        · exact closedBefore k later high
      · rintro ⟨above, upTo, inRange, openThen, closedBefore⟩
        have notNext : n ≠ x + 1 := by rintro rfl; exact opened openThen
        exact ⟨by omega, by omega, inRange, openThen, fun k low high => closedBefore k (by omega) high⟩

/-- The upward search yields none exactly when every day it examines is closed (R112). -/
theorem Settings.searchFrom_eq_none_iff {c : Settings} {len x : Nat} :
    c.searchFrom x len = none ↔ ∀ k, x < k → k ≤ x + len → k ≤ 65535 → c.isOpen k = false := by
  induction len generalizing x with
  | zero => exact ⟨fun _ k _ _ => by omega, fun _ => rfl⟩
  | succ len ih =>
    by_cases past : 65535 < x + 1
    · rw [searchFrom_last_day len past]
      exact ⟨fun _ k _ _ _ => by omega, fun _ => rfl⟩
    by_cases opened : c.isOpen (x + 1) = true
    · rw [searchFrom_open len past opened]
      exact ⟨nofun, fun allClosed =>
        absurd opened (Bool.eq_false_iff.mp (allClosed (x + 1) (by omega) (by omega) (by omega)))⟩
    · rw [searchFrom_closed len past opened, ih]
      constructor
      · intro restClosed k low high inRange
        obtain rfl | later : k = x + 1 ∨ x + 1 < k := by omega
        · exact Bool.eq_false_iff.mpr opened
        · exact restClosed k later (by omega) inRange
      · exact fun allClosed k low high => allClosed k (by omega) (by omega)

/-- A day moved on when it is closed never moves back. -/
theorem Settings.le_openSearch_getD (c : Settings) (x : Nat) : x ≤ (c.openSearch x).getD x := by
  cases found : c.openSearch x with
  | none => exact Nat.le_refl x
  | some n => exact Nat.le_of_lt (Settings.searchFrom_eq_some_iff.mp found).1

theorem Settings.lastOpen_succ_open {c : Settings} {t len : Nat} (opened : c.isOpen (t + len + 1) = true) :
    c.lastOpen t (len + 1) = some (t + len + 1) := if_pos opened

theorem Settings.lastOpen_succ_closed {c : Settings} {t len : Nat} (closed : ¬ c.isOpen (t + len + 1) = true) :
    c.lastOpen t (len + 1) = c.lastOpen t len := if_neg closed

/-- An open day with none open after it up to `t + len` is the one the downward search yields (R114). -/
theorem Settings.lastOpen_eq_some {c : Settings} {t len n : Nat} (from_t : t ≤ n) (upTo : n ≤ t + len)
    (opened : c.isOpen n = true) (closedAfter : ∀ k, n < k → k ≤ t + len → c.isOpen k = false) :
    c.lastOpen t len = some n := by
  induction len with
  | zero =>
    obtain rfl : n = t := by omega
    exact if_pos opened
  | succ len ih =>
    obtain rfl | earlier : n = t + len + 1 ∨ n ≤ t + len := by omega
    · exact lastOpen_succ_open opened
    · rw [lastOpen_succ_closed (Bool.eq_false_iff.mp (closedAfter _ (by omega) (by omega)))]
      exact ih earlier fun k low high => closedAfter k low (by omega)

/-- The downward search yields none when every day of its range is closed (R114). -/
theorem Settings.lastOpen_eq_none {c : Settings} {t len : Nat}
    (closed : ∀ k, t ≤ k → k ≤ t + len → c.isOpen k = false) : c.lastOpen t len = none := by
  induction len with
  | zero => exact if_neg (Bool.eq_false_iff.mp (closed t (by omega) (by omega)))
  | succ len ih =>
    rw [lastOpen_succ_closed (Bool.eq_false_iff.mp (closed _ (by omega) (by omega)))]
    exact ih fun k low high => closed k low (by omega)

theorem Settings.le_lastOpen_getD (c : Settings) (t len : Nat) : t ≤ (c.lastOpen t len).getD t := by
  induction len with
  | zero =>
    by_cases opened : c.isOpen t = true
    · exact Nat.le_of_eq (by rw [lastOpen, if_pos opened, Option.getD_some])
    · exact Nat.le_of_eq (by rw [lastOpen, if_neg opened, Option.getD_none])
  | succ len ih =>
    by_cases opened : c.isOpen (t + len + 1) = true
    · rw [lastOpen_succ_open opened, Option.getD_some]
      omega
    · rwa [lastOpen_succ_closed opened]

/-- Settles O37: the two laws of the upward search, at its 31 days. -/
theorem openDaySearchFindsTheFirst : Obligations.OpenDaySearchFindsTheFirst :=
  fun _ _ => ⟨fun _ => Settings.searchFrom_eq_some_iff, Settings.searchFrom_eq_none_iff⟩

/-! ### Overdue counts and fines -/

theorem Time.earlier_iff {a b : Time} :
    a.earlier b = true ↔ a.day < b.day ∨ a.day = b.day ∧ a.minute < b.minute := by
  simp [Time.earlier]

/-- No day up to `d` lies after `d`. -/
theorem filter_after_range_eq_nil {d m : Nat} (p : Nat → Bool) (upTo : m ≤ d + 1) :
    (List.range m).filter (fun k => decide (d < k) && p k) = [] := by
  refine List.filter_eq_nil_iff.mpr fun k mem => ?_
  have notAfter : ¬ d < k := by have := List.mem_range.mp mem; omega
  simp [notAfter]

/-- R119: the days counted are the open ones after `d`, up to `d + n`. -/
theorem Settings.openDays_eq_length_filter (c : Settings) (d n : Nat) :
    c.openDays d n = ((List.range (d + n + 1)).filter (fun k => decide (d < k) && c.isOpen k)).length := by
  induction n with
  | zero => rw [filter_after_range_eq_nil c.isOpen (Nat.le_refl _)]; rfl
  | succ n ih =>
    have after : d < d + n + 1 := by omega
    rw [openDays, ih, ← Nat.add_assoc d n 1, List.range_succ (n := d + n + 1), List.filter_append, List.length_append]
    cases opened : c.isOpen (d + n + 1) <;> simp [opened, after]

/-- R120: the minutes of every day from `d` to `d + n`, the first day's from `a` and the last day's up to `b`. -/
theorem overdueMinutes_eq_sum (c : Settings) (d a b n : Nat) :
    overdueMinutes c d a b n
      = ((List.range (n + 1)).map (fun i =>
          overlap (c.hours (d + i)) (if d + i = d then a else 0) (if d + i = d + n then b else 1440))).sum := by
  induction n generalizing b with
  | zero => simp [overdueMinutes]
  | succ n ih =>
    have earlierDays : ∀ i ∈ List.range (n + 1),
        overlap (c.hours (d + i)) (if d + i = d then a else 0) (if d + i = d + (n + 1) then b else 1440)
          = overlap (c.hours (d + i)) (if d + i = d then a else 0) (if d + i = d + n then 1440 else 1440) := by
      intro i mem
      have notLast : d + i ≠ d + (n + 1) := by have := List.mem_range.mp mem; omega
      rw [if_neg notLast, ite_self]
    have notFirst : d + (n + 1) ≠ d := by omega
    rw [overdueMinutes, ih, List.range_succ (n := n + 1), List.map_append, List.sum_append,
      List.map_congr_left earlierDays, List.map_singleton, List.sum_singleton, if_neg notFirst, if_pos rfl,
      Nat.add_assoc d n 1]

theorem overdueCount_day (c : Settings) (due back : Time) :
    overdueCount c .day due back
      = ((List.range (back.day + 1)).filter (fun d => decide (due.day < d) && c.isOpen d)).length := by
  obtain early | late : back.day ≤ due.day ∨ due.day ≤ back.day := Nat.le_total _ _
  · rw [filter_after_range_eq_nil c.isOpen (by omega), overdueCount, Nat.sub_eq_zero_of_le early]
    rfl
  · rw [overdueCount, Settings.openDays_eq_length_filter, Nat.add_sub_cancel' late]

theorem fineFor_not_late {c : Settings} {r : Rule} {unit : LoanUnit} {due back : Time}
    (inTime : ¬ due.earlier back = true) : fineFor c r unit due back = 0 := if_neg inTime

theorem fineFor_late {c : Settings} {r : Rule} {unit : LoanUnit} {due back : Time} (late : due.earlier back = true) :
    fineFor c r unit due back = min ((overdueCount c unit due back - r.grace) * r.rate) r.cap := if_pos late

/-- Settles O38: whether there is a fine is `Time.earlier`, and the counts are the sums over days above. -/
theorem finesFollowTheCount : Obligations.FinesFollowTheCount := by
  refine ⟨fun c r unit due back => ⟨fun inTime => fineFor_not_late ?notLate, fun late => fineFor_late ?late,
    fun dueFirst => ?minutes⟩, overdueCount_day⟩
  case notLate => rw [Time.earlier_iff]; omega
  case late => rw [Time.earlier_iff]; omega
  case minutes =>
    obtain ⟨n, backDay⟩ := Nat.exists_eq_add_of_le dueFirst
    have dayCount : due.day + n + 1 - due.day = n + 1 := by omega
    intro window
    have window_eq : ∀ i, window (due.day + i)
        = overlap (c.hours (due.day + i)) (if due.day + i = due.day then due.minute else 0)
            (if due.day + i = due.day + n then back.minute else 1440) := by
      intro i
      cases hours : c.hours (due.day + i) with
      | none => simp only [window, overlap, hours]
      | some h => simp only [window, overlap, hours, backDay]
    simp only [window_eq]
    rw [backDay, dayCount, ← overdueMinutes_eq_sum, overdueCount, backDay, Nat.add_sub_cancel_left]

/-! ### Dues of day loans -/

theorem Settings.closeMinute_of_hours {c : Settings} {day : Nat} {h : Hours} (opened : c.hours day = some h) :
    c.closeMinute day = h.closeMin := by rw [closeMinute, opened]

theorem Settings.closeMinute_of_closed {c : Settings} {day : Nat} (closed : c.hours day = none) :
    c.closeMinute day = 1439 := by rw [closeMinute, closed]

/-- The candidate due day of R113, before a card's expiry is looked at: the day counted, moved on when it is closed. -/
def dueCandidate (c : Settings) (t len : Nat) : Nat :=
  if c.isOpen (addDays t len) = true then addDays t len else (c.openSearch (addDays t len)).getD (addDays t len)

theorem le_dueCandidate {c : Settings} {t : Nat} (len : Nat) (inRange : t ≤ 65535) : t ≤ dueCandidate c t len := by
  have counted : t ≤ addDays t len := Nat.le_min.mpr ⟨Nat.le_add_right t len, inRange⟩
  unfold dueCandidate
  split
  · exact counted
  · exact Nat.le_trans counted (c.le_openSearch_getD _)

theorem dayDue_day_no_expiry (c : Settings) (t len : Nat) : (dayDue c t len none).day = dueCandidate c t len := rfl

theorem dayDue_day_expiry_not_before {c : Settings} {t len e : Nat} (notBefore : dueCandidate c t len ≤ e) :
    (dayDue c t len (some e)).day = dueCandidate c t len := if_pos notBefore

theorem dayDue_day_expired_at_issue {c : Settings} {t len e : Nat} (before : e < dueCandidate c t len)
    (expired : e < t) : (dayDue c t len (some e)).day = t :=
  (if_neg (Nat.not_le.mpr before)).trans (if_pos expired)

theorem dayDue_day_expiry_before {c : Settings} {t len e : Nat} (before : e < dueCandidate c t len) (valid : t ≤ e) :
    (dayDue c t len (some e)).day = (c.lastOpen t (e - t)).getD t :=
  (if_neg (Nat.not_le.mpr before)).trans (if_neg (Nat.not_lt.mpr valid))

/-- R114: the last open day from the issue day to the expiry. -/
theorem dayDue_day_last_open {c : Settings} {t len e n : Nat} (before : e < dueCandidate c t len) (from_t : t ≤ n)
    (upTo : n ≤ e) (opened : c.isOpen n = true) (closedAfter : ∀ k, n < k → k ≤ e → c.isOpen k = false) :
    (dayDue c t len (some e)).day = n := by
  have range_end : t + (e - t) = e := by omega
  rw [dayDue_day_expiry_before before (by omega),
    Settings.lastOpen_eq_some from_t (by omega) opened (by rwa [range_end]), Option.getD_some]

/-- R114: the issue day, where no day from it to the expiry is open. -/
theorem dayDue_day_none_open {c : Settings} {t len e : Nat} (before : e < dueCandidate c t len)
    (closed : ∀ k, t ≤ k → k ≤ e → c.isOpen k = false) : (dayDue c t len (some e)).day = t := by
  by_cases expired : e < t
  · exact dayDue_day_expired_at_issue before expired
  · have range_end : t + (e - t) = e := by omega
    rw [dayDue_day_expiry_before before (by omega), Settings.lastOpen_eq_none (by rwa [range_end]), Option.getD_none]

theorem le_dayDue_day {c : Settings} {t : Nat} (len : Nat) (x : Option Nat) (inRange : t ≤ 65535) :
    t ≤ (dayDue c t len x).day := by
  cases x with
  | none => exact le_dueCandidate len inRange
  | some e =>
    by_cases notBefore : dueCandidate c t len ≤ e
    · exact dayDue_day_expiry_not_before notBefore ▸ le_dueCandidate len inRange
    have before := Nat.not_le.mp notBefore
    by_cases expired : e < t
    · exact Nat.le_of_eq (dayDue_day_expired_at_issue before expired).symm
    · exact dayDue_day_expiry_before before (Nat.not_lt.mp expired) ▸ c.le_lastOpen_getD t (e - t)

/-! ### Dues of minute loans -/

theorem minuteDueUnclamped_open {c : Settings} {t m len : Nat} {h : Hours} (opened : c.hours t = some h)
    (early : m < h.closeMin) :
    minuteDueUnclamped c { day := t, minute := m } len = { day := t, minute := min (m + len) h.closeMin } := by
  simp only [minuteDueUnclamped, opened, if_pos early]

/-- A loan given on a closed day or at or after the close falls due on the next open day (R115). -/
theorem minuteDueUnclamped_next_open {c : Settings} {t m len n : Nat} {h : Hours}
    (shut : c.hours t = none ∨ ∃ g, c.hours t = some g ∧ g.closeMin ≤ m) (found : c.openSearch t = some n)
    (opened : c.hours n = some h) :
    minuteDueUnclamped c { day := t, minute := m } len
      = { day := n, minute := min (h.openMin + len) h.closeMin } := by
  obtain closed | ⟨g, openToday, late⟩ := shut
  · simp only [minuteDueUnclamped, closed, found, opened]
  · simp only [minuteDueUnclamped, openToday, if_neg (Nat.not_lt.mpr late), found, opened]

theorem minuteDueUnclamped_none_open {c : Settings} {t m : Nat} (len : Nat)
    (shut : c.hours t = none ∨ ∃ g, c.hours t = some g ∧ g.closeMin ≤ m) (missing : c.openSearch t = none) :
    minuteDueUnclamped c { day := t, minute := m } len = { day := t, minute := 1439 } := by
  obtain closed | ⟨g, openToday, late⟩ := shut
  · simp only [minuteDueUnclamped, closed, missing]
  · simp only [minuteDueUnclamped, openToday, if_neg (Nat.not_lt.mpr late), missing]

/-- A day the search yields is open, so it has hours. -/
theorem Settings.hours_of_openSearch {c : Settings} {x n : Nat} (found : c.openSearch x = some n) :
    ∃ h, c.hours n = some h := by
  obtain ⟨_, _, _, opened, _⟩ := Settings.searchFrom_eq_some_iff.mp found
  exact Option.isSome_iff_exists.mp opened

theorem le_minuteDueUnclamped_day (c : Settings) (t m len : Nat) :
    t ≤ (minuteDueUnclamped c { day := t, minute := m } len).day := by
  by_cases openNow : ∃ h, c.hours t = some h ∧ m < h.closeMin
  · obtain ⟨h, opened, early⟩ := openNow
    rw [minuteDueUnclamped_open opened early]
  have shut : c.hours t = none ∨ ∃ g, c.hours t = some g ∧ g.closeMin ≤ m := by
    cases today : c.hours t with
    | none => exact .inl rfl
    | some g => exact .inr ⟨g, rfl, Nat.not_lt.mp fun early => openNow ⟨g, today, early⟩⟩
  cases found : c.openSearch t with
  | none => rw [minuteDueUnclamped_none_open len shut found]
  | some n =>
    obtain ⟨h, opened⟩ := Settings.hours_of_openSearch found
    obtain ⟨above, _⟩ := Settings.searchFrom_eq_some_iff.mp found
    rw [minuteDueUnclamped_next_open shut found opened]
    exact Nat.le_of_lt above

theorem minuteDue_no_expiry (c : Settings) (now : Time) (len : Nat) :
    minuteDue c now len none = minuteDueUnclamped c now len := rfl

/-- R115: a due on a later day than the issue, past the expiry, moves to the end of the issue day. -/
theorem minuteDue_moved {c : Settings} (now : Time) {len e : Nat}
    (past : now.day < (minuteDueUnclamped c now len).day ∧ e < (minuteDueUnclamped c now len).day) :
    minuteDue c now len (some e) = { day := now.day, minute := 1439 } := if_pos past

theorem minuteDue_kept {c : Settings} (now : Time) {len e : Nat}
    (notPast : ¬ (now.day < (minuteDueUnclamped c now len).day ∧ e < (minuteDueUnclamped c now len).day)) :
    minuteDue c now len (some e) = minuteDueUnclamped c now len := if_neg notPast

theorem le_minuteDue_day (c : Settings) (t m len : Nat) (x : Option Nat) :
    t ≤ (minuteDue c { day := t, minute := m } len x).day := by
  cases x with
  | none => exact le_minuteDueUnclamped_day c t m len
  | some e =>
    by_cases past : t < (minuteDueUnclamped c { day := t, minute := m } len).day
        ∧ e < (minuteDueUnclamped c { day := t, minute := m } len).day
    · rw [minuteDue_moved _ past]
    · rw [minuteDue_kept _ past]
      exact le_minuteDueUnclamped_day c t m len

theorem dueFor_day {c : Settings} {r : Rule} (now : Time) (x : Option Nat) (unit : r.unit = .day) :
    dueFor c r now x = dayDue c now.day r.length x := by rw [dueFor, unit]

theorem dueFor_minute {c : Settings} {r : Rule} (now : Time) (x : Option Nat) (unit : r.unit = .minute) :
    dueFor c r now x = minuteDue c now r.length x := by rw [dueFor, unit]

theorem le_dueFor_day {c : Settings} {t : Nat} (r : Rule) (m : Nat) (x : Option Nat) (inRange : t ≤ 65535) :
    t ≤ (dueFor c r { day := t, minute := m } x).day := by
  cases unit : r.unit with
  | day => exact dueFor_day _ x unit ▸ le_dayDue_day r.length x inRange
  | minute => exact dueFor_minute _ x unit ▸ le_minuteDue_day c t m r.length x

/-! ### Effective returns and pickup deadlines -/

/-- R117: the backdate day clamped into the week that ends today. -/
theorem clamp_backdate (b today : Nat) :
    min (max b (today - 7)) today = if b < today - 7 then today - 7 else if today < b then today else b := by
  split
  · omega
  · split <;> omega

theorem effectiveReturn_backdated {time : Time} {b today : Nat}
    (earlier : Time.earlier { day := min (max b (today - 7)) today, minute := 0 } time = true) :
    effectiveReturn time (some b) today
      = ({ day := min (max b (today - 7)) today, minute := 0 }, some (min (max b (today - 7)) today)) :=
  if_pos earlier

theorem effectiveReturn_not_backdated {time : Time} {b today : Nat}
    (notEarlier : ¬ Time.earlier { day := min (max b (today - 7)) today, minute := 0 } time = true) :
    effectiveReturn time (some b) today = (time, none) := if_neg notEarlier

theorem pickupDeadline_open {c : Settings} {today : Nat} (opened : c.isOpen (addDays today c.config.pickup) = true) :
    pickupDeadline c today = addDays today c.config.pickup := if_pos opened

theorem pickupDeadline_closed {c : Settings} {today : Nat} (closed : c.isOpen (addDays today c.config.pickup) = false) :
    pickupDeadline c today
      = (c.openSearch (addDays today c.config.pickup)).getD (addDays today c.config.pickup) :=
  if_neg (Bool.eq_false_iff.mp closed)

/-- Settles O39: one law above for each case of the tables of R113 to R115, of R117 and of R84. -/
theorem dayLoansFallDueOnOpenDays : Obligations.DayLoansFallDueOnOpenDays := by
  refine ⟨fun c t len x inRange => ⟨⟨fun h => Settings.closeMinute_of_hours, Settings.closeMinute_of_closed⟩,
      fun notBefore => ?expiryNotBefore, fun e isExpiry before => ⟨fun n from_t upTo opened closedAfter => ?lastOpen,
        fun closed => ?noneOpen⟩⟩,
    fun c r t m x inRange => ⟨le_dueFor_day r m x inRange, dueFor_day _ x, fun unit => ?minuteLoan⟩,
    fun time b today => ⟨rfl, ?backdate⟩,
    fun c today => ⟨pickupDeadline_open, fun closed => ⟨fun n found => ?pickupMoved, fun missing => ?pickupKept⟩⟩⟩
  case expiryNotBefore =>
    cases x with
    | none => exact dayDue_day_no_expiry c t len
    | some e => exact dayDue_day_expiry_not_before (notBefore e rfl)
  case lastOpen => subst isExpiry; exact dayDue_day_last_open before from_t upTo opened closedAfter
  case noneOpen => subst isExpiry; exact dayDue_day_none_open before closed
  case minuteLoan =>
    simp only [dueFor_minute _ _ unit, minuteDue_no_expiry]
    refine ⟨fun h opened early => ?_, fun shut => ⟨fun n h => minuteDueUnclamped_next_open shut,
      minuteDueUnclamped_none_open r.length shut⟩, fun e =>
      ⟨minuteDue_moved { day := t, minute := m }, minuteDue_kept { day := t, minute := m }⟩⟩
    rw [minuteDueUnclamped_open opened early, Nat.min_def]
  case backdate =>
    rw [← clamp_backdate, ← Time.earlier_iff (a := { day := _, minute := 0 })]
    exact ⟨effectiveReturn_backdated, effectiveReturn_not_backdated⟩
  case pickupMoved => exact (pickupDeadline_closed closed).trans (by rw [addDays, found]; rfl)
  case pickupKept => exact (pickupDeadline_closed closed).trans (by rw [addDays, missing]; rfl)

end Sys2Proof.Machine
end

section
/-! PROOFS. What the operations of a desk engine leave as it was: they change engines, printer, store and ports alone, add
nothing to a scan queue and keep the slip queue within its size. -/

namespace Sys2Proof.Machine

/-! ### The parts an engine does not change -/

/-- The state without its engines, its printer, its store and its ports. -/
def State.offDesk (s : State) : State :=
  { s with
    engA := Engine.initial, engB := Engine.initial, store := Store.initial, printer := Printer.initial
    portA := PortState.initial, portB := PortState.initial, portU := PortState.initial }

/-- `t` is `s` after an operation of desk `d`'s engine. -/
structure State.DeskStep (d : Desk) (s t : State) : Prop where
  rest : t.offDesk = s.offDesk
  other : ∀ d', d' ≠ d → t.eng d' = s.eng d'
  queue : (t.eng d).queue.length ≤ (s.eng d).queue.length
  slips : s.printer.queue.length ≤ 8 → t.printer.queue.length ≤ 8

namespace State.DeskStep

variable {d : Desk} {s t u : State}

theorem refl (d : Desk) (s : State) : s.DeskStep d s := ⟨rfl, fun _ _ => rfl, le_refl _, id⟩

theorem trans (h1 : s.DeskStep d t) (h2 : t.DeskStep d u) : s.DeskStep d u :=
  ⟨h2.rest.trans h1.rest, fun d' hd => (h2.other d' hd).trans (h1.other d' hd), h2.queue.trans h1.queue,
    fun h => h2.slips (h1.slips h)⟩

theorem setEng (s : State) {e : Engine} (he : e.queue.length ≤ (s.eng d).queue.length) : s.DeskStep d (s.setEng d e) :=
  ⟨by cases d <;> rfl, fun _ hd => s.eng_setEng_ne hd e, by rw [s.eng_setEng]; exact he, by rw [s.setEng_printer]; exact id⟩

theorem setPort (d : Desk) (s : State) (p : Port) (x : PortState) : s.DeskStep d (s.setPort p x) :=
  ⟨by rcases p with (_ | _) | _ <;> rfl, fun d' _ => s.eng_setPort p x d', by rw [s.eng_setPort],
    by rw [s.setPort_printer]; exact id⟩

theorem sendTxn (d : Desk) (s : State) (c : Claimant) (t : Txn) : s.DeskStep d (s.sendTxn c t) :=
  ⟨by rcases c with (_ | _) | (_ | _) | _ | _ <;> rfl, fun d' _ => s.eng_sendTxn c t d', by rw [s.eng_sendTxn],
    by rw [s.sendTxn_printer]; exact id⟩

theorem setPrinter (d : Desk) (s : State) {p : Printer} (hp : s.printer.queue.length ≤ 8 → p.queue.length ≤ 8) :
    s.DeskStep d { s with printer := p } :=
  ⟨rfl, fun d' _ => by cases d' <;> rfl, by cases d <;> exact le_refl _, hp⟩

theorem respondWith (d : Desk) (s : State) (p : Port) (code : RespCode) (ans : Answer) (g r : Bool) :
    s.DeskStep d (s.respondWith p code ans g r) := by
  unfold State.respondWith
  split
  · exact refl d s
  · exact setPort d s _ _

theorem respond (d : Desk) (s : State) (p : Port) (code : RespCode) (ans : Answer) :
    s.DeskStep d (s.respond p code ans) := respondWith ..

end State.DeskStep

/-! ### The slip queue -/

@[simp] theorem Printer.sendFront_queue (p : Printer) : p.sendFront.queue = p.queue := by
  unfold Printer.sendFront; split <;> simp_all

theorem Printer.join_queue (p : Printer) (x : Slip) : (p.join x).queue = p.queue ++ [x] := by
  simp only [Printer.join]
  split
  · rw [Printer.sendFront_queue]
  · rfl

theorem Printer.join_fits {p : Printer} (x : Slip) (h : p.hasRoom = true) : (p.join x).queue.length ≤ 8 := by
  rw [Printer.join_queue, List.length_append]
  exact of_decide_eq_true h

/-! ### Operations of a desk engine -/

namespace State.DeskStep

variable (d : Desk) (s : State)

theorem putResult (label : List Nat) (f : Fields) : s.DeskStep d (s.putResult d label f) := setEng s (le_refl _)
theorem toIdle : s.DeskStep d (s.toIdle d) := setEng s (le_refl _)
theorem toSession (ss : Session) : s.DeskStep d (s.toSession d ss) := setEng s (le_refl _)
theorem toAwait (h : HeldScan) : s.DeskStep d (s.toAwait d h) := setEng s (le_refl _)

theorem toSlipWait (x : Slip) (f : FollowOn) : s.DeskStep d (s.toSlipWait d x f) :=
  (setEng s (e := { s.eng d with ctx := .slipWait x f, idleMs := none }) (le_refl _)).trans (setPrinter d _ id)

theorem serve (sc : Scan) (t : Txn) : s.DeskStep d (s.serve d sc t) :=
  (setEng s (e := { s.eng d with service := some (.entry sc) }) (le_refl _)).trans (sendTxn ..)

theorem sendCheck (sc : Scan) : s.DeskStep d (s.sendCheck d sc) := (toIdle d s).trans (serve ..)

theorem join {x : Slip} (h : s.printer.hasRoom = true) :
    s.DeskStep d { s with printer := s.printer.join x } := setPrinter d s fun _ => Printer.join_fits x h

theorem follow (f : FollowOn) : s.DeskStep d (s.follow d f) := by
  cases f with
  | idle => exact toIdle d s
  | resume ss => exact toSession d s ss
  | serveBorrower sc =>
    simp only [State.follow]
    split
    · exact sendCheck d s sc
    · exact (toIdle d s).trans (putResult ..)
  | closeResumed ss =>
    simp only [State.follow]
    split
    · exact toIdle d s
    · split
      · next room => exact (join d s room).trans (toIdle ..)
      · exact toSlipWait ..

theorem offerSlip (x : Slip) (f : FollowOn) : s.DeskStep d (s.offerSlip d x f) := by
  unfold State.offerSlip
  split
  · next room => exact (join d s room).trans (follow ..)
  · exact toSlipWait ..

theorem closeSession (ss : Session) (f : FollowOn) : s.DeskStep d (s.closeSession d ss f) := by
  unfold State.closeSession
  split
  · exact (toIdle d s).trans (follow ..)
  · exact (toIdle d s).trans (offerSlip ..)

theorem addIssued (ss : Session) (e : Issued) : s.DeskStep d (s.addIssued d ss e) := by
  unfold State.addIssued
  split
  · exact toSession ..
  · exact offerSlip ..

theorem leaveHeld (h : HeldScan) : s.DeskStep d (s.leaveHeld d h) := by
  unfold State.leaveHeld
  split
  · exact toSession ..
  · exact toIdle ..

theorem declineHeld (h : HeldScan) (late : Bool) : s.DeskStep d (s.declineHeld d h late) :=
  trans (trans (putResult d s _ _) (t := s.putResult d h.scan.label.digits h.stop.declined)
    (u := State.setEng _ d { State.eng _ d with overrideMs := none, late := late || (State.eng _ d).late })
    (setEng _ (le_refl _))) (leaveHeld ..)

theorem leaveOpen : s.DeskStep d (s.leaveOpen d) := by
  unfold State.leaveOpen
  split
  · exact refl d s
  · exact closeSession ..
  · split
    · exact declineHeld ..
    · exact (declineHeld d s _ _).trans (closeSession ..)
  · exact setEng s (le_refl _)
  · exact refl d s

theorem refuseHeld (code : RespCode) : s.DeskStep d (s.refuseHeld d code) :=
  (setEng s (e := { s.eng d with late := if code = .tooLate then false else (s.eng d).late }) (le_refl _)).trans
    (respond ..)

theorem doOverride : s.DeskStep d (s.doOverride d) := by
  unfold State.doOverride
  split
  · exact refuseHeld ..
  · split
    · exact respond ..
    · refine trans ?_ (sendTxn ..)
      exact setEng s (le_refl _)

theorem doDecline : s.DeskStep d (s.doDecline d) := by
  unfold State.doDecline
  split
  · exact refuseHeld ..
  · exact (declineHeld d s _ _).trans (respond ..)

theorem doDropSlip : s.DeskStep d (s.doDropSlip d) := by
  unfold State.doDropSlip
  split
  · exact respond ..
  · split
    · exact respond ..
    · split
      · next x f _ =>
        refine trans (trans (respond d s (.desk d) .ok (.slipDropped x.kind)) ?_) (follow ..)
        exact setPrinter d _ id
      · exact respond ..

theorem actOn (ev : CtxEvent) : s.DeskStep d (s.actOn d ev) := by
  cases ev with
  | leaveOpen => exact leaveOpen d s
  | override => exact doOverride d s
  | decline => exact doDecline d s
  | dropSlip => exact doDropSlip d s

theorem runDeferred (stop : Bool) (n : Nat) : s.DeskStep d (State.runDeferred d stop n s) := by
  induction n generalizing s with
  | zero => exact refl d s
  | succ n ih =>
    unfold State.runDeferred
    split
    · exact refl d s
    · split
      · exact refl d s
      · split
        · exact refl d s
        · refine trans (trans ?_ (actOn ..)) (ih _)
          exact setEng s (le_refl _)

theorem settle : s.DeskStep d (s.settle d) := runDeferred ..

theorem restIdle_queue (e : Engine) : e.restIdle.queue = e.queue := by unfold Engine.restIdle; split <;> rfl

theorem endService : s.DeskStep d (s.endService d) :=
  (setEng s (le_of_eq (congrArg List.length (restIdle_queue _)))).trans (runDeferred ..)

theorem reachContext (ev : CtxEvent) : s.DeskStep d (s.reachContext d ev) :=
  (setEng s (e := { s.eng d with deferred := (s.eng d).deferred ++ [ev] }) (le_refl _)).trans (settle ..)

theorem checkDone (sc : Scan) (r : CheckReply) : s.DeskStep d (s.checkDone d sc r) := by
  unfold State.checkDone
  split
  · exact (putResult d s _ _).trans (toIdle ..)
  · exact (putResult d s _ _).trans (toSession ..)
  · split
    · exact (putResult d s _ _).trans (toIdle ..)
    · exact toAwait ..

theorem overrideCheckDone (h : HeldScan) (r : CheckReply) : s.DeskStep d (s.overrideCheckDone d h r) := by
  unfold State.overrideCheckDone
  dsimp only
  refine trans ?_ (respond ..)
  split
  · exact (putResult d s _ _).trans (toIdle ..)
  · split
    · exact (putResult d s _ _).trans (toIdle ..)
    · exact (putResult d s _ _).trans (toSession ..)

theorem issueOutcome (sc : Scan) (ss : Session) (f : Fields) : s.DeskStep d (s.issueOutcome d sc ss f) := by
  unfold State.issueOutcome
  dsimp only
  refine (putResult d s sc.label.digits f).trans ?_
  split
  · exact addIssued ..
  · exact closeSession ..
  · exact toSession ..

theorem issueDone (sc : Scan) (f : Fields) : s.DeskStep d (s.issueDone d sc f) := by
  unfold State.issueDone
  split
  · split
    · exact toAwait ..
    · exact issueOutcome ..
  · exact putResult ..

theorem overrideDone (h : HeldScan) (f : Fields) : s.DeskStep d (s.overrideDone d h f) := by
  unfold State.overrideDone
  dsimp only
  refine trans ?_ (respond ..)
  split
  · exact toAwait ..
  · exact issueOutcome ..
  · exact (putResult d s _ _).trans (toIdle ..)

theorem plainDone (sc : Scan) (f : Fields) : s.DeskStep d (s.plainDone d sc f) := by
  unfold State.plainDone
  dsimp only
  refine (putResult d s sc.label.digits f).trans ?_
  split
  · exact offerSlip ..
  · exact refl ..

theorem engineScan (isIssue : Bool) (f : Fields) : s.DeskStep d (s.engineScan d isIssue f) := by
  unfold State.engineScan
  split
  · refine trans ?_ (endService ..)
    split
    · exact issueDone ..
    · exact plainDone ..
  · exact (overrideDone d s _ _).trans (endService ..)
  · exact refl d s

theorem engineCheck (r : CheckReply) : s.DeskStep d (s.engineCheck d r) := by
  unfold State.engineCheck
  split
  · exact (checkDone d s _ _).trans (endService ..)
  · exact (overrideCheckDone d s _ _).trans (endService ..)
  · exact refl d s

theorem serveScan (sc : Scan) : s.DeskStep d (s.serveScan d sc) := by
  unfold State.serveScan
  dsimp only
  split
  · exact (putResult d s _ _).trans (endService ..)
  · split
    · split
      · exact (putResult d s _ _).trans (endService ..)
      · exact closeSession ..
    · exact sendCheck ..
    · exact serve ..
    · exact (putResult d s _ _).trans (endService ..)
    all_goals exact serve ..

theorem serveMode (m : Mode) (backdate : Option Nat) : s.DeskStep d (s.serveMode d m backdate) := by
  unfold State.serveMode
  dsimp only
  have h : s.DeskStep d (s.setEng d { s.eng d with mode := m, backdate := if m = .returns then backdate else none }) :=
    setEng s (le_refl _)
  split
  · split
    · exact h.trans (endService ..)
    · exact h.trans (closeSession ..)
  · exact h

theorem serveClose : s.DeskStep d (s.serveClose d) := by
  unfold State.serveClose
  split
  · exact (closeSession d s _ _).trans (putResult ..)
  · exact refl d s

theorem takeFront : s.DeskStep d (s.takeFront d) := by
  unfold State.takeFront
  split
  · next en rest _ hq =>
    have h : s.DeskStep d (s.setEng d { s.eng d with queue := rest, idleMs := none, late := false }) :=
      setEng s (by simp [hq])
    dsimp only
    split
    · exact h.trans (serveScan ..)
    · exact h.trans (serveMode ..)
    · exact h.trans (serveClose ..)
  · exact refl d s

theorem idleExpiry : s.DeskStep d (s.idleExpiry d) := by
  unfold State.idleExpiry
  split
  · split
    · exact closeSession ..
    · exact refl d s
  · exact refl d s

theorem overrideExpiry : s.DeskStep d (s.overrideExpiry d) := by
  unfold State.overrideExpiry
  split
  · split
    · exact declineHeld ..
    · exact refl d s
  · exact refl d s

end State.DeskStep

end Sys2Proof.Machine
end

section
/-! PROOFS. A desk engine keeps a place for every result it owes (R16, R24, R26, R32): what each of its operations makes of
the engine's record, and that `Engine.KeepsPlaces` holds of it. -/

namespace Sys2Proof.Machine

/-! ### Context changes -/

/-- The engine's record once its context has become Idle, a session, or a slip wait that holds no scan; nothing else of it
has changed. -/
inductive Engine.Moved (e : Engine) : Engine → Prop where
  | idle : Moved e { e with ctx := .idle, idleMs := none }
  | session (ss : Session) : Moved e { e with ctx := .session ss, idleMs := some 0 }
  | slipWait (x : Slip) (f : FollowOn) (hf : ∀ sc, f ≠ .serveBorrower sc) :
      Moved e { e with ctx := .slipWait x f, idleMs := none }

namespace Engine.Moved

variable {e e1 e2 : Engine}

theorem trans (h1 : e.Moved e1) (h2 : e1.Moved e2) : e.Moved e2 := by
  cases h1 <;> cases h2 <;> first | exact .idle | exact .session _ | exact .slipWait _ _ ‹_›

theorem addResult (h : e.Moved e1) (r : ResultRec) :
    Engine.Moved { e with results := e.results ++ [r] } { e1 with results := e1.results ++ [r] } := by
  cases h with
  | idle => exact .idle
  | session ss => exact .session ss
  | slipWait x f hf => exact .slipWait x f hf

theorem service (h : e.Moved e1) : e1.service = e.service := by cases h <;> rfl

theorem overrideMs (h : e.Moved e1) : e1.overrideMs = e.overrideMs := by cases h <;> rfl

/-- No scan is held after a context change: with the service over, sixteen results do. -/
theorem keepsPlaces (h : e.Moved e1) (hr : e.results.length ≤ 16) (ho : e.overrideMs = none) :
    Engine.KeepsPlaces { e1 with service := none } := by
  cases h with
  | idle => exact ⟨hr, by simp [Engine.owesResult], by simp, by simp, by simp, by simp [ho]⟩
  | session ss => exact ⟨hr, by simp [Engine.owesResult], by simp, by simp, by simp, by simp [ho]⟩
  | slipWait x f hf => exact ⟨hr, by simp [Engine.owesResult, hf], by simp, by simp, by simp, by simp [ho]⟩

theorem keepsPlaces_free (h : e.Moved e1) (hr : e.results.length ≤ 16) (ho : e.overrideMs = none)
    (hs : e.service = none) : e1.KeepsPlaces := by
  have := h.keepsPlaces hr ho
  rwa [← hs, ← h.service] at this

end Engine.Moved

namespace Engine.KeepsPlaces

variable {e : Engine}

/-- The override timer runs in AwaitOverride alone (R26). -/
theorem overrideMs_none (h : e.KeepsPlaces) (hc : ∀ x, e.ctx ≠ .awaitOverride x) : e.overrideMs = none := by
  cases hm : e.overrideMs with
  | none => rfl
  | some m => obtain ⟨_, x, hx⟩ := h.overrideTimer (by simp [hm]); exact absurd hx (hc x)

/-- Nothing runs while an entry is in service (R24, R26). -/
theorem timers_none (h : e.KeepsPlaces) (hs : e.service ≠ none) : e.idleMs = none ∧ e.overrideMs = none := by
  constructor
  · cases hm : e.idleMs with
    | none => rfl
    | some m => exact absurd (h.idleTimer (by simp [hm])).1 hs
  · cases hm : e.overrideMs with
    | none => rfl
    | some m => exact absurd (h.overrideTimer (by simp [hm])).1 hs

theorem service_none (h : e.KeepsPlaces) {x : Slip} {f : FollowOn} (hc : e.ctx = .slipWait x f) : e.service = none := by
  cases hs : e.service with
  | none => rfl
  | some v =>
    cases v with
    | entry sc => rcases h.entry sc hs with hi | ⟨ss, hi⟩ <;> rw [hc] at hi <;> cases hi
    | overriding => obtain ⟨y, hy⟩ := h.overriding hs; rw [hc] at hy; cases hy

/-- A change of marks, of mode or of the queues leaves a place for every result. -/
theorem congr {e1 : Engine} (h : e.KeepsPlaces) (hr : e1.results.length ≤ e.results.length) (hc : e1.ctx = e.ctx)
    (hs : e1.service = e.service) (hi : e1.idleMs.isSome = true → e.idleMs.isSome = true)
    (ho : e1.overrideMs.isSome = true → e.overrideMs.isSome = true) : e1.KeepsPlaces where
  results := hr.trans h.results
  room owed := hr.trans (h.room (by rw [Engine.owesResult, ← hs, ← hc]; exact owed))
  entry sc hsc := by rw [hc]; exact h.entry sc (hs ▸ hsc)
  overriding hov := by rw [hc]; exact h.overriding (hs ▸ hov)
  idleTimer hm := by rw [hc, hs]; exact h.idleTimer (hi hm)
  overrideTimer hm := by rw [hc, hs]; exact h.overrideTimer (ho hm)

/-- A service that ends without a change of context owes nothing more than before. -/
theorem withoutService (h : e.KeepsPlaces) : Engine.KeepsPlaces { e with service := none } where
  results := h.results
  room owed := h.room (by
    rcases owed with ⟨sc, hs⟩ | held
    · cases hs
    · exact .inr held)
  entry := by simp
  overriding := by simp
  idleTimer hm := ⟨rfl, (h.idleTimer hm).2⟩
  overrideTimer hm := ⟨rfl, (h.overrideTimer hm).2⟩

/-- A context that holds a stopped scan. -/
theorem await {x : HeldScan} {m : Option Nat} (hr : e.results.length ≤ 15) (hc : e.ctx = .awaitOverride x)
    (hs : e.service = none) (hi : e.idleMs = none) : Engine.KeepsPlaces { e with overrideMs := m } :=
  ⟨hr.trans (by omega), fun _ => hr, by simp [hs], by simp [hs], by simp [hi], fun _ => ⟨hs, x, hc⟩⟩

/-- A scan goes into service in Idle or in a session, with no timer running. -/
theorem serving {sc : Scan} (hr : e.results.length ≤ 15) (hc : e.ctx = .idle ∨ ∃ ss, e.ctx = .session ss)
    (hi : e.idleMs = none) (ho : e.overrideMs = none) : Engine.KeepsPlaces { e with service := some (.entry sc) } :=
  ⟨hr.trans (by omega), fun _ => hr, fun _ _ => hc, by simp, by simp [hi], by simp [ho]⟩

/-- A result placed when its service ends in Idle or in a session. -/
theorem placed {r : ResultRec} (h : e.KeepsPlaces) (hr : e.results.length ≤ 15)
    (hc : e.ctx = .idle ∨ ∃ ss, e.ctx = .session ss) (hi : e.idleMs = none) :
    Engine.KeepsPlaces { e with results := e.results ++ [r], service := none } where
  results := by simp; omega
  room owed := by
    rcases hc with hc | ⟨ss, hc⟩ <;> simp [Engine.owesResult, hc] at owed
  entry := by simp
  overriding := by simp
  idleTimer := by simp [hi]
  overrideTimer := by
    rw [h.overrideMs_none (by rcases hc with hc | ⟨ss, hc⟩ <;> simp [hc])]; simp

end Engine.KeepsPlaces

/-! ### What an operation makes of its engine's record -/

@[simp] theorem State.eng_withPrinter (s : State) (p : Printer) (d : Desk) : State.eng { s with printer := p } d = s.eng d := by
  cases d <;> rfl

@[simp] theorem State.eng_respondWith (s : State) (p : Port) (code : RespCode) (ans : Answer) (g r : Bool) (d : Desk) :
    (s.respondWith p code ans g r).eng d = s.eng d := by
  unfold State.respondWith; split <;> simp

@[simp] theorem State.eng_respond (s : State) (p : Port) (code : RespCode) (ans : Answer) (d : Desk) :
    (s.respond p code ans).eng d = s.eng d := s.eng_respondWith ..

section
variable (s : State) (d : Desk)

@[simp] theorem State.eng_putResult (label : List Nat) (f : Fields) :
    (s.putResult d label f).eng d
      = { s.eng d with results := (s.eng d).results ++ [{ label := label, fields := f }] } := s.eng_setEng ..

@[simp] theorem State.eng_toIdle : (s.toIdle d).eng d = { s.eng d with ctx := .idle, idleMs := none } := s.eng_setEng ..

@[simp] theorem State.eng_toSession (ss : Session) :
    (s.toSession d ss).eng d = { s.eng d with ctx := .session ss, idleMs := some 0 } := s.eng_setEng ..

@[simp] theorem State.eng_toAwait (h : HeldScan) :
    (s.toAwait d h).eng d
      = { s.eng d with ctx := .awaitOverride h, idleMs := none, overrideMs := some 0, late := false } := s.eng_setEng ..

@[simp] theorem State.eng_toSlipWait (x : Slip) (f : FollowOn) :
    (s.toSlipWait d x f).eng d = { s.eng d with ctx := .slipWait x f, idleMs := none } := by
  cases d <;> rfl

@[simp] theorem State.eng_serve (sc : Scan) (t : Txn) :
    (s.serve d sc t).eng d = { s.eng d with service := some (.entry sc) } := by
  unfold State.serve; simp

@[simp] theorem State.eng_sendCheck (sc : Scan) :
    (s.sendCheck d sc).eng d = { s.eng d with ctx := .idle, idleMs := none, service := some (.entry sc) } := by
  unfold State.sendCheck; simp

theorem State.follow_moved {f : FollowOn} (hf : ∀ sc, f ≠ .serveBorrower sc) :
    (s.eng d).Moved ((s.follow d f).eng d) := by
  cases f with
  | idle => rw [State.follow, State.eng_toIdle]; exact .idle
  | resume ss => rw [State.follow, State.eng_toSession]; exact .session ss
  | serveBorrower sc => exact absurd rfl (hf sc)
  | closeResumed ss =>
    simp only [State.follow]
    split
    · rw [State.eng_toIdle]; exact .idle
    · split
      · rw [State.eng_toIdle, State.eng_withPrinter]; exact .idle
      · rw [State.eng_toSlipWait]; exact .slipWait _ _ (by simp)

theorem State.offerSlip_moved (x : Slip) {f : FollowOn} (hf : ∀ sc, f ≠ .serveBorrower sc) :
    (s.eng d).Moved ((s.offerSlip d x f).eng d) := by
  unfold State.offerSlip
  split
  · have h := State.follow_moved { s with printer := s.printer.join x } d hf
    rwa [State.eng_withPrinter] at h
  · rw [State.eng_toSlipWait]; exact .slipWait x f hf

theorem State.closeSession_moved (ss : Session) {f : FollowOn} (hf : ∀ sc, f ≠ .serveBorrower sc) :
    (s.eng d).Moved ((s.closeSession d ss f).eng d) := by
  have hi : (s.eng d).Moved ((s.toIdle d).eng d) := by rw [State.eng_toIdle]; exact .idle
  unfold State.closeSession
  split
  · exact hi.trans (State.follow_moved _ d hf)
  · exact hi.trans (State.offerSlip_moved _ d _ hf)

theorem State.addIssued_moved (ss : Session) (x : Issued) : (s.eng d).Moved ((s.addIssued d ss x).eng d) := by
  unfold State.addIssued
  split
  · rw [State.eng_toSession]; exact .session _
  · exact State.offerSlip_moved s d _ (by simp)

theorem State.leaveHeld_moved (h : HeldScan) : (s.eng d).Moved ((s.leaveHeld d h).eng d) := by
  unfold State.leaveHeld
  split
  · rw [State.eng_toSession]; exact .session _
  · rw [State.eng_toIdle]; exact .idle

/-- The record of an engine whose held scan has been declined, before its context moves on (R29). -/
def Engine.declined (e : Engine) (h : HeldScan) (late : Bool) : Engine :=
  { e with results := e.results ++ [{ label := h.scan.label.digits, fields := h.stop.declined }]
           overrideMs := none, late := late || e.late }

theorem State.declineHeld_moved (h : HeldScan) (late : Bool) :
    ((s.eng d).declined h late).Moved ((s.declineHeld d h late).eng d) := by
  have hm := State.leaveHeld_moved
    ((s.putResult d h.scan.label.digits h.stop.declined).setEng d ((s.eng d).declined h late)) d h
  rw [State.eng_setEng] at hm
  unfold State.declineHeld
  dsimp only
  rw [State.eng_putResult]
  exact hm

theorem State.issueOutcome_moved (sc : Scan) (ss : Session) (f : Fields) :
    Engine.Moved { s.eng d with results := (s.eng d).results ++ [{ label := sc.label.digits, fields := f }] }
      ((s.issueOutcome d sc ss f).eng d) := by
  unfold State.issueOutcome
  dsimp only
  rw [← State.eng_putResult]
  split
  · exact State.addIssued_moved ..
  · exact State.closeSession_moved _ d ss (by simp)
  · rw [State.eng_toSession]; exact .session ss

/-! ### Operations with nothing in service -/

/-- A follow-on keeps the places, a borrower's scan having kept one while it waited behind its slip (R16, R25). -/
theorem State.follow_keepsPlaces {f : FollowOn} (hr : (s.eng d).results.length ≤ 16)
    (ho : (s.eng d).overrideMs = none) (hs : (s.eng d).service = none)
    (hf : ∀ sc, f = .serveBorrower sc → (s.eng d).results.length ≤ 15) : ((s.follow d f).eng d).KeepsPlaces := by
  by_cases hb : ∃ sc, f = .serveBorrower sc
  · obtain ⟨sc, rfl⟩ := hb
    have hr15 := hf sc rfl
    unfold State.follow
    dsimp only
    split
    · rw [State.eng_sendCheck]
      exact Engine.KeepsPlaces.serving (e := { s.eng d with ctx := .idle, idleMs := none }) hr15 (.inl rfl) rfl ho
    · rw [State.eng_putResult, State.eng_toIdle]
      exact Engine.Moved.keepsPlaces_free
        (e := { s.eng d with results := (s.eng d).results ++ [{ label := sc.label.digits, fields := { verdict := .notOpen } }] })
        .idle (by simp; omega) ho hs
  · exact (State.follow_moved s d (fun sc h => hb ⟨sc, h⟩)).keepsPlaces_free hr ho hs

theorem State.offerSlip_keepsPlaces (x : Slip) {f : FollowOn} (hr : (s.eng d).results.length ≤ 16)
    (ho : (s.eng d).overrideMs = none) (hs : (s.eng d).service = none)
    (hf : ∀ sc, f = .serveBorrower sc → (s.eng d).results.length ≤ 15) : ((s.offerSlip d x f).eng d).KeepsPlaces := by
  unfold State.offerSlip
  split
  · exact State.follow_keepsPlaces { s with printer := s.printer.join x } d (by simpa) (by simpa) (by simpa) (by simpa)
  · rw [State.eng_toSlipWait]
    refine ⟨hr, ?_, by simp [hs], by simp [hs], by simp, by simp [ho]⟩
    rintro (⟨sc, h⟩ | ⟨y, h⟩ | ⟨y, sc, h⟩)
    · simp [hs] at h
    · cases h
    · cases h; exact hf sc rfl

theorem State.closeSession_keepsPlaces (ss : Session) {f : FollowOn} (hr : (s.eng d).results.length ≤ 16)
    (ho : (s.eng d).overrideMs = none) (hs : (s.eng d).service = none)
    (hf : ∀ sc, f = .serveBorrower sc → (s.eng d).results.length ≤ 15) :
    ((s.closeSession d ss f).eng d).KeepsPlaces := by
  unfold State.closeSession
  split
  · exact State.follow_keepsPlaces _ d (by simpa) (by simpa) (by simpa) (by simpa)
  · exact State.offerSlip_keepsPlaces _ d _ (by simpa) (by simpa) (by simpa) (by simpa)

/-- A session closes with nothing in service. -/
theorem State.closeSession_idle_keepsPlaces {ss : Session} (h : (s.eng d).KeepsPlaces) (hc : (s.eng d).ctx = .session ss)
    (hs : (s.eng d).service = none) : ((s.closeSession d ss .idle).eng d).KeepsPlaces :=
  s.closeSession_keepsPlaces d ss h.results (h.overrideMs_none (by simp [hc])) hs (by simp)

theorem State.declined_results {h : HeldScan} (k : (s.eng d).KeepsPlaces) (hc : (s.eng d).ctx = .awaitOverride h)
    (late : Bool) : ((s.eng d).declined h late).results.length ≤ 16 := by
  have := k.room (.inr (.inl ⟨h, hc⟩))
  simp [Engine.declined]; omega

theorem State.declineHeld_keepsPlaces {h : HeldScan} (k : (s.eng d).KeepsPlaces) (hc : (s.eng d).ctx = .awaitOverride h)
    (hs : (s.eng d).service = none) (late : Bool) : ((s.declineHeld d h late).eng d).KeepsPlaces :=
  (s.declineHeld_moved d h late).keepsPlaces_free (s.declined_results d k hc late) rfl hs

theorem State.leaveOpen_keepsPlaces (k : (s.eng d).KeepsPlaces) (hs : (s.eng d).service = none) :
    ((s.leaveOpen d).eng d).KeepsPlaces := by
  unfold State.leaveOpen
  split
  · exact k
  · next ss hc => exact s.closeSession_idle_keepsPlaces d k hc hs
  · next h hc =>
    split
    · exact s.declineHeld_keepsPlaces d k hc hs true
    · next ss _ =>
      exact ((s.declineHeld_moved d h true).trans (State.closeSession_moved _ d ss (by simp))).keepsPlaces_free
        (s.declined_results d k hc true) rfl hs
  · next x ss hc =>
    rw [State.eng_setEng]
    refine ⟨k.results, by simp [Engine.owesResult, hs], by simp [hs], by simp [hs], fun hm => ?_, fun hm => ?_⟩
    · obtain ⟨_, ss, hx⟩ := k.idleTimer hm
      simp [hc] at hx
    · obtain ⟨_, h, hx⟩ := k.overrideTimer hm
      simp [hc] at hx
  · exact k

theorem State.refuseHeld_keepsPlaces (k : (s.eng d).KeepsPlaces) (code : RespCode) :
    ((s.refuseHeld d code).eng d).KeepsPlaces := by
  unfold State.refuseHeld
  rw [State.eng_respond, State.eng_setEng]
  exact k.congr (le_refl _) rfl rfl id id

theorem State.heldOr_ctx {h : HeldScan} (hh : s.heldOr d = .inr h) : (s.eng d).ctx = .awaitOverride h := by
  unfold State.heldOr at hh
  split at hh
  · cases hh
  · split at hh
    · cases hh
    · split at hh
      · cases hh
      · split at hh
        · next hc => cases hh; exact hc
        · cases hh

theorem State.doOverride_keepsPlaces (k : (s.eng d).KeepsPlaces) : ((s.doOverride d).eng d).KeepsPlaces := by
  unfold State.doOverride
  split
  · exact s.refuseHeld_keepsPlaces d k _
  · next h hh =>
    have hc := s.heldOr_ctx d hh
    split
    · rw [State.eng_respond]; exact k
    · rw [State.eng_sendTxn, State.eng_setEng]
      have hr := k.room (.inr (.inl ⟨h, hc⟩))
      refine ⟨k.results, fun _ => hr, by simp, fun _ => ⟨h, hc⟩, ?_, by simp⟩
      intro hm
      obtain ⟨_, _, hx⟩ := k.idleTimer hm
      rw [hc] at hx; cases hx

theorem State.doDecline_keepsPlaces (k : (s.eng d).KeepsPlaces) (hs : (s.eng d).service = none) :
    ((s.doDecline d).eng d).KeepsPlaces := by
  unfold State.doDecline
  split
  · exact s.refuseHeld_keepsPlaces d k _
  · next h hh => rw [State.eng_respond]; exact s.declineHeld_keepsPlaces d k (s.heldOr_ctx d hh) hs false

/-- The follow-on of a context in SlipWait. -/
theorem State.follow_slipWait_keepsPlaces {x : Slip} {f : FollowOn} (k : (s.eng d).KeepsPlaces)
    (hc : (s.eng d).ctx = .slipWait x f) : ((s.follow d f).eng d).KeepsPlaces :=
  s.follow_keepsPlaces d k.results (k.overrideMs_none (by simp [hc])) (k.service_none hc)
    (fun sc hf => k.room (.inr (.inr ⟨x, sc, hf ▸ hc⟩)))

theorem State.doDropSlip_keepsPlaces (k : (s.eng d).KeepsPlaces) : ((s.doDropSlip d).eng d).KeepsPlaces := by
  unfold State.doDropSlip
  split
  · rw [State.eng_respond]; exact k
  · split
    · rw [State.eng_respond]; exact k
    · split
      · next hc => exact State.follow_slipWait_keepsPlaces _ d (by simpa) (by simpa using hc)
      · rw [State.eng_respond]; exact k

theorem State.actOn_keepsPlaces (k : (s.eng d).KeepsPlaces) (hs : (s.eng d).service = none) (ev : CtxEvent) :
    ((s.actOn d ev).eng d).KeepsPlaces := by
  cases ev with
  | leaveOpen => exact s.leaveOpen_keepsPlaces d k hs
  | override => exact s.doOverride_keepsPlaces d k
  | decline => exact s.doDecline_keepsPlaces d k hs
  | dropSlip => exact s.doDropSlip_keepsPlaces d k

theorem State.runDeferred_keepsPlaces (stop : Bool) (n : Nat) (k : (s.eng d).KeepsPlaces) :
    ((State.runDeferred d stop n s).eng d).KeepsPlaces := by
  induction n generalizing s with
  | zero => exact k
  | succ n ih =>
    unfold State.runDeferred
    split
    · exact k
    · next hs =>
      split
      · exact k
      · split
        · exact k
        · exact ih _ (State.actOn_keepsPlaces _ d (by rw [State.eng_setEng]; exact k.congr (le_refl _) rfl rfl id id)
            (by rw [State.eng_setEng]; simpa using hs) _)

theorem State.settle_keepsPlaces (k : (s.eng d).KeepsPlaces) : ((s.settle d).eng d).KeepsPlaces :=
  s.runDeferred_keepsPlaces d _ _ k

theorem State.reachContext_keepsPlaces (k : (s.eng d).KeepsPlaces) (ev : CtxEvent) :
    ((s.reachContext d ev).eng d).KeepsPlaces :=
  State.settle_keepsPlaces _ d (by rw [State.eng_setEng]; exact k.congr (le_refl _) rfl rfl id id)

/-! ### The end of a service -/

theorem Engine.restIdle_keepsPlaces {e : Engine} (k : Engine.KeepsPlaces { e with service := none }) :
    e.restIdle.KeepsPlaces := by
  unfold Engine.restIdle
  split
  · next ss hc =>
    refine ⟨k.results, k.room, k.entry, k.overriding, fun _ => ⟨rfl, ss, hc⟩, k.overrideTimer⟩
  · exact k

theorem State.endService_keepsPlaces (k : Engine.KeepsPlaces { s.eng d with service := none }) :
    ((s.endService d).eng d).KeepsPlaces :=
  State.runDeferred_keepsPlaces _ d _ _ (by rw [State.eng_setEng]; exact Engine.restIdle_keepsPlaces k)

/-- A service that ends with the scan held again (R23, R27, R28). -/
theorem State.toAwait_rests (h : HeldScan) (hr : (s.eng d).results.length ≤ 15) :
    Engine.KeepsPlaces { (s.toAwait d h).eng d with service := none } := by
  rw [State.eng_toAwait]
  exact Engine.KeepsPlaces.await
    (e := { s.eng d with ctx := .awaitOverride h, idleMs := none, late := false, service := none }) hr rfl rfl rfl

theorem State.checkDone_rests (sc : Scan) (r : CheckReply) (hr : (s.eng d).results.length ≤ 15)
    (ho : (s.eng d).overrideMs = none) : Engine.KeepsPlaces { (s.checkDone d sc r).eng d with service := none } := by
  unfold State.checkDone
  have placed : ∀ f : Fields,
      ((s.eng d).results ++ [({ label := sc.label.digits, fields := f } : ResultRec)]).length ≤ 16 := by
    intro f; simp; omega
  split
  · rw [State.eng_toIdle, State.eng_putResult]
    exact Engine.Moved.idle.keepsPlaces (placed _) ho
  · rw [State.eng_toSession, State.eng_putResult]
    exact (Engine.Moved.session _).keepsPlaces (placed _) ho
  · split
    · rw [State.eng_toIdle, State.eng_putResult]
      exact Engine.Moved.idle.keepsPlaces (placed _) ho
    · exact s.toAwait_rests d _ hr

theorem State.overrideCheckDone_rests (h : HeldScan) (r : CheckReply) (hr : (s.eng d).results.length ≤ 15)
    (ho : (s.eng d).overrideMs = none) :
    Engine.KeepsPlaces { (s.overrideCheckDone d h r).eng d with service := none } := by
  unfold State.overrideCheckDone
  dsimp only
  rw [State.eng_respond]
  have placed : ∀ f : Fields,
      ((s.eng d).results ++ [({ label := h.scan.label.digits, fields := f } : ResultRec)]).length ≤ 16 := by
    intro f; simp; omega
  split
  · rw [State.eng_toIdle, State.eng_putResult]
    exact Engine.Moved.idle.keepsPlaces (placed _) ho
  · split
    · rw [State.eng_toIdle, State.eng_putResult]
      exact Engine.Moved.idle.keepsPlaces (placed _) ho
    · rw [State.eng_toSession, State.eng_putResult]
      exact (Engine.Moved.session _).keepsPlaces (placed _) ho

theorem State.issueOutcome_rests (sc : Scan) (ss : Session) (f : Fields) (hr : (s.eng d).results.length ≤ 15)
    (ho : (s.eng d).overrideMs = none) :
    Engine.KeepsPlaces { (s.issueOutcome d sc ss f).eng d with service := none } :=
  (s.issueOutcome_moved d sc ss f).keepsPlaces (by simp; omega) ho

theorem State.issueDone_rests {v : Scan} (sc : Scan) (f : Fields) (k : (s.eng d).KeepsPlaces)
    (hs : (s.eng d).service = some (.entry v)) :
    Engine.KeepsPlaces { (s.issueDone d sc f).eng d with service := none } := by
  have hr := k.room (.inl ⟨v, hs⟩)
  obtain ⟨hi, ho⟩ := k.timers_none (by simp [hs])
  unfold State.issueDone
  split
  · split
    · exact s.toAwait_rests d _ hr
    · exact s.issueOutcome_rests d _ _ _ hr ho
  · rw [State.eng_putResult]; exact k.placed hr (k.entry v hs) hi

theorem State.overrideDone_rests (h : HeldScan) (f : Fields) (hr : (s.eng d).results.length ≤ 15)
    (ho : (s.eng d).overrideMs = none) :
    Engine.KeepsPlaces { (s.overrideDone d h f).eng d with service := none } := by
  unfold State.overrideDone
  dsimp only
  rw [State.eng_respond]
  split
  · exact s.toAwait_rests d _ hr
  · exact s.issueOutcome_rests d _ _ _ hr ho
  · rw [State.eng_toIdle, State.eng_putResult]
    exact Engine.Moved.idle.keepsPlaces (by simp; omega) ho

theorem State.plainDone_rests {v : Scan} (sc : Scan) (f : Fields) (k : (s.eng d).KeepsPlaces)
    (hs : (s.eng d).service = some (.entry v)) :
    Engine.KeepsPlaces { (s.plainDone d sc f).eng d with service := none } := by
  have hr := k.room (.inl ⟨v, hs⟩)
  obtain ⟨hi, ho⟩ := k.timers_none (by simp [hs])
  unfold State.plainDone
  dsimp only
  split
  · have hm := State.offerSlip_moved (s.putResult d sc.label.digits f) d
      (.hold d sc.label.ident (lastFour (‹Ident› : Ident).serial) ‹Nat›) (f := .idle) (by simp)
    exact hm.keepsPlaces (by simp; omega) (by simpa)
  · rw [State.eng_putResult]; exact k.placed hr (k.entry v hs) hi

theorem State.engineScan_keepsPlaces (isIssue : Bool) (f : Fields) (k : (s.eng d).KeepsPlaces) :
    ((s.engineScan d isIssue f).eng d).KeepsPlaces := by
  unfold State.engineScan
  split
  · next sc hs =>
    refine State.endService_keepsPlaces _ d ?_
    split
    · exact s.issueDone_rests d sc f k hs
    · exact s.plainDone_rests d sc f k hs
  · next h hs hc =>
    exact State.endService_keepsPlaces _ d
      (s.overrideDone_rests d h f (k.room (.inr (.inl ⟨h, hc⟩))) (k.timers_none (by simp [hs])).2)
  · exact k

theorem State.engineCheck_keepsPlaces (r : CheckReply) (k : (s.eng d).KeepsPlaces) :
    ((s.engineCheck d r).eng d).KeepsPlaces := by
  unfold State.engineCheck
  split
  · next sc hs =>
    exact State.endService_keepsPlaces _ d
      (s.checkDone_rests d sc r (k.room (.inl ⟨sc, hs⟩)) (k.timers_none (by simp [hs])).2)
  · next h hs hc =>
    exact State.endService_keepsPlaces _ d
      (s.overrideCheckDone_rests d h r (k.room (.inr (.inl ⟨h, hc⟩))) (k.timers_none (by simp [hs])).2)
  · exact k

/-! ### Taking an entry -/

/-- An engine as it has just taken an entry (R16). -/
structure Engine.JustTook (e : Engine) : Prop where
  places : e.KeepsPlaces
  room : e.results.length ≤ 15
  ctx : e.ctx = .idle ∨ ∃ ss, e.ctx = .session ss
  service : e.service = none
  idleMs : e.idleMs = none

theorem Engine.JustTook.overrideMs {e : Engine} (h : e.JustTook) : e.overrideMs = none :=
  h.places.overrideMs_none (by rcases h.ctx with hc | ⟨ss, hc⟩ <;> simp [hc])

theorem Engine.JustTook.of_mayTake {e : Engine} (k : e.KeepsPlaces) (h : e.mayTake = true) (rest : List Entry) :
    Engine.JustTook { e with queue := rest, idleMs := none, late := false } := by
  simp only [Engine.mayTake, Bool.and_eq_true, decide_eq_true_eq, Option.isNone_iff_eq_none] at h
  obtain ⟨⟨hc, hr⟩, hs⟩ := h
  refine ⟨k.congr (le_refl _) rfl rfl (by simp) id, by exact Nat.le_of_lt_succ hr, ?_, hs, rfl⟩
  cases hx : e.ctx <;> simp [hx] at hc ⊢

theorem State.serveScan_keepsPlaces (sc : Scan) (k : (s.eng d).JustTook) : ((s.serveScan d sc).eng d).KeepsPlaces := by
  have answered : ∀ v : Verdict,
      (((s.putResult d sc.label.digits { verdict := v }).endService d).eng d).KeepsPlaces := by
    intro v
    refine State.endService_keepsPlaces _ d ?_
    rw [State.eng_putResult]; exact k.places.placed k.room k.ctx k.idleMs
  have served : ∀ t : Txn, ((s.serve d sc t).eng d).KeepsPlaces := by
    intro t
    rw [State.eng_serve]; exact Engine.KeepsPlaces.serving k.room k.ctx k.idleMs k.overrideMs
  unfold State.serveScan
  dsimp only
  split
  · exact answered _
  · split
    · split
      · exact answered _
      · exact s.closeSession_keepsPlaces d _ k.places.results k.overrideMs k.service (fun _ _ => k.room)
    · rw [State.eng_sendCheck]
      exact Engine.KeepsPlaces.serving (e := { s.eng d with ctx := .idle, idleMs := none }) k.room (.inl rfl) rfl
        k.overrideMs
    · exact served _
    · exact answered _
    all_goals exact served _

theorem State.serveMode_keepsPlaces (m : Mode) (backdate : Option Nat) (k : (s.eng d).JustTook) :
    ((s.serveMode d m backdate).eng d).KeepsPlaces := by
  have k1 : Engine.KeepsPlaces { s.eng d with mode := m, backdate := if m = .returns then backdate else none } :=
    k.places.congr (le_refl _) rfl rfl id id
  unfold State.serveMode
  dsimp only
  split
  · next ss hc =>
    split
    · refine State.endService_keepsPlaces _ d ?_
      rw [State.eng_setEng]
      exact k1.withoutService
    · exact State.closeSession_idle_keepsPlaces _ d (by rw [State.eng_setEng]; exact k1)
        (by rw [State.eng_setEng]; exact hc) (by rw [State.eng_setEng]; exact k.service)
  · rw [State.eng_setEng]; exact k1

theorem State.serveClose_keepsPlaces (k : (s.eng d).JustTook) : ((s.serveClose d).eng d).KeepsPlaces := by
  unfold State.serveClose
  split
  · next ss _ =>
    rw [State.eng_putResult]
    have hr := k.room
    exact ((s.closeSession_moved d ss (by simp)).addResult _).keepsPlaces_free (by simp; omega) k.overrideMs k.service
  · exact k.places

theorem State.takeFront_keepsPlaces (k : (s.eng d).KeepsPlaces) : ((s.takeFront d).eng d).KeepsPlaces := by
  unfold State.takeFront
  split
  · next en rest ht _ =>
    have took : ((s.setEng d { s.eng d with queue := rest, idleMs := none, late := false }).eng d).JustTook := by
      rw [State.eng_setEng]; exact .of_mayTake k ht rest
    dsimp only
    split
    · exact State.serveScan_keepsPlaces _ d _ took
    · exact State.serveMode_keepsPlaces _ d _ _ took
    · exact State.serveClose_keepsPlaces _ d took
  · exact k

theorem State.idleExpiry_keepsPlaces (k : (s.eng d).KeepsPlaces) : ((s.idleExpiry d).eng d).KeepsPlaces := by
  unfold State.idleExpiry
  split
  · next hc hm =>
    split
    · exact s.closeSession_idle_keepsPlaces d k hc (k.idleTimer (by simp [hm])).1
    · exact k
  · exact k

theorem State.overrideExpiry_keepsPlaces (k : (s.eng d).KeepsPlaces) : ((s.overrideExpiry d).eng d).KeepsPlaces := by
  unfold State.overrideExpiry
  split
  · next hc hm =>
    split
    · exact s.declineHeld_keepsPlaces d k hc (k.overrideTimer (by simp [hm])).1 true
    · exact k
  · exact k

end

end Sys2Proof.Machine
end

section
/-! PROOFS. The journal's operations keep `Journal.Held` (R141): what they are about to change lies inside the array, and the
array stays in its one form. -/

namespace Sys2Proof.Machine

namespace Journal.Held

variable {j : Journal}

/-! ### Sectors and pages -/

theorem setSector (h : j.Held) (n : Nat) (x : Sector) : (j.setSector n x).Held :=
  { h with sectors := by simp [Journal.setSector, h.sectors] }

theorem nextSector_lt (h : j.Held) : j.nextSector.1 < 128 := by
  unfold Journal.nextSector
  split
  · exact h.seed
  · exact Nat.mod_lt _ (by omega)

theorem openSector {seq : Nat} {k : Journal} {t : Nat × Nat} (h : j.Held) (ho : j.openSector seq = .done (k, t)) :
    k.Held ∧ t.1 < 128 ∧ t.2 < 16 := by
  obtain ⟨n, p⟩ := t
  unfold Journal.openSector at ho
  dsimp only at ho
  split at ho
  · cases ho
    refine ⟨?_, h.nextSector_lt, by omega⟩
    have opened : ∀ {i : Journal}, i.Held → ∀ m x, m < 128 →
        Journal.Held { i.setSector m x with active := some m, page := 1 } := fun hi m x hm =>
      { hi.setSector m x with active := by rintro _ ⟨⟩; exact hm, page := (by decide : 1 ≤ 16) }
    split
    · exact opened h _ _ h.nextSector_lt
    · exact opened (h.setSector _ _) _ _ h.nextSector_lt
  · cases ho
  · cases ho

theorem givePage {seq : Nat} {k : Journal} {t : Nat × Nat} (h : j.Held) (hg : j.givePage seq = .done (k, t)) :
    k.Held ∧ t.1 < 128 ∧ t.2 < 16 := by
  unfold Journal.givePage at hg
  split at hg
  · exact h.openSector hg
  · next a ha =>
    split at hg
    · next hp =>
      cases hg
      exact ⟨{ h with page := by exact Nat.succ_le_succ hp }, h.active a ha, Nat.lt_succ_of_le hp⟩
    · exact h.openSector hg

/-! ### Placing records -/

theorem closeFilling (h : j.Held) : j.closeFilling.Held := by
  unfold Journal.closeFilling
  split
  · exact h
  · next b hb =>
    refine { h with filling := by simp, waiting := ?_ }
    intro x hx
    rcases List.mem_append.mp hx with hx | hx
    · exact h.waiting x hx
    · rw [List.mem_singleton.mp hx]; exact h.filling b hb

theorem putRec {b : PageBuf} (h : j.Held) (hb : b.targetFits) (r : Rec) : (j.putRec b r).Held := by
  have close : ∀ i : Journal, i.Held →
      Journal.Held (if PageBuf.free { b with recs := b.recs ++ [r] } < 12 then
          { i with filling := none, waiting := i.waiting ++ [{ b with recs := b.recs ++ [r] }], fillMs := 0 }
        else { i with filling := some { b with recs := b.recs ++ [r] }, fillMs := 0 }) := by
    intro i hi
    split
    · refine { hi with filling := by simp, waiting := ?_ }
      intro x hx
      rcases List.mem_append.mp hx with hx | hx
      · exact hi.waiting x hx
      · rw [List.mem_singleton.mp hx]; exact hb
    · exact { hi with filling := by rintro _ ⟨⟩; exact hb }
  unfold Journal.putRec
  dsimp only
  apply close
  split
  · exact h
  · exact h.setSector _ _

theorem placeNew {k : Journal} {r : Rec} (h : j.Held) (hp : j.placeNew r = .done k) : k.Held := by
  unfold Journal.placeNew at hp
  split at hp
  · cases hp
  · split at hp
    · cases hp
    · cases hp
    · next i t hg =>
      cases hp
      obtain ⟨hi, ht⟩ := h.closeFilling.givePage hg
      exact hi.putRec (by rintro n p ⟨⟩; exact ht) r

theorem placeOne {k : Journal} {r : Rec} (h : j.Held) (hp : j.placeOne r = .done k) : k.Held := by
  unfold Journal.placeOne at hp
  split at hp
  · exact h.placeNew hp
  · next b hb =>
    split at hp
    · cases hp; exact h.putRec (h.filling b hb) r
    · exact h.placeNew hp

theorem placeAll {k : Journal} {rs : List Rec} (h : j.Held) (hp : j.placeAll rs = .done k) : k.Held := by
  induction rs generalizing j with
  | nil => cases hp; exact h
  | cons r rs ih =>
    unfold Journal.placeAll at hp
    split at hp
    · cases hp
    · cases hp
    · next hi => exact ih (h.placeOne hi) hp

theorem accept {k : Journal} {now : Time} {ds : List Draft} (h : j.Held) (ha : j.accept now ds = .done k) : k.Held := by
  unfold Journal.accept at ha
  split at ha
  · cases ha
  · cases ha
  · next hi =>
    split at ha
    · cases ha
    · split at ha
      · cases ha
      · cases ha; exact { h.placeAll hi with }

theorem offerOwed {k : Journal} {now : Time} (h : j.Held) (ho : j.offerOwed now = .done k) : k.Held := by
  unfold Journal.offerOwed at ho
  split at ho
  · split at ho
    · cases ho
    · cases ho; exact h
    · next ha => cases ho; exact { h.accept ha with }
  · cases ho; exact h

theorem withQueue (h : j.Held) (q : List Acceptance) : Journal.Held { j with queue := q } := { h with }

theorem dropOne (h : j.Held) : j.dropOne.Held := { h with }

theorem reclaim (h : j.Held) : j.reclaim.Held := { h with sectors := by simp [Journal.reclaim, h.sectors] }

theorem elapse (h : j.Held) (ms : Nat) : (j.elapse ms).Held := { h with }

theorem restarted (h : j.Held) : j.restarted.Held := { h with erase := by simp [Journal.restarted] }

/-! ### Programs and erases -/

theorem finishProgram {b : PageBuf} (h : j.Held) (hb : b.targetFits) : (j.finishProgram b).Held := by
  have hw := Journal.wf_finishProgram h.array hb
  unfold Journal.finishProgram at *
  split
  · exact h
  · next ht => rw [ht] at hw; exact { h with array := hw, programming := by simp }

theorem startProgram (h : j.Held) : j.startProgram.Held := by
  have erase : ∀ e, letProgram j.erase = some e → ∀ r, e = some r → r.sector < 128 := by
    intro e he r hr
    subst hr
    unfold letProgram at he
    split at he
    · cases he
    · next x hx =>
      split at he
      · cases he; exact h.erase _ hx
      · split at he
        · cases he; exact h.erase x hx
        · cases he
  unfold Journal.startProgram
  split
  · next b rest e hw _ he =>
    split
    · exact { h with
        waiting := fun x hx => h.waiting x (hw ▸ List.mem_cons_of_mem b hx)
        programming := by rintro _ ⟨⟩; exact h.waiting b (hw ▸ List.mem_cons_self)
        erase := erase e he }
    · exact h
  · exact h

theorem resumeErase (h : j.Held) : j.resumeErase.Held := by
  unfold Journal.resumeErase
  split
  · next r hr =>
    split
    · exact { h with erase := by rintro _ ⟨⟩; exact h.erase r hr }
    · exact h
  · exact h

theorem eraseCandidate_lt {n : Nat} (hc : j.eraseCandidate = some n) : n < 128 := by
  have ring : ∀ {f : Nat → Nat} {p : Nat → Bool},
      ((List.range 128).map (fun i => f i % 128)).find? p = some n → n < 128 := by
    intro f p hf
    obtain ⟨i, _, hi⟩ := List.mem_map.mp (List.mem_of_find?_eq_some hf)
    exact hi ▸ Nat.mod_lt _ (by omega)
  unfold Journal.eraseCandidate Journal.queuedErase Journal.ring at hc
  split at hc
  · next hq => cases hc; exact ring hq
  · exact ring hc

theorem startErase {n : Nat} (h : j.Held) (hn : n < 128) : (j.startErase n).Held :=
  { h.setSector n { j.sector n with st := .erasing } with erase := by rintro _ ⟨⟩; exact hn }

/-- The giving of pages to retained buffers (R160). -/
theorem retarget {n : Nat} {pre todo : List PageBuf} (h : j.Held) (hd : ∀ b ∈ pre, b.targetFits)
    (ht : ∀ b ∈ todo, b.targetFits) : (Journal.retarget n j pre todo).Held := by
  have app : ∀ {xs ys : List PageBuf}, (∀ b ∈ xs, b.targetFits) → (∀ b ∈ ys, b.targetFits) →
      ∀ b ∈ xs ++ ys, b.targetFits := fun hx hy b hb => (List.mem_append.mp hb).elim (hx b) (hy b)
  induction n generalizing j pre todo with
  | zero => exact { h with waiting := app hd ht }
  | succ n ih =>
    cases todo with
    | nil => exact { h with waiting := hd }
    | cons b bs =>
      have hbs : ∀ x ∈ bs, x.targetFits := fun x hx => ht x (List.mem_cons_of_mem b hx)
      unfold Journal.retarget
      split
      · exact ih h (app hd fun x hx => by rw [List.mem_singleton.mp hx]; exact ht b List.mem_cons_self) hbs
      · exact ih h hd hbs
      · next r rs _ _ =>
        split
        · next i s p hg =>
          obtain ⟨hi, hsp⟩ := h.givePage hg
          dsimp only
          refine ih (hi.setSector _ _) (app hd fun x hx => ?_) ?_
          · rw [List.mem_singleton.mp hx]; rintro _ _ ⟨⟩; exact hsp
          · split
            · exact hbs
            · intro x hx
              rcases List.mem_cons.mp hx with rfl | hx
              · rintro _ _ ⟨⟩
              · exact hbs x hx
        · exact { h with waiting := app hd ht }

theorem retargetWaiting (h : j.Held) : j.retargetWaiting.Held := h.retarget (by simp) h.waiting

theorem sectorBase_fits {n : Nat} (hn : n < 128) : n * 4096 + 4096 ≤ arraySize := by unfold arraySize; omega

theorem finishErase {r : EraseRun} {left : List Host.Cell} (h : j.Held) (hr : r.sector < 128)
    (hl : ∀ c ∈ left, c.1 < 4096) : (j.finishErase r left).Held := by
  have h1 : ∀ {m}, Memory.wf m = true → Journal.Held { j with array := m } := fun hm => { h with array := hm }
  have hw := h1 (Memory.wf_writeCells (cs := left) (Memory.wf_erase (r.sector * 4096) 4096 h.array) (sectorBase_fits hr) hl)
  unfold Journal.finishErase
  dsimp only
  split
  · exact Journal.Held.retargetWaiting { hw.setSector r.sector Sector.blank with erase := by simp }
  · exact { hw with erase := by rintro _ ⟨⟩; exact hr }

/-! ### Power loss and the power-on scan -/

theorem lostPower {page sector : List Host.Cell} (h : j.Held) (hp : ∀ c ∈ page, c.1 < 256)
    (hs : ∀ c ∈ sector, c.1 < 4096) : (j.lostPower page sector).Held := by
  have torn : Memory.wf (j.tearPage page) = true := by
    unfold Journal.tearPage
    split
    · next n p ht =>
      obtain ⟨b, hb, hbt⟩ := Option.bind_eq_some_iff.mp ht
      obtain ⟨hn, hp16⟩ := h.programming b hb n p hbt
      exact Memory.wf_writeCells (Memory.wf_erase _ _ h.array) (pageAddr_fits hn hp16) hp
    · exact h.array
  have both : Memory.wf (Journal.tearSector { j with array := j.tearPage page } sector) = true := by
    unfold Journal.tearSector
    split
    · next r hr => exact Memory.wf_writeCells (Memory.wf_erase _ _ torn) (sectorBase_fits (h.erase r hr)) hs
    · exact torn
  exact { h with array := both }

theorem retained_fits (h : j.Held) : ∀ b ∈ j.retained, b.targetFits := by
  intro b hb
  simp only [Journal.retained, List.mem_append, Option.mem_toList] at hb
  rcases hb with (hb | hb) | hb
  · exact h.programming b hb
  · exact h.waiting b hb
  · exact h.filling b hb

theorem namedSector_lt (h : j.Held) {n : Nat} (hn : j.namedSector = some n) : n < 128 := by
  unfold Journal.namedSector at hn
  split at hn
  · next t ht =>
    cases hn
    rw [lastSome_eq] at ht
    obtain ⟨b, hb, hbt⟩ := List.mem_filterMap.mp (List.mem_of_getLast? ht)
    exact (h.retained_fits b hb t.1 t.2 hbt).1
  · split at hn
    · cases hn; exact h.seed
    · cases hn

theorem newestHeader_lt {m : List Host.Cell} {x : HeadedSector} (hx : newestHeader m = some x) : x.number < 128 := by
  unfold newestHeader at hx
  have hm := mem_sortSectors.mp (List.mem_of_getLast? hx)
  obtain ⟨n, hn, hf⟩ := List.mem_filterMap.mp hm
  split at hf
  · cases hf
  · obtain ⟨y, _, rfl⟩ := Option.map_eq_some_iff.mp hf
    exact List.mem_range.mp hn

theorem seedAfter_lt {reopen : Bool} {newest : Option HeadedSector} (hn : ∀ x, newest = some x → x.number < 128) :
    (seedAfter reopen newest).1 < 128 := by
  unfold seedAfter
  split
  · decide
  · split
    · exact hn _ rfl
    · exact Nat.mod_lt _ (by omega)

theorem foundSeed_lt (h : j.Held) (warm : Bool) (bufs : List PageBuf) : (j.foundSeed warm bufs).1 < 128 := by
  have named : ∀ n, (if warm then j.namedSector.filter (fun n => j.cut warm n || !sectorBlank j.array n) else none)
      = some n → n < 128 := by
    intro n hn
    split at hn
    · exact h.namedSector_lt (Option.filter_eq_some_iff.mp hn).1
    · cases hn
  unfold Journal.foundSeed
  generalize (if warm then j.namedSector.filter (fun n => j.cut warm n || !sectorBlank j.array n) else none) = o at named
  unfold seedOf
  split
  · exact seedAfter_lt fun x hx => newestHeader_lt hx
  · exact named _ rfl
  · exact named _ rfl

theorem kept_lt {warm : Bool} {found : Option Nat} {n : Nat}
    (hn : (keptSectors found (j.headed warm)).getLast?.map HeadedSector.number = some n) : n < 128 := by
  obtain ⟨x, hx, rfl⟩ := Option.map_eq_some_iff.mp hn
  exact (Journal.mem_headed.mp (Journal.mem_kept.mp (List.mem_of_getLast? hx)).1).1.1.1

theorem kept_page {warm : Bool} {found : Option Nat} :
    ((keptSectors found (j.headed warm)).getLast?.map HeadedSector.blankPage).getD 0 ≤ 16 := by
  cases hl : (keptSectors found (j.headed warm)).getLast? with
  | none => exact Nat.zero_le 16
  | some x =>
    have hp := (Journal.mem_headed.mp (Journal.mem_kept.mp (List.mem_of_getLast? hl)).1).2
    refine (List.findIdx_le_length (xs := x.pages)).trans ?_
    rw [hp, readPages, List.length_map, List.length_range]

theorem openBuffers_fits (warm : Bool) (tail : Nat) : ∀ b ∈ j.openBuffers warm tail, b.targetFits := by
  intro b hb
  unfold Journal.openBuffers at hb
  split at hb
  · obtain ⟨x, _, rfl⟩ := List.mem_map.mp (List.mem_filter.mp hb).1
    rintro _ _ ⟨⟩
  · cases hb

theorem scan (h : j.Held) (warm : Bool) : (j.scan warm).Held := by
  refine retargetWaiting (j := Journal.scanned ..) ?_
  exact
    { array := h.array
      sectors := by simp [Journal.scanned]
      active := fun n hn => kept_lt hn
      page := kept_page
      seed := h.foundSeed_lt _ _
      filling := by simp [Journal.scanned]
      waiting := openBuffers_fits _ _
      programming := by simp [Journal.scanned]
      erase := by simp [Journal.scanned] }

end Journal.Held

end Sys2Proof.Machine
end

section
/-! PROOFS. The store's transactions keep the three collections in their one form and within their sizes (R40, R64, R83), and
the edits those of the settings (R93, R95). -/

namespace Sys2Proof.Machine

/-! ### Tables -/

section
variable {α : Type} {t : Table α}

theorem Table.length_del_lt {k : Nat} {v : α} (h : Table.get t k = some v) : (Table.del t k).length < t.length :=
  List.length_filter_lt_length_iff_exists.mpr ⟨(k, v), Table.get_mem h, by simp⟩

theorem Table.get_of_find {p : Nat × α → Bool} {k : Nat} {v : α} (h : Table.rising t = true)
    (hf : t.find? p = some (k, v)) : Table.get t k = some v :=
  (Table.get_of_mem h (List.mem_of_find?_eq_some hf)).1

/-- An entry put where there is one, or into a table with room, leaves the table within its size. -/
theorem Table.length_put_le_of {n k : Nat} (v : α) (h : Table.rising t = true) (hl : t.length ≤ n)
    (room : Table.get t k = none → t.length < n) : (Table.put t k v).length ≤ n := by
  cases hg : Table.get t k with
  | none => exact (Table.length_put_le k v).trans (room hg)
  | some x => rw [Table.length_put_of_get v h hg]; exact hl

end

/-! ### The three collections -/

/-- The three collections in their one form and within their sizes. -/
structure Circ.Sized (c : Circ) : Prop where
  loansRise : Table.rising c.loans = true
  loans : c.loans.length ≤ 4096
  borrowersRise : Table.rising c.borrowers = true
  borrowers : c.borrowers.length ≤ 1024
  holdsRise : Table.rising c.holds = true
  holds : c.holds.length ≤ 512

theorem Circ.get_of_loanOf {c : Circ} {item : Ident} {slot : Nat} {l : Loan} (h : c.Sized)
    (hl : c.loanOf item = some (slot, l)) : Table.get c.loans slot = some l := Table.get_of_find h.loansRise hl

theorem Circ.get_of_holdOf {c : Circ} {item : Ident} {place : Nat} {x : Hold} (h : c.Sized)
    (hh : c.holdOf item = some (place, x)) : Table.get c.holds place = some x := Table.get_of_find h.holdsRise hh

/-- There is room for a record of this borrower: it has one, or the table is not full. -/
def Circ.roomFor (c : Circ) (id : Ident) : Prop := c.borrower id = none → c.borrowers.length < 1024

namespace Circ.Sized

variable {c : Circ}

theorem putLoan {slot : Nat} (h : c.Sized) (l : Loan) (room : Table.get c.loans slot = none → c.loans.length < 4096) :
    Circ.Sized { c with loans := Table.put c.loans slot l } :=
  { h with loansRise := Table.rising_put _ _ h.loansRise, loans := Table.length_put_le_of l h.loansRise h.loans room }

theorem delLoan (h : c.Sized) (slot : Nat) : Circ.Sized { c with loans := Table.del c.loans slot } :=
  { h with loansRise := Table.rising_del _ h.loansRise, loans := (Table.length_del_le _).trans h.loans }

theorem putHold {place : Nat} (h : c.Sized) (x : Hold) (room : Table.get c.holds place = none → c.holds.length < 512) :
    Circ.Sized { c with holds := Table.put c.holds place x } :=
  { h with holdsRise := Table.rising_put _ _ h.holdsRise, holds := Table.length_put_le_of x h.holdsRise h.holds room }

theorem delHold (h : c.Sized) (place : Nat) : Circ.Sized { c with holds := Table.del c.holds place } :=
  { h with holdsRise := Table.rising_del _ h.holdsRise, holds := (Table.length_del_le _).trans h.holds }

theorem setBorrower {id : Ident} (h : c.Sized) (b : Borrower) (room : c.roomFor id) : (c.setBorrower id b).Sized :=
  { h with borrowersRise := Table.rising_put _ _ h.borrowersRise
           borrowers := Table.length_put_le_of b h.borrowersRise h.borrowers room }

theorem setBorrower_held {id : Ident} {x : Borrower} (h : c.Sized) (b : Borrower) (hx : c.borrower id = some x) :
    (c.setBorrower id b).Sized := h.setBorrower b (by simp [Circ.roomFor, hx])

theorem dropEmpty (h : c.Sized) (id : Ident) : (c.dropEmpty id).Sized := by
  unfold Circ.dropEmpty
  split
  · split
    · exact { h with borrowersRise := Table.rising_del _ h.borrowersRise
                     borrowers := (Table.length_del_le _).trans h.borrowers }
    · exact h
  · exact h

theorem discharge (h : c.Sized) (slot : Nat) (l : Loan) (fine : Nat) : (c.discharge slot l fine).Sized := by
  unfold Circ.discharge
  dsimp only
  split
  · exact h.delLoan slot
  · next hb => exact ((h.delLoan slot).setBorrower_held _ hb).dropEmpty _

end Circ.Sized

/-- A record left empty and removed makes room. -/
theorem Circ.roomFor_dropEmpty {c : Circ} {id : Ident} (h : c.borrowers.length ≤ 1024) (room : c.roomFor id) (k : Ident) :
    (c.dropEmpty k).roomFor id := by
  unfold Circ.dropEmpty
  split
  · next b hb =>
    split
    · exact fun _ => (Table.length_del_lt hb).trans_le h
    · exact room
  · exact room

theorem Circ.roomFor_discharge {c : Circ} {id : Ident} (h : c.Sized) (room : c.roomFor id) (slot : Nat) (l : Loan)
    (fine : Nat) : (c.discharge slot l fine).roomFor id := by
  unfold Circ.discharge
  dsimp only
  split
  · exact room
  · next b hb =>
    have hs := (h.delLoan slot).setBorrower_held (b.discharged l fine) hb
    refine Circ.roomFor_dropEmpty hs.borrowers ?_ l.borrower
    intro hn
    have hl := Table.length_put_of_get (b.discharged l fine) h.borrowersRise hb
    have hg := Table.get_put l.borrower.key id.key (b.discharged l fine) h.borrowersRise
    change (Table.put c.borrowers l.borrower.key (b.discharged l fine)).length < 1024
    rw [hl]
    change Table.get (Table.put c.borrowers l.borrower.key _) id.key = none at hn
    rw [hg] at hn
    split at hn
    · cases hn
    · exact room hn

theorem Circ.discharge_loans (c : Circ) (slot : Nat) (l : Loan) (fine : Nat) :
    (c.discharge slot l fine).loans = Table.del c.loans slot := by
  unfold Circ.discharge
  dsimp only
  split
  · rfl
  · unfold Circ.dropEmpty
    split
    · split <;> rfl
    · rfl

theorem Circ.discharge_holds (c : Circ) (slot : Nat) (l : Loan) (fine : Nat) :
    (c.discharge slot l fine).holds = c.holds := by
  unfold Circ.discharge
  dsimp only
  split
  · rfl
  · unfold Circ.dropEmpty
    split
    · split <;> rfl
    · rfl

namespace Circ.Sized

variable {c : Circ}

theorem issue {q : LoanReq} {loan : Loan} (h : c.Sized) (room : c.loans.length < 4096) (rb : c.roomFor q.borrower) :
    (c.issue q loan).Sized := by
  have hholds : Circ.Sized { c with holds := (c.issue q loan).holds } := by
    unfold Circ.issue
    dsimp only
    split
    · exact h
    · next place x hx =>
      split
      · exact h.delHold place
      · exact h.putHold _ (by simp [Circ.get_of_holdOf h hx])
  exact (hholds.putLoan loan fun _ => room).setBorrower (id := q.borrower) _ rb

theorem trap {place : Nat} {x : Hold} (h : c.Sized) (hx : Table.get c.holds place = some x) (deadline : Nat) :
    (c.trap place x deadline).Sized := h.putHold _ (by simp [hx])

theorem mapBorrowers (h : c.Sized) (f : Borrower → Borrower) :
    Circ.Sized { c with borrowers := Table.mapEntries c.borrowers f } :=
  { h with borrowersRise := Table.rising_mapEntries _ h.borrowersRise
           borrowers := by rw [Table.length_mapEntries]; exact h.borrowers }

theorem mapHolds (h : c.Sized) (f : Hold → Hold) : Circ.Sized { c with holds := Table.mapEntries c.holds f } :=
  { h with holdsRise := Table.rising_mapEntries _ h.holdsRise
           holds := by rw [Table.length_mapEntries]; exact h.holds }

theorem markAll (h : c.Sized) (k : ListKind) (stale : Bool) : (c.markAll k stale).Sized := by
  cases k with
  | blocks => exact h.mapBorrowers _
  | holds => exact h.mapHolds _

theorem endList (h : c.Sized) (k : ListKind) : (c.endList k).1.Sized := by
  cases k with
  | blocks =>
    have kept : Circ.Sized
        { c with borrowers := c.borrowers.filter (fun e => !(e.2.isStale && e.2.liftStale.isEmpty)) } :=
      { h with borrowersRise := Table.rising_filter _ h.borrowersRise
               borrowers := (List.length_filter_le _ _).trans h.borrowers }
    exact kept.mapBorrowers _
  | holds =>
    exact { h with holdsRise := Table.rising_filter _ h.holdsRise
                   holds := (List.length_filter_le _ _).trans h.holds }

theorem blockEntry (h : c.Sized) (e : BlockEntry) : (c.blockEntry e).1.Sized := by
  unfold Circ.blockEntry
  dsimp only
  split
  · next hb => exact h.setBorrower_held _ hb
  · split
    · next room => exact h.setBorrower _ fun _ => room
    · exact h

theorem holdEntry (h : c.Sized) (item holder : Ident) : (c.holdEntry item holder).1.Sized := by
  unfold Circ.holdEntry
  dsimp only
  split
  · split
    · next room => exact h.putHold _ fun _ => room
    · exact h
  · next place x hx =>
    split
    · exact h.putHold _ (by simp [Circ.get_of_holdOf h hx])
    · exact h

theorem visit (h : c.Sized) (settings : Settings) (today gen slot : Nat) : (c.visit settings today gen slot).1.Sized := by
  unfold Circ.visit
  split
  · exact h
  · next l hl =>
    split
    · exact h
    · dsimp only
      have h1 := fun x => h.putLoan (slot := slot) x (by simp [hl])
      split
      · exact h1 _
      · next b hb =>
        split
        · exact h1 _
        · split
          · exact (h1 _).setBorrower_held _ hb
          · exact (h1 _).setBorrower_held _ hb

end Circ.Sized

/-! ### Plans -/

theorem Desktop.limits_none {w : Desktop} {q : LoanReq} {freed : Nat} (h : w.limits q freed = none) :
    w.circ.loans.length < 4096 + freed ∧ w.circ.roomFor q.borrower := by
  unfold Desktop.limits at h
  split at h
  · cases h
  · split at h
    · cases h
    · next hn =>
      rw [not_or, not_and, Nat.not_le, Nat.not_le] at hn
      exact ⟨hn.1, fun hb => hn.2 (by rw [hb]; rfl)⟩

section
variable {w : Desktop}

theorem Desktop.planIssue_sized (h : w.circ.Sized) (src : Desk) (q : LoanReq) (pass : Pass) :
    (w.planIssue src q pass).circ.Sized := by
  unfold Desktop.planIssue
  split
  · exact h
  · dsimp only
    split
    · exact h
    · next hl =>
      obtain ⟨hloans, hroom⟩ := Desktop.limits_none hl
      cases hp : w.circ.loanOf q.item with
      | none => exact h.issue (by simpa [hp] using hloans) hroom
      | some e =>
        obtain ⟨slot, l⟩ := e
        refine (h.discharge slot l _).issue ?_ (Circ.roomFor_discharge h hroom slot l _)
        have hd := Table.length_del_lt (Circ.get_of_loanOf h hp)
        have hle := h.loans
        rw [Circ.discharge_loans]
        omega

theorem Circ.waitingHold_get {c : Circ} {item : Ident} {place : Nat} {x : Hold} (h : c.Sized)
    (hw : c.waitingHold item = some (place, x)) : Table.get c.holds place = some x := by
  unfold Circ.waitingHold at hw
  split at hw
  · next hh =>
    split at hw
    · cases hw; exact Circ.get_of_holdOf h hh
    · cases hw
  · cases hw

theorem Desktop.planDischarge_sized (h : w.circ.Sized) (src : Desk) (item : Ident) (time : Time) (backdate : Option Nat) :
    (w.planDischarge src item time backdate).circ.Sized := by
  unfold Desktop.planDischarge
  dsimp only
  split
  · next slot loan _ =>
    have hd := fun fine => h.discharge slot loan fine
    split
    · exact hd _
    · next place x hx =>
      refine (hd _).trap ?_ _
      rw [Circ.discharge_holds]; exact Circ.waitingHold_get h hx
  · split
    · exact h
    · split
      · exact h
      · next hx => exact h.trap (Circ.waitingHold_get h hx) _

theorem Desktop.planRenew_sized (h : w.circ.Sized) (src : Desk) (item : Ident) (time : Time) :
    (w.planRenew src item time).circ.Sized := by
  unfold Desktop.planRenew
  split
  · exact h
  · next slot loan hl =>
    split
    · exact h
    · dsimp only
      split
      · exact h
      · have h1 := fun x => h.putLoan (slot := slot) x (by simp [Circ.get_of_loanOf h hl])
        dsimp only
        split
        · exact h1 _
        · next hb => exact (h1 _).setBorrower_held _ hb

theorem Desktop.planPayment_sized (h : w.circ.Sized) (src : Desk) (id : Ident) (amount : Nat) (now : Time) :
    (w.planPayment src id amount now).circ.Sized := by
  unfold Desktop.planPayment
  split
  · exact h
  · next hb =>
    split
    · exact h
    · exact (h.setBorrower_held _ hb).dropEmpty id

theorem Desktop.planSetLocal_sized (h : w.circ.Sized) (src : Desk) (id : Ident) (category code : Nat) :
    (w.planSetLocal src id category code).circ.Sized := by
  unfold Desktop.planSetLocal
  dsimp only
  split
  · next hb => exact h.setBorrower_held _ hb
  · split
    · exact h
    · split
      · exact h
      · next room => exact h.setBorrower _ fun _ => Nat.not_le.mp room

theorem Desktop.planClearLocal_sized (h : w.circ.Sized) (src : Desk) (id : Ident) :
    (w.planClearLocal src id).circ.Sized := by
  unfold Desktop.planClearLocal
  split
  · exact h
  · next hb =>
    split
    · exact h
    · exact (h.setBorrower_held _ hb).dropEmpty id

/-- The inquiries change nothing in the tables (R59, R60, R72, R73, R79). -/
theorem Desktop.planItemInquiry_circ (w : Desktop) (item : Ident) : (w.planItemInquiry item).circ = w.circ := by
  unfold Desktop.planItemInquiry; dsimp only; split <;> rfl

theorem Desktop.planBorrowerInquiry_circ (w : Desktop) (id : Ident) : (w.planBorrowerInquiry id).circ = w.circ := by
  unfold Desktop.planBorrowerInquiry
  split
  · rfl
  · split <;> rfl

theorem Desktop.planInquireItem_circ (w : Desktop) (item : Ident) : (w.planInquireItem item).circ = w.circ := by
  unfold Desktop.planInquireItem; split <;> rfl

theorem Desktop.planInquireBorrower_circ (w : Desktop) (id : Ident) : (w.planInquireBorrower id).circ = w.circ := by
  unfold Desktop.planInquireBorrower; split <;> rfl

end

/-- The tables a transaction's plan leaves. -/
theorem State.planOf_sized {s : State} {h : Held} {p : Plan} (hs : s.circ.Sized) (hp : s.planOf h = some p) :
    p.circ.Sized := by
  have hw : (s.desktop h).circ.Sized := hs
  unfold State.planOf at hp
  dsimp only at hp
  split at hp
  case h_1 | h_2 | h_3 => cases hp; exact Desktop.planIssue_sized hw ..
  case h_4 => cases hp; exact Desktop.planDischarge_sized hw ..
  case h_5 => cases hp; exact Desktop.planRenew_sized hw ..
  case h_6 => cases hp; rw [Desktop.planItemInquiry_circ]; exact hs
  case h_7 => cases hp; exact hs
  case h_8 => cases hp; rw [Desktop.planBorrowerInquiry_circ]; exact hs
  case h_9 => cases hp; rw [Desktop.planInquireItem_circ]; exact hs
  case h_10 => cases hp; rw [Desktop.planInquireBorrower_circ]; exact hs
  case h_11 => cases hp; exact hs
  case h_12 => cases hp; exact Desktop.planPayment_sized hw ..
  case h_13 => cases hp; exact Desktop.planSetLocal_sized hw ..
  case h_14 => cases hp; exact Desktop.planClearLocal_sized hw ..
  all_goals cases hp

/-! ### The settings -/

/-- The exceptions and the rules in their form and sizes (R93, R95). -/
structure Settings.Sized (c : Settings) : Prop where
  exceptionsRise : Table.rising c.exceptions = true
  exceptions : c.exceptions.length ≤ 64
  rules : c.rules.length ≤ 32

theorem Settings.Sized.apply {c : Settings} (h : c.Sized) (today : Nat) (e : Edit) : (c.apply today e).1.Sized := by
  unfold Settings.apply
  split
  · split
    · exact { h with rules := by simpa using h.rules }
    · split
      · next room => exact { h with rules := by simpa using room }
      · exact h
  · split
    · exact { h with rules := (List.length_eraseIdx_le _ _).trans h.rules }
    · exact h
  · exact { h with }
  · exact { h with }
  · split
    · exact h
    · split
      · next room =>
        exact { h with
          exceptionsRise := Table.rising_put _ _ h.exceptionsRise
          exceptions := Table.length_put_le_of _ h.exceptionsRise h.exceptions fun hn =>
            room.resolve_left (by simp [hn]) }
      · exact h
  · split
    · exact { h with exceptionsRise := Table.rising_del _ h.exceptionsRise
                     exceptions := (Table.length_del_le _).trans h.exceptions }
    · exact h
  · exact { h with }

theorem Settings.Sized.applyAll {c : Settings} (h : c.Sized) (today : Nat) (es : List Edit) :
    (c.applyAll today es).1.Sized := by
  induction es generalizing c with
  | nil => exact h
  | cons e es ih => exact ih (h.apply today e)

/-- No edit changes the pending list (R101). -/
theorem Settings.apply_edits (c : Settings) (today : Nat) (e : Edit) : (c.apply today e).1.edits = c.edits := by
  unfold Settings.apply; split <;> repeat' (first | rfl | split)

theorem Settings.applyAll_edits (c : Settings) (today : Nat) (es : List Edit) :
    (c.applyAll today es).1.edits = c.edits := by
  induction es generalizing c with
  | nil => rfl
  | cons e es ih => exact (ih _).trans (c.apply_edits today e)

/-- Only a configuration changes the home code (R104). -/
theorem Settings.apply_config {c : Settings} {today : Nat} {e : Edit} (he : ∀ x, e ≠ .setConfig x) :
    (c.apply today e).1.config = c.config := by
  unfold Settings.apply
  split
  case h_7 x => exact absurd rfl (he x)
  all_goals repeat' (first | rfl | split)

/-- A valid edit leaves a home code set (R98, R100). -/
theorem Settings.apply_home {c : Settings} {today : Nat} {e : Edit} (hc : c.config.home ≠ none) (he : e.inRange = true) :
    (c.apply today e).1.config.home ≠ none := by
  by_cases hx : ∃ x, e = .setConfig x
  · obtain ⟨x, rfl⟩ := hx
    intro hn
    change x.home = none at hn
    simp [Edit.inRange, UnitConfig.inRange, hn] at he
  · rw [Settings.apply_config fun x h => hx ⟨x, h⟩]; exact hc

theorem Settings.applyAll_home {c : Settings} {today : Nat} {es : List Edit} (hc : c.config.home ≠ none)
    (he : ∀ e ∈ es, e.inRange = true) : (c.applyAll today es).1.config.home ≠ none := by
  induction es generalizing c with
  | nil => exact hc
  | cons e es ih =>
    exact ih (Settings.apply_home hc (he e List.mem_cons_self)) fun x hx => he x (List.mem_cons_of_mem e hx)

end Sys2Proof.Machine
end

section
/-! PROOFS. What every command but a power-on keeps, as one relation of the state before and after (`State.Keeps`): each
shared operation is shown to be within it once, and each command is one of them. -/

namespace Sys2Proof.Machine

/-! ### The relation -/

theorem State.stateFollows_iff (s : State) : s.stateFollows ↔ s.opState = s.derivedOp := by
  unfold State.stateFollows State.derivedOp deriveOp
  cases hv : s.clock.valid with
  | false => simp
  | true =>
    cases hh : s.settings.config.home with
    | none => simp
    | some n =>
      cases hl : s.openLine with
      | true =>
        simp only [Bool.true_eq_false, reduceCtorEq, or_self, iff_false, if_false, if_true]
        constructor
        · exact fun h => (h.2 trivial (by simp)).1 trivial
        · exact fun h => by simp [h]
      | false =>
        cases hp : s.settings.config.policy with
        | returns =>
          simp only [Bool.true_eq_false, reduceCtorEq, or_self, iff_false, if_false, Bool.false_eq_true]
          constructor
          · exact fun h => (h.2 trivial (by simp)).2.1 trivial trivial
          · exact fun h => by simp [h]
        | closed =>
          simp only [Bool.true_eq_false, reduceCtorEq, or_self, iff_false, if_false, Bool.false_eq_true]
          constructor
          · exact fun h => (h.2 trivial (by simp)).2.2 trivial trivial
          · exact fun h => by simp [h]

/-- Both engines keep their places for results. -/
def State.PlacesKept (s : State) : Prop := ∀ d, (s.eng d).KeepsPlaces

theorem State.placesKept_iff (s : State) : s.PlacesKept ↔ s.engA.KeepsPlaces ∧ s.engB.KeepsPlaces :=
  ⟨fun h => ⟨h .a, h .b⟩, fun h d => by cases d; exacts [h.1, h.2]⟩

/-- The scan queues, the slip queue and the lists of edits within their sizes. -/
structure State.QueuesFit (s : State) : Prop where
  scans : ∀ d, (s.eng d).queue.length ≤ 16
  slips : s.printer.queue.length ≤ 8
  edits : s.settings.edits.length ≤ 48
  taken : s.roll.taken.length ≤ 48

theorem State.withinSizes_iff (s : State) : s.WithinSizes ↔ s.circ.Sized ∧ s.settings.Sized ∧ s.QueuesFit := by
  constructor
  · intro h
    exact ⟨⟨h.loansRise, h.loans, h.borrowersRise, h.borrowers, h.holdsRise, h.holds⟩,
      ⟨h.exceptionsRise, h.exceptions, h.rules⟩,
      ⟨fun d => by cases d; exacts [h.scansA, h.scansB], h.slips, h.edits, h.taken⟩⟩
  · rintro ⟨hc, hs, hq⟩
    exact ⟨hc.loansRise, hc.loans, hc.borrowersRise, hc.borrowers, hc.holdsRise, hc.holds, hs.exceptionsRise,
      hs.exceptions, hs.rules, hq.edits, hq.taken, hq.scans .a, hq.scans .b, hq.slips⟩

/-- What every command keeps, but for the operating state. -/
structure State.KeepsParts (s t : State) : Prop where
  tables : s.circ.Sized → t.circ.Sized
  settings : s.settings.Sized → t.settings.Sized
  queues : s.QueuesFit → t.QueuesFit
  held : s.journal.Held → t.journal.Held
  places : s.PlacesKept → t.PlacesKept
  pending : t.pending = s.pending
  edits : s.editsValid → t.editsValid
  valid : s.clock.valid = true → t.clock.valid = true
  home : s.editsValid → s.settings.config.home ≠ none → t.settings.config.home ≠ none

/-- What every command but a power-on keeps. -/
structure State.Keeps (s t : State) : Prop extends s.KeepsParts t where
  follows : s.stateFollows → t.stateFollows

namespace State.Keeps

variable {s t u : State}

theorem refl (s : State) : s.Keeps s := ⟨⟨id, id, id, id, id, rfl, id, id, fun _ => id⟩, id⟩

theorem trans (h1 : s.Keeps t) (h2 : t.Keeps u) : s.Keeps u where
  tables h := h2.tables (h1.tables h)
  settings h := h2.settings (h1.settings h)
  queues h := h2.queues (h1.queues h)
  held h := h2.held (h1.held h)
  places h := h2.places (h1.places h)
  pending := h2.pending.trans h1.pending
  edits h := h2.edits (h1.edits h)
  valid h := h2.valid (h1.valid h)
  home he h := h2.home (h1.edits he) (h1.home he h)
  follows h := h2.follows (h1.follows h)

/-- A step that leaves the inputs of the operating state, the settings and the edits taken. -/
theorem of_frame (op : t.opState = s.opState := by rfl) (clock : t.clock.valid = s.clock.valid := by rfl)
    (line : t.openLine = s.openLine := by rfl) (settings : t.settings = s.settings := by rfl)
    (taken : t.roll.taken = s.roll.taken := by rfl) (pending : t.pending = s.pending := by rfl)
    (tables : s.circ.Sized → t.circ.Sized := by exact id) (held : s.journal.Held → t.journal.Held := by exact id)
    (places : s.PlacesKept → t.PlacesKept := by exact id)
    (scans : ∀ d, (s.eng d).queue.length ≤ 16 → (t.eng d).queue.length ≤ 16 := by exact fun _ => id)
    (slips : s.printer.queue.length ≤ 8 → t.printer.queue.length ≤ 8 := by exact id) : s.Keeps t where
  tables := tables
  settings h := settings ▸ h
  queues h := ⟨fun d => scans d (h.scans d), slips h.slips, settings ▸ h.edits, taken ▸ h.taken⟩
  held := held
  places := places
  pending := pending
  edits h := by rw [State.editsValid, settings, taken]; exact h
  valid h := clock ▸ h
  home _ h := settings ▸ h
  follows h := by
    rw [State.stateFollows_iff] at *
    rw [State.derivedOp, op, clock, line, settings]; exact h

/-- An operation of a desk engine. -/
theorem of_desk {d : Desk} (h : s.DeskStep d t) (k : (s.eng d).KeepsPlaces → (t.eng d).KeepsPlaces) : s.Keeps t := by
  have part : ∀ {α : Type} (f : State → α), f t.offDesk = f s.offDesk := fun f => congrArg f h.rest
  refine of_frame (part State.opState) (part (·.clock.valid)) (part State.openLine) (part State.settings)
    (part (·.roll.taken)) (part State.pending) (fun hs => ?_) (fun hj => ?_) (fun hp d' => ?_) (fun d' hq => ?_) h.slips
  · have e : t.circ = s.circ := part State.circ
    rwa [e]
  · have e : t.journal = s.journal := part State.journal
    rwa [e]
  · by_cases hd : d' = d
    · subst hd; exact k (hp d')
    · rw [h.other d' hd]; exact hp d'
  · by_cases hd : d' = d
    · subst hd; exact h.queue.trans hq
    · rw [h.other d' hd]; exact hq

/-- One that leaves the engine's record as it was. -/
theorem of_desk_eng {d : Desk} (h : s.DeskStep d t) (e : t.eng d = s.eng d) : s.Keeps t := of_desk h fun k => e ▸ k

/-! ### Ports, responses and transactions sent -/

theorem setPort (s : State) (p : Port) (x : PortState) : s.Keeps (s.setPort p x) :=
  of_desk_eng (DeskStep.setPort .a s p x) (s.eng_setPort ..)

theorem respondWith (s : State) (p : Port) (code : RespCode) (ans : Answer) (g r : Bool) :
    s.Keeps (s.respondWith p code ans g r) := of_desk_eng (DeskStep.respondWith .a s ..) (s.eng_respondWith ..)

theorem respond (s : State) (p : Port) (code : RespCode) (ans : Answer) : s.Keeps (s.respond p code ans) :=
  respondWith ..

theorem sendTxn (s : State) (c : Claimant) (t : Txn) : s.Keeps (s.sendTxn c t) :=
  of_desk_eng (DeskStep.sendTxn .a s c t) (s.eng_sendTxn ..)

theorem setWand (s : State) (d : Desk) (w : Wand) : s.Keeps (s.setWand d w) := by
  cases d <;> exact of_frame

/-- Marks and queues of an engine. -/
theorem setEng (s : State) {d : Desk} {e : Engine} (k : (s.eng d).KeepsPlaces → e.KeepsPlaces)
    (hq : (s.eng d).queue.length ≤ 16 → e.queue.length ≤ 16) : s.Keeps (s.setEng d e) := by
  have eng : ∀ d', (s.setEng d e).eng d' = if d' = d then e else s.eng d' := by
    intro d'
    split
    · next h => subst h; exact s.eng_setEng _ e
    · next h => exact s.eng_setEng_ne h e
  refine of_frame (by simp) (by simp) (by simp) (by simp) (by simp) (by simp) (by simp) (by simp) (fun hp d' => ?_)
    (fun d' h => ?_) (by simp)
  · rw [eng]; split
    · next h => subst h; exact k (hp d')
    · exact hp d'
  · rw [eng]; split
    · next hd => subst hd; exact hq h
    · exact h

theorem setJournal (s : State) {j : Journal} (h : s.journal.Held → j.Held) : s.Keeps { s with journal := j } :=
  of_frame (held := h)

theorem setPrinter (s : State) {p : Printer} (h : p.queue = s.printer.queue) : s.Keeps { s with printer := p } :=
  of_frame (slips := by intro hs; exact h ▸ hs)

theorem setExch (s : State) (x : Exchange) : s.Keeps { s with exch := x } := of_frame

theorem setStore (s : State) (x : Store) : s.Keeps { s with store := x } := of_frame

theorem setRoll (s : State) {r : Rollover} (h : r.taken = s.roll.taken) : s.Keeps { s with roll := r } :=
  of_frame (taken := h)

theorem setCirc (s : State) {c : Circ} (h : s.circ.Sized → c.Sized) : s.Keeps { s with circ := c } :=
  of_frame (tables := h)

theorem answerDownload (s : State) (h : Held) (ans : Answer) : s.Keeps (s.answerDownload h ans) := by
  unfold State.answerDownload
  split
  · exact refl s
  · exact respondWith ..

theorem answerUplink (s : State) (h : Held) (ans : Answer) : s.Keeps (s.answerUplink h ans) := by
  unfold State.answerUplink
  split
  · exact refl s
  · exact respond ..

/-! ### Engines -/

theorem settle (s : State) (d : Desk) : s.Keeps (s.settle d) := of_desk (DeskStep.settle d s) (s.settle_keepsPlaces d)

theorem reachContext (s : State) (d : Desk) (ev : CtxEvent) : s.Keeps (s.reachContext d ev) :=
  of_desk (DeskStep.reachContext d s ev) fun k => s.reachContext_keepsPlaces d k ev

theorem takeFront (s : State) (d : Desk) : s.Keeps (s.takeFront d) :=
  of_desk (DeskStep.takeFront d s) (s.takeFront_keepsPlaces d)

theorem idleExpiry (s : State) (d : Desk) : s.Keeps (s.idleExpiry d) :=
  of_desk (DeskStep.idleExpiry d s) (s.idleExpiry_keepsPlaces d)

theorem overrideExpiry (s : State) (d : Desk) : s.Keeps (s.overrideExpiry d) :=
  of_desk (DeskStep.overrideExpiry d s) (s.overrideExpiry_keepsPlaces d)

theorem offerReceipt (s : State) (d : Desk) (taken owedAfter : Nat) : s.Keeps (s.offerReceipt d taken owedAfter).1 := by
  unfold State.offerReceipt
  split
  · next room => exact of_desk_eng (DeskStep.join d s room) (s.eng_withPrinter ..)
  · exact refl s

theorem deliver (s : State) (h : Held) (r : Reply) : s.Keeps (s.deliver h r) := by
  unfold State.deliver
  split
  · exact refl s
  · split
    · exact of_desk (DeskStep.engineScan _ s _ _) (s.engineScan_keepsPlaces _ _ _)
    · exact of_desk (DeskStep.engineCheck _ s _) (s.engineCheck_keepsPlaces _ _)
    · exact respond ..
    · exact (offerReceipt s _ _ _).trans (respond ..)

/-! ### The operating state and the rollover -/

end State.Keeps

/-- A change of operating state reaches the contexts' deferred lists alone (R16, R30). -/
theorem Engine.leaveArrives_queue (e : Engine) : e.leaveArrives.queue = e.queue := by
  unfold Engine.leaveArrives; split <;> rfl

theorem Engine.KeepsPlaces.leaveArrives {e : Engine} (h : e.KeepsPlaces) : e.leaveArrives.KeepsPlaces := by
  unfold Engine.leaveArrives
  split
  · exact h
  · exact h.congr (le_refl _) rfl rfl id id

theorem State.deriveState_follows (s : State) : s.deriveState.stateFollows := by
  rw [State.stateFollows_iff]
  unfold State.deriveState
  dsimp only
  split <;> rfl

theorem State.deriveState_parts (s : State) : s.KeepsParts s.deriveState := by
  unfold State.deriveState
  dsimp only
  split
  · refine ⟨id, id, fun h => ⟨fun d => ?_, h.slips, h.edits, h.taken⟩, id, fun h d => ?_, rfl, id, id, fun _ => id⟩
    · cases d
      · exact (Engine.leaveArrives_queue s.engA).symm ▸ h.scans .a
      · exact (Engine.leaveArrives_queue s.engB).symm ▸ h.scans .b
    · cases d
      · exact (h .a).leaveArrives
      · exact (h .b).leaveArrives
  · exact ⟨id, id, fun h => ⟨h.scans, h.slips, h.edits, h.taken⟩, id, fun h => h, rfl, id, id, fun _ => id⟩

/-- Whatever the inputs have become, the operating state derived from them follows them (R128). -/
theorem State.KeepsParts.derive {s t : State} (h : s.KeepsParts t) : s.Keeps t.deriveState :=
  have d := t.deriveState_parts
  { tables := fun x => d.tables (h.tables x), settings := fun x => d.settings (h.settings x)
    queues := fun x => d.queues (h.queues x), held := fun x => d.held (h.held x)
    places := fun x => d.places (h.places x), pending := d.pending.trans h.pending
    edits := fun x => d.edits (h.edits x), valid := fun x => d.valid (h.valid x)
    home := fun e x => d.home (h.edits e) (h.home e x), follows := fun _ => t.deriveState_follows }

/-- The front slip leaves, and its place is left free or goes to the waiting slip of the first desk in the list (R181). -/
theorem State.frontLeaves_cases (s : State) :
    s.frontLeaves
        = ({ s with printer := Printer.sendFront { s.printer with queue := s.printer.queue.tail } }, none)
      ∨ ∃ d rest x f, (s.eng d).ctx = .slipWait x f ∧ s.frontLeaves
        = ({ s with printer :=
              Printer.sendFront { s.printer with queue := s.printer.queue.tail ++ [x], waitList := rest } }, some (d, f)) := by
  unfold State.frontLeaves
  dsimp only
  split
  · next d rest _ =>
    split
    · next x f hx =>
      refine .inr ⟨d, rest, x, f, ?_, rfl⟩
      cases hc : (s.eng d).ctx <;> rw [hc] at hx <;> cases hx
      rfl
    · exact .inl rfl
  · exact .inl rfl

namespace State.Keeps

theorem startRollover (s : State) : s.Keeps s.startRollover := setRoll s rfl

theorem dayChange (s : State) : s.Keeps s.dayChange := by
  unfold State.dayChange
  split
  · exact startRollover s
  · exact setRoll s rfl

theorem endRollover (s : State) : s.Keeps s.endRollover := by
  unfold State.endRollover
  split
  · exact (setRoll s (r := { s.roll with phase := .none, pending := false }) rfl).trans (startRollover _)
  · exact setRoll s rfl

theorem setClock (s : State) (day minute second : Nat) : s.Keeps (s.setClock day minute second) := by
  have h : s.Keeps (State.deriveState
      { s with clock := { day := day, minute := minute, second := second, ms := 0, valid := true } }) :=
    KeepsParts.derive ⟨id, id, fun h => ⟨h.scans, h.slips, h.edits, h.taken⟩, id, fun h => h, rfl, id, fun _ => rfl, fun _ => id⟩
  unfold State.setClock
  dsimp only
  split
  · exact h.trans (dayChange _)
  · exact h

theorem applyEdits (s : State) (h : Held) : s.Keeps (s.applyEdits h) := by
  refine KeepsParts.derive ⟨id, fun c => c.applyAll _ _, fun q => ⟨q.scans, q.slips, ?_, Nat.zero_le _⟩, id, fun p => p,
    rfl, fun e x hx => ?_, id, fun e c => Settings.applyAll_home c fun x hx => e x (List.mem_append_right _ hx)⟩
  · rw [Settings.applyAll_edits]; exact q.edits
  · rw [Settings.applyAll_edits, List.append_nil] at hx
    exact e x (List.mem_append_left _ hx)

theorem visitHold (s : State) (h : Held) (place : Nat) : s.Keeps (s.visitHold h place) := by
  have gone : s.circ.Sized → (match s.circ.expiredHold place h.now.day with
      | some _ => { s.circ with holds := Table.del s.circ.holds place }
      | none => s.circ).Sized := by
    intro hs
    split
    · exact hs.delHold place
    · exact hs
  unfold State.visitHold
  dsimp only
  split
  · exact of_frame (tables := gone)
  · exact (setCirc s gone).trans (setRoll _ (by split <;> rfl))

theorem visitLoan (s : State) (h : Held) (slot : Nat) : s.Keeps (s.visitLoan h slot) := by
  unfold State.visitLoan
  dsimp only
  split <;> exact of_frame (tables := fun hs => hs.visit ..)

/-! ### Download sessions -/

theorem beginSession (s : State) (h : Held) (k : ListKind) : s.Keeps (s.beginSession h k) := by
  refine trans (t := { s with circ := _, exch := _ }) ?_ (answerDownload ..)
  exact of_frame (tables := fun hs => hs.markAll k true)

theorem countEntry (s : State) (h : Held) {c : Circ} (hc : s.circ.Sized → c.Sized) (stored : Bool) :
    s.Keeps (s.countEntry h c stored) := by
  unfold State.countEntry
  split
  · refine trans (t := { s with circ := _, exch := _ }) ?_ (answerDownload ..)
    exact of_frame (tables := hc)
  · exact setCirc s hc

theorem endSession (s : State) (h : Held) : s.Keeps (s.endSession h) := by
  unfold State.endSession
  split
  · next k _ =>
    refine trans (t := { s with circ := _, exch := _ }) ?_ (answerUplink ..)
    exact of_frame (tables := fun hs => hs.endList k)
  · exact refl s

theorem abortSession (s : State) (h : Held) (cause : AbortCause) : s.Keeps (s.abortSession h cause) := by
  unfold State.abortSession
  split
  · next k _ =>
    have ended : s.Keeps { s with circ := s.circ.markAll k false,
                                  exch := { s.exch with session := none, gapMs := none, expired := false } } :=
      of_frame (tables := fun hs => hs.markAll k false)
    dsimp only
    split
    · exact ended.trans (answerUplink ..)
    · exact ended
  · exact refl s

theorem unitEffect (s : State) (h : Held) : s.Keeps (s.unitEffect h) := by
  unfold State.unitEffect
  split
  · exact beginSession ..
  · next e _ => exact countEntry s h (fun hs => hs.blockEntry e) _
  · next item holder _ => exact countEntry s h (fun hs => hs.holdEntry item holder) _
  · exact endSession ..
  · exact abortSession ..
  · exact applyEdits ..
  · exact visitHold ..
  · exact visitLoan ..
  · exact refl s

/-! ### Transactions and acceptances -/

theorem finishTxn (s : State) (h : Held) (accepted : Bool) : s.Keeps (s.finishTxn h accepted) := by
  have free := setStore s { s.store with holding := none }
  unfold State.finishTxn
  dsimp only
  split
  · next p hp =>
    split
    · exact (free.trans (setCirc _ fun hs => State.planOf_sized hs hp)).trans (deliver ..)
    · exact free.trans (deliver ..)
  · exact free.trans (unitEffect ..)

theorem offerOne {s u : State} {d : Draft} {f : State → State} (hf : ∀ x : State, x.Keeps (f x))
    (h : s.offerOne d f = some u) : s.Keeps u := by
  unfold State.offerOne at h
  split at h
  · cases h
  · next ha => cases h; exact (setJournal s fun hj => hj.accept ha).trans (hf _)
  · cases h; exact (setJournal s fun hj => hj.dropOne).trans (hf _)

theorem finishStartup (s : State) : s.Keeps s.finishStartup := by
  unfold State.finishStartup
  dsimp only
  split <;> exact of_frame

theorem acceptHeld {s u : State} {h : Held} (ha : s.acceptHeld h = some u) : s.Keeps u := by
  unfold State.acceptHeld at ha
  split at ha
  · cases ha
  · next hj => cases ha; exact (setJournal s fun x => x.accept hj).trans (finishTxn ..)
  · split at ha
    · cases ha; exact finishTxn ..
    · cases ha; exact (setJournal s fun x => x.dropOne).trans (finishTxn ..)

theorem acceptAck {s u : State} {f : State → State} (hf : ∀ x : State, x.Keeps (f x)) (h : s.acceptAck f = some u) :
    s.Keeps u := by
  unfold State.acceptAck at h
  split at h
  · cases h
  · next ha => cases h; exact (setJournal s fun hj => hj.accept ha).trans (hf _)
  · cases h; exact trans (setJournal s (j := { s.journal with owedAck := true }) fun hj => { hj with }) (hf _)

theorem acceptFront {s u : State} {a : Acceptance} (h : s.acceptFront a = some u) : s.Keeps u := by
  cases a with
  | store =>
    simp only [State.acceptFront] at h
    split at h
    · cases h; exact refl s
    · exact acceptHeld h
  | clock day minute second =>
    simp only [State.acceptFront] at h
    split at h
    · cases h; exact respond ..
    · exact offerOne (fun x => (setClock x _ _ _).trans (respond ..)) h
  | ack clamped own =>
    simp only [State.acceptFront] at h
    split at h
    · exact acceptAck (fun x => respond ..) h
    · cases h; exact respond ..
  | edits => exact offerOne refl h
  | rollover => exact offerOne endRollover h
  | restart k => exact offerOne finishStartup h
  | owed => cases h; exact refl s

theorem pumpN (n : Nat) (s : State) : s.Keeps (State.pumpN n s) := by
  induction n generalizing s with
  | zero => exact refl s
  | succ n ih =>
    unfold State.pumpN
    split
    · exact refl s
    · next a rest _ =>
      split
      · next j hj =>
        have queued : ∀ q, s.Keeps { s with journal := { j with queue := q } } :=
          fun q => setJournal s fun h => (h.offerOwed hj).withQueue q
        split
        · next ha => exact ((queued rest).trans (acceptFront ha)).trans (ih _)
        · exact queued _
      · exact refl s

theorem pump (s : State) : s.Keeps s.pump := pumpN ..

theorem offer (s : State) (a : Acceptance) : s.Keeps (s.offer a) :=
  (setJournal s fun h => h.withQueue (s.journal.queue ++ [a])).trans (pump _)

theorem clearTxn (s : State) (c : Claimant) : s.Keeps (s.clearTxn c) := by
  rcases c with (_ | _) | (_ | _) | _ | _ <;> exact of_frame

theorem takeList (s : State) (t : Txn) : s.Keeps (s.takeList t) := by
  unfold State.takeList
  split
  · exact ⟨⟨id, fun h => { h with }, fun h => ⟨h.scans, h.slips, h.taken, h.edits⟩, id, fun h => h, rfl,
      fun h e he => h e (List.mem_append.mpr (List.mem_append.mp he).symm), id, fun _ => id⟩, id⟩
  · exact refl s

theorem storeTake (s : State) (c : Claimant) (t : Txn) : s.Keeps (s.storeTake c t) := by
  have taken : s.Keeps (State.takeList
      { s.clearTxn c with
        store := { (s.clearTxn c).store with last := c }
        exch := { (s.clearTxn c).exch with shut := (s.clearTxn c).exch.shut && decide (t ≠ Txn.downloadAbort .reset) } } t) :=
    ((clearTxn s c).trans (t := (s.clearTxn c)) of_frame).trans (takeList ..)
  unfold State.storeTake
  dsimp only
  split
  · exact taken.trans (finishTxn ..)
  · exact (taken.trans (setStore _ _)).trans (offer ..)

theorem takeIf (s : State) (c : Claimant) (kind : Txn → Bool) : s.Keeps (s.takeIf c kind) := by
  unfold State.takeIf
  split
  · split
    · exact storeTake ..
    · exact refl s
  · exact refl s

theorem sendAndTake (s : State) (c : Claimant) (t : Txn) (kind : Txn → Bool) : s.Keeps (s.sendAndTake c t kind) :=
  (sendTxn ..).trans (takeIf ..)

/-! ### Requests -/

theorem refuseEntry (s : State) : s.Keeps s.refuseEntry :=
  (setExch s { s.exch with gapMs := none }).trans (respondWith ..)

theorem request (s : State) (p : Port) (k : ReqKind) (tag : Byte) (body : List Byte) {f : State → State}
    (hf : ∀ x : State, x.Keeps (f x)) : s.Keeps (s.request p k tag body f) := by
  have taken : s.Keeps (s.takeRequest p (some k) tag (k.keepsArm body)) := setPort ..
  unfold State.request
  split
  · exact refl s
  · split
    · exact setPort ..
    · dsimp only
      split
      · exact taken.trans (respond ..)
      · split
        · refine taken.trans ?_
          unfold State.refuseLength
          split
          · exact refuseEntry _
          · exact respond ..
        · exact taken.trans (hf _)

theorem deskRequest (s : State) (p : Port) (k : ReqKind) (tag : Byte) (body : List Byte) {f : Desk → State → State}
    (hf : ∀ d (x : State), x.Keeps (f d x)) : s.Keeps (s.deskRequest p k tag body f) := by
  refine request s p k tag body fun x => ?_
  cases p with
  | desk d => exact hf d x
  | uplink => exact refl x

theorem inquiry (s : State) (p : Port) (k : ReqKind) (kind : Txn → Bool) (t : List Byte → Option Txn) (ask : Ask) :
    s.Keeps (s.inquiry p k kind t ask) := by
  cases ask with
  | request tag body =>
    unfold State.inquiry
    refine request s p k tag body fun x => ?_
    split
    · exact respond ..
    · exact sendAndTake ..
  | turn => exact takeIf ..

/-- An entry joins a scan queue with room for it (R10, R12). -/
theorem joinQueue (s : State) {d : Desk} {en : Entry} (room : ¬ 16 ≤ (s.eng d).queue.length) :
    s.Keeps (s.setEng d { s.eng d with queue := (s.eng d).queue ++ [en] }) :=
  setEng s (fun k => k.congr (le_refl _) rfl rfl id id) fun _ => by simp; omega

theorem placeEntry (s : State) (d : Desk) (en : Entry) : s.Keeps (s.placeEntry d en) := by
  unfold State.placeEntry
  dsimp only
  split
  · exact respond ..
  · next room => exact (joinQueue s room).trans (respond ..)

theorem keyIn (body : List Byte) (d : Desk) (s : State) : s.Keeps (State.keyIn body d s) := by
  unfold State.keyIn
  split
  · exact respond ..
  · split
    · exact respond ..
    · exact placeEntry ..

theorem setMode (body : List Byte) (d : Desk) (s : State) : s.Keeps (State.setMode body d s) := by
  unfold State.setMode
  split
  · exact respond ..
  · split
    · exact respond ..
    · exact placeEntry ..

theorem close (d : Desk) (s : State) : s.Keeps (State.close d s) := by
  unfold State.close
  split
  · exact respond ..
  · exact placeEntry ..

theorem status (d : Desk) (s : State) : s.Keeps (State.status d s) :=
  (respond s _ _ _).trans (setEng _ (by rw [State.eng_respond]; exact fun k => k.congr (le_refl _) rfl rfl id id)
    (by rw [State.eng_respond]; exact id))

theorem readResult (d : Desk) (s : State) : s.Keeps (State.readResult d s) := by
  unfold State.readResult
  dsimp only
  split
  · refine trans ?_ (respond ..)
    exact setEng s (fun k => k.congr (le_refl _) rfl rfl id id) id
  · next hr =>
    refine trans ?_ (respond ..)
    exact setEng s (fun k => k.congr (by rw [hr]; exact Nat.le_succ _) rfl rfl id id) id

theorem payment (body : List Byte) (d : Desk) (s : State) : s.Keeps (State.payment body d s) := by
  unfold State.payment
  split
  · exact respond ..
  · split
    · exact respond ..
    · exact sendTxn ..

theorem setLocalBlock (body : List Byte) (d : Desk) (s : State) : s.Keeps (State.setLocalBlock body d s) := by
  unfold State.setLocalBlock
  split
  · exact respond ..
  · split
    · exact respond ..
    · exact sendTxn ..

theorem clearLocalBlock (body : List Byte) (d : Desk) (s : State) : s.Keeps (State.clearLocalBlock body d s) := by
  unfold State.clearLocalBlock
  split
  · exact respond ..
  · split
    · exact respond ..
    · exact sendTxn ..

theorem postEdit (body : List Byte) (s : State) : s.Keeps (State.postEdit body s) := by
  unfold State.postEdit
  split
  · exact respond ..
  · next e he =>
    have hr : e.inRange = true := (Option.filter_eq_some_iff.mp he).2
    split
    · dsimp only
      refine ((KeepsParts.derive ?_).trans (respond ..)).trans (offer ..)
      exact ⟨id, fun c => c.apply _ _, fun q => ⟨q.scans, q.slips, by rw [Settings.apply_edits]; exact q.edits, q.taken⟩,
        id, fun p => p, rfl, fun h => by rw [State.editsValid, Settings.apply_edits]; exact h, id,
        fun _ c => Settings.apply_home c hr⟩
    · split
      · exact respond ..
      · next room =>
        refine trans ?_ (respond ..)
        refine ⟨⟨id, fun h => { h with }, fun h => ⟨h.scans, h.slips, by simp; omega, h.taken⟩, id, fun h => h, rfl,
          fun h x hx => ?_, id, fun _ => id⟩, id⟩
        simp only [List.mem_append, List.mem_singleton] at hx
        rcases hx with (hx | rfl) | hx
        · exact h x (List.mem_append_left _ hx)
        · exact hr
        · exact h x (List.mem_append_right _ hx)

theorem setTime (body : List Byte) (s : State) : s.Keeps (State.setTime body s) := by
  unfold State.setTime
  split
  · exact respond ..
  · split
    · exact respond ..
    · exact offer ..

theorem refreshRules (s : State) : s.Keeps s.refreshRules := by
  unfold State.refreshRules
  split
  · exact (respond s _ _ _).trans (startRollover _)
  · exact respond ..

theorem acknowledge (s : State) (seq : Nat) : s.Keeps (s.acknowledge seq) := by
  unfold State.acknowledge
  dsimp only
  split
  · exact respond ..
  · refine trans ?_ (offer ..)
    exact setJournal s fun h => Journal.Held.reclaim (j := { s.journal with u := _ }) { h with }

theorem noSession (s : State) : s.Keeps s.noSession := by
  unfold State.noSession
  split
  · exact (setExch s _).trans (respond ..)
  · exact respond ..

theorem sendDownload (s : State) (t : Txn) : s.Keeps (s.sendDownload t) := (setExch s _).trans (sendTxn ..)

theorem beginDownload (body : List Byte) (s : State) : s.Keeps (State.beginDownload body s) := by
  unfold State.beginDownload
  split
  · exact respond ..
  · split
    · exact respond ..
    · exact (setExch s _).trans (sendTxn ..)

theorem downloadEntry (body : List Byte) (s : State) : s.Keeps (State.downloadEntry body s) := by
  unfold State.downloadEntry
  split
  · exact noSession s
  · split
    · exact refuseEntry s
    · exact sendDownload ..

theorem finishDownload (t : Txn) (s : State) : s.Keeps (State.finishDownload t s) := by
  unfold State.finishDownload
  split
  · exact noSession s
  · exact sendDownload ..

theorem gapExpiry (s : State) : s.Keeps s.gapExpiry := by
  unfold State.gapExpiry
  split
  · split
    · exact (setExch s _).trans (sendTxn ..)
    · exact refl s
  · exact refl s

theorem doRestart (p : Port) (s : State) : s.Keeps (State.doRestart p s) := by
  unfold State.doRestart
  split
  · dsimp only
    split
    · exact setPort ..
    · exact (setPort ..).trans (respondWith ..)
  · exact respond ..

/-! ### Wands, time and the printer -/

theorem checkMessage (s : State) (d : Desk) : s.Keeps (s.checkMessage d) := by
  unfold State.checkMessage
  dsimp only
  split
  · exact setWand ..
  · split
    · exact setWand ..
    · split
      · exact setWand ..
      · split
        · refine (setWand ..).trans (setEng _ ?_ ?_) <;> rw [State.eng_setWand]
          · exact fun k => k.congr (le_refl _) rfl rfl id id
          · exact id
        · next l _ _ room =>
          have h := fun w => joinQueue (s.setWand d w) (d := d) (en := .scan { label := l, arrival := s.now })
            (by rw [State.eng_setWand]; exact room)
          simp only [State.eng_setWand] at h
          exact (setWand ..).trans (h _)

theorem endMessage (s : State) (d : Desk) : s.Keeps (s.endMessage d) := by
  unfold State.endMessage
  split
  · exact refl s
  · exact checkMessage ..

theorem takeChar (d : Desk) (s : State) (c : WandChar) : s.Keeps (State.takeChar d s c) := by
  unfold State.takeChar
  split
  · exact endMessage ..
  · exact setWand ..

/-- A list of characters taken one after another. -/
theorem foldl {α : Type} {f : State → α → State} (hf : ∀ x a, State.Keeps x (f x a)) (xs : List α) (s : State) :
    s.Keeps (xs.foldl f s) := by
  induction xs generalizing s with
  | nil => exact refl s
  | cons x xs ih => exact (hf s x).trans (ih _)

theorem elapse (s : State) (ms : Nat) : s.Keeps (s.elapse ms) := by
  have eng : ∀ e : Engine, e.KeepsPlaces → (e.elapse ms).KeepsPlaces := fun e k =>
    k.congr (le_refl _) rfl rfl (by simp [Engine.elapse, ranFor]) (by simp [Engine.elapse, ranFor])
  unfold State.elapse
  split
  · exact refl s
  · refine of_frame (held := fun h => h.elapse ms) (places := fun h d => ?_) (scans := fun d h => ?_)
    · cases d
      · exact eng _ (h .a)
      · exact eng _ (h .b)
    · cases d <;> exact h

theorem nextSecond_valid (c : Clock) : c.nextSecond.1.valid = c.valid := by
  unfold Clock.nextSecond
  repeat' split
  all_goals rfl

theorem countSecond (s : State) : s.Keeps s.countSecond := by
  have counted : s.Keeps { s with clock := s.clock.nextSecond.1 } := of_frame (clock := nextSecond_valid _)
  unfold State.countSecond
  dsimp only
  split
  · exact counted.trans (dayChange _)
  · exact counted

theorem settleWaiting (s : State) : s.Keeps s.settleWaiting := by
  unfold State.settleWaiting
  split
  · exact settle ..
  · exact refl s

/-- A place freed in the slip queue goes to one waiting slip at most (R181). -/
theorem frontTaken_fits {xs ys : List Slip} (h : xs.length ≤ 8) (hy : ys.length ≤ 1) : (xs.tail ++ ys).length ≤ 8 := by
  rw [List.length_append, List.length_tail]; omega

theorem frontLeaves (s : State) :
    s.Keeps (match s.frontLeaves with
      | (s1, some (d, f)) => s1.follow d f
      | (s1, none) => s1) := by
  rcases s.frontLeaves_cases with e | ⟨d, rest, x, f, hc, e⟩ <;> rw [e]
  · exact of_frame (slips := fun h => by simp; omega)
  · refine of_desk (d := d) ((DeskStep.setPrinter d s fun h => ?_).trans (DeskStep.follow ..)) fun k => ?_
    · rw [Printer.sendFront_queue]; exact frontTaken_fits h (le_refl 1)
    · exact State.follow_slipWait_keepsPlaces _ d (by rw [State.eng_withPrinter]; exact k)
        (by rw [State.eng_withPrinter]; exact hc)

theorem printed (s : State) : s.Keeps s.printed := (settleWaiting s).trans (frontLeaves _)

theorem printerMessage (s : State) (m : List Byte) : s.Keeps (s.printerMessage m) := by
  unfold State.printerMessage
  split
  · exact printed s
  · split
    · exact setPrinter s rfl
    · split
      · exact setPrinter s (Printer.sendFront_queue _)
      · exact refl s

theorem printerChar (s : State) (c : WandChar) : s.Keeps (s.printerChar c) := by
  unfold State.printerChar
  split
  · exact refl s
  · split
    · exact refl s
    · split
      · exact (setPrinter s (p := { s.printer with rx := [] }) rfl).trans (printerMessage _ _)
      · exact setPrinter s rfl

theorem printerHears (s : State) (chars : List WandChar) : s.Keeps (s.printerHears chars) := by
  unfold State.printerHears
  split
  · exact foldl printerChar chars s
  · exact refl s

/-! ### The journal's events and the resets -/

theorem programDone {s : State} {b : PageBuf} (hb : s.journal.programming = some b) : s.Keeps (s.programDone b) := by
  have written : s.Keeps { s with journal := s.journal.finishProgram b } :=
    setJournal s fun h => h.finishProgram (h.programming b hb)
  exact (written.trans (pump _)).trans (setJournal _ fun h => h.resumeErase)

theorem eraseDone {s : State} {r : EraseRun} {left : List Host.Cell} (hr : s.journal.erase = some r)
    (hl : ∀ c ∈ left, c.1 < 4096) : s.Keeps (s.eraseDone r left) := by
  have erased : s.Keeps { s with journal := s.journal.finishErase r left } :=
    setJournal s fun h => h.finishErase (h.erase r hr) hl
  unfold State.eraseDone
  dsimp only
  split
  · split
    · exact erased.trans (offer ..)
    · exact erased.trans (pump _)
  · exact erased

theorem initial_keepsPlaces : Engine.initial.KeepsPlaces :=
  ⟨Nat.zero_le _, by simp [Engine.owesResult, Engine.initial], by simp [Engine.initial], by simp [Engine.initial],
    by simp [Engine.initial], by simp [Engine.initial]⟩

theorem goOn_taken (r : Rollover) : r.goOn.taken = r.taken := by unfold Rollover.goOn; split <;> rfl

theorem restarting (s : State) : s.Keeps s.restarting := by
  refine ⟨⟨id, id, fun h => ⟨fun d => ?_, Nat.zero_le _, h.edits, ?_⟩, fun h => h.restarted, fun _ d => ?_, rfl,
    fun h => ?_, id, fun _ => id⟩, fun _ => (State.stateFollows_iff _).mpr rfl⟩
  · cases d <;> exact Nat.zero_le _
  · exact (goOn_taken s.roll).symm ▸ h.taken
  · cases d <;> exact initial_keepsPlaces
  · change ∀ e ∈ s.settings.edits ++ s.roll.goOn.taken, _
    rw [goOn_taken]; exact h

theorem undoStep_journal (s : State) : s.undoStep.journal = s.journal := by
  unfold State.undoStep; split <;> rfl

theorem undoStep (s : State) : s.Keeps s.undoStep := by
  unfold State.undoStep
  split
  · refine ⟨⟨id, fun h => { h with }, fun h => ⟨h.scans, h.slips, ?_, ?_⟩, id, fun h => h, rfl, fun h e he => ?_, id,
      fun _ => id⟩, id⟩
    · exact List.length_take_le _ _
    · have h1 := h.edits
      have h2 := h.taken
      simp; omega
    · rw [List.take_append_drop] at he
      exact h e (List.mem_append.mpr (List.mem_append.mp he).symm)
  · exact refl s

end State.Keeps

/-! ### The commands -/

/-- The outcome of a command that never faults. -/
theorem State.Keeps.of_next {s t u : State} (h : s.Keeps u) (e : (.next u : Host.Outcome State Fault Refusal) = .next t) :
    s.Keeps t := by cases e; exact h

/-- A command that acts while its condition holds, and else changes nothing. -/
theorem State.Keeps.ite {s t : State} {c : Prop} [Decidable c] (h : c → s.Keeps t) : s.Keeps (if c then t else s) := by
  split
  · exact h ‹c›
  · exact .refl s

open State.Keeps in
/-- What every command but a power-on keeps. -/
theorem exec_keeps {c : Instr} {s t : State} (hc : ∀ v high, c ≠ .powerOn v high) (h : exec c s = .next t) :
    s.Keeps t := by
  cases c with
  | wandMessage d chars => exact of_next (ite fun _ => (foldl (takeChar d) chars s).trans (endMessage _ d)) h
  | wandPartialTimeout d => exact of_next (ite fun _ => setWand ..) h
  | tonePulseEnd d =>
    refine of_next ?_ h
    split
    · exact refl s
    · exact ite fun _ => setWand ..
  | keyIn p tag body => exact of_next (deskRequest _ _ _ _ _ (keyIn body)) h
  | takeEntry d => exact of_next (ite fun _ => (settle s d).trans (takeFront _ d)) h
  | idleTimerExpiry d => exact of_next (ite fun _ => (settle s d).trans (idleExpiry _ d)) h
  | overrideTimerExpiry d => exact of_next (ite fun _ => (settle s d).trans (overrideExpiry _ d)) h
  | leaveOpen d => exact of_next (ite fun _ => settle s d) h
  | status p tag body => exact of_next (deskRequest _ _ _ _ _ status) h
  | readResult p tag body => exact of_next (deskRequest _ _ _ _ _ readResult) h
  | setMode p tag body => exact of_next (deskRequest _ _ _ _ _ (setMode body)) h
  | close p tag body => exact of_next (deskRequest _ _ _ _ _ close) h
  | override p tag body => exact of_next (deskRequest _ _ _ _ _ fun d x => reachContext x d .override) h
  | decline p tag body => exact of_next (deskRequest _ _ _ _ _ fun d x => reachContext x d .decline) h
  | dropSlip p tag body => exact of_next (deskRequest _ _ _ _ _ fun d x => reachContext x d .dropSlip) h
  | issue d | overrideOnLoanElsewhere d | overrideHeldForOther d | discharge d | renew d | itemInquiry d
  | borrowerCheck d | borrowerInquiry d | paymentTransaction d | setLocalBlockTransaction d
  | clearLocalBlockTransaction d => exact of_next (takeIf ..) h
  | applicationStep | holdPassVisit | sweepVisit | downloadMarkStale | blockEntry | holdEntry | downloadEnd
  | downloadAbort => exact of_next (takeIf ..) h
  | inquireItem p ask | inquireBorrower p ask | identify p ask => exact of_next (inquiry ..) h
  | payment p tag body => exact of_next (deskRequest _ _ _ _ _ (payment body)) h
  | setLocalBlock p tag body => exact of_next (deskRequest _ _ _ _ _ (setLocalBlock body)) h
  | clearLocalBlock p tag body => exact of_next (deskRequest _ _ _ _ _ (clearLocalBlock body)) h
  | readSettings p tag body =>
    refine of_next (request _ _ _ _ _ fun x => ?_) h
    split <;> exact respond ..
  | postEdit p tag body => exact of_next (request _ _ _ _ _ (postEdit body)) h
  | setTime p tag body => exact of_next (request _ _ _ _ _ (setTime body)) h
  | clockTick => exact of_next ((elapse s _).trans (countSecond _)) h
  | openLine high =>
    refine of_next ?_ h
    split
    · exact refl s
    · exact State.KeepsParts.derive (t := { s with openLine := high }) ⟨id, id, fun q => ⟨q.scans, q.slips, q.edits, q.taken⟩, id,
        fun p => p, rfl, id, id, fun _ => id⟩
  | refreshRules p tag body => exact of_next (request _ _ _ _ _ refreshRules) h
  | rolloverRecord => exact of_next (ite fun _ => offer ..) h
  | bufferTimer =>
    refine of_next ?_ h
    exact ite fun _ => setJournal s fun j => { j.closeFilling with }
  | pageProgramStart =>
    refine of_next ?_ h
    split
    · exact refl s
    · exact setJournal s fun j => j.startProgram
  | pageProgramComplete =>
    refine of_next ?_ h
    split
    · next b hb =>
      split
      · exact refl s
      · exact programDone hb
    · exact refl s
  | eraseStart =>
    refine of_next ?_ h
    split
    · exact refl s
    · split
      · next n hn => exact setJournal s fun j => j.startErase (Journal.Held.eraseCandidate_lt hn)
      · exact refl s
  | eraseComplete left =>
    change execEraseComplete left s = _ at h
    unfold execEraseComplete at h
    split at h
    · cases h
    · next hl =>
      refine of_next ?_ h
      split
      · next r hr =>
        split
        · exact refl s
        · exact eraseDone hr fun x hx => by
            simpa using fun hx4 => hl (List.any_eq_true.mpr ⟨x, hx, hx4⟩)
      · exact refl s
  | readJournal p tag body =>
    refine of_next (request _ _ _ _ _ fun x => ?_) h
    split <;> exact respond ..
  | ackJournal p tag body =>
    refine of_next (request _ _ _ _ _ fun x => ?_) h
    split
    · exact respond ..
    · exact acknowledge ..
  | beginDownload p tag body => exact of_next (request _ _ _ _ _ (beginDownload body)) h
  | downloadEntry p tag body => exact of_next (request _ _ _ _ _ (downloadEntry body)) h
  | endDownload p tag body => exact of_next (request _ _ _ _ _ (finishDownload _)) h
  | abortDownload p tag body => exact of_next (request _ _ _ _ _ (finishDownload _)) h
  | gapTimerExpiry => exact of_next (ite fun _ => gapExpiry s) h
  | printerStatus p tag body => exact of_next (request _ _ _ _ _ fun x => respond ..) h
  | printerDone | printerPaperOut | printerReady | printerMessageDiscard chars => exact of_next (printerHears ..) h
  | messageSent | answerTimerExpiry | inquiryTimerExpiry =>
    refine of_next ?_ h
    exact ite fun _ => setPrinter s rfl
  | frameCheckError p rest => exact of_next (ite fun _ => setPort ..) h
  | frameTimeout p cause => exact of_next (ite fun _ => setPort ..) h
  | unknownRequest p tag code body =>
    refine of_next ?_ h
    split
    · exact refl s
    · split
      · exact setPort ..
      · exact (setPort ..).trans (respond ..)
  | restartArm p tag body => exact of_next (request _ _ _ _ _ fun x => (setPort ..).trans (respond ..)) h
  | restart p tag body => exact of_next (request _ _ _ _ _ (doRestart p)) h
  | unitRestart => exact of_next (ite fun _ => (restarting s).trans (offer ..)) h
  | powerOn v high => exact absurd rfl (hc v high)
  | powerLoss page sector =>
    change execPowerLoss page sector s = _ at h
    unfold execPowerLoss at h
    split at h
    · cases h
    · next hl =>
      refine of_next ?_ h
      split
      · exact refl s
      · have fits : ∀ {n : Nat} {cs : List Host.Cell}, ¬ cs.any (fun c => decide (n ≤ c.1)) = true →
            ∀ c ∈ cs, c.1 < n := by
          intro n cs hn c hcs
          simpa using fun hle => hn (List.any_eq_true.mpr ⟨c, hcs, hle⟩)
        rw [not_or] at hl
        refine (undoStep s).trans (of_frame (held := fun j => ?_))
        exact Journal.Held.lostPower (undoStep_journal s ▸ j) (fits hl.1) (fits hl.2)
  | wandCharacter d c => exact of_next (ite fun _ => takeChar d s c) h
  | strayStartByte p hi lo =>
    refine of_next ?_ h
    dsimp only
    split
    · exact refl s
    · exact setPort ..
  | responseSent p =>
    refine of_next ?_ h
    split
    · refine ite fun _ => ?_
      exact (setPort ..).trans of_frame
    · exact refl s

/-! ### A power-on -/

/-- What a warm power-on keeps of the retained memory, and its clock while the count has not broken (R125, R192). -/
theorem State.warmStart_parts (s : State) (broke : Bool) :
    (s.warmStart broke).circ = s.circ ∧ (s.warmStart broke).settings = s.settings
      ∧ (s.warmStart broke).roll.taken = s.roll.taken ∧ (s.warmStart broke).journal = s.journal.scan true
      ∧ (s.warmStart broke).clock = s.warmClock broke ∧ (s.warmStart broke).printer = s.printer
      ∧ (∀ d, (s.warmStart broke).eng d = s.eng d) ∧ (s.warmStart broke).pending = s.pending := by
  have taken := State.Keeps.goOn_taken s.roll
  unfold State.warmStart
  dsimp only
  split
  · unfold State.dayChange
    split <;> exact ⟨rfl, rfl, taken, rfl, rfl, rfl, fun d => by cases d <;> rfl, rfl⟩
  · exact ⟨rfl, rfl, taken, rfl, rfl, rfl, fun d => by cases d <;> rfl, rfl⟩

/-- A power-on ends with desks and printer as every reset leaves them (R14, R38, R186). -/
theorem State.poweringOn_desks (s : State) (cold broke openHigh : Bool) :
    (∀ d, (s.poweringOn cold broke openHigh).eng d = Engine.initial)
      ∧ (s.poweringOn cold broke openHigh).printer = Printer.initial
      ∧ (s.poweringOn cold broke openHigh).pending = s.pending
      ∧ (s.poweringOn cold broke openHigh).stateFollows := by
  refine ⟨fun d => ?_, ?_, ?_, (State.stateFollows_iff _).mpr rfl⟩
  · cases cold with
    | true => cases d <;> rfl
    | false =>
      obtain ⟨-, -, -, -, -, -, h, -⟩ := s.resetDesks.warmStart_parts broke
      have h := h d
      cases d <;> exact h
  · cases cold with
    | true => rfl
    | false =>
      obtain ⟨-, -, -, -, -, h, -⟩ := s.resetDesks.warmStart_parts broke
      exact h
  · cases cold with
    | true => rfl
    | false =>
      obtain ⟨-, -, -, -, -, -, -, h⟩ := s.resetDesks.warmStart_parts broke
      exact h

/-- What a warm power-on keeps: tables, settings and the edits taken; and the clock, while its count has not broken. -/
theorem State.poweringOn_warm (s : State) (broke openHigh : Bool) :
    (s.poweringOn false broke openHigh).circ = s.circ ∧ (s.poweringOn false broke openHigh).settings = s.settings
      ∧ (s.poweringOn false broke openHigh).roll.taken = s.roll.taken
      ∧ (s.poweringOn false broke openHigh).journal = s.journal.scan true
      ∧ (s.poweringOn false broke openHigh).clock = s.warmClock broke := by
  obtain ⟨hc, hs, ht, hj, hk, -⟩ := s.resetDesks.warmStart_parts broke
  exact ⟨hc, hs, ht, hj, hk⟩

theorem Settings.cold_sized : Settings.cold.Sized := ⟨rfl, by decide, by decide⟩

theorem Circ.cold_sized : Circ.cold.Sized := ⟨rfl, by decide, rfl, by decide, rfl, by decide⟩

/-- What every command keeps, a power-on among them. -/
structure State.KeepsInvariants (s t : State) : Prop where
  follows : s.stateFollows → t.stateFollows
  sizes : s.WithinSizes → t.WithinSizes
  held : s.journal.Held → t.journal.Held
  places : s.PlacesKept → t.PlacesKept
  pending : t.pending = s.pending
  edits : s.editsValid → t.editsValid

theorem State.KeepsInvariants.refl (s : State) : s.KeepsInvariants s := ⟨id, id, id, id, rfl, id⟩

theorem State.KeepsInvariants.trans {s t u : State} (h1 : s.KeepsInvariants t) (h2 : t.KeepsInvariants u) :
    s.KeepsInvariants u :=
  ⟨fun h => h2.follows (h1.follows h), fun h => h2.sizes (h1.sizes h), fun h => h2.held (h1.held h),
    fun h => h2.places (h1.places h), h2.pending.trans h1.pending, fun h => h2.edits (h1.edits h)⟩

theorem State.Keeps.invariants {s t : State} (k : s.Keeps t) : s.KeepsInvariants t where
  follows := k.follows
  sizes h := by
    obtain ⟨tables, settings, queues⟩ := s.withinSizes_iff.mp h
    exact t.withinSizes_iff.mpr ⟨k.tables tables, k.settings settings, k.queues queues⟩
  held := k.held
  places := k.places
  pending := k.pending
  edits := k.edits

/-- What every power-on's steps keep, whatever the level of the backup supply was. -/
theorem State.poweringOn_keeps (s : State) (cold broke openHigh : Bool) :
    s.KeepsInvariants (s.poweringOn cold broke openHigh) := by
  obtain ⟨heng, hprn, hpend, hop⟩ := s.poweringOn_desks cold broke openHigh
  have scans : ∀ d, ((s.poweringOn cold broke openHigh).eng d).queue.length ≤ 16 := fun d => by
    rw [heng]; exact Nat.zero_le _
  have slips : (s.poweringOn cold broke openHigh).printer.queue.length ≤ 8 := by rw [hprn]; exact Nat.zero_le _
  have places : (s.poweringOn cold broke openHigh).PlacesKept := fun d => heng d ▸ State.Keeps.initial_keepsPlaces
  cases cold with
  | true =>
    exact ⟨fun _ => hop, fun _ => (State.withinSizes_iff _).mpr
        ⟨Circ.cold_sized, Settings.cold_sized, ⟨scans, slips, Nat.zero_le _, Nat.zero_le _⟩⟩,
      fun h => h.scan false, fun _ => places, hpend, fun _ x hx => by cases hx⟩
  | false =>
    obtain ⟨hc, hs, ht, hj, -⟩ := s.poweringOn_warm broke openHigh
    refine ⟨fun _ => hop, fun h => ?_, fun h => hj ▸ h.scan true, fun _ => places, hpend,
      fun h => by rw [State.editsValid, hs, ht]; exact h⟩
    obtain ⟨h1, h2, h3⟩ := s.withinSizes_iff.mp h
    exact (State.withinSizes_iff _).mpr ⟨hc ▸ h1, hs ▸ h2, ⟨scans, slips, hs ▸ h3.edits, ht ▸ h3.taken⟩⟩

/-- A power-on with power on changes nothing; else it is its steps, and the offer of its record behind them (R192). -/
theorem exec_powerOn {v : Nat} {high : Bool} {s t : State} (h : exec (.powerOn v high) s = .next t) :
    t = s ∨ (s.poweringOn (!s.retains v) (decide (v < 2200)) high).Keeps t := by
  change execPowerOn v high s = _ at h
  unfold execPowerOn at h
  split at h
  · cases h; exact .inr (State.Keeps.offer ..)
  · cases h; exact .inl rfl

theorem exec_keeps_invariants {c : Instr} {s t : State} (h : exec c s = .next t) : s.KeepsInvariants t := by
  by_cases hc : ∃ v high, c = .powerOn v high
  · obtain ⟨v, high, rfl⟩ := hc
    rcases exec_powerOn h with rfl | k
    · exact .refl _
    · exact (s.poweringOn_keeps ..).trans k.invariants
  · exact (exec_keeps (fun v high e => hc ⟨v, high, e⟩) h).invariants

/-! ### The obligations -/

/-- Settles O4: every operation leaves the inputs and the state derived from them, or derives it anew. -/
theorem operatingStateFollowsItsInputs : Obligations.OperatingStateFollowsItsInputs :=
  fun _ _ _ hs h => (exec_keeps_invariants h).follows hs

/-- Settles O5: every operation on a collection tests its room, and every put, removal and edit keeps its form. -/
theorem collectionsKeepTheirSizes : Obligations.CollectionsKeepTheirSizes :=
  fun _ _ _ hs h => (exec_keeps_invariants h).sizes hs

/-- Settles O6: what the journal programs or erases is a page or sector `Journal.Held` has kept inside the array. -/
theorem journalArrayKeepsItsForm : Obligations.JournalArrayKeepsItsForm :=
  fun _ _ _ hs h => (exec_keeps_invariants h).held hs

/-- Settles O7: an engine takes a scan with room for its result, and every way its service ends uses that room once. -/
theorem enginesKeepPlacesForResults : Obligations.EnginesKeepPlacesForResults :=
  fun _ s t ha hb h =>
    t.placesKept_iff.mp ((exec_keeps_invariants h).places (s.placesKept_iff.mpr ⟨ha, hb⟩))

/-- The clock stays valid but for a power-on after the backup supply fell below 2.2 V, or the first of all (R125). -/
theorem exec_keeps_valid {c : Instr} {s t : State} (h : exec c s = .next t) (hv : s.clock.valid = true)
    (hno : ∀ v high, c = .powerOn v high → 2200 ≤ v ∧ s.written = true) : t.clock.valid = true := by
  by_cases hc : ∃ v high, c = .powerOn v high
  · obtain ⟨v, high, rfl⟩ := hc
    obtain ⟨level, written⟩ := hno v high rfl
    rcases exec_powerOn h with rfl | k
    · exact hv
    · have retained : s.retains v = true := by simp [State.retains, written]; omega
      obtain ⟨-, -, -, -, hclk⟩ := s.poweringOn_warm false high
      rw [retained, decide_eq_false (Nat.not_lt.mpr level)] at k
      exact k.valid (by rw [Bool.not_true, hclk]; exact hv)
  · exact (exec_keeps (fun v high e => hc ⟨v, high, e⟩) h).valid hv

/-- The home code stays set but for a power-on after the backup supply fell below 2.0 V, or the first of all (R98). -/
theorem exec_keeps_home {c : Instr} {s t : State} (h : exec c s = .next t) (he : s.editsValid)
    (hh : s.settings.config.home ≠ none) (hno : ∀ v high, c = .powerOn v high → 2000 ≤ v ∧ s.written = true) :
    t.settings.config.home ≠ none := by
  by_cases hc : ∃ v high, c = .powerOn v high
  · obtain ⟨v, high, rfl⟩ := hc
    obtain ⟨level, written⟩ := hno v high rfl
    rcases exec_powerOn h with rfl | k
    · exact hh
    · have retained : s.retains v = true := by simp [State.retains, written, level]
      obtain ⟨-, hset, -⟩ := s.poweringOn_warm (decide (v < 2200)) high
      rw [retained, Bool.not_true] at k
      exact k.home ((s.poweringOn_keeps ..).edits he) (by rw [hset]; exact hh)
  · exact (exec_keeps (fun v high e => hc ⟨v, high, e⟩) h).home he hh

/-- Settles O8: the two laws above, for the power-on that the statement leaves. -/
theorem onlyAPowerOnUnsetsTheUnit : Obligations.OnlyAPowerOnUnsetsTheUnit := by
  intro c s t he h
  refine ⟨(exec_keeps_invariants h).edits he, fun hv lost => ?_, fun hh lost => ?_⟩
  · by_contra hno
    have kept := exec_keeps_valid h hv fun v high e => by
      simpa using fun hw => hno ⟨v, high, e, hw⟩
    simp [kept] at lost
  · by_contra hno
    exact exec_keeps_home h he hh (fun v high e => by simpa using fun hw => hno ⟨v, high, e, hw⟩) lost

/-! ### Without power -/

namespace State

variable {s : State}

theorem request_off (off : s.power = .off) (p : Port) (k : ReqKind) (tag : Byte) (body : List Byte) (f : State → State) :
    s.request p k tag body f = s := if_pos (by simp [State.accepts, off])

theorem takeIf_off (off : s.power = .off) (c : Claimant) (kind : Txn → Bool) : s.takeIf c kind = s :=
  State.takeIf_none (if_neg (by simp [off]))

theorem inquiry_off (off : s.power = .off) (p : Port) (k : ReqKind) (kind : Txn → Bool) (t : List Byte → Option Txn)
    (ask : Ask) : s.inquiry p k kind t ask = s := by
  cases ask with
  | request tag body => unfold State.inquiry; exact request_off off ..
  | turn => exact takeIf_off off ..

theorem printerHears_off (off : s.power = .off) (chars : List WandChar) : s.printerHears chars = s :=
  if_neg (by simp [off])

end State

/-- Without power a command that asks for the part to be running, or for power, leaves the part as it is. -/
theorem exec_off {c : Instr} {s : State} (off : s.power = .off) (hc : c ≠ .clockTick)
    (hp : ∀ v high, c ≠ .powerOn v high) : exec c s = .next s ∨ exec c s = .fault .noSuchAddress := by
  have next : ∀ {u : State}, u = s → (.next u : Host.Outcome State Fault Refusal) = .next s
      ∨ (.next u : Host.Outcome State Fault Refusal) = .fault .noSuchAddress := fun e => .inl (congrArg _ e)
  have running : ¬ s.power = .running := by simp [off]
  have shut : ∀ p, s.accepts p = false := by simp [State.accepts, off]
  cases c with
  | clockTick => exact absurd rfl hc
  | powerOn v high => exact absurd rfl (hp v high)
  | keyIn p tag body | status p tag body | readResult p tag body | setMode p tag body | close p tag body
  | override p tag body | decline p tag body | dropSlip p tag body | payment p tag body | setLocalBlock p tag body
  | clearLocalBlock p tag body | readSettings p tag body | postEdit p tag body | setTime p tag body
  | refreshRules p tag body | readJournal p tag body | ackJournal p tag body | beginDownload p tag body
  | downloadEntry p tag body | endDownload p tag body | abortDownload p tag body | printerStatus p tag body
  | restartArm p tag body | restart p tag body => exact next (State.request_off off ..)
  | issue d | overrideOnLoanElsewhere d | overrideHeldForOther d | discharge d | renew d | itemInquiry d
  | borrowerCheck d | borrowerInquiry d | paymentTransaction d | setLocalBlockTransaction d
  | clearLocalBlockTransaction d => exact next (State.takeIf_off off ..)
  | applicationStep | holdPassVisit | sweepVisit | downloadMarkStale | blockEntry | holdEntry | downloadEnd
  | downloadAbort => exact next (State.takeIf_off off ..)
  | inquireItem p ask | inquireBorrower p ask | identify p ask => exact next (State.inquiry_off off ..)
  | wandMessage d chars | wandCharacter d x | takeEntry d | idleTimerExpiry d | overrideTimerExpiry d | leaveOpen d
  | gapTimerExpiry => exact next (if_neg running)
  | wandPartialTimeout d | rolloverRecord | messageSent | answerTimerExpiry | inquiryTimerExpiry | unitRestart =>
    exact next (if_neg fun h => running h.1)
  | printerDone | printerPaperOut | printerReady | printerMessageDiscard chars =>
    exact next (State.printerHears_off off _)
  | tonePulseEnd d =>
    refine next ?_
    split
    · rfl
    · exact if_neg fun h => running h.1
  | openLine high | pageProgramStart =>
    refine next ?_
    exact if_pos off
  | bufferTimer => exact next (if_neg fun h => h.1 off)
  | eraseStart => exact next (if_pos (.inl off))
  | pageProgramComplete =>
    refine next ?_
    split
    · exact if_pos off
    · rfl
  | eraseComplete left =>
    change execEraseComplete left s = _ ∨ execEraseComplete left s = _
    unfold execEraseComplete
    split
    · exact .inr rfl
    · refine next ?_
      split
      · exact if_pos (.inl off)
      · rfl
  | powerLoss page sector =>
    change execPowerLoss page sector s = _ ∨ execPowerLoss page sector s = _
    unfold execPowerLoss
    split
    · exact .inr rfl
    · exact next rfl
  | frameCheckError p rest | frameTimeout p cause => exact next (if_neg fun h => by simp [shut] at h)
  | unknownRequest p tag code body | strayStartByte p hi lo => exact next (if_pos (.inl (shut p)))
  | responseSent p =>
    refine next ?_
    split
    · exact if_neg running
    · rfl

/-- Every command comes to a next state, but for the two whose operand names a byte that does not exist (R141). -/
theorem exec_next_or_fault (c : Instr) (s : State) :
    (∃ t, exec c s = .next t)
      ∨ exec c s = .fault .noSuchAddress
          ∧ ((∃ left, c = .eraseComplete left ∧ ∃ x ∈ left, 4096 ≤ x.1)
            ∨ ∃ page sector, c = .powerLoss page sector ∧ ((∃ x ∈ page, 256 ≤ x.1) ∨ ∃ x ∈ sector, 4096 ≤ x.1)) := by
  cases c with
  | eraseComplete left =>
    change (∃ t, execEraseComplete left s = _) ∨ execEraseComplete left s = _ ∧ _
    unfold execEraseComplete
    split
    · next h => exact .inr ⟨rfl, .inl ⟨left, rfl, by simpa using h⟩⟩
    · exact .inl ⟨_, rfl⟩
  | powerLoss page sector =>
    change (∃ t, execPowerLoss page sector s = _) ∨ execPowerLoss page sector s = _ ∧ _
    unfold execPowerLoss
    split
    · next h => exact .inr ⟨rfl, .inr ⟨page, sector, rfl, by simpa using h⟩⟩
    · exact .inl ⟨_, rfl⟩
  | _ => exact .inl ⟨_, rfl⟩

/-- Settles O9: without power by `exec_off`, and of the queue by `exec_keeps_invariants`. -/
theorem commandsLeaveTheQueue : Obligations.CommandsLeaveTheQueue := by
  refine ⟨fun c s off hc hp => exec_off off hc hp, fun c s => ?_⟩
  rcases exec_next_or_fault c s with ⟨t, h⟩ | fault
  · exact .inl ⟨t, h, (exec_keeps_invariants h).pending⟩
  · exact .inr fault

end Sys2Proof.Machine
end

section
/-! PROOFS. The step on the front command, time reaching the clock and the timers, and the state after reset. -/

namespace Sys2Proof.Machine

/-- Settles O1: both sides are the same match on the queue's front. -/
theorem stepRunsTheFrontCommand : Obligations.StepRunsTheFrontCommand := fun _ _ _ => rfl

/-! ### Time -/

section Elapse
variable (s : State) (n : Nat)

@[simp] theorem State.elapse_clock : (s.elapse n).clock = s.clock := by unfold State.elapse; split <;> rfl

@[simp] theorem State.elapse_power : (s.elapse n).power = s.power := by unfold State.elapse; split <;> rfl

theorem State.elapse_off (h : s.power = .off) : s.elapse n = s := if_pos h

theorem State.elapse_on (h : s.power ≠ .off) :
    s.elapse n =
      { s with
        wandA := s.wandA.elapse n, wandB := s.wandB.elapse n, engA := s.engA.elapse n, engB := s.engB.elapse n
        portA := s.portA.elapse n, portB := s.portB.elapse n, portU := s.portU.elapse n
        printer := s.printer.elapse n, journal := s.journal.elapse n
        exch := { s.exch with gapMs := ranFor n s.exch.gapMs } } := if_neg h

end Elapse

theorem Journal.elapse_filling (j : Journal) (n : Nat) (h : j.filling.isSome) :
    j.elapse n = { j with fillMs := j.fillMs + n } := by
  obtain ⟨b, hb⟩ := Option.isSome_iff_exists.mp h
  simp [Journal.elapse, hb]

/-- A tick is the second counted out on the state the crystal's time has reached. -/
theorem exec_clockTick (s : State) : exec .clockTick s = .next (s.elapse (1000 - s.clock.ms)).countSecond := rfl

/-- A second that does not end a day changes the clock alone. -/
theorem State.countSecond_same {s : State} {c : Clock} (h : s.clock.nextSecond = (c, false)) :
    s.countSecond = { s with clock := c } := by simp [State.countSecond, h]

/-- A second that ends a day is a day change, but without power. -/
theorem State.countSecond_day {s : State} {c : Clock} (h : s.clock.nextSecond = (c, true)) :
    s.countSecond = if s.power = .off then { s with clock := c } else State.dayChange { s with clock := c } := by
  by_cases hp : s.power = .off <;> simp [State.countSecond, h, hp]

section NextSecond
variable {c : Clock}

theorem Clock.nextSecond_second (h : c.second < 59) :
    c.nextSecond = ({ c with second := c.second + 1, ms := 0 }, false) := if_pos h

theorem Clock.nextSecond_minute (hs : c.second = 59) (h : c.minute < 1439) :
    c.nextSecond = ({ c with minute := c.minute + 1, second := 0, ms := 0 }, false) := by
  simp [Clock.nextSecond, hs, h]

theorem Clock.nextSecond_day (hs : c.second = 59) (hm : c.minute = 1439) (h : c.day < 65535) :
    c.nextSecond = ({ c with day := c.day + 1, minute := 0, second := 0, ms := 0 }, true) := by
  simp [Clock.nextSecond, hs, hm, h]

theorem Clock.nextSecond_last (hs : c.second = 59) (hm : c.minute = 1439) (h : c.day = 65535) :
    c.nextSecond = ({ c with ms := 0 }, false) := by simp [Clock.nextSecond, hs, hm, h]

end NextSecond

/-- A tick whose second does not end a day. -/
theorem exec_clockTick_same {s : State} {c : Clock} (h : s.clock.nextSecond = (c, false)) :
    exec .clockTick s = .next { s.elapse (1000 - s.clock.ms) with clock := c } := by
  rw [exec_clockTick, State.countSecond_same (by rw [State.elapse_clock, h])]

/-- A tick whose second ends a day. -/
theorem exec_clockTick_day {s : State} {c : Clock} (h : s.clock.nextSecond = (c, true)) :
    exec .clockTick s
      = .next (if s.power = .off then { s with clock := c }
          else State.dayChange { s.elapse (1000 - s.clock.ms) with clock := c }) := by
  rw [exec_clockTick, State.countSecond_day (by rw [State.elapse_clock, h])]
  by_cases hp : s.power = .off
  · rw [State.elapse_off s _ hp, if_pos hp]
  · rw [if_neg (by rwa [State.elapse_power]), if_neg hp]

/-- A step on an empty queue is one millisecond of the crystal. -/
theorem step_empty {s : State} (h : s.pending = []) : step s = .next s.millisecond := by simp [step, h]

/-- Settles O2: the four cases of the clock's next second, and one record update for the timers. -/
theorem timeReachesClockAndTimers : Obligations.TimeReachesClockAndTimers := by
  refine ⟨?_, ?_, ?_, ?_, ?_, ?_, ?_, fun s n h => State.elapse_off s n h, ?_⟩
  · intro s h hms
    rw [step_empty h]
    simp [State.millisecond, show s.clock.ms + 1 < 1000 by omega]
  · intro s h hms
    rw [step_empty h, exec_clockTick]
    simp [State.millisecond, hms]
  · exact fun s h => exec_clockTick_same (Clock.nextSecond_second h)
  · exact fun s hs h => exec_clockTick_same (Clock.nextSecond_minute hs h)
  · intro s hs hm h hp
    rw [exec_clockTick_day (Clock.nextSecond_day hs hm h), if_neg hp]
  · intro s hs hm h hp
    rw [exec_clockTick_day (Clock.nextSecond_day hs hm h), if_pos hp]
  · exact fun s hs hm h => exec_clockTick_same (Clock.nextSecond_last hs hm h)
  · intro s n d hp
    rw [State.elapse_on s n hp]
    refine ⟨by cases d <;> rfl, by cases d <;> rfl, ?_, rfl, rfl, fun h => Journal.elapse_filling s.journal n h,
      rfl, rfl, rfl, rfl, rfl, rfl⟩
    intro p
    rcases p with ⟨d⟩ | _
    · cases d <;> rfl
    · rfl

/-! ### The state after reset -/

/-- Settles O3: each invariant is a finite check of the reset state; its journal array holds no byte yet. -/
theorem resetMeetsTheInvariants : Obligations.ResetMeetsTheInvariants := by
  refine ⟨rfl, (State.stateFollows_iff _).mpr rfl, (State.withinSizes_iff _).mpr
      ⟨Circ.cold_sized, Settings.cold_sized, fun d => by cases d <;> exact Nat.zero_le _, Nat.zero_le _, Nat.zero_le _,
        Nat.zero_le _⟩, ?_, State.Keeps.initial_keepsPlaces, State.Keeps.initial_keepsPlaces,
    fun e he => absurd he List.not_mem_nil, rfl, rfl, rfl, rfl, rfl, rfl, rfl, rfl, rfl, rfl⟩
  exact
    { array := rfl
      sectors := rfl
      active := fun n hn => by cases hn; decide
      page := by decide
      seed := by decide
      filling := fun b hb n p hp => by cases hb; cases hp; decide
      waiting := fun b hb => absurd hb List.not_mem_nil
      programming := fun b hb => nomatch hb
      erase := fun r hr => nomatch hr }

end Sys2Proof.Machine
end

section
/-! PROOFS. The label test and the wand intakes (R1 to R9). -/

namespace Sys2Proof.Machine

/-! ### Labels -/

/-- The character of a decimal digit. -/
def digitChar (n : Nat) : WandChar := .char (BitVec.ofNat 8 (48 + n))

theorem digitOf_eq_some (c : WandChar) (n : Nat) : digitOf c = some n ↔ n ≤ 9 ∧ c = digitChar n := by
  unfold digitOf digitChar
  cases c with
  | lineError => simp
  | char b =>
    simp only [WandChar.char.injEq]
    split
    next h =>
      rw [Option.some.injEq]
      constructor
      · rintro rfl
        exact ⟨by omega, BitVec.eq_of_toNat_eq (by simp; omega)⟩
      · rintro ⟨hn, rfl⟩
        simp; omega
    next h =>
      refine ⟨by simp, ?_⟩
      rintro ⟨hn, rfl⟩
      simp at h; omega

theorem digitsOf_eq_some (cs : List WandChar) (ds : List Nat) :
    digitsOf cs = some ds ↔ (∀ n ∈ ds, n ≤ 9) ∧ cs = ds.map digitChar := by
  induction cs generalizing ds with
  | nil => cases ds <;> simp [digitsOf]
  | cons c cs ih =>
    cases ds with
    | nil => unfold digitsOf; split <;> simp
    | cons d ds =>
      have split_both : digitsOf (c :: cs) = some (d :: ds) ↔ digitOf c = some d ∧ digitsOf cs = some ds := by
        rw [digitsOf]
        split
        next hc hcs => simp [hc, hcs]
        next h =>
          refine ⟨by simp, ?_⟩
          rintro ⟨hc, hcs⟩
          exact absurd hcs (h d ds hc)
      rw [split_both, digitOf_eq_some, ih]
      simp only [List.forall_mem_cons, List.map_cons, List.cons.injEq]
      tauto

/-- Fourteen digits make a label when the check value is right and the class lies in the range of its kind. -/
theorem labelOfDigits_fourteen (d1 d2 d3 d4 d5 d6 d7 d8 d9 d10 d11 d12 d13 d14 : Nat) (l : Label) :
    labelOfDigits [d1, d2, d3, d4, d5, d6, d7, d8, d9, d10, d11, d12, d13, d14] = some l ↔
      (d1 = 3 ∧ 10 * d2 + d3 ≤ 15 ∨ d1 = 2 ∧ 10 * d2 + d3 ≤ 7)
        ∧ d14 = (10 - (d1 + 3 * d2 + d3 + 3 * d4 + d5 + 3 * d6 + d7 + 3 * d8 + d9 + 3 * d10 + d11 + 3 * d12 + d13) % 10)
                  % 10
        ∧ l = { digits := [d1, d2, d3, d4, d5, d6, d7, d8, d9, d10, d11, d12, d13, d14]
                kind := if d1 = 3 then .item else .borrower
                cls := 10 * d2 + d3
                ident := { lib := 100 * d4 + 10 * d5 + d6
                           serial := 1000000 * d7 + 100000 * d8 + 10000 * d9 + 1000 * d10 + 100 * d11 + 10 * d12
                                      + d13 } } := by
  have hcheck : checkValue [d1, d2, d3, d4, d5, d6, d7, d8, d9, d10, d11, d12, d13]
      = (10 - (d1 + 3 * d2 + d3 + 3 * d4 + d5 + 3 * d6 + d7 + 3 * d8 + d9 + 3 * d10 + d11 + 3 * d12 + d13) % 10) % 10 := by
    simp only [checkValue, weightedSum]
    congr 3
    omega
  have hcls : decimal [d2, d3] = 10 * d2 + d3 := by simp [decimal]; omega
  have hlib : decimal [d4, d5, d6] = 100 * d4 + 10 * d5 + d6 := by simp [decimal]; omega
  have hserial : decimal [d7, d8, d9, d10, d11, d12, d13]
      = 1000000 * d7 + 100000 * d8 + 10000 * d9 + 1000 * d10 + 100 * d11 + 10 * d12 + d13 := by
    simp [decimal]; omega
  simp only [labelOfDigits, List.drop, List.take, hcls, hlib, hserial, hcheck, List.length_cons, List.length_nil,
    List.getD_cons_succ, List.getD_cons_zero, List.head?_cons, Option.some.injEq]
  split
  next h => simp at h; simp; tauto
  next h =>
    rw [not_or, ne_eq, ne_eq, not_not, not_not] at h
    have hd := h.2
    split
    next h3 => obtain ⟨rfl, hc⟩ := h3; simp [← hd, hc, eq_comm]
    next h3 =>
      split
      next h2 => obtain ⟨rfl, hc⟩ := h2; simp [← hd, hc, eq_comm]
      next h2 =>
        refine iff_of_false (by simp) ?_
        rintro ⟨hk, -⟩
        exact hk.elim h3 h2

theorem labelOf_eq_some (cs : List WandChar) (l : Label) :
    labelOf cs = some l ↔ ∃ ds : List Nat, (∀ n ∈ ds, n ≤ 9) ∧ cs = ds.map digitChar ∧ labelOfDigits ds = some l := by
  simp only [labelOf, Option.bind_eq_some_iff, digitsOf_eq_some, and_assoc]

theorem labelOfDigits_length {ds : List Nat} {l : Label} (h : labelOfDigits ds = some l) : ds.length = 14 := by
  simp only [labelOfDigits] at h
  split at h
  next => nomatch h
  next hn => tauto

/-- Settles O10: the digits are read one by one, and fourteen of them are tested by `labelOfDigits_fourteen`. -/
theorem validLabelsAreThoseOfTheTest : Obligations.ValidLabelsAreThoseOfTheTest := by
  intro cs l
  rw [labelOf_eq_some]
  constructor
  · rintro ⟨ds, hds, hcs, hl⟩
    obtain ⟨d1, d2, d3, d4, d5, d6, d7, d8, d9, d10, d11, d12, d13, d14, rfl⟩ :
        ∃ d1 d2 d3 d4 d5 d6 d7 d8 d9 d10 d11 d12 d13 d14,
          ds = [d1, d2, d3, d4, d5, d6, d7, d8, d9, d10, d11, d12, d13, d14] := by
      have hlen := labelOfDigits_length hl
      simpa [List.length_eq_succ_iff, List.length_eq_zero_iff, eq_comm] using hlen
    exact ⟨d1, d2, d3, d4, d5, d6, d7, d8, d9, d10, d11, d12, d13, d14, hds, hcs,
      (labelOfDigits_fourteen ..).mp hl⟩
  · rintro ⟨d1, d2, d3, d4, d5, d6, d7, d8, d9, d10, d11, d12, d13, d14, hds, hcs, hl⟩
    exact ⟨_, hds, hcs, (labelOfDigits_fourteen ..).mpr hl⟩

/-- A valid label has 14 characters. -/
theorem labelOf_length {cs : List WandChar} {l : Label} (h : labelOf cs = some l) : cs.length = 14 := by
  obtain ⟨ds, -, rfl, hl⟩ := (labelOf_eq_some cs l).mp h
  rw [List.length_map, labelOfDigits_length hl]

/-! ### A message's characters -/

section Characters
variable (w : Wand)

theorem Wand.add_lineFeed (h : w.buffer = []) : w.add (.char 0x0A#8) = w := if_pos ⟨rfl, h⟩

theorem Wand.add_room {c : WandChar} (hc : c ≠ .char 0x0A#8 ∨ w.buffer ≠ []) (h : w.buffer.length < 32) :
    w.add c = { w with buffer := w.buffer ++ [c], silentMs := 0 } := by
  rw [Wand.add, if_neg (by tauto), if_pos h]

theorem Wand.add_full (c : WandChar) (h : 32 ≤ w.buffer.length) : w.add c = { w with overLong := true, silentMs := 0 } := by
  rw [Wand.add, if_neg (by rintro ⟨-, hb⟩; simp [hb] at h), if_neg (by omega)]

/-- What a character does to the buffer: nothing, one more, or over-long. -/
theorem Wand.add_cases (c : WandChar) :
    ((c = .char 0x0A#8 ∧ w.buffer = []) ∧ w.add c = w)
      ∨ ((c ≠ .char 0x0A#8 ∨ w.buffer ≠ []) ∧ w.buffer.length < 32
          ∧ w.add c = { w with buffer := w.buffer ++ [c], silentMs := 0 })
      ∨ (32 ≤ w.buffer.length ∧ w.add c = { w with overLong := true, silentMs := 0 }) := by
  by_cases h1 : c = .char 0x0A#8 ∧ w.buffer = []
  · exact .inl ⟨h1, h1.1 ▸ w.add_lineFeed h1.2⟩
  · by_cases h2 : w.buffer.length < 32
    · exact .inr (.inl ⟨by tauto, h2, w.add_room (by tauto) h2⟩)
    · exact .inr (.inr ⟨by omega, w.add_full c (by omega)⟩)

theorem Wand.message_lineFeed {cs : List WandChar} (h : w.buffer = []) :
    w.message (.char 0x0A#8 :: cs) = w.message cs := by simp [Wand.message, h]

theorem Wand.message_started {cs : List WandChar} (h : w.buffer ≠ []) : w.message cs = w.buffer ++ cs := if_neg h

theorem Wand.message_cons {c : WandChar} {cs : List WandChar} (hc : c ≠ .char 0x0A#8 ∨ w.buffer ≠ []) :
    w.message (c :: cs) = w.buffer ++ c :: cs := by
  by_cases h : w.buffer = []
  · have hc' : c ≠ .char 0x0A#8 := by tauto
    simp [Wand.message, h, hc']
  · exact w.message_started h

theorem Wand.emptied_add (c : WandChar) : (w.add c).emptied = w.emptied := by
  obtain ⟨-, h⟩ | ⟨-, -, h⟩ | ⟨-, h⟩ := w.add_cases c <;> rw [h] <;> rfl

/-- The characters of a message fill the buffer, and no more than it holds. -/
def Wand.addAll (cs : List WandChar) : Wand := cs.foldl Wand.add w

theorem Wand.emptied_addAll (cs : List WandChar) : (w.addAll cs).emptied = w.emptied := by
  induction cs generalizing w with
  | nil => rfl
  | cons c cs ih => exact (ih (w.add c)).trans (w.emptied_add c)

theorem Wand.addAll_buffer (cs : List WandChar) : (w.addAll cs).buffer = [] ↔ w.message cs = [] := by
  induction cs generalizing w with
  | nil => by_cases h : w.buffer = [] <;> simp [Wand.addAll, Wand.message, h]
  | cons c cs ih =>
    rw [show w.addAll (c :: cs) = (w.add c).addAll cs from rfl, ih]
    obtain ⟨⟨rfl, hb⟩, h⟩ | ⟨hc, -, h⟩ | ⟨hb, h⟩ := w.add_cases c
    · rw [h, w.message_lineFeed hb]
    · rw [h, w.message_cons hc, Wand.message_started _ (by simp)]; simp
    · have hne : w.buffer ≠ [] := by rintro h0; simp [h0] at hb
      simp [h, Wand.message, hne]

/-- Line feeds alone leave an empty buffer as it is. -/
theorem Wand.addAll_nothing {cs : List WandChar} (hm : w.message cs = []) : w.addAll cs = w := by
  induction cs generalizing w with
  | nil => rfl
  | cons c cs ih =>
    have hb : w.buffer = [] := by
      by_contra hb
      rw [w.message_started hb] at hm
      exact hb (List.append_eq_nil_iff.mp hm).1
    by_cases hc : c = .char 0x0A#8
    · subst hc
      rw [w.message_lineFeed hb] at hm
      exact (congrArg (fun x => Wand.addAll x cs) (w.add_lineFeed hb)).trans (ih _ hm)
    · rw [w.message_cons (.inl hc), hb] at hm
      nomatch hm

/-- The label of the message a wand has taken is that of all its characters. -/
theorem Wand.addAll_label (cs : List WandChar) :
    (w.addAll cs).label = if w.overLong then none else labelOf (w.message cs) := by
  induction cs generalizing w with
  | nil =>
    have hempty : labelOf [] = none := rfl
    by_cases h : w.buffer = []
    · simp [Wand.addAll, Wand.message, Wand.label, h, hempty]
    · rw [w.message_started h, List.append_nil]; rfl
  | cons c cs ih =>
    rw [show w.addAll (c :: cs) = (w.add c).addAll cs from rfl, ih]
    obtain ⟨⟨rfl, hb⟩, h⟩ | ⟨hc, -, h⟩ | ⟨hb, h⟩ := w.add_cases c
    · rw [h, w.message_lineFeed hb]
    · rw [h, w.message_cons hc, Wand.message_started _ (by simp)]; simp
    · have hne : w.buffer ≠ [] := by rintro h0; simp [h0] at hb
      have hnone : labelOf (w.message (c :: cs)) = none := by
        rw [Option.eq_none_iff_forall_ne_some]
        intro l hl
        have := labelOf_length hl
        rw [w.message_started hne, List.length_append] at this
        omega
      rw [h, hnone]; simp

end Characters

/-- A message's characters reach the wand's buffer. -/
theorem State.takeChars (s : State) (d : Desk) (cs : List WandChar) (h : noReturn cs = true) :
    cs.foldl (State.takeChar d) s = s.setWand d ((s.wand d).addAll cs) := by
  induction cs generalizing s with
  | nil => cases d <;> rfl
  | cons c cs ih =>
    obtain ⟨hc, hcs⟩ : c ≠ .char 0x0D#8 ∧ noReturn cs = true := by
      rw [noReturn, List.contains_cons] at h
      refine ⟨fun e => ?_, ?_⟩ <;> simp_all [noReturn]
    rw [List.foldl_cons, ih _ hcs, State.takeChar, if_neg hc]
    cases d <;> rfl

/-- What the end of a message comes to, by its label: the four checks in their order. -/
def State.messageEnded (s : State) (d : Desk) (l : Option Label) : State :=
  if s.opState = .unset ∨ s.opState = .closed then s.setWand d ((s.wand d).sounding 3)
  else
    match l with
    | none => s.setWand d ((s.wand d).sounding 3)
    | some l =>
      if (s.wand d).isDouble s.settings.config.window l.digits then s.setWand d ((s.wand d).sounding 1)
      else if 16 ≤ (s.eng d).queue.length then
        (s.setWand d ((s.wand d).sounding 3)).setEng d { s.eng d with scanLost := true }
      else
        (s.setWand d { (s.wand d).sounding 1 with
            memory := some { digits := l.digits, reading := (s.wand d).elapsedMs } }).setEng d
          { s.eng d with queue := (s.eng d).queue ++ [.scan { label := l, arrival := s.now }] }

theorem State.checkMessage_eq (s : State) (d : Desk) (w : Wand) (he : w.emptied = (s.wand d).emptied) :
    (s.setWand d w).checkMessage d = s.messageEnded d w.label := by
  simp only [State.checkMessage, State.wand_setWand, State.setWand_setWand, State.setWand_opState,
    State.setWand_settings, State.eng_setWand, State.now, State.setWand_clock, he]
  rfl

theorem Wand.isDouble_iff (w : Wand) (window : Nat) (digits : List Nat) :
    w.isDouble window digits = true ↔ w.reads window digits := by
  unfold Wand.isDouble Wand.reads
  cases w.memory <;> simp

/-- A wand message is the four checks on the label of all its characters. -/
theorem exec_wandMessage {d : Desk} {cs : List WandChar} {s : State} (hcs : noReturn cs = true)
    (hp : s.power = .running) :
    exec (.wandMessage d cs) s
      = .next (if (s.wand d).message cs = [] then s.setWand d ((s.wand d).addAll cs)
          else (s.setWand d ((s.wand d).addAll cs)).checkMessage d) := by
  change execWandMessage d cs s = _
  rw [execWandMessage, if_pos hp, State.takeChars s d cs hcs, State.endMessage, State.wand_setWand]
  simp only [Wand.addAll_buffer]

/-- Settles O11: the message's label and the double-read test decide which check is the first to fail. -/
theorem wandMessageMeetsTheFourChecks : Obligations.WandMessageMeetsTheFourChecks := by
  intro d cs s hcs hp w m
  have hlabel := w.addAll_label cs
  have checked (hm : m ≠ []) : exec (.wandMessage d cs) s = .next (s.messageEnded d (w.addAll cs).label) :=
    (exec_wandMessage hcs hp).trans (congrArg _ ((if_neg hm).trans (s.checkMessage_eq d _ (w.emptied_addAll cs))))
  refine ⟨fun hm => ?_, fun hm hs => ?_, fun hm hs => ⟨fun hnone => ?_, fun l hl hover => ?_⟩⟩
  · rw [exec_wandMessage hcs hp, if_pos hm, Wand.addAll_nothing _ hm, State.setWand_wand]
  · exact (checked hm).trans (congrArg _ (if_pos hs))
  · have hl : (w.addAll cs).label = none := by
      rw [hlabel]
      rcases hnone with h | h
      · rw [show labelOf (w.message cs) = none from h, ite_self]
      · rw [if_pos h]
    rw [checked hm, hl]
    exact congrArg _ (ite_self _)
  · have hs' : ¬ (s.opState = .unset ∨ s.opState = .closed) := by rcases hs with h | h <;> simp [h]
    have hlab : (w.addAll cs).label = some l := by rw [hlabel, hover]; exact hl
    rw [checked hm, hlab, State.messageEnded, if_neg hs', ← w.isDouble_iff]
    refine ⟨fun hd => congrArg _ (if_pos hd), fun hd hq => congrArg _ ?_, fun hd hq => congrArg _ ?_⟩
    · exact (if_neg hd).trans (if_pos hq)
    · exact (if_neg hd).trans (if_neg (Nat.not_le.mpr hq))

/-- A pulse or a gap that has run its time gives way to what follows it; before that nothing does. -/
theorem exec_tonePulseEnd {d : Desk} {s : State} {t : Tone} (hp : s.power = .running) (ht : (s.wand d).tone = some t) :
    exec (.tonePulseEnd d) s
      = .next (if 100 ≤ t.ms then s.setWand d { s.wand d with tone := t.next } else s) := by
  change execTonePulseEnd d s = _
  simp [execTonePulseEnd, ht, hp]

/-- Settles O12: a carriage return ends the message, any other character meets the buffer's three cases. -/
theorem wandCharactersFillTheBuffer : Obligations.WandCharactersFillTheBuffer := by
  intro d s hp w
  have char (c : WandChar) (hc : c ≠ .char 0x0D#8) : exec (.wandCharacter d c) s = .next (s.setWand d (w.add c)) := by
    change execWandCharacter d c s = _
    rw [execWandCharacter, if_pos hp, State.takeChar, if_neg hc]
  refine ⟨?_, fun hb => ?_, fun c hc hlf hroom => ?_, fun c hc hfull => ?_, fun hb hms => ?_, fun h => ?_,
    fun n ms ht hms => ?_, fun n ms ht hms => ?_, fun h => ?_⟩
  · change execWandCharacter d _ s = execWandMessage d [] s
    rw [execWandCharacter, execWandMessage, if_pos hp, if_pos hp]
    rfl
  · rw [char _ (by decide), w.add_lineFeed hb, State.setWand_wand]
  · rw [char c hc, w.add_room hlf hroom]
  · rw [char c hc, w.add_full c hfull]
  · exact congrArg _ (if_pos ⟨hp, hb, hms⟩)
  · exact congrArg _ (if_neg (by rintro ⟨-, hb, hms⟩; exact h.elim hb (Nat.not_lt.mpr hms)))
  · rw [exec_tonePulseEnd hp ht, if_pos hms]; rfl
  · rw [exec_tonePulseEnd hp ht, if_pos hms]; rfl
  · cases ht : w.tone with
    | none => change execTonePulseEnd d s = _; simp [execTonePulseEnd, show (s.wand d).tone = none from ht]
    | some t => rw [exec_tonePulseEnd hp ht, if_neg (Nat.not_le.mpr (h t ht))]

end Sys2Proof.Machine
end

section
/-! PROOFS. What a port makes of a request (R189), and the desk requests answered at once (R11, R32 to R35). -/

namespace Sys2Proof.Machine

/-! ### The port's tests -/

/-- An inquiry's request goes to the store once its body has passed. -/
def State.inquired (p : Port) (kind : Txn → Bool) (x : Option Txn) (s : State) : State :=
  match x with
  | none => s.respond p .badRequest .empty
  | some x => s.sendAndTake (portClaimant p) x kind

theorem State.inquiry_request (s : State) (p : Port) (k : ReqKind) (kind : Txn → Bool) (t : List Byte → Option Txn)
    (tag : Byte) (body : List Byte) :
    s.inquiry p k kind t (.request tag body) = s.request p k tag body (State.inquired p kind (t body)) := rfl

/-- Every request's command goes through its port's tests before its owner. -/
theorem exec_request {c : Instr} {k : ReqKind} {p : Port} {tag : Byte} {body : List Byte}
    (h : requestOf c = some (k, p, tag, body)) (s : State) :
    ∃ f, exec c s = .next (s.request p k tag body f) := by
  unfold requestOf at h
  split at h
  case h_28 => nomatch h
  case h_9 | h_10 | h_11 => cases h; exact ⟨_, congrArg _ (State.inquiry_request ..)⟩
  all_goals cases h; exact ⟨_, rfl⟩

section Request
variable {s : State} {p : Port} {k : ReqKind} {tag : Byte} {body : List Byte} (f : State → State)

theorem State.request_shut (h : s.accepts p = false) : s.request p k tag body f = s := if_pos h

theorem State.request_busy (h : s.accepts p = true) (hi : (s.port p).inProgress ≠ none) :
    s.request p k tag body f = s.answerBusy p tag := by
  rw [State.request, if_neg (by simp [h]), if_pos (Option.isSome_iff_ne_none.mpr hi)]

/-- A request that does not keep the arm mark for its owner leaves its port disarmed. -/
theorem State.takeRequest_taken (h : k.keepsArm body = false) :
    s.takeRequest p (some k) tag (k.keepsArm body) = s.taken p k tag := by
  rw [h, State.takeRequest, Bool.and_false, State.taken]

theorem ReqKind.keepsArm_forbidden (h : k.permitted p = false) : k.keepsArm body = false := by
  cases p <;> cases k <;> simp [ReqKind.keepsArm, ReqKind.permitted, ReqKind.uplinkOnly, ReqKind.deskOnly] at *

theorem ReqKind.keepsArm_length (h : k.allows body.length = false) : k.keepsArm body = false := by
  by_cases hk : k = .restartArm ∨ k = .restart
  · have hb : body ≠ [] := by rintro rfl; rcases hk with rfl | rfl <;> simp [ReqKind.allows] at h
    simp [ReqKind.keepsArm, hb]
  · simp [ReqKind.keepsArm, hk]

theorem State.request_forbidden (h : s.free p) (hp : k.permitted p = false) :
    s.request p k tag body f = s.answered p k tag .notPermitted .empty := by
  obtain ⟨ha, hi⟩ := h
  rw [State.request, if_neg (by simp [ha]), if_neg (by simp [hi]), State.takeRequest_taken (ReqKind.keepsArm_forbidden hp),
    if_pos hp, State.respond_taken]

theorem State.request_length (h : s.free p) (hp : k.permitted p = true) (hl : k.allows body.length = false) :
    s.request p k tag body f = (s.taken p k tag).refuseLength p k := by
  obtain ⟨ha, hi⟩ := h
  rw [State.request, if_neg (by simp [ha]), if_neg (by simp [hi]), State.takeRequest_taken (ReqKind.keepsArm_length hl),
    if_neg (by simp [hp]), if_pos hl]

/-- A request whose body has a length it does not allow is answered BAD_REQUEST, but for an Entry in a session. -/
theorem State.request_badLength (h : s.free p) (hp : k.permitted p = true) (hl : k.allows body.length = false)
    (hk : ¬ (k = .downloadEntry ∧ s.exch.current.isSome)) :
    s.request p k tag body f = s.answered p k tag .badRequest .empty := by
  have hx : (s.taken p k tag).exch = s.exch := by rcases p with (_ | _) | _ <;> rfl
  rw [State.request_length f h hp hl, State.refuseLength, hx, if_neg hk, State.respond_taken]

end Request

/-- An Entry that is no entry of the session stops the gap timer until its answer is sent. -/
theorem State.refuseEntry_taken (s : State) (tag : Byte) :
    (s.taken .uplink .downloadEntry tag).refuseEntry = s.entryRefused tag := rfl

theorem Exchange.current_isSome (x : Exchange) :
    x.current.isSome = true ↔ x.expired = false ∧ x.session ≠ none := by
  cases h : x.expired <;> simp [Exchange.current, h, Option.isSome_iff_ne_none]

/-- Settles O13: the port's tests are those of `State.request`, whatever the request. -/
theorem requestsMeetThePortsTests : Obligations.RequestsMeetThePortsTests := by
  intro c s k p tag body hc
  obtain ⟨f, hf⟩ := exec_request hc s
  rw [hf]
  refine ⟨fun h => congrArg _ (State.request_shut f h), fun h hi => congrArg _ (State.request_busy f h hi),
    fun h hp => congrArg _ (State.request_forbidden f h hp), fun h hp hl => ⟨fun hk => congrArg _ ?_, ?_⟩⟩
  · refine State.request_badLength f h hp hl ?_
    rw [Exchange.current_isSome]
    rintro ⟨hk', he, hs⟩
    simp [hk', he, hs] at hk
  · rintro rfl he hs
    obtain ⟨d⟩ | _ := p
    · cases hp
    · rw [State.request_length f h hp hl]
      refine congrArg _ ((if_pos ⟨rfl, ?_⟩).trans (State.refuseEntry_taken s tag))
      exact (Exchange.current_isSome _).mpr ⟨he, hs⟩

end Sys2Proof.Machine
end

section
/-! PROOFS. The field readers of 12.6 read back exactly what the field writers write: each reader with its writer and the
values it admits, from the numbers up to the edit of a PostEdit body. -/

namespace Sys2Proof.Machine

/-- The reader `f` takes exactly the bytes `enc` writes of a value that `ok` admits, and leaves what follows them. -/
def Reads {α : Type} (f : List Byte → Option (α × List Byte)) (enc : α → List Byte) (ok : α → Prop) : Prop :=
  ∀ bs x rest, f bs = some (x, rest) ↔ ok x ∧ bs = enc x ++ rest

section General
variable {α : Type} {f : List Byte → Option (α × List Byte)} {enc : α → List Byte} {ok : α → Prop}

theorem Reads.read (h : Reads f enc ok) {x : α} (hx : ok x) (rest : List Byte) : f (enc x ++ rest) = some (x, rest) :=
  (h _ x rest).mpr ⟨hx, rfl⟩

/-- A body that the reader uses up. -/
theorem Reads.whole_eq_some (h : Reads f enc ok) (bs : List Byte) (x : α) : whole (f bs) = some x ↔ ok x ∧ bs = enc x := by
  have hw : whole (f bs) = some x ↔ f bs = some (x, []) := by
    unfold whole
    split
    next y hy => simp [hy]
    next hn => exact ⟨nofun, fun e => absurd e (hn x)⟩
  rw [hw, h, List.append_nil]

/-- A body whose value is tested. -/
theorem Reads.whole_filter (h : Reads f enc ok) {x : α} (hx : ok x) (p : α → Bool) :
    (whole (f (enc x))).filter p = if p x = true then some x else none := by
  rw [(h.whole_eq_some _ x).mpr ⟨hx, rfl⟩, Option.filter_some]

end General

/-! ### Numbers -/

theorem readNum_eq_some (n : Nat) (bs rest : List Byte) (x : Nat) :
    readNum n bs = some (x, rest) ↔ ∃ pre, pre.length = n ∧ x = fromBE pre ∧ bs = pre ++ rest := by
  unfold readNum
  split
  next hn =>
    refine ⟨nofun, ?_⟩
    rintro ⟨pre, rfl, -, rfl⟩
    simp at hn
  next hn =>
    rw [Option.some.injEq, Prod.mk.injEq]
    constructor
    · rintro ⟨rfl, rfl⟩
      exact ⟨bs.take n, by simp; omega, rfl, (List.take_append_drop n bs).symm⟩
    · rintro ⟨pre, rfl, rfl, rfl⟩
      simp

/-- A number's bytes, most significant first, spell it. -/
theorem reads_num {n top : Nat} {enc : Nat → List Byte} (hlen : ∀ x, (enc x).length = n)
    (hto : ∀ x, x < top → fromBE (enc x) = x) (hfrom : ∀ pre : List Byte, pre.length = n → enc (fromBE pre) = pre)
    (hlt : ∀ pre : List Byte, pre.length = n → fromBE pre < top) : Reads (readNum n) enc (· < top) := by
  intro bs x rest
  rw [readNum_eq_some]
  constructor
  · rintro ⟨pre, hp, rfl, rfl⟩
    exact ⟨hlt pre hp, by rw [hfrom pre hp]⟩
  · rintro ⟨hx, rfl⟩
    exact ⟨enc x, hlen x, (hto x hx).symm, rfl⟩

@[simp] theorem byteOf_toNat (n : Nat) : (byteOf n).toNat = n % 256 := by simp [byteOf]

theorem byteOf_eq {n : Nat} {b : Byte} (h : n % 256 = b.toNat) : byteOf n = b :=
  BitVec.eq_of_toNat_eq (by rw [byteOf_toNat, h])

theorem fromBE_one (a : Byte) : fromBE [a] = a.toNat := by simp [fromBE]

theorem fromBE_two (a b : Byte) : fromBE [a, b] = a.toNat * 256 + b.toNat := by simp [fromBE]

theorem fromBE_four (a b c d : Byte) :
    fromBE [a, b, c, d] = ((a.toNat * 256 + b.toNat) * 256 + c.toNat) * 256 + d.toNat := by simp [fromBE]

theorem fromBE_be2 (n : Nat) : fromBE (be2 n) = n % 65536 := by
  rw [be2, fromBE_two, byteOf_toNat, byteOf_toNat]; omega

theorem fromBE_be4 (n : Nat) : fromBE (be4 n) = n % 4294967296 := by
  rw [be4, fromBE_four, byteOf_toNat, byteOf_toNat, byteOf_toNat, byteOf_toNat]; omega

@[simp] theorem byte1_length (n : Nat) : (byte1 n).length = 1 := rfl
@[simp] theorem be2_length (n : Nat) : (be2 n).length = 2 := rfl
@[simp] theorem be4_length (n : Nat) : (be4 n).length = 4 := rfl

theorem reads_byte : Reads (readNum 1) byte1 (· < 256) := by
  refine reads_num byte1_length (fun x hx => ?_) (fun pre hp => ?_) (fun pre hp => ?_)
  · rw [byte1, fromBE_one, byteOf_toNat]; omega
  all_goals
    obtain ⟨a, rfl⟩ := List.length_eq_one_iff.mp hp
    rw [fromBE_one]
  · exact congrArg (fun b => [b]) (byteOf_eq (by omega))
  · omega

theorem reads_be2 : Reads (readNum 2) be2 (· < 65536) := by
  refine reads_num be2_length (fun x hx => ?_) (fun pre hp => ?_) (fun pre hp => ?_)
  · rw [fromBE_be2]; omega
  all_goals
    obtain ⟨a, b, rfl⟩ := List.length_eq_two.mp hp
    rw [fromBE_two]
  · rw [be2, byteOf_eq (b := a) (by omega), byteOf_eq (b := b) (by omega)]
  · omega

theorem reads_be4 : Reads (readNum 4) be4 (· < 4294967296) := by
  refine reads_num be4_length (fun x hx => ?_) (fun pre hp => ?_) (fun pre hp => ?_)
  · rw [fromBE_be4]; omega
  all_goals
    obtain ⟨a, b, c, d, rfl⟩ : ∃ a b c d, [a, b, c, d] = pre := by
      simpa [List.length_eq_succ_iff, List.length_eq_zero_iff] using hp
    rw [fromBE_four]
  · rw [be4, byteOf_eq (b := a) (by omega), byteOf_eq (b := b) (by omega), byteOf_eq (b := c) (by omega),
      byteOf_eq (b := d) (by omega)]
  · omega

/-! ### Marks, optional fields, lists and named values -/

section Fields
variable {α : Type} {f : List Byte → Option (α × List Byte)} {enc : α → List Byte} {ok : α → Prop}

/-- One byte of a given number stands in front. -/
theorem reads_byte_iff (bs rest : List Byte) (n : Nat) (hn : n < 256) :
    readNum 1 bs = some (n, rest) ↔ bs = byteOf n :: rest := by
  rw [reads_byte]; simp [hn, byte1]

theorem reads_mark : Reads readMark markBytes (fun _ => True) := by
  intro bs x rest
  unfold readMark markBytes boolByte
  split
  next r h =>
    rw [reads_byte_iff _ _ _ (by omega)] at h
    subst h
    cases x <;> simp [byteOf]
  next r h =>
    rw [reads_byte_iff _ _ _ (by omega)] at h
    subst h
    cases x <;> simp [byteOf]
  next h0 h1 =>
    refine ⟨nofun, ?_⟩
    rintro ⟨-, rfl⟩
    cases x
    · exact absurd ((reads_byte_iff _ rest 0 (by omega)).mpr rfl) (h0 _)
    · exact absurd ((reads_byte_iff _ rest 1 (by omega)).mpr rfl) (h1 _)

/-- What an optional field admits: nothing, or a value of the field. -/
def optOk (ok : α → Prop) : Option α → Prop
  | none => True
  | some x => ok x

theorem Reads.opt (h : Reads f enc ok) : Reads (readOpt f) (optBytes enc) (optOk ok) := by
  intro bs x rest
  unfold readOpt
  split
  next r hr =>
    rw [reads_byte_iff _ _ _ (by omega)] at hr
    subst hr
    cases x <;> simp [optBytes, optOk, byteOf]
  next r hr =>
    rw [reads_byte_iff _ _ _ (by omega)] at hr
    subst hr
    cases x <;> simp [optBytes, optOk, byteOf, h r]
  next h0 h1 =>
    refine ⟨nofun, ?_⟩
    rintro ⟨-, rfl⟩
    cases x with
    | none => exact absurd ((reads_byte_iff _ rest 0 (by omega)).mpr rfl) (h0 _)
    | some x => exact absurd ((reads_byte_iff _ (enc x ++ rest) 1 (by omega)).mpr rfl) (h1 _)

theorem Reads.many (h : Reads f enc ok) (n : Nat) :
    Reads (readMany f n) (fun xs => xs.flatMap enc) (fun xs => xs.length = n ∧ ∀ x ∈ xs, ok x) := by
  induction n with
  | zero =>
    intro bs xs rest
    cases xs <;> simp [readMany, eq_comm]
  | succ n ih =>
    intro bs xs rest
    cases xs with
    | nil => simp [readMany, Option.bind_eq_some_iff]
    | cons y ys =>
      simp only [readMany, Option.bind_eq_bind, Option.bind_eq_some_iff, Prod.exists, h _ _ _, ih _ _ _, Option.pure_def,
        Option.some.injEq, Prod.mk.injEq, List.cons.injEq]
      constructor
      · rintro ⟨x, r, ⟨hx, rfl⟩, xs, r2, ⟨⟨hn, hxs⟩, rfl⟩, ⟨rfl, rfl⟩, rfl⟩
        simp [hn, hx]; exact hxs
      · rintro ⟨⟨hn, hok⟩, rfl⟩
        rw [List.forall_mem_cons] at hok
        exact ⟨y, _, ⟨hok.1, by simp⟩, ys, rest, ⟨⟨by simpa using hn, hok.2⟩, rfl⟩, ⟨rfl, rfl⟩, rfl⟩

theorem reads_named {g : Nat → Option α} {number : α → Nat} (hg : ∀ n x, g n = some x ↔ n = number x)
    (hn : ∀ x, number x < 256) : Reads (readNamed g) (fun x => byte1 (number x)) (fun _ => True) := by
  intro bs x rest
  simp only [readNamed, Option.bind_eq_bind, Option.bind_eq_some_iff, Prod.exists, reads_byte _ _ _, hg, Option.pure_def,
    Option.some.injEq, Prod.mk.injEq]
  constructor
  · rintro ⟨n, r, ⟨-, rfl⟩, y, rfl, rfl, rfl⟩
    exact ⟨trivial, rfl⟩
  · rintro ⟨-, rfl⟩
    exact ⟨_, rest, ⟨hn x, rfl⟩, x, rfl, rfl, rfl⟩

end Fields

theorem LoanUnit.ofNumber_eq_some (n : Nat) (u : LoanUnit) : LoanUnit.ofNumber n = some u ↔ n = u.number := by
  unfold LoanUnit.ofNumber
  cases u <;> split <;> simp_all [LoanUnit.number]

theorem Policy.ofNumber_eq_some (n : Nat) (u : Policy) : Policy.ofNumber n = some u ↔ n = u.number := by
  unfold Policy.ofNumber
  cases u <;> split <;> simp_all [Policy.number]

theorem Mode.ofNumber_eq_some (n : Nat) (u : Mode) : Mode.ofNumber n = some u ↔ n = u.number := by
  unfold Mode.ofNumber
  cases u <;> split <;> simp_all [Mode.number]

theorem ListKind.ofNumber_eq_some (n : Nat) (u : ListKind) : ListKind.ofNumber n = some u ↔ n = u.number := by
  unfold ListKind.ofNumber
  cases u <;> split <;> simp_all [ListKind.number]

theorem reads_unit : Reads (readNamed LoanUnit.ofNumber) (fun u => byte1 u.number) (fun _ => True) :=
  reads_named LoanUnit.ofNumber_eq_some (fun u => by cases u <;> decide)

theorem reads_policy : Reads (readNamed Policy.ofNumber) (fun u => byte1 u.number) (fun _ => True) :=
  reads_named Policy.ofNumber_eq_some (fun u => by cases u <;> decide)

theorem reads_mode : Reads (readNamed Mode.ofNumber) (fun u => byte1 u.number) (fun _ => True) :=
  reads_named Mode.ofNumber_eq_some (fun u => by cases u <;> decide)

theorem reads_listKind : Reads (readNamed ListKind.ofNumber) (fun u => byte1 u.number) (fun _ => True) :=
  reads_named ListKind.ofNumber_eq_some (fun u => by cases u <;> decide)

/-- A class or category of a rule admits Any and every number below 255. -/
theorem reads_any : Reads readAny anyBytes (optOk (· < 255)) := by
  intro bs x rest
  unfold readAny anyBytes
  simp only [Option.map_eq_some_iff, Prod.exists, reads_byte _ _ _, Prod.mk.injEq]
  constructor
  · rintro ⟨n, r, ⟨hn, rfl⟩, rfl, rfl⟩
    split
    next h => subst h; exact ⟨trivial, rfl⟩
    next h => exact ⟨show n < 255 by omega, rfl⟩
  · rintro ⟨hx, rfl⟩
    cases x with
    | none => exact ⟨255, rest, ⟨by omega, rfl⟩, rfl, rfl⟩
    | some n =>
      have hn : n < 255 := hx
      exact ⟨n, rest, ⟨by omega, rfl⟩, if_neg (by omega), rfl⟩

/-! ### Records -/

/-- A reader of two fields, one after the other. -/
theorem Reads.pair {α β γ : Type} {f : List Byte → Option (α × List Byte)} {g : List Byte → Option (β × List Byte)}
    {encF : α → List Byte} {encG : β → List Byte} {okF : α → Prop} {okG : β → Prop} (hf : Reads f encF okF)
    (hg : Reads g encG okG) (mk : α → β → γ) (fst : γ → α) (snd : γ → β) (hmk : ∀ c, mk (fst c) (snd c) = c)
    (hfst : ∀ a b, fst (mk a b) = a) (hsnd : ∀ a b, snd (mk a b) = b) :
    Reads (fun bs => do
        let (a, bs) ← f bs
        let (b, bs) ← g bs
        return (mk a b, bs))
      (fun c => encF (fst c) ++ encG (snd c)) (fun c => okF (fst c) ∧ okG (snd c)) := by
  intro bs c rest
  simp only [Option.bind_eq_bind, Option.bind_eq_some_iff, Prod.exists, hf _ _ _, hg _ _ _, Option.pure_def,
    Option.some.injEq, Prod.mk.injEq]
  constructor
  · rintro ⟨a, r1, ⟨ha, rfl⟩, b, r2, ⟨hb, rfl⟩, rfl, rfl⟩
    simp [hfst, hsnd, ha, hb]
  · rintro ⟨⟨ha, hb⟩, rfl⟩
    exact ⟨fst c, _, ⟨ha, by simp⟩, snd c, rest, ⟨hb, rfl⟩, hmk c, rfl⟩

theorem reads_ident : Reads readIdent identBytes (fun i => i.lib < 65536 ∧ i.serial < 4294967296) :=
  reads_be2.pair reads_be4 Ident.mk Ident.lib Ident.serial (fun _ => rfl) (fun _ _ => rfl) (fun _ _ => rfl)

theorem reads_hours : Reads readHours optHoursBytes (optOk (fun h => h.openMin < 65536 ∧ h.closeMin < 65536)) :=
  Reads.opt (reads_be2.pair reads_be2 Hours.mk Hours.openMin Hours.closeMin (fun _ => rfl) (fun _ _ => rfl)
    (fun _ _ => rfl))

/-- The numbers of a rule fit their bytes. -/
structure Rule.Fits (r : Rule) : Prop where
  cls : optOk (· < 255) r.cls
  cat : optOk (· < 255) r.cat
  length : r.length < 65536
  renewals : r.renewals < 256
  grace : r.grace < 256
  rate : r.rate < 4294967296
  cap : r.cap < 4294967296

theorem reads_rule : Reads readRule Rule.bytes Rule.Fits := by
  intro bs x rest
  simp only [readRule, Option.bind_eq_bind, Option.bind_eq_some_iff, Prod.exists, reads_any _ _ _, reads_unit _ _ _,
    reads_be2 _ _ _, reads_byte _ _ _, reads_be4 _ _ _, Option.pure_def, Option.some.injEq, Prod.mk.injEq]
  constructor
  · rintro ⟨cls, _, ⟨hcls, rfl⟩, cat, _, ⟨hcat, rfl⟩, unit, _, ⟨-, rfl⟩, length, _, ⟨hlen, rfl⟩, renewals, _,
      ⟨hren, rfl⟩, grace, _, ⟨hgrace, rfl⟩, rate, _, ⟨hrate, rfl⟩, cap, _, ⟨hcap, rfl⟩, rfl, rfl⟩
    exact ⟨⟨hcls, hcat, hlen, hren, hgrace, hrate, hcap⟩, by simp [Rule.bytes]⟩
  · rintro ⟨⟨hcls, hcat, hlen, hren, hgrace, hrate, hcap⟩, rfl⟩
    exact ⟨x.cls, _, ⟨hcls, by simp only [Rule.bytes, List.append_assoc]⟩, x.cat, _, ⟨hcat, rfl⟩, x.unit, _, ⟨trivial, rfl⟩,
      x.length, _, ⟨hlen, rfl⟩, x.renewals, _, ⟨hren, rfl⟩, x.grace, _, ⟨hgrace, rfl⟩, x.rate, _, ⟨hrate, rfl⟩, x.cap, rest,
      ⟨hcap, rfl⟩, rfl, rfl⟩

/-- The numbers of a category fit their bytes. -/
structure Category.Fits (c : Category) : Prop where
  limit : c.limit < 256
  threshold : c.threshold < 4294967296
  blockDays : c.blockDays < 256

theorem reads_category : Reads readCategory Category.bytes Category.Fits := by
  intro bs x rest
  simp only [readCategory, Option.bind_eq_bind, Option.bind_eq_some_iff, Prod.exists, reads_byte _ _ _, reads_be4 _ _ _,
    reads_mark _ _ _, Option.pure_def, Option.some.injEq, Prod.mk.injEq]
  constructor
  · rintro ⟨limit, _, ⟨hl, rfl⟩, threshold, _, ⟨ht, rfl⟩, days, _, ⟨hd, rfl⟩, mark, _, ⟨-, rfl⟩, rfl, rfl⟩
    exact ⟨⟨hl, ht, hd⟩, by simp [Category.bytes]⟩
  · rintro ⟨⟨hl, ht, hd⟩, rfl⟩
    exact ⟨x.limit, _, ⟨hl, by simp only [Category.bytes, List.append_assoc]⟩, x.threshold, _, ⟨ht, rfl⟩, x.blockDays, _, ⟨hd, rfl⟩,
      x.renewOverdue, rest, ⟨trivial, rfl⟩, rfl, rfl⟩

/-- A unit configuration as it is posted: home code and consortium codes as bytes. -/
def UnitConfig.postBytes (c : UnitConfig) : List Byte :=
  be2 (c.home.getD 0) ++ listBytes be2 c.consortium ++ byte1 c.policy.number ++ byte1 c.pickup ++ byte1 c.window

/-- The home code is set, and the numbers of a unit configuration fit their bytes. -/
structure UnitConfig.Fits (c : UnitConfig) : Prop where
  home : ∃ h, c.home = some h ∧ h < 65536
  count : c.consortium.length < 65536
  codes : ∀ x ∈ c.consortium, x < 65536
  pickup : c.pickup < 256
  window : c.window < 256

theorem reads_config : Reads readConfig UnitConfig.postBytes UnitConfig.Fits := by
  intro bs x rest
  simp only [readConfig, Option.bind_eq_bind, Option.bind_eq_some_iff, Prod.exists, reads_be2 _ _ _,
    reads_be2.many _ _ _ _, reads_policy _ _ _, reads_byte _ _ _, Option.pure_def, Option.some.injEq, Prod.mk.injEq]
  constructor
  · rintro ⟨home, _, ⟨hh, rfl⟩, n, _, ⟨hn, rfl⟩, codes, _, ⟨⟨rfl, hc⟩, rfl⟩, policy, _, ⟨-, rfl⟩, pickup, _, ⟨hp, rfl⟩,
      window, _, ⟨hw, rfl⟩, rfl, rfl⟩
    exact ⟨⟨⟨home, rfl, hh⟩, hn, hc, hp, hw⟩, by simp [UnitConfig.postBytes, listBytes]⟩
  · rintro ⟨⟨⟨home, hhome, hh⟩, hn, hc, hp, hw⟩, rfl⟩
    exact ⟨home, _, ⟨hh, by simp only [UnitConfig.postBytes, listBytes, hhome, List.append_assoc]; rfl⟩, x.consortium.length, _, ⟨hn, rfl⟩,
      x.consortium, _, ⟨⟨rfl, hc⟩, rfl⟩, x.policy, _, ⟨trivial, rfl⟩, x.pickup, _, ⟨hp, rfl⟩, x.window, rest, ⟨hw, rfl⟩,
      by rw [← hhome], rfl⟩

/-! ### Edits -/

/-- The fields of an edit fit their bytes. -/
def Edit.Fits : Edit → Prop
  | .replaceRule p r => p < 256 ∧ r.Fits
  | .deleteRule p => p < 256
  | .replaceCategory k c => k < 256 ∧ c.Fits
  | .replaceWeekday w h => w < 256 ∧ optOk (fun h : Hours => h.openMin < 65536 ∧ h.closeMin < 65536) h
  | .addException d h => d < 65536 ∧ optOk (fun h : Hours => h.openMin < 65536 ∧ h.closeMin < 65536) h
  | .removeException d => d < 65536
  | .setConfig c => c.Fits

/-- An edit's kind, as its first byte. -/
def Edit.kindNumber : Edit → Nat
  | .replaceRule .. => 1
  | .deleteRule .. => 2
  | .replaceCategory .. => 3
  | .replaceWeekday .. => 4
  | .addException .. => 5
  | .removeException .. => 6
  | .setConfig .. => 7

/-- An edit's fields, as the bytes behind its first one. -/
def Edit.fieldBytes : Edit → List Byte
  | .replaceRule p r => byte1 p ++ r.bytes
  | .deleteRule p => byte1 p
  | .replaceCategory k c => byte1 k ++ c.bytes
  | .replaceWeekday w h => byte1 w ++ optHoursBytes h
  | .addException d h => be2 d ++ optHoursBytes h
  | .removeException d => be2 d
  | .setConfig c => c.postBytes

theorem Edit.bytes_eq (e : Edit) : e.bytes = byteOf e.kindNumber :: e.fieldBytes := by
  cases e <;> simp [Edit.bytes, Edit.kindNumber, Edit.fieldBytes, UnitConfig.postBytes, byte1]

theorem Edit.kindNumber_lt (e : Edit) : e.kindNumber < 256 := by cases e <;> simp [Edit.kindNumber]

/-- The first byte of an edit's bytes is its kind. -/
theorem Edit.bytes_cons {k : Nat} {r rest : List Byte} {e : Edit} (hk : k < 256) :
    byteOf k :: r = e.bytes ++ rest ↔ e.kindNumber = k ∧ r = e.fieldBytes ++ rest := by
  rw [Edit.bytes_eq, List.cons_append, List.cons.injEq]
  refine and_congr_left' ⟨fun h => ?_, fun h => by rw [h]⟩
  have hlt := e.kindNumber_lt
  have := congrArg BitVec.toNat h
  rw [byteOf_toNat, byteOf_toNat] at this
  omega

/-- A kind of edit with one field. -/
theorem Edit.one_field {α : Type} {ok : α → Prop} {enc : α → List Byte} {mk : α → Edit} {k : Nat}
    (hk : ∀ e : Edit, e.kindNumber = k ↔ ∃ a, mk a = e) (hok : ∀ a, (mk a).Fits ↔ ok a)
    (henc : ∀ a, (mk a).fieldBytes = enc a) (e : Edit) (r rest : List Byte) :
    (∃ a bs, (ok a ∧ r = enc a ++ bs) ∧ mk a = e ∧ bs = rest)
      ↔ e.Fits ∧ e.kindNumber = k ∧ r = e.fieldBytes ++ rest := by
  rw [hk]
  constructor
  · rintro ⟨a, _, ⟨ha, rfl⟩, rfl, rfl⟩
    exact ⟨(hok a).mpr ha, ⟨a, rfl⟩, by rw [henc]⟩
  · rintro ⟨he, ⟨a, rfl⟩, rfl⟩
    exact ⟨a, rest, ⟨(hok a).mp he, by rw [henc]⟩, rfl, rfl⟩

/-- A kind of edit with two fields. -/
theorem Edit.two_fields {α β : Type} {okA : α → Prop} {okB : β → Prop} {encA : α → List Byte} {encB : β → List Byte}
    {mk : α → β → Edit} {k : Nat} (hk : ∀ e : Edit, e.kindNumber = k ↔ ∃ a b, mk a b = e)
    (hok : ∀ a b, (mk a b).Fits ↔ okA a ∧ okB b) (henc : ∀ a b, (mk a b).fieldBytes = encA a ++ encB b) (e : Edit)
    (r rest : List Byte) :
    (∃ a as, (okA a ∧ r = encA a ++ as) ∧ ∃ b bs, (okB b ∧ as = encB b ++ bs) ∧ mk a b = e ∧ bs = rest)
      ↔ e.Fits ∧ e.kindNumber = k ∧ r = e.fieldBytes ++ rest := by
  rw [hk]
  constructor
  · rintro ⟨a, _, ⟨ha, rfl⟩, b, _, ⟨hb, rfl⟩, rfl, rfl⟩
    exact ⟨(hok a b).mpr ⟨ha, hb⟩, ⟨a, b, rfl⟩, by rw [henc, List.append_assoc]⟩
  · rintro ⟨he, ⟨a, b, rfl⟩, rfl⟩
    obtain ⟨ha, hb⟩ := (hok a b).mp he
    exact ⟨a, _, ⟨ha, by rw [henc, List.append_assoc]⟩, b, rest, ⟨hb, rfl⟩, rfl, rfl⟩

theorem reads_edit : Reads readEditFields Edit.bytes Edit.Fits := by
  intro bs e rest
  unfold readEditFields
  split
  case h_8 h1 h2 h3 h4 h5 h6 h7 =>
    refine iff_of_false nofun ?_
    rintro ⟨-, rfl⟩
    have hread : readNum 1 (e.bytes ++ rest) = some (e.kindNumber, e.fieldBytes ++ rest) := by
      rw [Edit.bytes_eq]
      exact (reads_byte_iff _ _ _ e.kindNumber_lt).mpr rfl
    cases e
    exacts [h1 _ hread, h2 _ hread, h3 _ hread, h4 _ hread, h5 _ hread, h6 _ hread, h7 _ hread]
  all_goals
    rename_i r hr
    rw [reads_byte_iff _ _ _ (by omega)] at hr
    subst hr
    rw [Edit.bytes_cons (by omega)]
    simp only [Option.bind_eq_bind, Option.bind_eq_some_iff, Option.map_eq_some_iff, Prod.exists, reads_byte _ _ _,
      reads_be2 _ _ _, reads_rule _ _ _, reads_category _ _ _, reads_hours _ _ _, reads_config _ _ _, Option.pure_def,
      Option.some.injEq, Prod.mk.injEq]
  case h_1 | h_3 | h_4 | h_5 =>
    refine Edit.two_fields (fun e => ?_) (fun _ _ => Iff.rfl) (fun _ _ => rfl) e _ _
    cases e <;> simp [Edit.kindNumber]
  case h_2 | h_6 | h_7 =>
    refine Edit.one_field (fun e => ?_) (fun _ => ?_) (fun _ => ?_) e _ _
    · cases e <;> simp [Edit.kindNumber]
    · exact Iff.rfl
    · rfl

theorem optAtMost_fits {top n : Nat} {x : Option Nat} (h : optAtMost top x = true) (ht : top < n) : optOk (· < n) x := by
  cases x with
  | none => trivial
  | some m =>
    have hm : m ≤ top := of_decide_eq_true h
    exact show m < n by omega

theorem hoursInRange_fits {h : Option Hours} (hr : hoursInRange h = true) :
    optOk (fun h : Hours => h.openMin < 65536 ∧ h.closeMin < 65536) h := by
  cases h with
  | none => trivial
  | some h =>
    simp only [hoursInRange, Hours.inRange, Bool.and_eq_true, decide_eq_true_eq] at hr
    exact show _ ∧ _ by omega

theorem Rule.fits_of_inRange {r : Rule} (h : r.inRange = true) : r.Fits := by
  simp only [Rule.inRange, Bool.and_eq_true, decide_eq_true_eq] at h
  obtain ⟨⟨⟨⟨⟨⟨hcls, hcat⟩, hlen⟩, hren⟩, hgrace⟩, hrate⟩, hcap⟩ := h
  refine ⟨optAtMost_fits hcls (by omega), optAtMost_fits hcat (by omega), ?_, by omega, by omega, by omega, by omega⟩
  cases hu : r.unit <;> simp [hu] at hlen <;> omega

theorem Category.fits_of_inRange {c : Category} (h : c.inRange = true) : c.Fits := by
  simp only [Category.inRange, Bool.and_eq_true, decide_eq_true_eq] at h
  exact ⟨by omega, by omega, by omega⟩

/-- What the bounds of a unit configuration say of its numbers. -/
theorem UnitConfig.inRange_bounds {c : UnitConfig} (h : c.inRange = true) :
    (∃ n, c.home = some n ∧ n ≤ 999) ∧ c.consortium.length ≤ 7 ∧ (∀ x ∈ c.consortium, x ≤ 999) ∧ c.pickup ≤ 30
      ∧ c.window ≤ 255 := by
  unfold UnitConfig.inRange at h
  split at h
  next => nomatch h
  next n hn =>
    simp only [Bool.and_eq_true, decide_eq_true_eq, List.all_eq_true] at h
    obtain ⟨⟨⟨⟨⟨⟨⟨hh, hc⟩, hx⟩, -⟩, -⟩, -⟩, hp⟩, hw⟩ := h
    exact ⟨⟨n, hn, hh⟩, hc, hx, hp, hw⟩

theorem UnitConfig.fits_of_inRange {c : UnitConfig} (h : c.inRange = true) : c.Fits := by
  obtain ⟨⟨n, hn, hh⟩, hc, hx, hp, hw⟩ := UnitConfig.inRange_bounds h
  exact ⟨⟨n, hn, by omega⟩, by omega, fun x hm => by have := hx x hm; omega, by omega, by omega⟩

theorem Edit.fits_of_inRange {e : Edit} (h : e.inRange = true) : e.Fits := by
  cases e <;> simp only [Edit.inRange, Bool.and_eq_true, decide_eq_true_eq] at h
  case replaceRule => exact ⟨by omega, Rule.fits_of_inRange h.2⟩
  case deleteRule => exact show _ < 256 by omega
  case replaceCategory => exact ⟨by omega, Category.fits_of_inRange h.2⟩
  case replaceWeekday => exact ⟨by omega, hoursInRange_fits h.2⟩
  case addException => exact ⟨by omega, hoursInRange_fits h.2⟩
  case removeException => exact show _ < 65536 by omega
  case setConfig => exact UnitConfig.fits_of_inRange h

theorem readEdit_eq_some (bs : List Byte) (e : Edit) : readEdit bs = some e ↔ e.inRange = true ∧ bs = e.bytes := by
  rw [readEdit, Option.filter_eq_some_iff, reads_edit.whole_eq_some]
  exact ⟨fun ⟨⟨_, hb⟩, hr⟩ => ⟨hr, hb⟩, fun ⟨hr, hb⟩ => ⟨⟨Edit.fits_of_inRange hr, hb⟩, hr⟩⟩

/-- Hours take one byte, or five. -/
theorem optHoursBytes_length (h : Option Hours) : (optHoursBytes h).length = 1 ∨ (optHoursBytes h).length = 5 := by
  cases h <;> simp [optHoursBytes, optBytes, hoursBytes]

theorem Rule.bytes_length (r : Rule) : r.bytes.length = 15 := by simp [Rule.bytes, anyBytes]

theorem Category.bytes_length (c : Category) : c.bytes.length = 7 := by simp [Category.bytes, markBytes]

theorem UnitConfig.postBytes_length (c : UnitConfig) : c.postBytes.length = 7 + 2 * c.consortium.length := by
  have hlist (xs : List Nat) : (xs.flatMap be2).length = 2 * xs.length := by
    rw [List.length_flatMap]; simp [be2_length]; omega
  simp [UnitConfig.postBytes, listBytes, hlist]; omega

/-- An edit in range is as long as PostEdit allows. -/
theorem Edit.bytes_allowed {e : Edit} (h : e.inRange = true) : ReqKind.allows .postEdit e.bytes.length = true := by
  rw [Edit.bytes_eq, List.length_cons]
  cases e with
  | replaceRule p r => simp [Edit.fieldBytes, Rule.bytes_length, ReqKind.allows]
  | deleteRule p => rfl
  | replaceCategory k c => simp [Edit.fieldBytes, Category.bytes_length, ReqKind.allows]
  | replaceWeekday w x => rcases optHoursBytes_length x with hx | hx <;> simp [Edit.fieldBytes, hx, ReqKind.allows]
  | addException d x => rcases optHoursBytes_length x with hx | hx <;> simp [Edit.fieldBytes, hx, ReqKind.allows]
  | removeException d => rfl
  | setConfig c =>
    obtain ⟨-, hc, -⟩ := UnitConfig.inRange_bounds h
    rw [Edit.fieldBytes, UnitConfig.postBytes_length]
    generalize c.consortium.length = n at hc ⊢
    interval_cases n <;> rfl

/-- Settles O41: the reader of an edit is the inverse of its writer, on the edits in range. -/
theorem editBodiesReadBackAsTheyWereWritten : Obligations.EditBodiesReadBackAsTheyWereWritten :=
  ⟨fun e he => ⟨(readEdit_eq_some _ e).mpr ⟨he, rfl⟩, Edit.bytes_allowed he⟩,
    fun body e h => (readEdit_eq_some body e).mp h⟩

end Sys2Proof.Machine
end

section
/-! PROOFS. The desk requests answered at once: KeyIn and SetMode (R11, R34), Status, ReadResult and Close (R32, R33, R35), and
the port's lines of Payment and the local blocks (R75, R77, R78). -/

namespace Sys2Proof.Machine

/-! ### What a request just taken leaves unchanged -/

section Taken
variable (s : State) (p : Port) (k : ReqKind) (tag : Byte)

@[simp] theorem State.eng_taken (d : Desk) : (s.taken p k tag).eng d = s.eng d := State.eng_setPort ..
@[simp] theorem State.taken_opState : (s.taken p k tag).opState = s.opState := State.setPort_opState ..
@[simp] theorem State.taken_clock : (s.taken p k tag).clock = s.clock := State.setPort_clock ..
@[simp] theorem State.taken_settings : (s.taken p k tag).settings = s.settings := State.setPort_settings ..
@[simp] theorem State.taken_journal : (s.taken p k tag).journal = s.journal := State.setPort_journal ..
@[simp] theorem State.taken_printer : (s.taken p k tag).printer = s.printer := State.setPort_printer ..
@[simp] theorem State.taken_exch : (s.taken p k tag).exch = s.exch := State.setPort_exch ..
@[simp] theorem State.taken_roll : (s.taken p k tag).roll = s.roll := State.setPort_roll ..
@[simp] theorem State.taken_power : (s.taken p k tag).power = s.power := State.setPort_power ..
@[simp] theorem State.taken_now : (s.taken p k tag).now = s.now := by simp [State.now]
@[simp] theorem State.taken_today : (s.taken p k tag).today = s.today := by simp [State.today]
@[simp] theorem State.taken_deskClosed : (s.taken p k tag).deskClosed = s.deskClosed := by simp [State.deskClosed]

end Taken

/-! ### The operating state's lines (R11, R34, R35, R75) -/

section Gate
variable {s : State} {d : Desk} {k : ReqKind} {tag : Byte} {o : Host.Outcome State Fault Refusal}

theorem State.deskClosed_unset (h : s.opState = .unset) : s.deskClosed = some .unitUnset := by simp [State.deskClosed, h]

theorem State.deskClosed_closed (h : s.opState = .closed) : s.deskClosed = some .wrongState := by
  simp [State.deskClosed, h]

theorem State.deskClosed_open (h : s.opState = .opened ∨ s.opState = .returnsOnly) : s.deskClosed = none := by
  rcases h with h | h <;> simp [State.deskClosed, h]

/-- An entry placed, or the scan queue full. -/
theorem State.placeEntry_taken (s : State) (d : Desk) (k : ReqKind) (tag : Byte) (en : Entry) :
    (s.taken (.desk d) k tag).placeEntry d en =
      if 16 ≤ (s.eng d).queue.length then s.answered (.desk d) k tag .queueFull .empty
      else (s.answered (.desk d) k tag .ok .empty).setEng d { s.eng d with queue := (s.eng d).queue ++ [en] } := by
  rw [State.placeEntry, State.eng_taken, State.respond_taken]
  exact if_congr Iff.rfl rfl (by cases d <;> rfl)

/-- A request that the operating state refuses, or that places its entry. -/
theorem State.placesEntry_of {en : Entry}
    (hshut : ∀ code, s.deskClosed = some code → o = .next (s.answered (.desk d) k tag code .empty))
    (hopen : s.deskClosed = none → o = .next ((s.taken (.desk d) k tag).placeEntry d en)) :
    s.placesEntry d k tag en o := by
  rw [State.placeEntry_taken] at hopen
  refine ⟨fun h => hshut _ (State.deskClosed_unset h), fun h => hshut _ (State.deskClosed_closed h), fun h hq => ?_,
    fun h hq => ?_⟩
  · rw [hopen (State.deskClosed_open h), if_pos hq]
  · rw [hopen (State.deskClosed_open h), if_neg (Nat.not_le.mpr hq)]

/-- A request that the operating state refuses, or that goes to the store. -/
theorem State.sendsTxn_of {t : Txn}
    (hshut : ∀ code, s.deskClosed = some code → o = .next (s.answered (.desk d) k tag code .empty))
    (hopen : s.deskClosed = none → o = .next ((s.taken (.desk d) k tag).sendTxn (.port d) t)) :
    s.sendsTxn d k tag t o :=
  ⟨fun h => hshut _ (State.deskClosed_unset h), fun h => hshut _ (State.deskClosed_closed h),
    fun h => hopen (State.deskClosed_open h)⟩

end Gate

/-! ### KeyIn and SetMode -/

section KeyIn
variable {s : State} {d : Desk} {tag : Byte} {body : List Byte}

theorem exec_keyIn (h : s.free (.desk d)) (hl : ReqKind.allows .keyIn body.length = true) :
    exec (.keyIn (.desk d) tag body) s = .next (State.keyIn body d (s.taken (.desk d) .keyIn tag)) :=
  congrArg _ (State.deskRequest_free (State.keyIn body) h rfl hl nofun nofun)

theorem State.keyIn_shut {code : RespCode} (h : s.deskClosed = some code) :
    State.keyIn body d (s.taken (.desk d) .keyIn tag) = s.answered (.desk d) .keyIn tag code .empty := by
  rw [State.keyIn, State.taken_deskClosed, h]
  exact State.respond_taken ..

theorem State.keyIn_noLabel (h : s.deskClosed = none) (hl : labelOf (body.map .char) = none) :
    State.keyIn body d (s.taken (.desk d) .keyIn tag) = s.answered (.desk d) .keyIn tag .badRequest .empty := by
  rw [State.keyIn, State.taken_deskClosed, h, labelOfBytes, hl]
  exact State.respond_taken ..

theorem State.keyIn_label {l : Label} (h : s.deskClosed = none) (hl : labelOf (body.map .char) = some l) :
    State.keyIn body d (s.taken (.desk d) .keyIn tag)
      = (s.taken (.desk d) .keyIn tag).placeEntry d (.scan { label := l, arrival := s.now }) := by
  rw [State.keyIn, State.taken_deskClosed, h, labelOfBytes, hl, State.taken_now]

theorem exec_setMode (h : s.free (.desk d)) (hl : ReqKind.allows .setMode body.length = true) :
    exec (.setMode (.desk d) tag body) s = .next (State.setMode body d (s.taken (.desk d) .setMode tag)) :=
  congrArg _ (State.deskRequest_free (State.setMode body) h rfl hl nofun nofun)

/-- A SetMode body that passes line 1 meets the operating state, then places its marker. -/
theorem setMode_placesEntry {m : Mode} {b : Option Nat} (h : s.free (.desk d))
    (hl : ReqKind.allows .setMode body.length = true) (hb : readSetMode body = some (m, b)) :
    s.placesEntry d .setMode tag (.modeMarker m b) (exec (.setMode (.desk d) tag body) s) := by
  rw [exec_setMode h hl, State.setMode, hb]
  refine State.placesEntry_of (fun code hc => ?_) (fun hc => ?_) <;>
    simp only [State.taken_deskClosed, hc, State.respond_taken]

/-- The bodies SetMode's line 1 lets pass. -/
theorem readSetMode_eq_some (bs : List Byte) (m : Mode) (b : Option Nat) :
    readSetMode bs = some (m, b) ↔
      (b = none ∨ m = .returns) ∧ optOk (· < 65536) b ∧ bs = byte1 m.number ++ optBytes be2 b := by
  have reads := reads_mode.pair reads_be2.opt (mk := Prod.mk) (fst := Prod.fst) (snd := Prod.snd) (fun _ => rfl)
    (fun _ _ => rfl) (fun _ _ => rfl)
  rw [readSetMode, Option.filter_eq_some_iff, reads.whole_eq_some]
  cases b <;> simp [optOk, and_comm]

theorem readSetMode_none {bs : List Byte} (h1 : ∀ m : Mode, bs ≠ [BitVec.ofNat 8 m.number, 0#8])
    (h2 : ∀ hi lo, bs ≠ [2#8, 1#8, hi, lo]) : readSetMode bs = none := by
  rw [Option.eq_none_iff_forall_ne_some]
  rintro ⟨m, b⟩ h
  obtain ⟨hb, -, rfl⟩ := (readSetMode_eq_some bs m b).mp h
  cases b with
  | none => exact h1 m rfl
  | some n =>
    obtain rfl : m = .returns := hb.resolve_left nofun
    exact h2 _ _ rfl

end KeyIn

/-- Settles O14: KeyIn by its table, and SetMode by the two forms of body that its line 1 lets pass. -/
theorem keyInAndSetModeAreAnsweredByTheirTables : Obligations.KeyInAndSetModeAreAnsweredByTheirTables := by
  refine ⟨⟨fun d tag body s h => ⟨fun hl => ?_, fun h1 h32 => ?_, fun l hlab => ?_⟩, fun tag body s h => ?_⟩,
    fun d tag body s h => ⟨fun m hm => ?_, fun b hb hbody => ?_, fun h1 h2 => ?_⟩⟩
  · have hlen : ReqKind.allows .keyIn body.length = false := by
      rcases hl with rfl | hl
      · rfl
      · simp [ReqKind.allows]; omega
    exact congrArg _ (State.request_badLength _ h rfl hlen (by simp))
  · have hlen : ReqKind.allows .keyIn body.length = true := by simp [ReqKind.allows]; omega
    rw [exec_keyIn h hlen]
    exact ⟨fun hs => congrArg _ (State.keyIn_shut (State.deskClosed_unset hs)),
      fun hs => congrArg _ (State.keyIn_shut (State.deskClosed_closed hs)),
      fun hs hn => congrArg _ (State.keyIn_noLabel (State.deskClosed_open hs) hn)⟩
  · have h14 : body.length = 14 := by simpa using labelOf_length hlab
    rw [exec_keyIn h (by rw [h14]; rfl)]
    exact State.placesEntry_of (fun code hc => congrArg _ (State.keyIn_shut hc))
      (fun hc => congrArg _ (State.keyIn_label hc hlab))
  · exact congrArg _ (State.request_forbidden _ h rfl)
  · subst hm
    exact setMode_placesEntry h rfl ((readSetMode_eq_some _ m none).mpr ⟨.inl rfl, trivial, rfl⟩)
  · subst hbody
    exact setMode_placesEntry h rfl
      ((readSetMode_eq_some _ .returns (some b)).mpr ⟨.inr rfl, show b < 65536 by omega, rfl⟩)
  · by_cases hl : ReqKind.allows .setMode body.length = true
    · rw [exec_setMode h hl, State.setMode, readSetMode_none h1 h2]
      exact congrArg _ (State.respond_taken ..)
    · exact congrArg _ (State.request_badLength _ h rfl (by simpa using hl) (by simp))

/-! ### Status, ReadResult and Close -/

theorem State.deskAttention_iff (s : State) (d : Desk) :
    s.deskAttention d = true ↔ s.power = .running
      ∧ ((s.eng d).results ≠ [] ∨ (∃ h, (s.eng d).ctx = .awaitOverride h) ∨ ∃ x f, (s.eng d).ctx = .slipWait x f) := by
  unfold State.deskAttention
  cases hc : (s.eng d).ctx <;> simp

section AtOnce
variable {s : State} {d : Desk} {tag : Byte}

theorem exec_status (h : s.free (.desk d)) :
    exec (.status (.desk d) tag []) s
      = .next ((s.answered (.desk d) .status tag .ok (.status (s.statusReport d))).setEng d
          { s.eng d with scanLost := false, readEmpty := false }) := by
  refine congrArg Host.Outcome.next ((State.deskRequest_free (k := .status) (body := []) State.status h rfl rfl nofun nofun).trans ?_)
  cases d <;> rfl

theorem exec_readResult (h : s.free (.desk d)) :
    exec (.readResult (.desk d) tag []) s = .next (State.readResult d (s.taken (.desk d) .readResult tag)) :=
  congrArg _ (State.deskRequest_free (k := .readResult) (body := []) State.readResult h rfl rfl nofun nofun)

theorem exec_close (h : s.free (.desk d)) :
    exec (.close (.desk d) tag []) s = .next (State.close d (s.taken (.desk d) .close tag)) :=
  congrArg _ (State.deskRequest_free (k := .close) (body := []) State.close h rfl rfl nofun nofun)

end AtOnce

/-- Settles O15: Status composes the report before it clears the marks; the other two are one case each. -/
theorem statusReadResultAndCloseAnswerAtOnce : Obligations.StatusReadResultAndCloseAnswerAtOnce := by
  refine ⟨fun d tag s h => ⟨⟨s.statusReport d, exec_status h, rfl, rfl, rfl, rfl, ?_, rfl, rfl, rfl, rfl, rfl, ?_⟩,
      fun hr => ?_, fun r rest hr => ?_⟩, fun d tag s h => ?_, fun d s => s.deskAttention_iff d⟩
  · refine congrArg (fun marker => ((s.eng d).queue.filter marker).length) (funext fun x => ?_)
    cases x <;> rfl
  · have report : (s.statusReport d).ctx = (s.eng d).report := rfl
    rw [report, Engine.report]
    refine ⟨fun hc => ?_, fun ss hc => ?_, fun held hc => ?_, fun x f hc => ?_⟩ <;> rw [hc]
  · rw [exec_readResult h, State.readResult, State.eng_taken, hr]
    cases d <;> rfl
  · rw [exec_readResult h, State.readResult, State.eng_taken, hr]
    cases d <;> rfl
  · rw [exec_close h, State.close, State.taken_deskClosed]
    refine State.placesEntry_of (fun code hc => ?_) (fun hc => ?_) <;> rw [hc]
    exact congrArg _ (State.respond_taken ..)

/-! ### Payment and local blocks: the port's lines -/

theorem readPayment_bytes {lib serial amount : Nat} (hl : lib < 65536) (hs : serial < 4294967296)
    (ha : amount < 4294967296) :
    readPayment (be2 lib ++ be4 serial ++ be4 amount) =
      if lib ≤ 999 ∧ serial ≤ 9999999 ∧ 1 ≤ amount ∧ amount ≤ 1000000 then some (⟨lib, serial⟩, amount) else none := by
  have reads := reads_ident.pair reads_be4 (mk := Prod.mk) (fst := Prod.fst) (snd := Prod.snd) (fun _ => rfl)
    (fun _ _ => rfl) (fun _ _ => rfl)
  refine (reads.whole_filter (x := (⟨lib, serial⟩, amount)) ⟨⟨hl, hs⟩, ha⟩ _).trans (if_congr ?_ rfl rfl)
  simp [Ident.inRange, and_assoc]

theorem readIdentBody_bytes {lib serial : Nat} (hl : lib < 65536) (hs : serial < 4294967296) :
    readIdentBody (be2 lib ++ be4 serial) = if lib ≤ 999 ∧ serial ≤ 9999999 then some ⟨lib, serial⟩ else none := by
  refine (reads_ident.whole_filter (x := ⟨lib, serial⟩) ⟨hl, hs⟩ _).trans (if_congr ?_ rfl rfl)
  simp [Ident.inRange]

theorem readSetLocal_append {label : List Byte} {code : Nat} (hl : label.length = 14) (hc : code < 256) :
    readSetLocal (label ++ [BitVec.ofNat 8 code]) =
      match labelOf (label.map .char) with
      | some l => if l.kind = .borrower ∧ 1 ≤ code then some (l, code) else none
      | none => none := by
  have hcode : whole (readNum 1 [BitVec.ofNat 8 code]) = some code :=
    (reads_byte.whole_eq_some _ _).mpr ⟨hc, rfl⟩
  rw [readSetLocal, List.take_left' hl, List.drop_left' hl, hcode, labelOfBytes]
  cases labelOf (label.map .char) <;> rfl

section Borrowers
variable {s : State} {d : Desk} {tag : Byte} {body : List Byte}

theorem exec_payment (h : s.free (.desk d)) (hl : body.length = 10) :
    exec (.payment (.desk d) tag body) s = .next (State.payment body d (s.taken (.desk d) .payment tag)) :=
  congrArg _ (State.deskRequest_free (k := .payment) (State.payment body) h rfl (by rw [hl]; rfl) nofun nofun)

theorem exec_setLocalBlock (h : s.free (.desk d)) (hl : body.length = 15) :
    exec (.setLocalBlock (.desk d) tag body) s
      = .next (State.setLocalBlock body d (s.taken (.desk d) .setLocalBlock tag)) :=
  congrArg _ (State.deskRequest_free (k := .setLocalBlock) (State.setLocalBlock body) h rfl (by rw [hl]; rfl) nofun nofun)

theorem exec_clearLocalBlock (h : s.free (.desk d)) (hl : body.length = 6) :
    exec (.clearLocalBlock (.desk d) tag body) s
      = .next (State.clearLocalBlock body d (s.taken (.desk d) .clearLocalBlock tag)) :=
  congrArg _ (State.deskRequest_free (k := .clearLocalBlock) (State.clearLocalBlock body) h rfl (by rw [hl]; rfl) nofun
    nofun)

end Borrowers

/-- Settles O24: each body is read back from its bytes, and the operating state decides the rest. -/
theorem borrowerRequestsReachTheStore : Obligations.BorrowerRequestsReachTheStore := by
  refine fun d tag s h => ⟨fun lib serial amount hl hs ha => ?_, fun label code hl hc => ?_, fun lib serial hl hs => ?_⟩
  · simp only [exec_payment (body := be2 lib ++ be4 serial ++ be4 amount) h (by simp), State.payment,
      readPayment_bytes hl hs ha]
    refine ⟨fun hr => ?_, fun hr => ?_⟩
    · rw [if_pos hr]
      refine State.sendsTxn_of (fun code hc => ?_) (fun hc => ?_) <;>
        simp only [State.taken_deskClosed, hc, State.respond_taken]
    · rw [if_neg hr, State.respond_taken]
  · simp only [exec_setLocalBlock (body := label ++ [BitVec.ofNat 8 code]) h (by simp [hl]), State.setLocalBlock,
      readSetLocal_append hl hc]
    refine ⟨fun l hlab hk h1 => ?_, fun hr => ?_⟩
    · rw [hlab]
      simp only [if_pos (And.intro hk h1)]
      refine State.sendsTxn_of (fun code hc => ?_) (fun hc => ?_) <;>
        simp only [State.taken_deskClosed, hc, State.respond_taken]
    · rcases hr with hn | ⟨l, hlab, hk⟩ | rfl
      · rw [hn, State.respond_taken]
      · simp only [hlab, hk, reduceCtorEq, false_and, if_false, State.respond_taken]
      · cases labelOf (label.map .char) <;> simp [State.respond_taken]
  · simp only [exec_clearLocalBlock (body := be2 lib ++ be4 serial) h (by simp), State.clearLocalBlock,
      readIdentBody_bytes hl hs]
    refine ⟨fun hr => ?_, fun hr => ?_⟩
    · rw [if_pos hr]
      refine State.sendsTxn_of (fun code hc => ?_) (fun hc => ?_) <;>
        simp only [State.taken_deskClosed, hc, State.respond_taken]
    · rw [if_neg hr, State.respond_taken]

end Sys2Proof.Machine
end

section
/-! PROOFS. Settings and clock requests, the journal's window, and the start and end of a rollover (R100, R107, R126, R131, R132,
R137, R164, R165, R185). -/

namespace Sys2Proof.Machine

/-! ### An acceptance of one record at an idle journal -/

section OfferOne
variable {s : State} {a : Acceptance} {d : Draft} {f : State → State}

theorem State.offerOne_done {j : Journal} (ha : s.journal.accept s.now [d] = .done j) :
    s.offerOne d f = some (f { s with journal := j }) := by rw [State.offerOne, ha]

theorem State.offerOne_full (ha : s.journal.accept s.now [d] = .full) :
    s.offerOne d f = some (f { s with journal := { s.journal with drops := min (s.journal.drops + 1) 255 } }) := by
  rw [State.offerOne, ha]; rfl

theorem State.offerOne_wait (ha : s.journal.accept s.now [d] = .wait) : s.offerOne d f = none := by
  rw [State.offerOne, ha]

/-- One record's work, done with its record accepted. -/
theorem State.offer_done {j : Journal} (hj : s.journal.idle) (hfront : s.acceptFront a = s.offerOne d f)
    (ha : s.journal.accept s.now [d] = .done j) : s.offer a = f { s with journal := j } := by
  rw [State.offer_idle hj, hfront, State.offerOne_done ha]; rfl

/-- One record's work, done with its record dropped (R151). -/
theorem State.offer_full (hj : s.journal.idle) (hfront : s.acceptFront a = s.offerOne d f)
    (ha : s.journal.accept s.now [d] = .full) :
    s.offer a = f { s with journal := { s.journal with drops := min (s.journal.drops + 1) 255 } } := by
  rw [State.offer_idle hj, hfront, State.offerOne_full ha]; rfl

end OfferOne

/-! ### A request that passes its port's tests -/

section Passed
variable {s : State} {tag : Byte} {body : List Byte}

theorem exec_postEdit (h : s.free .uplink) (hl : ReqKind.allows .postEdit body.length = true) :
    exec (.postEdit .uplink tag body) s = .next (State.postEdit body (s.taken .uplink .postEdit tag)) :=
  congrArg _ (State.request_free (k := .postEdit) (State.postEdit body) h rfl hl nofun nofun)

theorem exec_setTime (h : s.free .uplink) (hl : body.length = 5) :
    exec (.setTime .uplink tag body) s = .next (State.setTime body (s.taken .uplink .setTime tag)) :=
  congrArg _ (State.request_free (k := .setTime) (State.setTime body) h rfl (by rw [hl]; rfl) nofun nofun)

theorem exec_refreshRules (h : s.free .uplink) :
    exec (.refreshRules .uplink tag []) s = .next (State.refreshRules (s.taken .uplink .refreshRules tag)) :=
  congrArg _ (State.request_free (k := .refreshRules) (body := []) State.refreshRules h rfl rfl nofun nofun)

theorem exec_readSettings {p : Port} {part : Part} (h : s.free p)
    (hl : ReqKind.allows .readSettings body.length = true) (hx : readPart body = some part) :
    exec (.readSettings p tag body) s = .next (s.answered p .readSettings tag .ok (s.settings.answer part)) := by
  refine congrArg Host.Outcome.next ((State.request_free (k := .readSettings) _ h (by cases p <;> rfl) hl nofun nofun).trans ?_)
  simp only [hx, State.respond_taken, State.taken_settings]

theorem exec_readSettings_none {p : Port} (h : s.free p) (hl : ReqKind.allows .readSettings body.length = true)
    (hx : readPart body = none) :
    exec (.readSettings p tag body) s = .next (s.answered p .readSettings tag .badRequest .empty) := by
  refine congrArg Host.Outcome.next ((State.request_free (k := .readSettings) _ h (by cases p <;> rfl) hl nofun nofun).trans ?_)
  simp only [hx, State.respond_taken]

theorem exec_printerStatus {p : Port} (h : s.free p) :
    exec (.printerStatus p tag []) s = .next (s.answered p .printerStatus tag .ok (.printer s.printer.report)) := by
  refine congrArg Host.Outcome.next
    ((State.request_free (k := .printerStatus) (body := []) _ h (by cases p <;> rfl) rfl nofun nofun).trans ?_)
  rw [State.respond_taken, State.taken_printer]

end Passed

/-! ### PostEdit -/

/-- Deriving the operating state anew sets it, and tells the engines when the part leaves Open. -/
theorem State.deriveState_eq (s : State) :
    s.deriveState =
      let leaves := s.opState = .opened ∧ (s.derivedOp = .returnsOnly ∨ s.derivedOp = .closed)
      { s with
        opState := s.derivedOp
        engA := if leaves then s.engA.leaveArrives else s.engA
        engB := if leaves then s.engB.leaveArrives else s.engB } := by
  by_cases h : s.opState = .opened ∧ (s.derivedOp = .returnsOnly ∨ s.derivedOp = .closed)
  · simp only [State.deriveState, if_pos h]
  · simp only [State.deriveState, if_neg h]

@[simp] theorem State.deriveState_journal (s : State) : s.deriveState.journal = s.journal := by rw [State.deriveState_eq]

@[simp] theorem State.deriveState_now (s : State) : s.deriveState.now = s.now := by rw [State.deriveState_eq]; rfl

theorem State.setPort_deriveState (s : State) (p : Port) (x : PortState) :
    s.deriveState.setPort p x = (s.setPort p x).deriveState := by
  rw [State.deriveState_eq, State.deriveState_eq]
  rcases p with (_ | _) | _ <;> rfl

/-- A response may come before the operating state is derived, or after. -/
theorem State.respond_deriveState (s : State) (p : Port) (code : RespCode) (ans : Answer) :
    s.deriveState.respond p code ans = (s.respond p code ans).deriveState := by
  have hp : s.deriveState.port p = s.port p := by
    rw [State.deriveState_eq]
    rcases p with (_ | _) | _ <;> rfl
  rw [State.respond, State.respond, State.respondWith, State.respondWith, hp]
  cases (s.port p).inProgress with
  | none => rfl
  | some r => exact State.setPort_deriveState ..

theorem State.setPort_dayChange (s : State) (p : Port) (x : PortState) :
    s.dayChange.setPort p x = (s.setPort p x).dayChange := by
  unfold State.dayChange
  rw [State.setPort_roll]
  split <;> rcases p with (_ | _) | _ <;> rfl

theorem State.respond_dayChange (s : State) (p : Port) (code : RespCode) (ans : Answer) :
    s.dayChange.respond p code ans = (s.respond p code ans).dayChange := by
  have hp : s.dayChange.port p = s.port p := by
    unfold State.dayChange
    split <;> rcases p with (_ | _) | _ <;> rfl
  rw [State.respond, State.respond, State.respondWith, State.respondWith, hp]
  cases (s.port p).inProgress with
  | none => rfl
  | some r => exact State.setPort_dayChange ..

theorem readEdit_none {bs : List Byte} (h : ∀ e : Edit, e.inRange = true → bs ≠ e.bytes) : readEdit bs = none := by
  rw [Option.eq_none_iff_forall_ne_some]
  intro e he
  obtain ⟨hr, hb⟩ := (readEdit_eq_some bs e).mp he
  exact h e hr hb

theorem Settings.immediate_iff (c : Settings) (e : Edit) :
    c.immediate e = true ↔ (∃ x, e = .setConfig x) ∧ c.config.home = none := by
  unfold Settings.immediate
  split
  next x => simp [Option.isNone_iff_eq_none]
  next h => simp only [Bool.false_eq_true, false_iff]; rintro ⟨⟨x, rfl⟩, -⟩; exact h x rfl

/-- Settles O42: line 1 of R100 is the reading of the body; line 2 is a configuration while the home code is unset. -/
theorem postEditPostsOrTakesEffect : Obligations.PostEditPostsOrTakesEffect := by
  refine fun tag body s h hl => ⟨fun hn => ?_, fun e he hb => ⟨fun x hx hhome hj => ?_, fun hx => ?_⟩⟩
  · rw [exec_postEdit h hl, State.postEdit, readEdit_none hn]
    exact congrArg _ (State.respond_taken ..)
  all_goals
    have hread := (readEdit_eq_some body e).mpr ⟨he, hb⟩
  · subst hx
    have hnow : s.settings.immediate (.setConfig x) = true := (s.settings.immediate_iff _).mpr ⟨⟨x, rfl⟩, hhome⟩
    let t := State.deriveState
      { s.answered .uplink .postEdit tag .ok .empty with settings := { s.settings with config := x } }
    have hexec : exec (.postEdit .uplink tag body) s = .next (t.offer .edits) := by
      rw [exec_postEdit h hl]
      simp only [State.postEdit, hread, State.taken_settings, hnow, if_true, State.respond_deriveState]
      rfl
    have hidle : t.journal.idle := by rwa [State.deriveState_journal]
    have hnow : t.now = s.now := State.deriveState_now _
    have hjournal : t.journal = s.journal := State.deriveState_journal _
    refine ⟨fun j ha => ?_, fun ha => ?_⟩
    · rw [hexec, State.offer_done (j := j) (f := fun t => t) hidle rfl (by rw [hnow, hjournal]; exact ha)]
    · rw [hexec, State.offer_full (f := fun t => t) hidle rfl (by rw [hnow, hjournal]; exact ha), hjournal]
  · have hnow : ¬ s.settings.immediate e = true := by
      rw [s.settings.immediate_iff]
      rintro ⟨⟨x, rfl⟩, hhome⟩
      exact hx.elim (fun h => h x rfl) (fun h => h hhome)
    rw [exec_postEdit h hl]
    simp only [State.postEdit, hread, State.taken_settings, hnow]
    refine ⟨fun hfull => ?_, fun hroom => ?_⟩
    · simp [hfull, State.respond_taken]
    · simp [Nat.not_le.mpr hroom]
      rfl

/-! ### SetTime -/

theorem readSetTime_bytes {day minute second : Nat} (hd : day < 65536) (hm : minute < 65536) (hs : second < 256) :
    readSetTime (be2 day ++ be2 minute ++ [BitVec.ofNat 8 second]) =
      if minute ≤ 1439 ∧ second ≤ 59 then some (day, minute, second) else none := by
  have h1 := reads_be2.read hd (be2 minute ++ [BitVec.ofNat 8 second])
  have h2 := reads_be2.read hm [BitVec.ofNat 8 second]
  have h3 : readNum 1 [BitVec.ofNat 8 second] = some (second, []) := reads_byte.read hs []
  simp [readSetTime, h1, h2, h3, whole, Option.filter]

/-- The clock set by a SetTime, answered: the order of the answer and the day change does not matter. -/
theorem State.setClock_taken (s : State) (tag : Byte) (j : Journal) (day minute second : Nat) :
    (State.setClock { s.taken .uplink .setTime tag with journal := j } day minute second).respond .uplink .ok .empty =
      let t := State.deriveState
        { s.answered .uplink .setTime tag .ok .empty with
          clock := { day := day, minute := minute, second := second, ms := 0, valid := true }, journal := j }
      if s.clock.day < day then t.dayChange else t := by
  simp only [State.setClock, State.taken_clock, decide_eq_true_eq]
  split
  · rw [State.respond_dayChange, State.respond_deriveState]; rfl
  · rw [State.respond_deriveState]; rfl

/-- Settles O44: the body is read back from its bytes, and the clock's record is accepted or dropped. -/
theorem setTimeSetsTheClock : Obligations.SetTimeSetsTheClock := by
  intro tag day minute second s h hd hm hs
  simp only [exec_setTime (body := be2 day ++ be2 minute ++ [BitVec.ofNat 8 second]) h (by simp), State.setTime,
    readSetTime_bytes hd hm hs]
  refine ⟨fun hr => ?_, fun h1 h2 hb => ?_, fun h1 h2 hb hj => ?_⟩
  · rw [if_neg (by omega), State.respond_taken]
  · rw [if_pos ⟨h1, h2⟩]
    simp only [State.taken_clock, if_pos hb, State.respond_taken]
  · have hfwd : ¬ day < s.clock.day := Nat.not_lt.mpr hb
    rw [if_pos ⟨h1, h2⟩]
    simp only [State.taken_clock, if_neg hfwd]
    have hidle : (s.taken .uplink .setTime tag).journal.idle := hj
    have hfront : (s.taken .uplink .setTime tag).acceptFront (.clock day minute second) =
        (s.taken .uplink .setTime tag).offerOne
          { source := .uplink, time := none, flags := { }, body := .clock s.now { day := day, minute := minute } }
          (fun s => (s.setClock day minute second).respond .uplink .ok .empty) := by
      simp only [State.acceptFront, State.taken_clock, if_neg hfwd, State.taken_now]
    exact ⟨fun j ha => congrArg _ ((State.offer_done hidle hfront ha).trans (State.setClock_taken ..)),
      fun ha => congrArg _ ((State.offer_full hidle hfront ha).trans (State.setClock_taken ..))⟩

/-! ### Rollovers -/

theorem State.dayChange_none {s : State} (h : s.roll.phase = .none) : s.dayChange = s.startRollover := if_pos h

theorem State.dayChange_pending {s : State} (h : s.roll.phase ≠ .none) :
    s.dayChange = { s with roll := { s.roll with pending := true } } := if_neg h

/-- ROLLOVER_RECORD at an idle journal offers the rollover's record. -/
theorem exec_rolloverRecord {s : State} (hp : s.power = .running) (hr : s.roll.phase = .recording) (hj : s.journal.idle) :
    exec .rolloverRecord s = .next (s.offer .rollover) := by
  refine congrArg Host.Outcome.next (if_pos ⟨hp, hr, ?_⟩)
  rw [hj.1]; rfl

theorem State.endRollover_eq (s : State) (j : Journal) :
    State.endRollover { s with journal := j } =
      { s with
        roll :=
          if s.roll.pending = true then
            { s.roll with phase := .applying, day := s.clock.day, place := 0, cursor := 0, moved := 0, flagsSet := 0,
                          flagsCleared := 0, expired := 0, pending := false }
          else { s.roll with phase := .none }
        journal := j } := by
  unfold State.endRollover
  by_cases h : s.roll.pending = true <;> simp [h, State.startRollover]

/-- Settles O45: a refresh and a day change start a rollover, or find one in flight; the record's acceptance ends it. -/
theorem rolloversStartAndEnd : Obligations.RolloversStartAndEnd := by
  intro s started
  refine ⟨fun tag h => ⟨fun hp => ?_, fun hp => ?_⟩, State.dayChange_none, State.dayChange_pending,
    fun hp hr hj => ⟨fun j ha => ?_, fun ha => ?_⟩, fun hr => ?_⟩
  · rw [exec_refreshRules h, State.refreshRules, State.taken_roll, if_pos hp, State.respond_taken]
    rfl
  · rw [exec_refreshRules h, State.refreshRules, State.taken_roll, if_neg hp, State.respond_taken]
  · rw [exec_rolloverRecord hp hr hj, State.offer_done hj rfl ha, State.endRollover_eq]
  · rw [exec_rolloverRecord hp hr hj, State.offer_full hj rfl ha, State.endRollover_eq]
  · exact congrArg _ (if_neg (fun hx => hr hx.2.1))

/-! ### Reads -/

/-- A part whose index stands in one byte behind its number. -/
theorem readPart_index (i : Byte) :
    readPart [4#8, i] = some (.exceptions i.toNat) ∧ readPart [5#8, i] = some (.rules i.toNat)
      ∧ readPart [6#8, i] = some (.pending i.toNat) := by
  have hi : readNum 1 [i] = some (i.toNat, []) :=
    (reads_byte_iff _ _ _ i.isLt).mpr (by rw [byteOf_eq (Nat.mod_eq_of_lt i.isLt)])
  have h (n : Nat) (hn : n < 256) : readNum 1 [byteOf n, i] = some (n, [i]) := (reads_byte_iff _ _ n hn).mpr rfl
  refine ⟨?_, ?_, ?_⟩ <;> unfold readPart
  · rw [show [4#8, i] = [byteOf 4, i] from rfl, h 4 (by omega)]; simp only [hi, whole, Option.map_some]
  · rw [show [5#8, i] = [byteOf 5, i] from rfl, h 5 (by omega)]; simp only [hi, whole, Option.map_some]
  · rw [show [6#8, i] = [byteOf 6, i] from rfl, h 6 (by omega)]; simp only [hi, whole, Option.map_some]

theorem readPart_none {bs : List Byte} (h1 : bs ≠ [1#8]) (h2 : bs ≠ [2#8]) (h3 : bs ≠ [3#8])
    (hi : ∀ i, bs ≠ [4#8, i] ∧ bs ≠ [5#8, i] ∧ bs ≠ [6#8, i]) : readPart bs = none := by
  unfold readPart
  split
  case h_7 => rfl
  all_goals
    rename_i hr
    rw [reads_byte_iff _ _ _ (by omega)] at hr
  case h_1 => exact absurd hr h1
  case h_2 => exact absurd hr h2
  case h_3 => exact absurd hr h3
  all_goals
    rw [Option.map_eq_none_iff, Option.eq_none_iff_forall_ne_some]
    intro n hn
    obtain ⟨-, rfl⟩ := (reads_byte.whole_eq_some _ n).mp hn
  case h_4 => exact (hi (byteOf n)).1 hr
  case h_5 => exact (hi (byteOf n)).2.1 hr
  case h_6 => exact (hi (byteOf n)).2.2 hr

theorem Printer.report_eq (p : Printer) :
    p.report =
      { st := p.st, slips := p.queue.length, front := p.queue.head?.map (fun x => (x.kind, x.source)),
        waitList := p.waitList,
        inquiryLeft := if p.st = .paperOut ∨ p.st = .offline then some (secondsLeft 10 p.inquiryMs) else none } := by
  unfold Printer.report
  cases hs : p.st <;> simp

theorem readWindowBody_bytes {start count : Nat} (hs : start < 4294967296) (hc : count < 4294967296) :
    readWindowBody (be4 start ++ be4 count) = some (start, count) := by
  have reads := reads_be4.pair reads_be4 (mk := Prod.mk) (fst := Prod.fst) (snd := Prod.snd) (fun _ => rfl)
    (fun _ _ => rfl) (fun _ _ => rfl)
  exact (reads.whole_eq_some _ (start, count)).mpr ⟨⟨hs, hc⟩, rfl⟩

theorem exec_readJournal {s : State} {tag : Byte} {start count : Nat} (h : s.free .uplink) (hs : start < 4294967296)
    (hc : count < 4294967296) :
    exec (.readJournal .uplink tag (be4 start ++ be4 count)) s
      = .next (s.answered .uplink .readJournal tag .ok (.journal (s.journal.readWindow start count))) := by
  refine congrArg Host.Outcome.next
    ((State.request_free (k := .readJournal) (body := be4 start ++ be4 count) _ h rfl (by simp; rfl) nofun nofun).trans ?_)
  simp only [readWindowBody_bytes hs hc, State.respond_taken, State.taken_journal]

/-- A run is an opening part of the records, consecutive from its sequence, and as long as it may be. -/
theorem runFrom_spec (n seq : Nat) (rs : List Found) :
    ∃ k, k ≤ n ∧ runFrom n seq rs = rs.take k ∧ (∀ i x, (rs.take k)[i]? = some x → x.seq = seq + i)
      ∧ (k = n ∨ ∀ x, rs[k]? = some x → x.seq ≠ seq + k) := by
  induction n generalizing seq rs with
  | zero => exact ⟨0, Nat.le_refl 0, rfl, by simp, .inl rfl⟩
  | succ n ih =>
    cases rs with
    | nil => exact ⟨0, Nat.zero_le _, rfl, by simp, .inr (by simp)⟩
    | cons r rs =>
      by_cases hr : r.seq = seq
      · obtain ⟨k, hk, hrun, hseq, hend⟩ := ih (seq + 1) rs
        refine ⟨k + 1, by omega, by simp [runFrom, hr, hrun], fun i x hx => ?_, hend.imp (by omega) fun h x hx => ?_⟩
        · cases i with
          | zero => simp at hx; subst hx; omega
          | succ i => have := hseq i x (by simpa using hx); omega
        · have := h x (by simpa using hx); omega
      · refine ⟨0, Nat.zero_le _, by simp [runFrom, hr], by simp, .inr fun x hx => ?_⟩
        simp at hx; subst hx; omega

/-- No record at or after the start. -/
theorem Journal.readWindow_none {j : Journal} {start : Nat} (count : Nat) (h : ∀ r ∈ j.served, r.seq < start) :
    j.readWindow start count =
      { first := start, startedLater := decide (start < j.tail), head := j.head, tail := j.tail, records := [] } := by
  have hd : j.served.dropWhile (fun r => decide (r.seq < start)) = [] := by simpa using h
  rw [Journal.readWindow, hd]

/-- `r` is the first record at or after the start. -/
theorem Journal.readWindow_some {j : Journal} {start : Nat} {r : Found} {before after : List Found} (count : Nat)
    (h : j.served = before ++ r :: after) (hb : ∀ x ∈ before, x.seq < start) (hr : start ≤ r.seq) :
    j.readWindow start count =
      { first := r.seq, startedLater := decide (start < r.seq), head := j.head, tail := j.tail,
        records := (runFrom (windowCount count) r.seq (r :: after)).map (fun x => x.bytes) } := by
  have hd : j.served.dropWhile (fun r => decide (r.seq < start)) = r :: after := by
    rw [h, List.dropWhile_append_of_pos (by simpa using hb), List.dropWhile_cons_of_neg (by simpa using hr)]
  rw [Journal.readWindow, hd]

theorem Journal.readWindow_bounds (j : Journal) (start count : Nat) :
    (j.readWindow start count).head = j.head ∧ (j.readWindow start count).tail = j.tail
      ∧ (j.readWindow start count).records.length ≤ windowCount count := by
  unfold Journal.readWindow
  split
  next => exact ⟨rfl, rfl, Nat.zero_le _⟩
  next r rs _ =>
    obtain ⟨k, hk, hrun, -⟩ := runFrom_spec (windowCount count) r.seq (r :: rs)
    refine ⟨rfl, rfl, ?_⟩
    rw [List.length_map, hrun, List.length_take]
    omega

theorem windowCount_pos (c : Nat) : 1 ≤ windowCount c := by
  unfold windowCount
  split <;> omega

/-- Settles O43: the bodies are read back from their bytes, and a window is a run of the records served. -/
theorem readsReportAndChangeNothing : Obligations.ReadsReportAndChangeNothing := by
  refine ⟨fun p tag s h => ⟨?_, ?_, ?_, fun i => ?_, fun body hlen h1 h2 h3 hi => ?_, ?_⟩,
    fun tag start count s h hs hc => exec_readJournal h hs hc, fun j start count => ?_⟩
  · exact exec_readSettings (part := .week) h rfl rfl
  · exact exec_readSettings (part := .categories) h rfl rfl
  · exact exec_readSettings (part := .config) h rfl rfl
  · obtain ⟨h4, h5, h6⟩ := readPart_index i
    exact ⟨exec_readSettings h rfl h4, exec_readSettings h rfl h5, exec_readSettings h rfl h6⟩
  · refine exec_readSettings_none h ?_ (readPart_none h1 h2 h3 hi)
    rcases hlen with hlen | hlen <;> rw [hlen] <;> rfl
  · rw [exec_printerStatus h, Printer.report_eq]
  · obtain ⟨hhead, htail, hlen⟩ := j.readWindow_bounds start count
    refine ⟨hhead, htail, hlen, fun hnone => ?_, fun r before after hserved hb hr => ?_⟩
    · simp only [Journal.readWindow_none count hnone, and_self]
    · obtain ⟨k, hk, hrun, hseq, hend⟩ := runFrom_spec (windowCount count) r.seq (r :: after)
      have hk1 : 1 ≤ k := by
        rcases hend with rfl | h
        · exact windowCount_pos count
        · by_contra h0
          obtain rfl : k = 0 := by omega
          exact h r rfl rfl
      simp only [Journal.readWindow_some count hserved hb hr, hrun]
      exact ⟨trivial, trivial, k, hk1, hk, rfl, hseq, hend⟩

end Sys2Proof.Machine
end

section
/-! PROOFS. Frames and their checks (R187), the ports' own requests and the sending of responses (R188 to R190). -/

namespace Sys2Proof.Machine

/-! ### Frames -/

theorem sumCheck_eq (bs : List Byte) : sumCheck bs = (bs.map BitVec.toNat).sum % 65536 := by
  have h (n : Nat) : bs.foldl (fun n b => n + b.toNat) n = n + (bs.map BitVec.toNat).sum := by
    induction bs generalizing n with
    | nil => simp
    | cons b bs ih => simp [ih]; omega
  rw [sumCheck, h, Nat.zero_add]

section Frame
variable (tag code hi lo : Byte) {body : List Byte}

/-- A start byte, a length that fits, and as many bytes as it says make a whole frame. -/
theorem wholeFrame_of (h : body.length ≤ 600) :
    wholeFrame (0xD4#8 :: (be2 body.length ++ [tag, code] ++ body) ++ [hi, lo]) = true := by
  have hlen : fromBE (be2 body.length) = body.length := by rw [fromBE_be2]; omega
  have htake : ((0xD4#8 :: (be2 body.length ++ [tag, code] ++ body) ++ [hi, lo]).drop 1).take 2 = be2 body.length := by
    simp [be2]
  rw [wholeFrame, htake, hlen]
  simp [h]; omega

/-- The check stands in a frame's last two bytes, over all but the start byte. -/
theorem checkCorrect_iff (checked : List Byte) :
    checkCorrect (0xD4#8 :: checked ++ [hi, lo]) = true
      ↔ hi.toNat * 256 + lo.toNat = (checked.map BitVec.toNat).sum % 65536 := by
  have hn : (0xD4#8 :: checked ++ [hi, lo]).length - 2 = (0xD4#8 :: checked).length := by simp
  rw [checkCorrect, hn, decide_eq_true_eq, List.drop_left, List.take_left, fromBE_two, List.drop_one, List.tail_cons,
    sumCheck_eq]

end Frame

/-- The frame of a body that fits is whole, and its check is correct. -/
theorem frameBytes_good (tag code : Byte) {body : List Byte} (h : body.length ≤ 600) :
    wholeFrame (frameBytes tag code body) = true ∧ checkCorrect (frameBytes tag code body) = true
      ∧ (frameBytes tag code body).length = body.length + 7 := by
  refine ⟨wholeFrame_of _ _ _ _ h, (checkCorrect_iff _ _ _).mpr ?_, by simp [frameBytes]; omega⟩
  rw [byteOf_toNat, byteOf_toNat, sumCheck_eq]
  omega

/-! ### Hunting for a start byte -/

theorem exec_strayStartByte {p : Port} {s : State} (hi lo : Byte) (h : s.accepts p = true) (hrx : (s.port p).rx = []) :
    exec (.strayStartByte p hi lo) s = .next (s.setRx p (huntIn 3 [0xD4#8, hi, lo])) := by
  have hlen : (huntIn 3 [0xD4#8, hi, lo]).length ≤ 3 := by
    simp only [huntIn]
    repeat' split
    all_goals simp
  have hnot : frameFull (huntIn 3 [0xD4#8, hi, lo]) = false := by
    simp only [frameFull, Bool.and_eq_false_iff, decide_eq_false_iff_not]
    omega
  change execStrayStartByte p hi lo s = _
  simp [execStrayStartByte, hrx, h, hnot]

theorem huntIn_fits {hi lo : Byte} (h : hi.toNat * 256 + lo.toNat ≤ 600) :
    huntIn 3 [0xD4#8, hi, lo] = [0xD4#8, hi, lo] := by
  have : ¬ 600 < hi.toNat * 256 + lo.toNat := by omega
  simp [huntIn, fromBE_two, this]

theorem huntIn_stray {hi lo : Byte} (h : 600 < hi.toNat * 256 + lo.toNat) :
    huntIn 3 [0xD4#8, hi, lo] = huntIn 2 [hi, lo] := by simp [huntIn, fromBE_two, h]

/-- Settles O56: the check decides a whole frame, the hunt what follows a stray start byte. -/
theorem badFramesAreDiscarded : Obligations.BadFramesAreDiscarded := by
  refine ⟨fun p s h => ⟨fun tag code hi lo body rest hb => ?_, fun hrx => ?_, fun hrx hms => ?_, fun hno => ?_,
    fun hi lo hrx => ?_⟩, fun tag code body hb => frameBytes_good tag code hb⟩
  · intro checked hbs
    have hwhole : wholeFrame ((s.port p).rx ++ rest) = true := hbs ▸ wholeFrame_of tag code hi lo hb
    have hcheck := checkCorrect_iff hi lo checked
    rw [← hbs] at hcheck
    constructor
    · intro hne
      have hbad : checkCorrect ((s.port p).rx ++ rest) = false := by
        rw [← Bool.not_eq_true, hcheck]; exact hne
      exact congrArg _ (if_pos ⟨h, hwhole, hbad⟩)
    · intro he
      refine congrArg _ (if_neg ?_)
      rintro ⟨-, -, hbad⟩
      rw [hcheck.mpr he] at hbad
      nomatch hbad
  · exact congrArg _ (if_pos ⟨h, hrx, .inl rfl⟩)
  · exact congrArg _ (if_pos ⟨h, hrx, .inr hms⟩)
  · refine congrArg _ (if_neg ?_)
    rintro ⟨-, hrx, hc⟩
    exact hno.elim hrx (fun hlt => hc.elim nofun (Nat.not_le.mpr hlt))
  · rw [exec_strayStartByte hi lo h hrx]
    refine ⟨fun hfit => by rw [huntIn_fits hfit]; rfl, fun hstray => ?_⟩
    rw [huntIn_stray hstray]
    refine ⟨fun h1 => ?_, fun h1 h2 => ?_, fun h1 h2 => ?_⟩
    · simp [huntIn, h1, State.setRx]
    · simp [huntIn, h1, h2, State.setRx]
    · simp [huntIn, h1, h2, State.setRx]

/-! ### Restarts and responses -/

section Restart
variable {s : State} {p : Port} {tag : Byte}

/-- A port takes a request and keeps its arm mark, or not. -/
theorem State.takeRequest_eq (s : State) (p : Port) (k : Option ReqKind) (tag : Byte) (keep : Bool) :
    s.takeRequest p k tag keep =
      s.setPort p
        { s.port p with rx := [], inProgress := some { kind := k, tag := tag },
                        arm := if keep then (s.port p).arm else false } := by
  cases keep <;> simp [State.takeRequest]

theorem State.respondWith_setPort {x : PortState} {r : InProgress} (s : State) (p : Port) (hx : x.inProgress = some r)
    (code : RespCode) (ans : Answer) (gap restarts : Bool) :
    (s.setPort p x).respondWith p code ans gap restarts =
      s.setPort p
        { x with tx := x.tx ++
            [{ tag := r.tag, code := code, answer := ans, own := true, startsGap := gap, restarts := restarts }] } := by
  simp only [State.respondWith, State.port_setPort, hx, State.setPort_setPort]

/-- RestartArm and Restart leave the arm mark to their owner. -/
theorem State.request_keepsArm {k : ReqKind} (f : State → State) (h : s.free p) (hk : k = .restartArm ∨ k = .restart) :
    s.request p k tag [] f = f (s.takeRequest p (some k) tag true) := by
  obtain ⟨ha, hi⟩ := h
  have hperm : k.permitted p = true := by rcases hk with rfl | rfl <;> cases p <;> rfl
  have hlen : k.allows ([] : List Byte).length = true := by rcases hk with rfl | rfl <;> rfl
  have harm : k.keepsArm [] = true := by simp [ReqKind.keepsArm, hk]
  rw [State.request, if_neg (by simp [ha]), if_neg (by simp [hi]), harm]
  simp only [hperm, hlen, Bool.true_eq_false, if_false]

theorem State.restartTaken_iff (s : State) :
    s.restartTaken = true ↔ s.restartDue = true ∨ ∃ q, ∃ t ∈ (s.port q).tx, t.restarts = true := by
  have ports : (∃ q, ∃ t ∈ (s.port q).tx, t.restarts = true) ↔
      s.portA.restarts = true ∨ s.portB.restarts = true ∨ s.portU.restarts = true := by
    simp only [PortState.restarts, List.any_eq_true]
    constructor
    · rintro ⟨(_ | _) | _, h⟩
      exacts [.inl h, .inr (.inl h), .inr (.inr h)]
    · rintro (h | h | h)
      exacts [⟨.desk .a, h⟩, ⟨.desk .b, h⟩, ⟨.uplink, h⟩]
  rw [ports, State.restartTaken]
  simp only [Bool.or_eq_true, or_assoc]

/-- Taking a request brings no answer that restarts the unit. -/
theorem State.restartTaken_setPort (s : State) (p : Port) (x : PortState) (h : x.tx = (s.port p).tx) :
    (s.setPort p x).restartTaken = s.restartTaken := by
  rcases p with (_ | _) | _ <;>
    simp only [State.restartTaken, State.setPort, PortState.restarts, State.port] at * <;> rw [h]

/-- What Restart comes to: not armed, behind another, or answered. -/
theorem exec_restart (h : s.free p) :
    exec (.restart p tag []) s = .next
      (if (s.port p).arm = true then
        if s.restartTaken = true then
          s.setPort p { s.port p with rx := [], inProgress := some { kind := some .restart, tag := tag }, arm := false }
        else
          s.setPort p
            { s.port p with rx := [], inProgress := some { kind := some .restart, tag := tag }, arm := false,
                            tx := (s.port p).tx ++ [{ ownFrame tag .ok .empty with restarts := true }] }
      else s.answered p .restart tag .notArmed .empty) := by
  refine (congrArg Host.Outcome.next (State.request_keepsArm (k := .restart) _ h (.inr rfl))).trans (congrArg _ ?_)
  simp only [State.takeRequest_eq, State.doRestart, State.port_setPort, if_true, State.setPort_setPort]
  by_cases ha : (s.port p).arm = true
  · rw [if_pos ha, if_pos ha, State.restartTaken_setPort, State.respondWith_setPort s p rfl] <;> rfl
  · rw [if_neg ha, if_neg ha, State.respond, State.respondWith_setPort s p rfl]
    rw [Bool.not_eq_true] at ha
    rw [ha]
    rfl

end Restart

/-- Settles O57: each case of the ports' own requests, and of a response wholly sent. -/
theorem restartsAreArmedAndResponsesSent : Obligations.RestartsAreArmedAndResponsesSent := by
  refine fun p tag s => ⟨fun h => ⟨fun code body hc => ?_, ?_, fun ha => ?_, fun ha hd hq => ?_, fun ha hd => ?_⟩,
    fun t rest hp htx => ?_, fun htx => ?_⟩
  · have hcode : ¬ (1 ≤ code.toNat ∧ code.toNat ≤ 27) := by
      rcases hc with rfl | hc
      · decide
      · omega
    obtain ⟨hacc, hi⟩ := h
    change execUnknownRequest p tag code body s = _
    rw [execUnknownRequest, if_neg (by simp [hacc, hcode]), if_neg (by simp [hi]), State.takeRequest_eq, State.respond,
      State.respondWith_setPort s p rfl]
    rfl
  · refine (congrArg Host.Outcome.next (State.request_keepsArm (k := .restartArm) _ h (.inl rfl))).trans ?_
    rw [State.takeRequest_eq, State.setPort_setPort, State.port_setPort, State.respond, State.respondWith_setPort s p rfl]
    rfl
  · rw [exec_restart h, if_neg (by simp [ha])]
  · have htaken : ¬ s.restartTaken = true := by
      rw [s.restartTaken_iff]
      rintro (h | ⟨q, t, ht, hr⟩)
      · simp [hd] at h
      · simp [hq q t ht] at hr
    rw [exec_restart h, if_pos ha, if_neg htaken]
  · rw [exec_restart h, if_pos ha, if_pos (s.restartTaken_iff.mpr hd)]
  · change execResponseSent p s = _
    rw [execResponseSent, htx]
    simp only [hp, if_true, State.sent, State.setPort_restartDue, State.setPort_exch]
    have hgap : (if t.startsGap = true ∧ s.exch.session.isSome = true ∧ s.exch.expired = false then
          { s.exch with gapMs := some 0 } else s.exch)
        = { s.exch with
            gapMs := if t.startsGap = true ∧ s.exch.session ≠ none ∧ s.exch.expired = false then some 0
                     else s.exch.gapMs } := by
      by_cases hg : t.startsGap = true ∧ s.exch.session ≠ none ∧ s.exch.expired = false
      · rw [if_pos hg, if_pos (by rwa [Option.isSome_iff_ne_none])]
      · rw [if_neg hg, if_neg (by rwa [Option.isSome_iff_ne_none])]
    rw [hgap]
    rfl
  · change execResponseSent p s = _
    rw [execResponseSent, htx]

end Sys2Proof.Machine
end

section
/-! PROOFS. What a desk engine does with its context, as one change of its record (R16 to R30), and the obligations about
overrides, declines, slips, entries taken and leaving Open. -/

namespace Sys2Proof.Machine

/-! ### Context operations on an engine's record -/

section Context
variable (s : State) (d : Desk) (e : Engine)

theorem State.slipOf_setEng (ss : Session) : (s.setEng d e).slipOf d ss = s.slipOf d ss := by cases d <;> rfl

theorem State.dueSlip_eq (ss : Session) : s.dueSlip d ss = s.slipOf d ss := rfl

theorem State.follow_idle : (s.setEng d e).follow d .idle = s.setEng d { e with ctx := .idle, idleMs := none } := by
  simp [State.follow, State.toIdle]

theorem State.follow_resume (ss : Session) :
    (s.setEng d e).follow d (.resume ss) = s.setEng d { e with ctx := .session ss, idleMs := some 0 } := by
  simp [State.follow, State.toSession]

theorem State.follow_serve_opened (sc : Scan) (h : s.opState = .opened) :
    (s.setEng d e).follow d (.serveBorrower sc) =
      (s.setEng d { e with ctx := .idle, idleMs := none, service := some (.entry sc) }).sendTxn (.engine d)
        (.borrowerCheck sc.label.ident) := by
  simp [State.follow, h, State.sendCheck, State.serve, State.toIdle]

theorem State.follow_serve_notOpen (sc : Scan) (h : s.opState ≠ .opened) :
    (s.setEng d e).follow d (.serveBorrower sc) =
      s.setEng d { e with
        ctx := .idle, idleMs := none,
        results := e.results ++ [{ label := sc.label.digits, fields := { verdict := .notOpen } }] } := by
  simp [State.follow, h, State.putResult, State.toIdle]

theorem State.follow_closeResumed (ss : Session) :
    (s.setEng d e).follow d (.closeResumed ss) = s.sessionClosed d ss e := by
  simp only [State.follow, State.sessionClosed, Printer.hasRoom, decide_eq_true_eq, State.setEng_printer,
    State.dueSlip_eq, State.slipOf_setEng]
  refine if_congr Iff.rfl ?_ (if_congr Iff.rfl ?_ ?_)
  · exact State.follow_idle s d e
  · cases d <;> rfl
  · cases d <;> rfl

theorem State.closeSession_idle (ss : Session) :
    (s.setEng d e).closeSession d ss .idle = s.sessionClosed d ss e := by
  simp only [State.closeSession, State.sessionClosed, State.offerSlip, Printer.hasRoom, decide_eq_true_eq, State.toIdle,
    State.eng_setEng, State.setEng_setEng, State.setEng_printer, State.dueSlip_eq, State.slipOf_setEng]
  refine if_congr Iff.rfl ?_ (if_congr Iff.rfl ?_ ?_)
  · exact State.follow_idle s d _
  · cases d <;> rfl
  · cases d <;> rfl

theorem State.declineHeld_none {h : HeldScan} (late : Bool) (hs : h.session = none) :
    (s.setEng d e).declineHeld d h late =
      s.setEng d { e with
        results := e.results ++ [{ label := h.scan.label.digits, fields := h.stop.declined }],
        overrideMs := none, late := late || e.late, ctx := .idle, idleMs := none } := by
  simp [State.declineHeld, State.leaveHeld, hs, State.putResult, State.toIdle]

theorem State.declineHeld_some {h : HeldScan} {ss : Session} (late : Bool) (hs : h.session = some ss) :
    (s.setEng d e).declineHeld d h late =
      s.setEng d { e with
        results := e.results ++ [{ label := h.scan.label.digits, fields := h.stop.declined }],
        overrideMs := none, late := late || e.late, ctx := .session ss, idleMs := some 0 } := by
  simp [State.declineHeld, State.leaveHeld, hs, State.putResult, State.toSession]

end Context

/-! ### Requests that reach a context -/

theorem State.replied_setEng (s : State) (d : Desk) (e : Engine) (p : Port) (r : InProgress) (code : RespCode)
    (ans : Answer) : (s.replied p r code ans).setEng d e = (s.setEng d e).replied p r code ans := by
  rw [State.replied, State.replied, State.port_setEng, State.setPort_setEng_comm]

/-- The response to a request just taken, as the response to the request in progress. -/
theorem State.replied_taken (s : State) (p : Port) (k : ReqKind) (tag : Byte) (code : RespCode) (ans : Answer) :
    (s.taken p k tag).replied p { kind := some k, tag := tag } code ans = s.answered p k tag code ans := by
  rcases p with (_ | _) | _ <;> rfl

theorem State.progress_taken (s : State) (p : Port) (k : ReqKind) (tag : Byte) :
    ((s.taken p k tag).port p).inProgress = some { kind := some k, tag := tag } := by
  rw [State.taken, State.port_setPort]

section Meets
variable {t : State} {d : Desk} {e : Engine} {r : InProgress}

theorem State.respond_setEng (hr : (t.port (.desk d)).inProgress = some r) (code : RespCode) (ans : Answer) :
    (t.setEng d e).respond (.desk d) code ans = (t.setEng d e).replied (.desk d) r code ans :=
  State.respond_replied (by rwa [State.port_setEng]) code ans

/-- The refusals an Override and a Decline share. -/
theorem State.heldOr_refuses :
    (e.late = true → (t.setEng d e).heldOr d = .inl .tooLate)
      ∧ (e.late = false → t.opState = .unset → (t.setEng d e).heldOr d = .inl .unitUnset)
      ∧ (e.late = false → t.opState = .closed → (t.setEng d e).heldOr d = .inl .wrongState)
      ∧ (e.late = false → t.opState ≠ .unset → (∀ h, e.ctx ≠ .awaitOverride h) →
          (t.setEng d e).heldOr d = .inl .wrongState)
      ∧ ∀ h, e.late = false → t.opState = .opened ∨ t.opState = .returnsOnly → e.ctx = .awaitOverride h →
          (t.setEng d e).heldOr d = .inr h := by
  simp only [State.heldOr, State.eng_setEng, State.setEng_opState]
  refine ⟨fun hl => if_pos hl, fun hl ho => ?_, fun hl ho => ?_, fun hl ho hc => ?_, fun h hl ho hc => ?_⟩
  · simp [hl, ho]
  · simp [hl, ho]
  · rw [if_neg (by simp [hl]), if_neg ho]
    split
    · rfl
    · split
      next h hctx => exact absurd hctx (hc h)
      next => rfl
  · rcases ho with ho | ho <;> simp [hl, ho, hc]

theorem State.refuseHeld_replied (hr : (t.port (.desk d)).inProgress = some r) (code : RespCode) :
    (t.setEng d e).refuseHeld d code =
      (t.setEng d { e with late := if code = .tooLate then false else e.late }).replied (.desk d) r code .empty := by
  rw [State.refuseHeld, State.eng_setEng, State.setEng_setEng, State.respond_setEng hr]

theorem State.doOverride_refused {code : RespCode} (hr : (t.port (.desk d)).inProgress = some r)
    (h : (t.setEng d e).heldOr d = .inl code) :
    (t.setEng d e).doOverride d =
      (t.setEng d { e with late := if code = .tooLate then false else e.late }).replied (.desk d) r code .empty := by
  rw [State.doOverride, h]
  exact State.refuseHeld_replied hr code

theorem State.doOverride_sent {h : HeldScan} {txn : Txn} (hh : (t.setEng d e).heldOr d = .inr h)
    (ht : h.overrideTxn t.now = some txn) :
    (t.setEng d e).doOverride d =
      (t.setEng d { e with service := some .overriding, overrideMs := none }).sendTxn (.engine d) txn := by
  have hnow : (t.setEng d e).now = t.now := by cases d <;> rfl
  simp only [State.doOverride, hh, hnow, ht, State.eng_setEng, State.setEng_setEng]

/-- What an Override comes to when it reaches a context. -/
theorem State.doOverride_meets (hr : (t.port (.desk d)).inProgress = some r) :
    t.overrideMeets d e r ((t.setEng d e).doOverride d) := by
  obtain ⟨hlate, hunset, hclosed, hother, hheld⟩ := State.heldOr_refuses (t := t) (d := d) (e := e)
  refine ⟨fun hl => State.doOverride_refused hr (hlate hl), fun hl ho => State.doOverride_refused hr (hunset hl ho),
    fun hl ho => State.doOverride_refused hr (hclosed hl ho),
    fun hl ho hc => State.doOverride_refused hr (hother hl ho hc), fun h hl ho hc => ?_⟩
  refine ⟨fun rs hs => State.doOverride_sent (hheld h hl ho hc) ?_, fun ss hss => ⟨fun other hs =>
    State.doOverride_sent (hheld h hl ho hc) ?_, fun holder hs => State.doOverride_sent (hheld h hl ho hc) ?_⟩⟩
  · simp [HeldScan.overrideTxn, hs]
  · simp only [HeldScan.overrideTxn, hs, hss]; rfl
  · simp only [HeldScan.overrideTxn, hs, hss]; rfl

theorem State.doDecline_refused {code : RespCode} (hr : (t.port (.desk d)).inProgress = some r)
    (h : (t.setEng d e).heldOr d = .inl code) :
    (t.setEng d e).doDecline d =
      (t.setEng d { e with late := if code = .tooLate then false else e.late }).replied (.desk d) r code .empty := by
  rw [State.doDecline, h]
  exact State.refuseHeld_replied hr code

/-- What a Decline comes to when it reaches a context. -/
theorem State.doDecline_meets (hr : (t.port (.desk d)).inProgress = some r) :
    t.declineMeets d e r ((t.setEng d e).doDecline d) := by
  obtain ⟨hlate, hunset, hclosed, hother, hheld⟩ := State.heldOr_refuses (t := t) (d := d) (e := e)
  refine ⟨fun hl => State.doDecline_refused hr (hlate hl), fun hl ho => State.doDecline_refused hr (hunset hl ho),
    fun hl ho => State.doDecline_refused hr (hclosed hl ho),
    fun hl ho hc => State.doDecline_refused hr (hother hl ho hc), fun h hl ho hc => ⟨fun hs => ?_, fun ss hs => ?_⟩⟩
  · simp only [State.doDecline, hheld h hl ho hc, State.declineHeld_none _ _ _ _ hs, State.respond_setEng hr]
    rfl
  · simp only [State.doDecline, hheld h hl ho hc, State.declineHeld_some _ _ _ _ hs, State.respond_setEng hr]
    rfl

theorem State.doDropSlip_slip {x : Slip} {f : FollowOn} (hr : (t.port (.desk d)).inProgress = some r)
    (ho : t.opState = .opened ∨ t.opState = .returnsOnly) (hc : e.ctx = .slipWait x f) :
    (t.setEng d e).doDropSlip d =
      State.follow (State.setEng
        { t.replied (.desk d) r .ok (.slipDropped x.kind) with
          printer := { t.printer with waitList := t.printer.waitList.filter (fun y => decide (y ≠ d)) } } d e) d f := by
  have h1 : t.opState ≠ .unset := by rcases ho with h | h <;> simp [h]
  have h2 : t.opState ≠ .closed := by rcases ho with h | h <;> simp [h]
  simp only [State.doDropSlip, State.setEng_opState, if_neg h1, if_neg h2, State.eng_setEng, hc, State.respond_setEng hr,
    ← State.replied_setEng]
  have hfilter (w : List Desk) : w.filter (· != d) = w.filter (fun y => decide (y ≠ d)) :=
    congrArg (w.filter ·) (funext fun y => by by_cases hy : y = d <;> simp [hy])
  simp only [hfilter]
  cases d <;> rfl

/-- What a DropSlip comes to when it reaches a context. -/
theorem State.doDropSlip_meets (hr : (t.port (.desk d)).inProgress = some r) :
    t.dropSlipMeets d e r ((t.setEng d e).doDropSlip d) := by
  refine ⟨fun ho => ?_, fun ho => ?_, fun ho hc => ?_, fun x f ho hc => ?_⟩
  · rw [State.doDropSlip, State.setEng_opState, if_pos ho, State.respond_setEng hr]
  · rw [State.doDropSlip, State.setEng_opState, if_neg (by simp [ho]), if_pos ho, State.respond_setEng hr]
  · rw [State.doDropSlip, State.setEng_opState, if_neg ho, State.respond_setEng hr]
    refine ite_eq_left_iff.mpr fun _ => ?_
    rw [State.eng_setEng]
    split
    next x f hctx => exact absurd hctx (hc x f)
    next => rfl
  · intro t0
    have hop : t0.opState = t.opState := State.setPort_opState ..
    rw [State.doDropSlip_slip hr ho hc]
    refine ⟨?_, ?_, ?_, ?_, ?_⟩
    · rintro rfl; exact State.follow_idle ..
    · rintro ss rfl; exact State.follow_resume ..
    · rintro sc rfl h; exact State.follow_serve_opened _ _ _ _ (hop.trans h)
    · rintro sc rfl h; exact State.follow_serve_notOpen _ _ _ _ (by rw [hop, h]; nofun)
    · rintro ss rfl; exact State.follow_closeResumed ..

end Meets

/-- A request of the terminal waits while an entry is in service (R16). -/
theorem State.reachContext_service {s : State} {d : Desk} (ev : CtxEvent) (h : (s.eng d).service ≠ none) :
    s.reachContext d ev = s.setEng d { s.eng d with deferred := (s.eng d).deferred ++ [ev] } := by
  rw [State.reachContext, State.settle_service]
  rwa [State.eng_setEng]

/-- One event that waits for a context with nothing in service is acted on. -/
theorem State.settle_one {s : State} {d : Desk} {ev : CtxEvent} (h : (s.eng d).service = none)
    (hd : (s.eng d).deferred = [ev]) : s.settle d = (s.setEng d { s.eng d with deferred := [] }).actOn d ev := by
  simp [State.settle, hd, State.runDeferred, h]

/-- A request of the terminal that nothing holds up is acted on. -/
theorem State.reachContext_free {s : State} {d : Desk} (ev : CtxEvent) (h : (s.eng d).service = none)
    (hd : (s.eng d).deferred = []) : s.reachContext d ev = s.actOn d ev := by
  rw [State.reachContext, hd, List.nil_append, State.settle_one (by simpa using h) (by rw [State.eng_setEng])]
  have same : { s.eng d with deferred := [] } = s.eng d := by rw [← hd]
  rw [State.eng_setEng, State.setEng_setEng]
  simp only [same, State.setEng_eng]

/-! ### The requests themselves -/

section Requests
variable {s : State} {d : Desk} {tag : Byte}

theorem exec_override (h : s.free (.desk d)) :
    exec (.override (.desk d) tag []) s = .next ((s.taken (.desk d) .override tag).reachContext d .override) :=
  congrArg _ (State.deskRequest_free (k := .override) (body := []) _ h rfl rfl nofun nofun)

theorem exec_decline (h : s.free (.desk d)) :
    exec (.decline (.desk d) tag []) s = .next ((s.taken (.desk d) .decline tag).reachContext d .decline) :=
  congrArg _ (State.deskRequest_free (k := .decline) (body := []) _ h rfl rfl nofun nofun)

theorem exec_dropSlip (h : s.free (.desk d)) :
    exec (.dropSlip (.desk d) tag []) s = .next ((s.taken (.desk d) .dropSlip tag).reachContext d .dropSlip) :=
  congrArg _ (State.deskRequest_free (k := .dropSlip) (body := []) _ h rfl rfl nofun nofun)

/-- A request that waits while an entry is in service. -/
theorem State.reachContext_taken_service {k : ReqKind} (ev : CtxEvent) (h : (s.eng d).service ≠ none) :
    (s.taken (.desk d) k tag).reachContext d ev =
      (s.taken (.desk d) k tag).setEng d { s.eng d with deferred := (s.eng d).deferred ++ [ev] } := by
  rw [State.reachContext_service ev (by rwa [State.eng_taken]), State.eng_taken]

/-- A request that nothing holds up reaches the context of the state it was taken in. -/
theorem State.reachContext_taken_free {k : ReqKind} (ev : CtxEvent) (h : (s.eng d).service = none)
    (hd : (s.eng d).deferred = []) :
    (s.taken (.desk d) k tag).reachContext d ev =
      ((s.taken (.desk d) k tag).setEng d (s.eng d)).actOn d ev := by
  rw [State.reachContext_free ev (by rwa [State.eng_taken]) (by rwa [State.eng_taken]), ← State.eng_taken s (.desk d) k tag,
    State.setEng_eng]

/-- The answer to a request just taken, whatever it makes of the engine's record. -/
theorem State.replied_setEng_taken {k : ReqKind} (e : Engine) (code : RespCode) (ans : Answer) :
    ((s.taken (.desk d) k tag).setEng d e).replied (.desk d) { kind := some k, tag := tag } code ans
      = (s.answered (.desk d) k tag code ans).setEng d e := by
  rw [← State.replied_setEng, State.replied_taken]

theorem State.setEng_answered {k : ReqKind} (code : RespCode) (ans : Answer) :
    (s.answered (.desk d) k tag code ans).setEng d (s.eng d) = s.answered (.desk d) k tag code ans := by
  have h : (s.answered (.desk d) k tag code ans).eng d = s.eng d := State.eng_setPort ..
  rw [← h, State.setEng_eng]

end Requests

/-- Settles O16: the request just taken meets the context as `State.doOverride_meets` says. -/
theorem overrideRequestReachesTheHeldScan : Obligations.OverrideRequestReachesTheHeldScan := by
  intro d tag s h e c
  refine ⟨fun hs => ?_, fun hs hd => ?_⟩
  · exact (exec_override h).trans (congrArg _ (State.reachContext_taken_service .override hs))
  · have hexec : exec c s = .next (((s.taken (.desk d) .override tag).setEng d e).doOverride d) :=
      (exec_override h).trans (congrArg _ (State.reachContext_taken_free .override hs hd))
    have meets := State.doOverride_meets (e := e) (State.progress_taken s (.desk d) .override tag)
    generalize ((s.taken (.desk d) .override tag).setEng d e).doOverride d = u at hexec meets
    simp only [State.overrideMeets, State.taken_opState, State.replied_setEng_taken, State.taken_clock] at meets
    obtain ⟨hlate, hunset, hclosed, hother, hheld⟩ := meets
    have open_ne (ho : s.opState = .opened ∨ s.opState = .returnsOnly) : s.opState ≠ .unset := by
      rcases ho with ho | ho <;> simp [ho]
    rw [hexec]
    refine ⟨fun hl => by rw [hlate hl], fun hl ho => ?_, fun hl ho => ?_, fun hl ho hc => ?_, fun held hl ho hc => ?_⟩
    · rw [hunset hl ho, State.setEng_answered]
    · rw [hclosed hl ho, State.setEng_answered]
    · rw [hother hl (open_ne ho) hc, State.setEng_answered]
    · obtain ⟨hblocked, hloan⟩ := hheld held hl ho hc
      refine ⟨fun rs hs => by rw [hblocked rs hs], fun ss hss => ?_⟩
      obtain ⟨honLoan, hhold⟩ := hloan ss hss
      exact ⟨fun other hs => by rw [honLoan other hs], fun holder hs => by rw [hhold holder hs]⟩

/-! ### Timers of a context with nothing in service -/

section Timers
variable {s : State} {d : Desk}

/-- Nothing waits for the context of a free engine. -/
theorem State.engineFree.settle (h : s.engineFree d) : s.settle d = s := State.settle_nil h.2.2

theorem exec_overrideTimerExpiry (h : s.engineFree d) :
    exec (.overrideTimerExpiry d) s = .next (s.overrideExpiry d) := by
  refine congrArg Host.Outcome.next ((if_pos h.1).trans ?_)
  rw [h.settle]

theorem State.overrideExpiry_due {held : HeldScan} {ms : Nat} (hc : (s.eng d).ctx = .awaitOverride held)
    (hm : (s.eng d).overrideMs = some ms) (hms : 60000 ≤ ms) : s.overrideExpiry d = s.declineHeld d held true := by
  simp [State.overrideExpiry, hc, hm, hms]

theorem State.overrideExpiry_early
    (h : (∀ held, (s.eng d).ctx ≠ .awaitOverride held) ∨ (∀ ms, (s.eng d).overrideMs = some ms → ms < 60000)) :
    s.overrideExpiry d = s := by
  unfold State.overrideExpiry
  split
  next held ms hc hm => exact if_neg (h.elim (fun h => absurd hc (h held)) (fun h => Nat.not_le.mpr (h ms hm)))
  next => rfl

theorem exec_idleTimerExpiry (h : s.engineFree d) : exec (.idleTimerExpiry d) s = .next (s.idleExpiry d) := by
  refine congrArg Host.Outcome.next ((if_pos h.1).trans ?_)
  rw [h.settle]

theorem State.idleExpiry_due {ss : Session} {ms : Nat} (hc : (s.eng d).ctx = .session ss)
    (hm : (s.eng d).idleMs = some ms) (hms : 180000 ≤ ms) : s.idleExpiry d = s.sessionClosed d ss (s.eng d) := by
  rw [← State.closeSession_idle, State.setEng_eng]
  simp [State.idleExpiry, hc, hm, hms]

theorem State.idleExpiry_early (h : ∀ ms, (s.eng d).idleMs = some ms → ms < 180000) : s.idleExpiry d = s := by
  unfold State.idleExpiry
  split
  next ss ms hc hm => exact if_neg (Nat.not_le.mpr (h ms hm))
  next => rfl

end Timers

/-- Settles O17: a Decline meets the context as `State.doDecline_meets` says, and the timer declines in its place. -/
theorem heldScansAreDeclined : Obligations.HeldScansAreDeclined := by
  refine ⟨fun _ => rfl, fun _ => rfl, fun _ => rfl, fun d tag s => ?_⟩
  intro e
  refine ⟨fun h hs => ?_, fun h hs hd => ?_, fun h held ms hc hm hms => ?_, fun h hearly => ?_⟩
  · exact (exec_decline h).trans (congrArg _ (State.reachContext_taken_service .decline hs))
  · have hexec : exec (.decline (.desk d) tag []) s
        = .next (((s.taken (.desk d) .decline tag).setEng d e).doDecline d) :=
      (exec_decline h).trans (congrArg _ (State.reachContext_taken_free .decline hs hd))
    have meets := State.doDecline_meets (e := e) (State.progress_taken s (.desk d) .decline tag)
    generalize ((s.taken (.desk d) .decline tag).setEng d e).doDecline d = u at hexec meets
    simp only [State.declineMeets, State.taken_opState, State.replied_setEng_taken] at meets
    obtain ⟨hlate, hunset, hclosed, hother, hheld⟩ := meets
    rw [hexec]
    refine ⟨fun hl => by rw [hlate hl], fun hl ho => by rw [hunset hl ho, State.setEng_answered], fun hl ho => ?_,
      fun held hl ho hc => ?_⟩
    · rcases ho with ho | ⟨ho, hc⟩
      · rw [hclosed hl ho, State.setEng_answered]
      · rw [hother hl ho hc, State.setEng_answered]
    · obtain ⟨hnone, hsome⟩ := hheld held hl ho hc
      exact ⟨fun hn => by rw [hnone hn], fun ss hss => by rw [hsome ss hss]⟩
  · have hexp : exec (.overrideTimerExpiry d) s = .next ((s.setEng d e).declineHeld d held true) := by
      rw [exec_overrideTimerExpiry h, State.overrideExpiry_due hc hm hms, State.setEng_eng]
    exact ⟨fun hn => hexp.trans (congrArg _ (State.declineHeld_none s d e true hn)),
      fun ss hss => hexp.trans (congrArg _ (State.declineHeld_some s d e true hss))⟩
  · rw [exec_overrideTimerExpiry h, State.overrideExpiry_early hearly]

/-- Settles O18: the request just taken meets the context as `State.doDropSlip_meets` says. -/
theorem dropSlipDiscardsTheWaitingSlip : Obligations.DropSlipDiscardsTheWaitingSlip := by
  intro d tag s h e c
  refine ⟨fun hs => ?_, fun hs hd => ?_⟩
  · exact (exec_dropSlip h).trans (congrArg _ (State.reachContext_taken_service .dropSlip hs))
  · have hexec : exec c s = .next (((s.taken (.desk d) .dropSlip tag).setEng d e).doDropSlip d) :=
      (exec_dropSlip h).trans (congrArg _ (State.reachContext_taken_free .dropSlip hs hd))
    have meets := State.doDropSlip_meets (e := e) (State.progress_taken s (.desk d) .dropSlip tag)
    generalize ((s.taken (.desk d) .dropSlip tag).setEng d e).doDropSlip d = u at hexec meets
    simp only [State.dropSlipMeets, State.taken_opState, State.replied_setEng_taken, State.replied_taken,
      State.taken_printer] at meets
    obtain ⟨hunset, hclosed, hother, hslip⟩ := meets
    rw [hexec]
    refine ⟨fun ho => by rw [hunset ho, State.setEng_answered], fun ho => by rw [hclosed ho, State.setEng_answered],
      fun ho hc => ?_, fun x f ho hc => ?_⟩
    · have hne : s.opState ≠ .unset := by rcases ho with ho | ho <;> simp [ho]
      rw [hother hne hc, State.setEng_answered]
    · obtain ⟨hidle, hresume, hserve, hshut, hclose⟩ := hslip x f ho hc
      exact ⟨fun hf => by rw [hidle hf], fun ss hf => by rw [hresume ss hf], fun sc hf h1 => by rw [hserve sc hf h1],
        fun sc hf h1 => by rw [hshut sc hf h1], fun ss hf => by rw [hclose ss hf]⟩

/-- Settles O22: the timer at 180 s closes the session, whose three cases are those of a session close. -/
theorem idleTimerClosesTheSession : Obligations.IdleTimerClosesTheSession := by
  refine fun d s h => ⟨fun ss ms hc hm hms => ?_, fun hearly => ?_⟩
  · rw [exec_idleTimerExpiry h, State.idleExpiry_due hc hm hms, State.sessionClosed]
    refine ⟨fun hi => by rw [if_pos hi], fun hi hq => by rw [if_neg hi, if_pos hq], fun hi hq => ?_⟩
    rw [if_neg hi, if_neg (Nat.not_lt.mpr hq)]
  · rw [exec_idleTimerExpiry h, State.idleExpiry_early hearly]

end Sys2Proof.Machine
end

section
/-! PROOFS. Entries taken from a scan queue: markers (R18, R19), scans out of hours and in hours (R17, R20 to R23). -/

namespace Sys2Proof.Machine

/-- The end of a service that nothing waited for. -/
theorem State.endService_setEng (s : State) (d : Desk) {e : Engine} (h : e.deferred = []) :
    (s.setEng d e).endService d = s.setEng d e.restIdle := by
  rw [State.endService_nil (by rwa [State.eng_setEng]), State.eng_setEng, State.setEng_setEng]

theorem Engine.restIdle_session {e : Engine} {ss : Session} (h : e.ctx = .session ss) :
    e.restIdle = { e with service := none, idleMs := some 0 } := by rw [Engine.restIdle, h]

theorem Engine.restIdle_other {e : Engine} (h : ∀ ss, e.ctx ≠ .session ss) : e.restIdle = { e with service := none } := by
  unfold Engine.restIdle
  split
  next ss hc => exact absurd hc (h ss)
  next => rfl

/-- The engine's record once it has taken the entry at the front of its queue. -/
def Engine.took (e : Engine) (rest : List Entry) : Engine := { e with queue := rest, idleMs := none, late := false }

section Take
variable {s : State} {d : Desk}

/-- What an engine makes of an entry it has taken. -/
def State.serveEntry (s : State) (d : Desk) : Entry → State
  | .scan sc => s.serveScan d sc
  | .modeMarker m b => s.serveMode d m b
  | .closeMarker => s.serveClose d

theorem Engine.mayTake_iff (e : Engine) :
    e.mayTake = true ↔ (e.ctx = .idle ∨ ∃ ss, e.ctx = .session ss) ∧ e.results.length < 16 ∧ e.service = none := by
  unfold Engine.mayTake
  cases hc : e.ctx <;> simp [Option.isNone_iff_eq_none]

/-- An engine that may take an entry takes the one at the front of its queue. -/
theorem exec_takeEntry {en : Entry} {rest : List Entry} (h : s.engineFree d) (hr : (s.eng d).results.length < 16)
    (hq : (s.eng d).queue = en :: rest) (hc : (s.eng d).ctx = .idle ∨ ∃ ss, (s.eng d).ctx = .session ss) :
    exec (.takeEntry d) s = .next ((s.setEng d ((s.eng d).took rest)).serveEntry d en) := by
  have hmay : (s.eng d).mayTake = true := (Engine.mayTake_iff _).mpr ⟨hc, hr, h.2.1⟩
  refine congrArg Host.Outcome.next ((if_pos h.1).trans ?_)
  rw [h.settle, State.takeFront, hmay, hq]
  cases en <;> rfl

/-- An engine that may take none leaves the part as it is. -/
theorem exec_takeEntry_none (hp : s.power = .running) (hd : (s.eng d).deferred = [] ∨ (s.eng d).service ≠ none)
    (h : (s.eng d).mayTake = false ∨ (s.eng d).queue = []) : exec (.takeEntry d) s = .next s := by
  have hsettle : s.settle d = s := hd.elim State.settle_nil State.settle_service
  refine congrArg Host.Outcome.next ((if_pos hp).trans ?_)
  rw [hsettle, State.takeFront]
  split
  next hm hq => rcases h with h | h <;> simp [h] at hm hq
  next => rfl

end Take

/-! ### Markers -/

section Markers
variable (s : State) (d : Desk) (e : Engine)

theorem State.serveMode_idle (m : Mode) (b : Option Nat) (h : e.ctx = .idle) :
    (s.setEng d e).serveMode d m b =
      s.setEng d { e with mode := m, backdate := if m = .returns then b else none } := by
  simp [State.serveMode, h]

theorem State.serveMode_checkout {ss : Session} (b : Option Nat) (h : e.ctx = .session ss) (hd : e.deferred = [])
    (hs : e.service = none) :
    (s.setEng d e).serveMode d .checkout b = s.setEng d { e with mode := .checkout, backdate := none, idleMs := some 0 } := by
  simp only [State.serveMode, State.eng_setEng, h, if_true, State.setEng_setEng]
  rw [State.endService_setEng, Engine.restIdle_session (ss := ss) rfl, hs]
  · rfl
  · exact hd

theorem State.serveMode_other {m : Mode} {ss : Session} (b : Option Nat) (h : e.ctx = .session ss) (hm : m ≠ .checkout) :
    (s.setEng d e).serveMode d m b =
      s.sessionClosed d ss { e with mode := m, backdate := if m = .returns then b else none } := by
  simp only [State.serveMode, State.eng_setEng, h, if_neg hm, State.setEng_setEng]
  exact State.closeSession_idle ..

/-- A result placed behind a session close is the result the close leaves. -/
theorem State.putResult_sessionClosed (ss : Session) (label : List Nat) (f : Fields) :
    (s.sessionClosed d ss e).putResult d label f =
      s.sessionClosed d ss { e with results := e.results ++ [{ label := label, fields := f }] } := by
  unfold State.sessionClosed
  split
  · simp [State.putResult]
  · split <;> cases d <;> rfl

theorem State.serveClose_session {ss : Session} (h : e.ctx = .session ss) :
    (s.setEng d e).serveClose d =
      s.sessionClosed d ss
        { e with results := e.results ++ [{ label := ss.label, fields := { verdict := .sessionClosed } }] } := by
  simp only [State.serveClose, State.eng_setEng, h, State.closeSession_idle, State.putResult_sessionClosed]

theorem State.serveClose_idle (h : e.ctx = .idle) : (s.setEng d e).serveClose d = s.setEng d e := by
  simp [State.serveClose, h]

end Markers

/-- Settles O19: what each marker does to the record of the engine that took it. -/
theorem markersActWhenTaken : Obligations.MarkersActWhenTaken := by
  refine ⟨fun d s en rest h hr hq => ?_, fun d s hp hd hno => exec_takeEntry_none hp hd ?_⟩
  · intro e
    have taken := exec_takeEntry h hr hq
    have hservice : e.service = none := h.2.1
    refine ⟨fun m b hen => ?_, fun hen => ?_⟩ <;> subst hen
    · refine ⟨fun hc => (taken (.inl hc)).trans (congrArg _ (State.serveMode_idle s d e m b hc)), fun ss hc => ⟨?_, fun hm => ?_⟩⟩
      · rintro rfl
        exact (taken (.inr ⟨ss, hc⟩)).trans (congrArg _ (State.serveMode_checkout s d e b hc h.2.2 hservice))
      · exact (taken (.inr ⟨ss, hc⟩)).trans (congrArg _ (State.serveMode_other s d e b hc hm))
    · exact ⟨fun hc => (taken (.inl hc)).trans (congrArg _ (State.serveClose_idle s d e hc)),
        fun ss hc => (taken (.inr ⟨ss, hc⟩)).trans (congrArg _ (State.serveClose_session s d e hc))⟩
  · by_cases hq : (s.eng d).queue = []
    · exact .inr hq
    · left
      rw [← Bool.not_eq_true, Engine.mayTake_iff]
      rintro ⟨hc, hr, hs⟩
      rcases hno with ⟨h, hh⟩ | ⟨x, f, hx⟩ | h | h | h
      · simp [hh] at hc
      · simp [hx] at hc
      · omega
      · exact h hs
      · exact hq h

/-! ### Scans -/

section Scans
variable (s : State) (d : Desk) (e : Engine) (sc : Scan)

theorem modeServed_of {o : OpState} {m : Mode}
    (h : o = .opened ∨ o = .returnsOnly ∧ (m = .returns ∨ m = .inquiry)) : modeServed o m = true := by
  rcases h with rfl | ⟨rfl, rfl | rfl⟩ <;> rfl

theorem modeServed_not {o : OpState} {m : Mode}
    (h : o = .closed ∨ o = .unset ∨ o = .returnsOnly ∧ (m = .checkout ∨ m = .renew)) : modeServed o m = false := by
  rcases h with rfl | rfl | ⟨rfl, rfl | rfl⟩ <;> rfl

/-- A scan that ends with its result, the store not reached. -/
theorem State.putResult_endService (f : Fields) (hd : e.deferred = []) :
    ((s.setEng d e).putResult d sc.label.digits f).endService d =
      s.setEng d
        (Engine.restIdle { e with results := e.results ++ [{ label := sc.label.digits, fields := f }] }) := by
  rw [State.putResult, State.eng_setEng, State.setEng_setEng]
  exact State.endService_setEng s d hd

theorem State.serveScan_notOpen (hd : e.deferred = []) (h : modeServed s.opState e.mode = false) :
    (s.setEng d e).serveScan d sc =
      s.setEng d
        (Engine.restIdle
          { e with results := e.results ++ [{ label := sc.label.digits, fields := { verdict := .notOpen } }] }) := by
  rw [State.serveScan, State.eng_setEng, State.setEng_opState, if_pos h, State.putResult_endService s d e sc _ hd]

theorem State.serve_setEng (t : Txn) :
    (s.setEng d e).serve d sc t = (s.setEng d { e with service := some (.entry sc) }).sendTxn (.engine d) t := by
  simp [State.serve]

theorem State.sendCheck_setEng :
    (s.setEng d e).sendCheck d sc =
      (s.setEng d { e with ctx := .idle, idleMs := none, service := some (.entry sc) }).sendTxn (.engine d)
        (.borrowerCheck sc.label.ident) := by
  simp [State.sendCheck, State.serve, State.toIdle]

/-- Outside Checkout a scan is served by its mode and kind of label alone (R20). -/
def Mode.txnOf (m : Mode) (k : LabelKind) (sc : Scan) (backdate : Option Nat) : Txn :=
  match m, k with
  | .returns, .item => .discharge sc.label.ident sc.arrival backdate
  | .renew, .item => .renew sc.label.ident sc.arrival
  | .inquiry, .item => .itemInquiry sc.label.ident
  | _, _ => .borrowerInquiry sc.label.ident

theorem State.serveScan_other (h : modeServed s.opState e.mode = true) (hm : e.mode ≠ .checkout) :
    (s.setEng d e).serveScan d sc =
      (s.setEng d { e with service := some (.entry sc) }).sendTxn (.engine d)
        (e.mode.txnOf sc.label.kind sc e.backdate) := by
  rw [← State.serve_setEng, State.serveScan, State.eng_setEng, State.setEng_opState, if_neg (by simp [h])]
  cases hmode : e.mode <;> cases hk : sc.label.kind
  case checkout.borrower | checkout.item => exact absurd hmode hm
  all_goals rfl

/-- In Checkout, outside a session: a borrower is checked, an item has no borrower (R22, R23). -/
theorem State.serveScan_idle (ho : s.opState = .opened) (hm : e.mode = .checkout) (hc : e.ctx = .idle)
    (hd : e.deferred = []) :
    (sc.label.kind = .borrower → (s.setEng d e).serveScan d sc = (s.setEng d e).sendCheck d sc)
      ∧ (sc.label.kind = .item →
          (s.setEng d e).serveScan d sc = s.setEng d (e.ended sc.label.digits { verdict := .noBorrower })) := by
  refine ⟨fun hk => ?_, fun hk => ?_⟩
  · simp only [State.serveScan, State.eng_setEng, State.setEng_opState, ho, modeServed, hm, hk, hc]
    rfl
  · simp only [State.serveScan, State.eng_setEng, State.setEng_opState, ho, modeServed, hm, hk, hc]
    rw [if_neg nofun, State.putResult_endService _ _ _ _ _ hd, Engine.restIdle_other (by simp [hc])]
    rfl

/-- In Checkout, in a session (R22, R23). -/
theorem State.serveScan_session {ss : Session} (ho : s.opState = .opened) (hm : e.mode = .checkout)
    (hc : e.ctx = .session ss) (hd : e.deferred = []) :
    (sc.label.kind = .item →
        (s.setEng d e).serveScan d sc = (s.setEng d e).serve d sc (.issue (loanReq sc ss sc.arrival)))
      ∧ (sc.label.kind = .borrower → ss.borrower = sc.label.ident →
          (s.setEng d e).serveScan d sc
            = s.setEng d ((e.ended sc.label.digits { verdict := .borrowerSet }).inSession ss))
      ∧ (sc.label.kind = .borrower → ss.borrower ≠ sc.label.ident →
          (s.setEng d e).serveScan d sc = (s.setEng d e).closeSession d ss (.serveBorrower sc)) := by
  refine ⟨fun hk => ?_, fun hk hb => ?_, fun hk hb => ?_⟩
  · simp only [State.serveScan, State.eng_setEng, State.setEng_opState, ho, modeServed, hm, hk, hc]
    rfl
  · simp only [State.serveScan, State.eng_setEng, State.setEng_opState, ho, modeServed, hm, hk, hc]
    rw [if_neg nofun, if_pos hb, State.putResult_endService _ _ _ _ _ hd, Engine.restIdle_session (ss := ss)]
    · simp only [Engine.inSession, Engine.ended, hc]
    · exact hc
  · simp only [State.serveScan, State.eng_setEng, State.setEng_opState, ho, modeServed, hm, hk, hc]
    rw [if_neg nofun, if_neg hb]

/-- A session that ends for a different borrower's scan (R21, R22). -/
theorem State.closeSession_serve (ss : Session) (ho : s.opState = .opened) :
    (s.setEng d e).closeSession d ss (.serveBorrower sc) =
      if ss.issued = [] then (s.setEng d e).sendCheck d sc
      else if s.printer.queue.length < 8 then
        State.sendTxn
          { s.setEng d { e with ctx := .idle, idleMs := none, service := some (.entry sc) } with
            printer := s.printer.join (s.slipOf d ss) } (.engine d) (.borrowerCheck sc.label.ident)
      else
        { s.setEng d { e with ctx := .slipWait (s.slipOf d ss) (.serveBorrower sc), idleMs := none } with
          printer := { s.printer with waitList := s.printer.waitList ++ [d] } } := by
  simp only [State.closeSession, State.offerSlip, Printer.hasRoom, decide_eq_true_eq, State.toIdle,
    State.eng_setEng, State.setEng_setEng, State.setEng_printer, State.dueSlip_eq, State.slipOf_setEng]
  refine if_congr Iff.rfl ?_ (if_congr Iff.rfl ?_ ?_)
  · rw [State.follow_serve_opened _ _ _ _ ho, State.sendCheck_setEng]
  · have hserve := State.follow_serve_opened { s with printer := s.printer.join (s.slipOf d ss) } d
      { e with ctx := .idle, idleMs := none } sc ho
    cases d <;> exact hserve
  · cases d <;> rfl

end Scans

/-- Settles O20: the mode is not served, so the scan's service ends with its result. -/
theorem scansOutOfHoursGetNotOpen : Obligations.ScansOutOfHoursGetNotOpen := by
  intro d s sc rest h hr hq hshut e
  have served := s.serveScan_notOpen d ((s.eng d).took rest) sc h.2.2 (modeServed_not hshut)
  have hservice : (s.eng d).service = none := h.2.1
  refine ⟨fun hc => ?_, fun ss hc => ?_⟩
  · rw [exec_takeEntry h hr hq (.inl hc), State.serveEntry, served, Engine.restIdle_other (by simp [Engine.took, hc]),
      Engine.took]
    simp only [e, hservice]
  · rw [exec_takeEntry h hr hq (.inr ⟨ss, hc⟩), State.serveEntry, served, Engine.restIdle_session (ss := ss), Engine.took]
    · simp only [e, hservice]
    · exact hc

/-- Settles O21: the scan is served as its mode, its kind of label and the context say. -/
theorem scansAreServedByModeAndLabel : Obligations.ScansAreServedByModeAndLabel := by
  intro d s sc rest h hr hq e id sends
  have taken (hc : e.ctx = .idle ∨ ∃ ss, e.ctx = .session ss) :
      exec (.takeEntry d) s = .next ((s.setEng d e).serveScan d sc) := exec_takeEntry h hr hq hc
  have hd : e.deferred = [] := h.2.2
  have other (hc : e.ctx = .idle ∨ ∃ ss, e.ctx = .session ss) (hs : modeServed s.opState e.mode = true)
      (hm : e.mode ≠ .checkout) : sends e.ctx (e.mode.txnOf sc.label.kind sc e.backdate) :=
    (taken hc).trans (congrArg _ (s.serveScan_other d e sc hs hm))
  refine ⟨fun ho hc => ⟨fun hm hk => ?_, fun hm hk => ?_, fun hm hk => ?_⟩, fun ho hc => ⟨fun hm hk => ?_, fun hm hk => ?_⟩,
    fun ho hm hc => ?_, fun ho hm ss hc => ?_⟩
  · have := other hc (modeServed_of (ho.imp_right fun h => ⟨h, .inl hm⟩)) (by simp [hm])
    rwa [hm, hk] at this
  · have := other hc (modeServed_of (ho.imp_right fun h => ⟨h, .inr hm⟩)) (by simp [hm])
    rwa [hm, hk] at this
  · have := other hc (modeServed_of (ho.imp_right fun h => ⟨h, hm⟩)) (by rcases hm with hm | hm <;> simp [hm])
    rcases hm with hm | hm <;> rwa [hm, hk] at this
  · have := other hc (modeServed_of (.inl ho)) (by simp [hm])
    rwa [hm, hk] at this
  · have := other hc (modeServed_of (.inl ho)) (by simp [hm])
    rwa [hm, hk] at this
  · obtain ⟨hborrower, hitem⟩ := s.serveScan_idle d e sc ho hm hc hd
    exact ⟨fun hk => (taken (.inl hc)).trans (congrArg _ ((hborrower hk).trans (s.sendCheck_setEng d e sc))),
      fun hk => (taken (.inl hc)).trans (congrArg _ (hitem hk))⟩
  · obtain ⟨hitem, hsame, hdiffers⟩ := s.serveScan_session d e sc ho hm hc hd
    have closed (hk : sc.label.kind = .borrower) (hb : id ≠ ss.borrower) :=
      (taken (.inr ⟨ss, hc⟩)).trans (congrArg Host.Outcome.next
        ((hdiffers hk (Ne.symm hb)).trans (s.closeSession_serve d e sc ss ho)))
    refine ⟨fun hk => (taken (.inr ⟨ss, hc⟩)).trans (congrArg _ ((hitem hk).trans (s.serve_setEng d e sc _))),
      fun hk hb => (taken (.inr ⟨ss, hc⟩)).trans (congrArg _ (hsame hk hb.symm)), fun hk hb hi => ?_, fun hk hb hi hq => ?_,
      fun hk hb hi hq => ?_⟩
    · exact (closed hk hb).trans (congrArg _ ((if_pos hi).trans (s.sendCheck_setEng d e sc)))
    · exact (closed hk hb).trans (congrArg _ ((if_neg hi).trans (if_pos hq)))
    · exact (closed hk hb).trans (congrArg _ ((if_neg hi).trans (if_neg (Nat.not_lt.mpr hq))))

end Sys2Proof.Machine
end

section
/-! PROOFS. What the store makes of a transaction that has a plan (R41, R42): finished at once without records, else with its
records accepted, refused, or waiting with the store. -/

namespace Sys2Proof.Machine

section Planned
variable {s : State} {c : Claimant} {t : Txn} {p : Plan}

/-- The plan of a transaction is made of the tables the store finds, whoever sent it. -/
theorem State.planOf_takenFrom (s : State) (c : Claimant) (t : Txn) :
    (s.takenFrom c t).planOf (s.heldNow c t) = s.planOf (s.heldNow c t) := by
  rcases c with (_ | _) | (_ | _) | _ | _ <;> cases t <;> rfl

/-- Only a transaction of a desk or of a port's inquiry has a plan. -/
theorem State.takenFrom_planned (hp : s.planOf (s.heldNow c t) = some p) : s.takenFrom c t = s.tookFrom c := by
  refine State.takenFrom_eq ?_ ?_ <;> rintro rfl <;> nomatch hp

/-- The store is free once more when a transaction it took at once is finished. -/
theorem State.tookFrom_released (h : s.turnOf c = some t) : (s.tookFrom c).released = s.tookFrom c := by
  have hh : s.store.holding = none := (State.turnOf_holding h).1
  rcases c with (_ | _) | (_ | _) | _ | _ <;>
    simp only [State.released, State.tookFrom, State.clearTxn] <;> rw [← hh]

theorem State.finishTxn_planned {h : Held} (hp : s.planOf h = some p) (accepted : Bool) :
    s.finishTxn h accepted =
      if accepted then State.deliver { s.released with circ := p.circ } h p.reply else s.released.deliver h p.refused := by
  have hp' : s.released.planOf h = some p := by rw [← hp]; cases h with | mk c t n b => cases t <;> rfl
  rw [State.finishTxn, hp]
  rfl

/-- The journal is no part of a plan that has records: Identify's report alone reads it. -/
theorem State.planOf_released {h : Held} (hp : s.planOf h = some p) (hr : p.recs ≠ []) (j : Journal) :
    (State.released { s with journal := j }).planOf h = some p := by
  obtain ⟨claimant, txn, now, silent⟩ := h
  cases txn
  case identify => cases hp; exact absurd rfl hr
  all_goals exact hp

theorem State.planOf_tookFrom (hp : s.planOf (s.heldNow c t) = some p) :
    (s.tookFrom c).planOf (s.heldNow c t) = some p := by
  rw [← State.takenFrom_planned hp, State.planOf_takenFrom, hp]

theorem State.txnRecords_planned (hp : s.planOf (s.heldNow c t) = some p) :
    (s.takenFrom c t).txnRecords (s.heldNow c t) = p.recs := by
  simp only [State.txnRecords, State.planOf_takenFrom, hp]

/-- A transaction without records is finished at once. -/
theorem State.storeTake_answered (h : s.turnOf c = some t) (hp : s.planOf (s.heldNow c t) = some p) (hr : p.recs = []) :
    s.storeTake c t = State.deliver { s.tookFrom c with circ := p.circ } (s.heldNow c t) p.reply := by
  rw [State.storeTake_plain ((State.txnRecords_planned hp).trans hr), State.takenFrom_planned hp,
    State.finishTxn_planned (State.planOf_tookFrom hp), State.tookFrom_released h, if_pos rfl]

/-- A transaction whose records are accepted at once. -/
theorem State.storeTake_accepted {j : Journal} (h : s.turnOf c = some t) (hp : s.planOf (s.heldNow c t) = some p)
    (hr : p.recs ≠ []) (hj : s.journal.idle) (ha : s.journal.accept s.now p.recs = .done j) :
    s.storeTake c t = (s.committed c p.circ j).deliver (s.heldNow c t) p.reply := by
  have hrec := State.txnRecords_planned hp
  have released : State.released { s.tookFrom c with journal := j } = { s.tookFrom c with journal := j } :=
    congrArg (fun x : State => { x with journal := j }) (State.tookFrom_released h)
  rw [State.storeTake_done hj (by rwa [hrec]) (by rwa [hrec]), State.takenFrom_planned hp,
    State.finishTxn_planned (State.planOf_released (State.planOf_tookFrom hp) hr j), if_pos rfl, released, released]
  rfl

/-- A transaction the journal has no room for (R42). -/
theorem State.storeTake_full (h : s.turnOf c = some t) (hp : s.planOf (s.heldNow c t) = some p)
    (hr : p.recs ≠ []) (hj : s.journal.idle) (ha : s.journal.accept s.now p.recs = .full) :
    s.storeTake c t = (s.tookFrom c).deliver (s.heldNow c t) p.refused := by
  have hp' : (s.tookFrom c).planOf (s.heldNow c t) = some p := State.planOf_tookFrom hp
  rw [State.storeTake_refused hj (State.planOf_takenFrom s c t ▸ hp) hr ha, State.takenFrom_planned hp,
    State.tookFrom_released h, State.finishTxn_planned hp', State.tookFrom_released h]
  rfl

/-- A transaction the journal makes wait stands with the store (R42, R149). -/
theorem State.storeTake_waits (hp : s.planOf (s.heldNow c t) = some p)
    (hr : p.recs ≠ []) (hj : s.journal.idle) (ha : s.journal.accept s.now p.recs = .wait) :
    s.storeTake c t =
      { (s.tookFrom c).withHeld (s.heldNow c t) with journal := { s.journal with queue := [.store] } } := by
  have hrec := State.txnRecords_planned hp
  rw [State.storeTake_wait hj (by rwa [hrec]) (by rwa [hrec]), State.takenFrom_planned hp]

end Planned

end Sys2Proof.Machine
end

section
/-! PROOFS. What a desk engine makes of the store's outcomes when nothing waits for its context (R20, R22, R23, R27, R28),
and how the store's transaction of an engine ends in that. -/

namespace Sys2Proof.Machine

/-! ### The end of service -/

section Rested
variable (s : State) (d : Desk)

theorem State.endService_rested {s : State} {d : Desk} (h : (s.eng d).deferred = []) : s.endService d = s.rested d :=
  State.endService_nil h

theorem State.rested_setEng (e : Engine) : (s.setEng d e).rested d = s.setEng d e.restIdle := by
  rw [State.rested, State.eng_setEng, State.setEng_setEng]

theorem State.rested_respond (code : RespCode) (ans : Answer) :
    (s.respond (.desk d) code ans).rested d = (s.rested d).respond (.desk d) code ans := by
  have hport : (s.rested d).port (.desk d) = s.port (.desk d) := State.port_setEng ..
  cases hr : (s.port (.desk d)).inProgress with
  | none => rw [State.respond_none hr, State.respond_none (hport ▸ hr)]
  | some r =>
    rw [State.respond_replied hr, State.respond_replied (hport ▸ hr), State.rested, State.rested, ← State.replied_setEng,
      State.replied, State.eng_setPort]

/-- What does not read the events that wait leaves them as they are. -/
theorem State.deferred_of_withDeferred {s : State} {d : Desk} {f : State → State}
    (h : ∀ q, f (s.withDeferred d q) = (f s).withDeferred d q) : ((f s).eng d).deferred = (s.eng d).deferred := by
  have same : s.withDeferred d (s.eng d).deferred = s := s.setEng_eng d
  have fixed := h (s.eng d).deferred
  rw [same] at fixed
  rw [fixed, State.withDeferred, State.eng_setEng]

end Rested

/-! ### Outcomes -/

section Outcomes
variable (s : State) (d : Desk) (e : Engine)

theorem State.toSession_rested (ss : Session) : ((s.setEng d e).toSession d ss).rested d = s.setEng d (e.inSession ss) := by
  rw [State.toSession, State.eng_setEng, State.setEng_setEng, State.rested_setEng, Engine.restIdle_session (ss := ss) rfl]
  rfl

theorem State.toAwait_rested (h : HeldScan) : ((s.setEng d e).toAwait d h).rested d = s.setEng d (e.holding h) := by
  rw [State.toAwait, State.eng_setEng, State.setEng_setEng, State.rested_setEng, Engine.restIdle_other (by simp)]
  rfl

theorem State.toIdle_rested :
    ((s.setEng d e).toIdle d).rested d = s.setEng d { e with service := none, ctx := .idle, idleMs := none } := by
  rw [State.toIdle, State.eng_setEng, State.setEng_setEng, State.rested_setEng, Engine.restIdle_other (by simp)]

theorem State.putResult_setEng (label : List Nat) (f : Fields) :
    (s.setEng d e).putResult d label f =
      s.setEng d { e with results := e.results ++ [{ label := label, fields := f }] } := by
  rw [State.putResult, State.eng_setEng, State.setEng_setEng]

theorem State.addIssued_rested (ss : Session) (x : Issued) :
    ((s.setEng d e).addIssued d ss x).rested d = s.listed d e ss x := by
  unfold State.addIssued State.listed
  split
  · exact State.toSession_rested ..
  · rw [State.offerSlip, State.setEng_printer, State.dueSlip_eq, State.slipOf_setEng]
    simp only [Printer.hasRoom, decide_eq_true_eq]
    split <;> cases d <;> rfl

theorem State.sessionClosed_rested (ss : Session) :
    (s.sessionClosed d ss e).rested d = s.sessionClosed d ss { e with service := none } := by
  unfold State.sessionClosed
  split
  · rw [State.rested_setEng, Engine.restIdle_other (by simp)]
  · split <;> cases d <;> rfl

theorem State.offerSlip_rested (x : Slip) :
    ((s.setEng d e).offerSlip d x .idle).rested d = s.holdSlipOffered d { e with service := none } x := by
  rw [State.offerSlip, State.setEng_printer]
  simp only [Printer.hasRoom, decide_eq_true_eq, State.holdSlipOffered]
  split <;> cases d <;> rfl

@[simp] theorem State.port_listed (ss : Session) (x : Issued) (p : Port) : (s.listed d e ss x).port p = s.port p := by
  unfold State.listed
  split
  · exact State.port_setEng ..
  · split <;> rcases p with (_ | _) | _ <;> cases d <;> rfl

@[simp] theorem State.port_sessionClosed (ss : Session) (p : Port) : (s.sessionClosed d ss e).port p = s.port p := by
  unfold State.sessionClosed
  split
  · exact State.port_setEng ..
  · split <;> rcases p with (_ | _) | _ <;> cases d <;> rfl

section Issue
variable {e : Engine} {sc : Scan} {ss : Session} {f : Fields}

theorem State.issueOutcome_issued {due : Time} (hv : f.verdict = .issued) (hdue : f.due = some due) :
    ((s.setEng d e).issueOutcome d sc ss f).rested d =
      s.listed d (e.ended sc.label.digits f) ss { item := sc.label.ident, due := due } := by
  simp only [State.issueOutcome, hv, hdue, State.putResult_setEng, State.addIssued_rested]
  rfl

theorem State.issueOutcome_central (hv : f.verdict = .centralBlock) :
    ((s.setEng d e).issueOutcome d sc ss f).rested d = s.sessionClosed d ss (e.ended sc.label.digits f) := by
  simp only [State.issueOutcome, hv, State.putResult_setEng, State.closeSession_idle, State.sessionClosed_rested]
  rfl

theorem State.issueOutcome_other (h1 : f.verdict ≠ .issued) (h2 : f.verdict ≠ .centralBlock) :
    ((s.setEng d e).issueOutcome d sc ss f).rested d = s.setEng d ((e.ended sc.label.digits f).inSession ss) := by
  unfold State.issueOutcome
  rw [State.putResult_setEng]
  split
  next hv _ => exact absurd hv h1
  next hv => exact absurd hv h2
  next => exact State.toSession_rested ..

end Issue

end Outcomes

/-! ### The outcome of a transaction that serves an entry -/

section Entry
variable {s : State} {d : Desk} {sc : Scan}

theorem State.engineScan_issue (hs : (s.eng d).service = some (.entry sc)) (hd : (s.eng d).deferred = []) (f : Fields) :
    s.engineScan d true f = (s.issueDone d sc f).rested d := by
  rw [State.engineScan, hs]
  refine State.endService_rested (.trans ?_ hd)
  exact State.deferred_of_withDeferred (f := fun s => s.issueDone d sc f) fun q => State.withDeferred_issueDone ..

theorem State.engineScan_plain (hs : (s.eng d).service = some (.entry sc)) (hd : (s.eng d).deferred = []) (f : Fields) :
    s.engineScan d false f = (s.plainDone d sc f).rested d := by
  rw [State.engineScan, hs]
  refine State.endService_rested (.trans ?_ hd)
  exact State.deferred_of_withDeferred (f := fun s => s.plainDone d sc f) fun q => State.withDeferred_plainDone ..

theorem State.engineCheck_entry (hs : (s.eng d).service = some (.entry sc)) (hd : (s.eng d).deferred = []) (r : CheckReply) :
    s.engineCheck d r = (s.checkDone d sc r).rested d := by
  rw [State.engineCheck, hs]
  refine State.endService_rested (.trans ?_ hd)
  exact State.deferred_of_withDeferred (f := fun s => s.checkDone d sc r) fun q => State.withDeferred_checkDone ..

theorem State.issueDone_stop {ss : Session} {f : Fields} {st : Stop} (hc : (s.eng d).ctx = .session ss)
    (hs : f.stop = some st) : s.issueDone d sc f = s.toAwait d { scan := sc, stop := st, session := some ss } := by
  simp only [State.issueDone, hc, hs]

theorem State.issueDone_outcome {ss : Session} {f : Fields} (hc : (s.eng d).ctx = .session ss) (hs : f.stop = none) :
    s.issueDone d sc f = s.issueOutcome d sc ss f := by
  simp only [State.issueDone, hc, hs]

/-- An outcome without a trapped hold is a result and no more. -/
theorem State.plainDone_result {f : Fields} (h : f.verdict ≠ .returned ∨ f.holder = none) :
    s.plainDone d sc f = s.putResult d sc.label.digits f := by
  unfold State.plainDone
  split
  next hv hh _ => simp [hv, hh] at h
  next => rfl

theorem State.plainDone_trapped {f : Fields} {holder : Ident} {deadline : Nat} (hv : f.verdict = .returned)
    (hh : f.holder = some holder) (hdl : f.deadline = some deadline) :
    s.plainDone d sc f =
      (s.putResult d sc.label.digits f).offerSlip d (.hold d sc.label.ident (holder.serial % 10000) deadline) .idle := by
  rw [State.plainDone, hv, hh, hdl]
  rfl

end Entry

/-! ### The outcome of an override -/

section Override
variable {s : State} {d : Desk} {h : HeldScan} {r : InProgress}

theorem State.engineScan_override (hs : (s.eng d).service = some .overriding) (hc : (s.eng d).ctx = .awaitOverride h)
    (hd : (s.eng d).deferred = []) (i : Bool) (f : Fields) : s.engineScan d i f = (s.overrideDone d h f).rested d := by
  rw [State.engineScan, hs, hc]
  refine State.endService_rested (.trans ?_ hd)
  exact State.deferred_of_withDeferred (f := fun s => s.overrideDone d h f) fun q => State.withDeferred_overrideDone ..

theorem State.engineCheck_override (hs : (s.eng d).service = some .overriding) (hc : (s.eng d).ctx = .awaitOverride h)
    (hd : (s.eng d).deferred = []) (x : CheckReply) : s.engineCheck d x = (s.overrideCheckDone d h x).rested d := by
  rw [State.engineCheck, hs, hc]
  refine State.endService_rested (.trans ?_ hd)
  exact State.deferred_of_withDeferred (f := fun s => s.overrideCheckDone d h x) fun q =>
    State.withDeferred_overrideCheckDone ..

end Override

end Sys2Proof.Machine
end

section
/-! PROOFS. O25: what inserting and removing a loan does to the three collections (R40, R46, R52, R66, R68, R74, R83, R85,
R86). -/

namespace Sys2Proof.Machine

/-! ### Tables -/

section Tables
variable {α : Type}

theorem Table.get_put_same (t : Table α) (k : Nat) (v : α) : Table.get (Table.put t k v) k = some v := by
  induction t with
  | nil => simp [Table.put, Table.get]
  | cons e t ih =>
    obtain ⟨i, w⟩ := e
    unfold Table.put
    split
    · simp [Table.get]
    · split
      · simp [Table.get]
      · next hne => simp [Table.get, Ne.symm hne, ih]

theorem Table.del_put_same (t : Table α) (k : Nat) (v : α) : Table.del (Table.put t k v) k = Table.del t k := by
  induction t with
  | nil => simp [Table.put, Table.del]
  | cons e t ih =>
    obtain ⟨i, w⟩ := e
    unfold Table.put
    split
    · simp [Table.del]
    · split
      · next heq => simp [Table.del, heq]
      · rw [Table.del, Table.del] at ih ⊢
        simp only [List.filter_cons, ih]

/-- The lowest free place at or after `n` is free, and every place from `n` up to it is taken. -/
theorem Table.freeFrom_spec (t : Table α) (n : Nat) (h : Table.risingFrom t n = true) :
    Table.get t (Table.freeFrom t n) = none ∧ n ≤ Table.freeFrom t n
      ∧ ∀ k, n ≤ k → k < Table.freeFrom t n → (Table.get t k).isSome = true := by
  induction t generalizing n with
  | nil => exact ⟨rfl, le_refl n, fun k h1 h2 => absurd h2 (Nat.not_lt.mpr h1)⟩
  | cons e t ih =>
    obtain ⟨i, w⟩ := e
    simp only [Table.risingFrom, Bool.and_eq_true, decide_eq_true_eq] at h
    obtain ⟨hn, hrest⟩ := h
    unfold Table.freeFrom
    split
    next heq =>
      subst heq
      obtain ⟨hfree, hle, htaken⟩ := ih (i + 1) hrest
      refine ⟨?_, by omega, fun k h1 h2 => ?_⟩
      · rw [Table.get, if_neg (by omega)]
        exact hfree
      · rw [Table.get]
        split
        · rfl
        · exact htaken k (by omega) h2
    next hne =>
      refine ⟨?_, le_refl n, fun k h1 h2 => absurd h2 (Nat.not_lt.mpr h1)⟩
      rw [Table.get, if_neg hne]
      exact Table.get_of_lt hrest (by omega)

end Tables

/-! ### The three collections -/

theorem Borrower.isEmpty_iff (b : Borrower) :
    b.isEmpty = true ↔ b.loans = 0 ∧ b.owed = 0 ∧ b.localBlock = none ∧ b.central = none := by
  simp [Borrower.isEmpty, and_assoc]

/-- A record written, and dropped when it is left empty. -/
theorem Circ.dropEmpty_setBorrower (c : Circ) (id : Ident) (b : Borrower) :
    (c.setBorrower id b).dropEmpty id =
      { c with borrowers := if b.isEmpty then Table.del c.borrowers id.key else Table.put c.borrowers id.key b } := by
  have get : (c.setBorrower id b).borrower id = some b := Table.get_put_same ..
  simp only [Circ.dropEmpty, get]
  split
  · exact congrArg (fun t => { c with borrowers := t }) (Table.del_put_same ..)
  · rfl

theorem Circ.discharge_none {c : Circ} {l : Loan} (slot fine : Nat) (h : c.borrower l.borrower = none) :
    c.discharge slot l fine = { c with loans := Table.del c.loans slot } := by
  simp only [Circ.discharge, h]

theorem Circ.discharge_some {c : Circ} {l : Loan} {b : Borrower} (slot fine : Nat) (h : c.borrower l.borrower = some b) :
    c.discharge slot l fine =
      { c with
        loans := Table.del c.loans slot
        borrowers :=
          if (b.discharged l fine).isEmpty then Table.del c.borrowers l.borrower.key
          else Table.put c.borrowers l.borrower.key (b.discharged l fine) } := by
  simp only [Circ.discharge, h]
  exact Circ.dropEmpty_setBorrower ..

theorem Circ.issue_holds_free {c : Circ} {q : LoanReq} (l : Loan) (h : c.holdOf q.item = none) :
    (c.issue q l).holds = c.holds := by simp only [Circ.issue, h]

theorem Circ.issue_holds_own {c : Circ} {q : LoanReq} {p : Nat} {x : Hold} (l : Loan) (h : c.holdOf q.item = some (p, x))
    (hx : x.holder = q.borrower) : (c.issue q l).holds = Table.del c.holds p := by
  simp only [Circ.issue, h, if_pos hx]

theorem Circ.issue_holds_other {c : Circ} {q : LoanReq} {p : Nat} {x : Hold} (l : Loan)
    (h : c.holdOf q.item = some (p, x)) (hx : x.holder ≠ q.borrower) :
    (c.issue q l).holds = Table.put c.holds p x.lentPast := by
  simp only [Circ.issue, h, if_neg hx]

theorem Circ.issue_borrowers {c : Circ} {q : LoanReq} (l : Loan) :
    (c.issue q l).borrowers =
      Table.put c.borrowers q.borrower.key
        { (c.borrower q.borrower).getD (Borrower.fresh q.category) with
          loans := ((c.borrower q.borrower).getD (Borrower.fresh q.category)).loans + 1 } := rfl

/-- Settles O25: the place a search for the lowest free one finds, a Discharge by the record it finds, and an Issue by the
record and the hold it finds. -/
theorem loansMoveTheirBorrowersCounts : Obligations.LoansMoveTheirBorrowersCounts := by
  refine ⟨fun t h => ?_, fun c slot fine l => ?_, fun c q l => ?_⟩
  · obtain ⟨hfree, -, htaken⟩ := Table.freeFrom_spec t 0 h
    exact ⟨hfree, fun k hk => htaken k (Nat.zero_le k) hk⟩
  · refine ⟨Circ.discharge_loans .., Circ.discharge_holds .., fun h => by rw [Circ.discharge_none _ _ h], fun b h => ?_⟩
    rw [Circ.discharge_some _ _ h]
    exact ⟨fun he => if_pos ((Borrower.isEmpty_iff _).mpr he), fun he => if_neg (mt (Borrower.isEmpty_iff _).mp he)⟩
  · refine ⟨rfl, fun b h => by rw [Circ.issue_borrowers, h]; rfl, fun h => by rw [Circ.issue_borrowers, h]; rfl,
      Circ.issue_holds_free l, fun p x h => ⟨Circ.issue_holds_own l h, fun hx ht => ?_, fun hx hw => ?_⟩⟩
    · rw [Circ.issue_holds_other l h hx, Hold.lentPast, ht]
    · rw [Circ.issue_holds_other l h hx, Hold.lentPast, hw]

end Sys2Proof.Machine
end

section
/-! PROOFS. The checks of an Issue and of the override transactions in their order, and the plan of one that passes them
(R44 to R49). -/

namespace Sys2Proof.Machine

/-! ### Checks 1 to 5 -/

/-- Check 5 of R44, with the stop `pass` let through. -/
def Desktop.holdStop (w : Desktop) (q : LoanReq) (pass : Pass) : Option Fields :=
  match w.circ.holdOf q.item with
  | none => none
  | some (_, h) =>
    if h.holder = q.borrower ∨ pass = .hold h.holder then none
    else some { verdict := .heldForOther, holder := some h.holder }

section Stops
variable {w : Desktop} {q : LoanReq} {pass : Pass}

theorem Desktop.holdStop_none
    (h : ∀ p x, w.circ.holdOf q.item = some (p, x) → x.holder = q.borrower ∨ pass = .hold x.holder) :
    w.holdStop q pass = none := by
  unfold Desktop.holdStop
  split
  · rfl
  next p x hx => exact if_pos (h p x hx)

theorem Desktop.holdStop_some {p : Nat} {x : Hold} (h : w.circ.holdOf q.item = some (p, x)) (h1 : x.holder ≠ q.borrower)
    (h2 : pass ≠ .hold x.holder) :
    w.holdStop q pass = some { verdict := .heldForOther, holder := some x.holder } := by
  simp only [Desktop.holdStop, h, if_neg (not_or.mpr ⟨h1, h2⟩)]

theorem Desktop.stops_foreign (h : w.settings.isForeign q.item.lib = true) :
    w.stops q pass = some { verdict := .foreignLabel } := if_pos h

theorem Desktop.centralOf_some {id : Ident} {b : Borrower} (h : w.circ.borrower id = some b) (hc : b.central ≠ none) :
    w.centralOf id = some (reasonsOf w.settings w.today b) := by
  simp only [Desktop.centralOf, h, Option.isSome_iff_ne_none.mpr hc, if_true]

theorem Desktop.centralOf_none {id : Ident} (h : ∀ b, w.circ.borrower id = some b → b.central = none) :
    w.centralOf id = none := by
  unfold Desktop.centralOf
  split
  · rfl
  next b hb => rw [h b hb]; rfl

theorem Desktop.stops_central {b : Borrower} (hf : w.settings.isForeign q.item.lib = false)
    (h : w.circ.borrower q.borrower = some b) (hc : b.central ≠ none) :
    w.stops q pass = some { verdict := .centralBlock, reasons := some (reasonsOf w.settings w.today b) } := by
  simp only [Desktop.stops, hf, Bool.false_eq_true, if_false, Desktop.centralOf_some h hc]

/-- The checks of the item's library and of the borrower's CENTRAL reason (R44 checks 1 and 2) passed. -/
structure Desktop.Admits (w : Desktop) (q : LoanReq) : Prop where
  library : w.settings.isForeign q.item.lib = false
  borrower : ∀ b, w.circ.borrower q.borrower = some b → b.central = none

theorem Desktop.stops_free (h : w.Admits q) (hl : w.circ.loanOf q.item = none) : w.stops q pass = w.holdStop q pass := by
  simp only [Desktop.stops, h.library, Bool.false_eq_true, if_false, Desktop.centralOf_none h.borrower, hl]
  rfl

section Lent
variable {slot : Nat} {l : Loan}

theorem Desktop.stops_own (h : w.Admits q) (hl : w.circ.loanOf q.item = some (slot, l)) (hb : l.borrower = q.borrower) :
    w.stops q pass = some { verdict := .alreadyIssued, due := some l.due } := by
  simp only [Desktop.stops, h.library, Bool.false_eq_true, if_false, Desktop.centralOf_none h.borrower, hl, if_pos hb]

theorem Desktop.stops_lent (h : w.Admits q) (hl : w.circ.loanOf q.item = some (slot, l)) (hb : l.borrower ≠ q.borrower)
    (hp : pass ≠ .loan l.borrower) : w.stops q pass = some { verdict := .onLoanElsewhere, other := some l.borrower } := by
  simp only [Desktop.stops, h.library, Bool.false_eq_true, if_false, Desktop.centralOf_none h.borrower, hl, if_neg hb,
    if_neg hp]

theorem Desktop.stops_passed (h : w.Admits q) (hl : w.circ.loanOf q.item = some (slot, l)) (hb : l.borrower ≠ q.borrower)
    (hp : pass = .loan l.borrower) : w.stops q pass = w.holdStop q pass := by
  simp only [Desktop.stops, h.library, Bool.false_eq_true, if_false, Desktop.centralOf_none h.borrower, hl, if_neg hb,
    if_pos hp]
  rfl

end Lent

/-! ### Checks 6 and 7 -/

theorem Desktop.limits_reached (freed : Nat)
    (h : (w.settings.category (w.circ.categoryOf q.borrower q.category)).limit ≤ w.circ.loanCount q.borrower) :
    w.limits q freed = some { verdict := .limitReached } := if_pos h

theorem Desktop.limits_full {freed : Nat}
    (h : w.circ.loanCount q.borrower < (w.settings.category (w.circ.categoryOf q.borrower q.category)).limit)
    (hfull : 4096 + freed ≤ w.circ.loans.length
      ∨ w.circ.borrower q.borrower = none ∧ 1024 ≤ w.circ.borrowers.length) :
    w.limits q freed = some { verdict := .tableFull } := by
  rw [Desktop.limits, if_neg (Nat.not_le.mpr h), if_pos (by simpa using hfull)]

theorem Desktop.limits_pass {freed : Nat}
    (h : w.circ.loanCount q.borrower < (w.settings.category (w.circ.categoryOf q.borrower q.category)).limit)
    (hl : w.circ.loans.length < 4096 + freed)
    (hb : (w.circ.borrower q.borrower).isSome = true ∨ w.circ.borrowers.length < 1024) :
    w.limits q freed = none := by
  rw [Desktop.limits, if_neg (Nat.not_le.mpr h), if_neg]
  rintro (hfull | ⟨hnone, hfull⟩)
  · omega
  · rcases hb with hb | hb
    · simp [Option.isNone_iff_eq_none.mp hnone] at hb
    · omega

/-! ### The plan -/

theorem Desktop.planIssue_stopped {f : Fields} (src : Desk) (h : w.stops q pass = some f) :
    w.planIssue src q pass = Plan.answer w.circ (.scan f) := by
  simp only [Desktop.planIssue, h]

theorem Desktop.planIssue_limited {f : Fields} (src : Desk) (h : w.stops q pass = none)
    (hl : w.limits q (if (w.circ.loanOf q.item).isSome then 1 else 0) = some f) :
    w.planIssue src q pass = Plan.answer w.circ (.scan f) := by
  simp only [Desktop.planIssue, h, hl]

/-- The holder an Issue lends past (R49). -/
def Circ.passedHolder (c : Circ) (q : LoanReq) : Option Ident :=
  match c.holdOf q.item with
  | some (_, h) => if h.holder = q.borrower then none else some h.holder
  | none => none

theorem Circ.passedHolder_none {c : Circ} (h : ∀ p x, c.holdOf q.item = some (p, x) → x.holder = q.borrower) :
    c.passedHolder q = none := by
  unfold Circ.passedHolder
  split
  next p x hx => exact if_pos (h p x hx)
  · rfl

theorem Circ.passedHolder_some {c : Circ} {p : Nat} {x : Hold} (h : c.holdOf q.item = some (p, x))
    (hx : x.holder ≠ q.borrower) : c.passedHolder q = some x.holder := by
  simp only [Circ.passedHolder, h, if_neg hx]

/-- The record of the hold picked up, where every hold of the item is the borrower's own. -/
theorem Circ.pickupDrafts_own {c : Circ} (src : Desk)
    (h : ∀ p x, c.holdOf q.item = some (p, x) → x.holder = q.borrower) :
    c.pickupDrafts src q =
      if (c.holdOf q.item).isSome then
        [{ source := .desk src, time := some q.time, flags := { }, body := .holdPickup q.item q.borrower }]
      else [] := by
  cases hh : c.holdOf q.item with
  | none => simp only [Circ.pickupDrafts, Circ.ownHold, hh]; rfl
  | some e =>
    obtain ⟨p, x⟩ := e
    have hitem : x.item = q.item := by simpa using List.find?_some hh
    have own : c.ownHold q = some (p, x) := by simp only [Circ.ownHold, hh]; exact if_pos (h p x hh)
    simp only [Circ.pickupDrafts, own, hitem, h p x hh, Option.isSome_some, if_true]

theorem Circ.pickupDrafts_none {c : Circ} (src : Desk)
    (h : ∀ p x, c.holdOf q.item = some (p, x) → x.holder ≠ q.borrower) : c.pickupDrafts src q = [] := by
  cases hh : c.holdOf q.item with
  | none => simp only [Circ.pickupDrafts, Circ.ownHold, hh]
  | some e => simp only [Circ.pickupDrafts, Circ.ownHold, hh, if_neg (h _ _ hh)]

theorem Desktop.planIssue_fresh (src : Desk) (h : w.stops q pass = none) (hl : w.circ.loanOf q.item = none)
    (hlim : w.limits q 0 = none) :
    w.planIssue src q pass =
      let loan := w.newLoan src q (q.mark || decide (pass ≠ .none))
      { recs := w.circ.pickupDrafts src q ++ [issueDraft src q loan]
        circ := w.circ.issue q loan
        reply := .scan { verdict := .issued, due := some loan.due, holder := w.circ.passedHolder q }
        refused := verdictReply .journalFull } := by
  simp only [Desktop.planIssue, h, hl, Option.isSome_none, Bool.false_eq_true, if_false, hlim]
  rfl

theorem Desktop.planIssue_again {slot : Nat} {l : Loan} (src : Desk) (h : w.stops q pass = none)
    (hl : w.circ.loanOf q.item = some (slot, l)) (hlim : w.limits q 1 = none) :
    w.planIssue src q pass =
      let loan := w.newLoan src q (q.mark || decide (pass ≠ .none))
      { recs := [dischargeDraft src q.time l (w.fine l q.time) none true] ++ w.circ.pickupDrafts src q
          ++ [issueDraft src q loan]
        circ := (w.circ.discharge slot l (w.fine l q.time)).issue q loan
        reply := .scan
          { verdict := .issued, due := some loan.due, other := some l.borrower, holder := w.circ.passedHolder q }
        refused := verdictReply .journalFull } := by
  simp only [Desktop.planIssue, h, hl, Option.isSome_some, if_true, hlim]
  rfl

end Stops

end Sys2Proof.Machine
end

section
/-! PROOFS. The outcome of an Issue at the engine it serves (R23). O26, O27. -/

namespace Sys2Proof.Machine

/-! ### The store's answer to a desk engine -/

section Takes
variable {s : State} {t : Txn} {p : Plan}

@[simp] theorem State.eng_tookFrom (s : State) (c : Claimant) (d : Desk) : (s.tookFrom c).eng d = s.eng d := by
  rcases c with (_ | _) | (_ | _) | _ | _ <;> cases d <;> rfl

@[simp] theorem State.port_tookFrom (s : State) (c : Claimant) (p : Port) : (s.tookFrom c).port p = s.port p := by
  rcases c with (_ | _) | (_ | _) | _ | _ <;> rcases p with (_ | _) | _ <;> rfl

@[simp] theorem State.eng_committed (s : State) (c : Claimant) (circ : Circ) (j : Journal) (d : Desk) :
    (s.committed c circ j).eng d = s.eng d := by
  rcases c with (_ | _) | (_ | _) | _ | _ <;> cases d <;> rfl

@[simp] theorem State.port_committed (s : State) (c : Claimant) (circ : Circ) (j : Journal) (p : Port) :
    (s.committed c circ j).port p = s.port p := by
  rcases c with (_ | _) | (_ | _) | _ | _ <;> rcases p with (_ | _) | _ <;> rfl

/-- The command has the store take this transaction from a claimant, whose turn it is, and this is its plan. -/
structure State.Serves (s : State) (c : Claimant) (i : Instr) (t : Txn) (p : Plan) : Prop where
  runs : exec i s = .next (s.storeTake c t)
  turn : s.turnOf c = some t
  plan : s.planOf (s.heldNow c t) = some p

section
variable {c : Claimant} {i : Instr}

theorem State.Serves.of_takeIf {kind : Txn → Bool} (hi : exec i s = .next (s.takeIf c kind))
    (h : s.turnOf c = some t) (hk : kind t = true) (hp : s.planOf (s.heldNow c t) = some p) :
    s.Serves c i t p := ⟨by rw [hi, State.takeIf_turn h hk], h, hp⟩

theorem State.Serves.answers {r : Reply} (h : s.Serves c i t (Plan.answer s.circ r)) :
    exec i s = .next ((s.tookFrom c).deliver (s.heldNow c t) r) := by
  have same : { s.tookFrom c with circ := s.circ } = s.tookFrom c := by
    rcases c with (_ | _) | (_ | _) | _ | _ <;> rfl
  rw [h.runs, State.storeTake_answered h.turn h.plan rfl]
  exact congrArg (fun u : State => Host.Outcome.next (u.deliver (s.heldNow c t) r)) same

theorem State.Serves.accepted {j : Journal} {r : Reply} (h : s.Serves c i t p) (hf : p.reply = r) (hr : p.recs ≠ [])
    (hj : s.journal.idle) (ha : s.journal.accept s.now p.recs = .done j) :
    exec i s = .next ((s.committed c p.circ j).deliver (s.heldNow c t) r) := by
  rw [h.runs, State.storeTake_accepted h.turn h.plan hr hj ha, hf]

theorem State.Serves.full {r : Reply} (h : s.Serves c i t p) (hf : p.refused = r) (hr : p.recs ≠ [])
    (hj : s.journal.idle) (ha : s.journal.accept s.now p.recs = .full) :
    exec i s = .next ((s.tookFrom c).deliver (s.heldNow c t) r) := by
  rw [h.runs, State.storeTake_full h.turn h.plan hr hj ha, hf]

end

end Takes

/-! ### Issue -/

section Session
variable {s t : State} {d : Desk} {sc : Scan} {ss : Session} {f : Fields}

/-- The engine that has this scan in service in this session, as the store's outcome finds it. -/
structure State.InSession (s : State) (d : Desk) (sc : Scan) (ss : Session) : Prop where
  service : (s.eng d).service = some (.entry sc)
  ctx : (s.eng d).ctx = .session ss
  deferred : (s.eng d).deferred = []

theorem State.InSession.stops {st : Stop} (h : s.InSession d sc ss) (hf : f.stop = some st) :
    s.engineScan d true f = s.setEng d ((s.eng d).holding { scan := sc, stop := st, session := some ss }) := by
  have rested := State.toAwait_rested s d (s.eng d) { scan := sc, stop := st, session := some ss }
  rw [State.setEng_eng] at rested
  rw [State.engineScan_issue h.service h.deferred, State.issueDone_stop h.ctx hf, rested]

theorem State.InSession.outcome (h : s.InSession d sc ss) (hf : f.stop = none) :
    s.engineScan d true f = ((s.setEng d (s.eng d)).issueOutcome d sc ss f).rested d := by
  rw [State.engineScan_issue h.service h.deferred, State.issueDone_outcome h.ctx hf, State.setEng_eng]

theorem State.InSession.goesOn (h : s.InSession d sc ss) (hf : f.stop = none) (h1 : f.verdict ≠ .issued)
    (h2 : f.verdict ≠ .centralBlock) :
    s.engineScan d true f = s.setEng d (((s.eng d).ended sc.label.digits f).inSession ss) := by
  rw [h.outcome hf, State.issueOutcome_other _ _ h1 h2]

theorem State.InSession.issued {due : Time} (h : s.InSession d sc ss) (hv : f.verdict = .issued) (hdue : f.due = some due) :
    s.engineScan d true f =
      s.listed d ((s.eng d).ended sc.label.digits f) ss { item := sc.label.ident, due := due } := by
  rw [h.outcome (by simp [Fields.stop, hv]), State.issueOutcome_issued _ _ hv hdue]

theorem State.InSession.closes (h : s.InSession d sc ss) (hv : f.verdict = .centralBlock) :
    s.engineScan d true f = s.sessionClosed d ss ((s.eng d).ended sc.label.digits f) := by
  rw [h.outcome (by simp [Fields.stop, hv]), State.issueOutcome_central _ _ hv]

theorem State.ServesInSession.inSession {txn : Txn} (h : s.ServesInSession d txn sc ss) (ht : t.eng d = s.eng d) :
    t.InSession d sc ss := ⟨ht ▸ h.service, ht ▸ h.ctx, ht ▸ h.deferred⟩

end Session

section Issue
variable {s : State} {d : Desk} {q : LoanReq} {sc : Scan} {ss : Session}

/-- What the store computes an engine's transaction with now. -/
def State.deskNow (s : State) : Desktop :=
  { circ := s.circ, settings := s.settings, today := s.clock.day, gen := s.roll.gen }

theorem State.ServesInSession.serves (h : s.ServesInSession d (.issue q) sc ss) :
    s.Serves (.engine d) (.issue d) (.issue q) (s.deskNow.planIssue d q .none) := .of_takeIf rfl h.turn rfl rfl

end Issue

/-- Settles O26: the plan of an Issue that passes, accepted or refused, and the engine's end with its outcome. -/
theorem issueThatPassesIsGranted : Obligations.IssueThatPassesIsGranted := by
  intro d s q sc ss h hj hlib hb hl hh
  extract_lets cat rule due loan pickup drafts
  intro hcount hloans hroom
  have admits : s.deskNow.Admits q := ⟨hlib, hb⟩
  have hstops : s.deskNow.stops q .none = none :=
    (Desktop.stops_free admits hl).trans (Desktop.holdStop_none fun p x hx => .inl (hh p x hx))
  have hplan := Desktop.planIssue_fresh d hstops hl (Desktop.limits_pass hcount hloans hroom)
  have hloan : s.deskNow.newLoan d q (q.mark || decide (Pass.none ≠ .none)) = loan := by
    rw [show (q.mark || decide (Pass.none ≠ .none)) = q.mark by simp]
    rfl
  have hholder : s.deskNow.circ.passedHolder q = none := Circ.passedHolder_none hh
  have hpickup : s.deskNow.circ.pickupDrafts d q = pickup := Circ.pickupDrafts_own d hh
  simp only [hloan, hholder, hpickup] at hplan
  have serves := hplan ▸ h.serves
  have hne : drafts ≠ [] := by simp [drafts]
  refine ⟨fun j ha => ?_, fun ha => ?_⟩
  · have ends := (h.inSession (State.eng_committed s (.engine d) (s.circ.issue q loan) j d)).issued
      (f := { verdict := .issued, due := some due }) rfl rfl
    rw [State.eng_committed] at ends
    exact (serves.accepted rfl hne hj ha).trans (congrArg _ ends)
  · have ends := (h.inSession (State.eng_tookFrom s (.engine d) d)).goesOn (f := { verdict := .journalFull }) rfl nofun nofun
    rw [State.eng_tookFrom] at ends
    exact (serves.full rfl hne hj ha).trans (congrArg _ ends)

/-- Settles O27: the first check that fails gives the plan, and the kind of its outcome the engine's end. -/
theorem issueThatFailsChangesNoTable : Obligations.IssueThatFailsChangesNoTable := by
  intro d s q sc ss h
  have served : (s.tookFrom (.engine d)).InSession d sc ss := h.inSession (State.eng_tookFrom ..)
  have answers : ∀ f, s.deskNow.planIssue d q .none = Plan.answer s.circ (.scan f) →
      exec (.issue d) s = .next ((s.tookFrom (.engine d)).engineScan d true f) := fun f hf =>
    State.Serves.answers (hf ▸ h.serves)
  have fails := fun f (hf : s.deskNow.stops q .none = some f) => answers f (Desktop.planIssue_stopped d hf)
  intro t goesOn stops
  have on : ∀ f, exec (.issue d) s = .next (t.engineScan d true f) → f.stop = none → f.verdict ≠ .issued →
      f.verdict ≠ .centralBlock → goesOn f := fun f hf h0 h1 h2 => by
    rw [served.goesOn h0 h1 h2, State.eng_tookFrom] at hf
    exact hf
  have held : ∀ f st, exec (.issue d) s = .next (t.engineScan d true f) → f.stop = some st → stops st :=
    fun f st hf h0 => by
      rw [served.stops h0, State.eng_tookFrom] at hf
      exact hf
  refine ⟨fun hlib => on _ (fails _ (Desktop.stops_foreign hlib)) rfl nofun nofun,
    fun hlib => ⟨fun b hb hc => ?_, fun hb => ?_⟩⟩
  · rw [fails _ (Desktop.stops_central hlib hb hc), served.closes rfl, State.eng_tookFrom]
    rfl
  · have admits : s.deskNow.Admits q := ⟨hlib, hb⟩
    refine ⟨fun slot l hl => ⟨fun hown => ?_, fun hother => ?_⟩, fun hl => ⟨fun p x hx hne => ?_, fun hown => ?_⟩⟩
    · exact on _ (fails _ (Desktop.stops_own admits hl hown)) rfl nofun nofun
    · exact held _ _ (fails _ (Desktop.stops_lent admits hl hother nofun)) rfl
    · exact held _ _ (fails _ ((Desktop.stops_free admits hl).trans (Desktop.holdStop_some hx hne nofun))) rfl
    · have hstops : s.deskNow.stops q .none = none :=
        (Desktop.stops_free admits hl).trans (Desktop.holdStop_none fun p x hx => .inl (hown p x hx))
      have limited : ∀ f, s.deskNow.limits q 0 = some f →
          exec (.issue d) s = .next (t.engineScan d true f) := fun f hf =>
        answers f (Desktop.planIssue_limited d hstops
          (by rw [show s.deskNow.circ.loanOf q.item = none from hl]; exact hf))
      exact ⟨fun hlim => on _ (limited _ (Desktop.limits_reached 0 hlim)) rfl nofun nofun, fun hlim hfull =>
        on _ (limited _ (Desktop.limits_full hlim hfull)) rfl nofun nofun⟩

end Sys2Proof.Machine
end

section
/-! PROOFS. The outcome of an override transaction at the engine it serves (R28, R47 to R49). O28, O29. -/

namespace Sys2Proof.Machine

section Override
variable {s t : State} {d : Desk} {h : HeldScan} {r : InProgress} {ss : Session} {f : Fields}

/-- The engine that overrides this held scan for this request, as the store's outcome finds it. -/
structure State.InOverride (s : State) (d : Desk) (h : HeldScan) (r : InProgress) : Prop where
  service : (s.eng d).service = some .overriding
  ctx : (s.eng d).ctx = .awaitOverride h
  deferred : (s.eng d).deferred = []
  port : (s.port (.desk d)).inProgress = some r

theorem State.Overrides.inOverride {txn : Txn} (ho : s.Overrides d txn h r) (he : t.eng d = s.eng d)
    (hp : t.port (.desk d) = s.port (.desk d)) : t.InOverride d h r :=
  ⟨he ▸ ho.service, he ▸ ho.ctx, he ▸ ho.deferred, hp ▸ ho.port⟩

theorem State.InOverride.stops {st : Stop} (ho : s.InOverride d h r) (hf : f.stop = some st) (i : Bool) :
    s.engineScan d i f =
      (s.setEng d ((s.eng d).holding { h with stop := st })).replied (.desk d) r .ok .empty := by
  have done : s.overrideDone d h f = (s.toAwait d { h with stop := st }).respond (.desk d) .ok .empty := by
    simp only [State.overrideDone, hf]
  have rested := State.toAwait_rested s d (s.eng d) { h with stop := st }
  rw [State.setEng_eng] at rested
  rw [State.engineScan_override ho.service ho.ctx ho.deferred, done, State.rested_respond, rested,
    State.respond_setEng ho.port]

theorem State.InOverride.outcome (ho : s.InOverride d h r) (hs : h.session = some ss) (hf : f.stop = none) (i : Bool) :
    s.engineScan d i f =
      (((s.setEng d (s.eng d)).issueOutcome d h.scan ss f).rested d).respond (.desk d) .ok .empty := by
  have done : s.overrideDone d h f = (s.issueOutcome d h.scan ss f).respond (.desk d) .ok .empty := by
    simp only [State.overrideDone, hf, hs]
  rw [State.engineScan_override ho.service ho.ctx ho.deferred, done, State.rested_respond, State.setEng_eng]

theorem State.InOverride.goesOn (ho : s.InOverride d h r) (hs : h.session = some ss) (hf : f.stop = none)
    (h1 : f.verdict ≠ .issued) (h2 : f.verdict ≠ .centralBlock) (i : Bool) :
    s.engineScan d i f =
      (s.setEng d (((s.eng d).ended h.scan.label.digits f).inSession ss)).replied (.desk d) r .ok .empty := by
  rw [ho.outcome hs hf, State.issueOutcome_other _ _ h1 h2, State.respond_setEng ho.port]

theorem State.InOverride.issued {due : Time} (ho : s.InOverride d h r) (hs : h.session = some ss)
    (hv : f.verdict = .issued) (hdue : f.due = some due) (i : Bool) :
    s.engineScan d i f =
      (s.listed d ((s.eng d).ended h.scan.label.digits f) ss { item := h.scan.label.ident, due := due }).replied (.desk d)
        r .ok .empty := by
  rw [ho.outcome hs (by simp [Fields.stop, hv]), State.issueOutcome_issued _ _ hv hdue,
    State.respond_replied (by rw [State.port_listed]; exact ho.port)]

theorem State.InOverride.closes (ho : s.InOverride d h r) (hs : h.session = some ss) (hv : f.verdict = .centralBlock)
    (i : Bool) :
    s.engineScan d i f =
      (s.sessionClosed d ss ((s.eng d).ended h.scan.label.digits f)).replied (.desk d) r .ok .empty := by
  rw [ho.outcome hs (by simp [Fields.stop, hv]), State.issueOutcome_central _ _ hv,
    State.respond_replied (by rw [State.port_sessionClosed]; exact ho.port)]

end Override

/-! ### A transaction that passes a stop -/

/-- The override transaction of `q` past the stop `pass`, which a command has the store take. -/
structure State.Passes (s : State) (d : Desk) (c : Instr) (t : Txn) (q : LoanReq) (pass : Pass) (h : HeldScan)
    (r : InProgress) : Prop where
  serves : s.Serves (.engine d) c t (s.deskNow.planIssue d q pass)
  overrides : s.Overrides d t h r

section Passes
variable {s : State} {d : Desk} {c : Instr} {t : Txn} {q : LoanReq} {pass : Pass} {h : HeldScan} {r : InProgress}
variable {ss : Session} {f : Fields}

theorem State.Passes.answers (ho : s.Passes d c t q pass h r) (hp : s.deskNow.planIssue d q pass = Plan.answer s.circ (.scan f)) :
    exec c s = .next ((s.tookFrom (.engine d)).engineScan d t.isIssue f) := State.Serves.answers (hp ▸ ho.serves)

theorem State.Passes.took (ho : s.Passes d c t q pass h r) : (s.tookFrom (.engine d)).InOverride d h r :=
  ho.overrides.inOverride (State.eng_tookFrom ..) (State.port_tookFrom ..)

/-- What a refused override comes to: its result, and the session goes on. -/
def State.overrideRefused (s : State) (d : Desk) (h : HeldScan) (ss : Session) (r : InProgress) (f : Fields) : State :=
  ((s.tookFrom (.engine d)).setEng d (((s.eng d).ended h.scan.label.digits f).inSession ss)).replied (.desk d) r .ok .empty

theorem State.Passes.refuses (ho : s.Passes d c t q pass h r) (hs : h.session = some ss)
    (hp : s.deskNow.planIssue d q pass = Plan.answer s.circ (.scan f)) (hf : f.stop = none) (h1 : f.verdict ≠ .issued)
    (h2 : f.verdict ≠ .centralBlock) : exec c s = .next (s.overrideRefused d h ss r f) := by
  rw [ho.answers hp, ho.took.goesOn hs hf h1 h2, State.eng_tookFrom]
  rfl

theorem State.Passes.foreign (ho : s.Passes d c t q pass h r) (hs : h.session = some ss)
    (hlib : s.settings.isForeign q.item.lib = true) :
    exec c s = .next (s.overrideRefused d h ss r { verdict := .foreignLabel }) :=
  ho.refuses hs (Desktop.planIssue_stopped d (Desktop.stops_foreign hlib)) rfl nofun nofun

theorem State.Passes.central {b : Borrower} (ho : s.Passes d c t q pass h r) (hs : h.session = some ss)
    (hlib : s.settings.isForeign q.item.lib = false) (hb : s.circ.borrower q.borrower = some b) (hc : b.central ≠ none) :
    exec c s
      = .next (((s.tookFrom (.engine d)).sessionClosed d ss ((s.eng d).ended h.scan.label.digits
          { verdict := .centralBlock, reasons := some (reasonsOf s.settings s.clock.day b) })).replied (.desk d) r .ok
            .empty) := by
  rw [ho.answers (Desktop.planIssue_stopped d (Desktop.stops_central hlib hb hc)), ho.took.closes hs rfl,
    State.eng_tookFrom]
  rfl

theorem State.Passes.stops {st : Stop} (ho : s.Passes d c t q pass h r) (hp : s.deskNow.stops q pass = some f)
    (hf : f.stop = some st) :
    exec c s
      = .next (((s.tookFrom (.engine d)).setEng d ((s.eng d).holding { h with stop := st })).replied (.desk d) r .ok
          .empty) := by
  rw [ho.answers (Desktop.planIssue_stopped d hp), ho.took.stops hf, State.eng_tookFrom]

theorem State.Passes.ownLoan {slot : Nat} {l : Loan} (ho : s.Passes d c t q pass h r) (hs : h.session = some ss)
    (ha : s.deskNow.Admits q) (hl : s.circ.loanOf q.item = some (slot, l)) (hb : l.borrower = q.borrower) :
    exec c s = .next (s.overrideRefused d h ss r { verdict := .alreadyIssued, due := some l.due }) :=
  ho.refuses hs (Desktop.planIssue_stopped d (Desktop.stops_own ha hl hb)) rfl nofun nofun

theorem State.Passes.limitReached (ho : s.Passes d c t q pass h r) (hs : h.session = some ss)
    (hp : s.deskNow.stops q pass = none)
    (hlim : (s.settings.category (s.circ.categoryOf q.borrower q.category)).limit ≤ s.circ.loanCount q.borrower) :
    exec c s = .next (s.overrideRefused d h ss r { verdict := .limitReached }) :=
  ho.refuses hs (Desktop.planIssue_limited d hp (Desktop.limits_reached _ hlim)) rfl nofun nofun

theorem State.Passes.tableFull (ho : s.Passes d c t q pass h r) (hs : h.session = some ss)
    (hp : s.deskNow.stops q pass = none)
    (hlim : s.circ.loanCount q.borrower < (s.settings.category (s.circ.categoryOf q.borrower q.category)).limit)
    (hfull : 4096 + (if (s.circ.loanOf q.item).isSome then 1 else 0) ≤ s.circ.loans.length
      ∨ s.circ.borrower q.borrower = none ∧ 1024 ≤ s.circ.borrowers.length) :
    exec c s = .next (s.overrideRefused d h ss r { verdict := .tableFull }) :=
  ho.refuses hs (Desktop.planIssue_limited d hp (Desktop.limits_full hlim hfull)) rfl nofun nofun

theorem State.Passes.issues {p : Plan} {j : Journal} {due : Time} (ho : s.Passes d c t q pass h r)
    (hs : h.session = some ss) (hp : s.deskNow.planIssue d q pass = p) (hf : p.reply = .scan f) (hv : f.verdict = .issued)
    (hdue : f.due = some due) (hr : p.recs ≠ []) (hj : s.journal.idle) (ha : s.journal.accept s.now p.recs = .done j) :
    exec c s
      = .next (((s.committed (.engine d) p.circ j).listed d ((s.eng d).ended h.scan.label.digits f) ss
          { item := h.scan.label.ident, due := due }).replied (.desk d) r .ok .empty) := by
  have ends := (ho.overrides.inOverride (State.eng_committed s (.engine d) p.circ j d)
    (State.port_committed ..)).issued hs hv hdue t.isIssue
  rw [State.eng_committed] at ends
  exact ((hp ▸ ho.serves).accepted hf hr hj ha).trans (congrArg _ ends)

theorem State.Passes.journalFull {p : Plan} (ho : s.Passes d c t q pass h r)
    (hs : h.session = some ss) (hp : s.deskNow.planIssue d q pass = p) (hf : p.refused = verdictReply .journalFull)
    (hr : p.recs ≠ []) (hj : s.journal.idle) (ha : s.journal.accept s.now p.recs = .full) :
    exec c s = .next (s.overrideRefused d h ss r { verdict := .journalFull }) := by
  have ends := ho.took.goesOn hs (f := { verdict := .journalFull }) rfl nofun nofun t.isIssue
  rw [State.eng_tookFrom] at ends
  exact ((hp ▸ ho.serves).full hf hr hj ha).trans (congrArg _ ends)

end Passes

/-! ### The plans of the two overrides -/

section Plans
variable {w : Desktop} {q : LoanReq}

theorem Desktop.newLoan_override (w : Desktop) (src : Desk) {pass : Pass} (h : pass ≠ .none) :
    w.newLoan src q (q.mark || decide (pass ≠ .none)) = w.newLoan src q true := by
  rw [decide_eq_true h, Bool.or_true]

/-- An item on loan to no one but the borrower the override names goes on to check 5 (R47). -/
theorem Desktop.stops_overLoan {other : Ident} (h : w.Admits q)
    (hl : ∀ slot l, w.circ.loanOf q.item = some (slot, l) → l.borrower = other ∧ other ≠ q.borrower) :
    w.stops q (.loan other) = w.holdStop q (.loan other) := by
  cases hloanOf : w.circ.loanOf q.item with
  | none => exact Desktop.stops_free h hloanOf
  | some x =>
    obtain ⟨hx, hne⟩ := hl _ _ hloanOf
    exact Desktop.stops_passed h hloanOf (hx ▸ hne) (by rw [hx])

/-- The named borrower's loan is discharged and the item issued (R48). -/
theorem Desktop.planIssue_overLoan {slot : Nat} {l : Loan} (src : Desk) (h : w.Admits q)
    (hl : w.circ.loanOf q.item = some (slot, l)) (hne : l.borrower ≠ q.borrower)
    (hh : ∀ p x, w.circ.holdOf q.item = some (p, x) → x.holder = q.borrower) (hlim : w.limits q 1 = none) :
    w.planIssue src q (.loan l.borrower) =
      { recs := [dischargeDraft src q.time l (w.fine l q.time) none true] ++ w.circ.pickupDrafts src q
          ++ [issueDraft src q (w.newLoan src q true)]
        circ := (w.circ.discharge slot l (w.fine l q.time)).issue q (w.newLoan src q true)
        reply := .scan { verdict := .issued, due := some (w.newLoan src q true).due, other := some l.borrower }
        refused := verdictReply .journalFull } := by
  have hstops : w.stops q (.loan l.borrower) = none :=
    (Desktop.stops_passed h hl hne rfl).trans (Desktop.holdStop_none fun p x hx => .inl (hh p x hx))
  rw [Desktop.planIssue_again src hstops hl hlim, Circ.passedHolder_none hh, Desktop.newLoan_override w src (pass := .loan l.borrower) nofun]

/-- An item on loan to no one, its hold the borrower's own or passed, is issued. -/
theorem Desktop.planIssue_overridden {pass : Pass} (src : Desk) (h : w.Admits q) (hl : w.circ.loanOf q.item = none)
    (hh : ∀ p x, w.circ.holdOf q.item = some (p, x) → x.holder = q.borrower ∨ pass = .hold x.holder)
    (hpass : pass ≠ .none) (hlim : w.limits q 0 = none) :
    w.planIssue src q pass =
      { recs := w.circ.pickupDrafts src q ++ [issueDraft src q (w.newLoan src q true)]
        circ := w.circ.issue q (w.newLoan src q true)
        reply := .scan
          { verdict := .issued, due := some (w.newLoan src q true).due, holder := w.circ.passedHolder q }
        refused := verdictReply .journalFull } := by
  have hstops : w.stops q pass = none := (Desktop.stops_free h hl).trans (Desktop.holdStop_none hh)
  rw [Desktop.planIssue_fresh src hstops hl hlim, Desktop.newLoan_override w src hpass]

end Plans

/-- Settles O28: the plan past the loan it names, with that loan discharged or with none to discharge, and the checks that
refuse it or hold the scan again. -/
theorem overrideOfALoanDischargesAndIssues : Obligations.OverrideOfALoanDischargesAndIssues := by
  intro d s q other h ss r ho hs
  have passes : s.Passes d (.overrideOnLoanElsewhere d) (.overrideLoan q other) q (.loan other) h r :=
    ⟨.of_takeIf rfl ho.turn rfl rfl, ho⟩
  refine ⟨passes.foreign hs, fun hlib b hb hc => passes.central hs hlib hb hc, fun hlib hb => ?_⟩
  have admits : s.deskNow.Admits q := ⟨hlib, hb⟩
  extract_lets cat rule due loan room issued pickup noOther
  have hpickup : noOther → s.deskNow.circ.pickupDrafts d q = pickup := Circ.pickupDrafts_own d
  have fresh : s.circ.loanOf q.item = none → noOther → room → s.circ.loans.length < 4096 →
      s.deskNow.planIssue d q (.loan other) =
        { recs := pickup ++ [issued], circ := s.circ.issue q loan, reply := .scan { verdict := .issued, due := some due },
          refused := verdictReply .journalFull } := fun hl hno hroom hlen => by
    rw [Desktop.planIssue_overridden (pass := .loan other) d admits hl (fun p x hx => .inl (hno p x hx)) nofun
      (Desktop.limits_pass hroom.1 hlen hroom.2), hpickup hno, Circ.passedHolder_none (c := s.deskNow.circ) hno]
    rfl
  have again : ∀ slot l, s.circ.loanOf q.item = some (slot, l) → l.borrower = other → other ≠ q.borrower → noOther →
      room → s.circ.loans.length ≤ 4096 →
      s.deskNow.planIssue d q (.loan other) =
        { recs := [dischargeDraft d q.time l (s.deskNow.fine l q.time) none true] ++ pickup ++ [issued]
          circ := (s.circ.discharge slot l (s.deskNow.fine l q.time)).issue q loan
          reply := .scan { verdict := .issued, due := some due, other := some other }
          refused := verdictReply .journalFull } := fun slot l hl hlo hne hno hroom hlen => by
    rw [← hlo, Desktop.planIssue_overLoan d admits hl (hlo ▸ hne) hno
      (Desktop.limits_pass hroom.1 (Nat.lt_succ_of_le hlen) hroom.2), hpickup hno]
    rfl
  refine ⟨fun slot l j hl hlo hne hno hroom hlen hj => ?_, fun j hl hno hroom hlen hj => ?_, fun slot l hl h1 h2 => ?_,
    fun p x hl hx hne => ?_, fun slot l hl hb => passes.ownLoan hs admits hl hb, fun hl hno => ?_⟩
  · exact passes.issues hs (again slot l hl hlo hne hno hroom hlen) rfl rfl rfl (by simp) hj
  · exact passes.issues hs (fresh hl hno hroom hlen) rfl rfl rfl (by simp) hj
  · exact passes.stops (Desktop.stops_lent admits hl h2 (by simpa using Ne.symm h1)) rfl
  · exact passes.stops ((Desktop.stops_overLoan admits hl).trans (Desktop.holdStop_some hx hne nofun)) rfl
  · have hstops : s.deskNow.stops q (.loan other) = none :=
      (Desktop.stops_overLoan admits hl).trans (Desktop.holdStop_none fun p x hx => .inl (hno p x hx))
    refine ⟨passes.limitReached hs hstops, fun hlim hfull => passes.tableFull hs hstops hlim (hfull.imp_left ?_),
      fun hroom hj => ⟨fun hl0 hlen => ?_, fun slot l hl1 hlen => ?_⟩⟩
    · rintro ⟨hl0, hlen⟩
      rw [hl0]
      exact hlen
    · exact passes.journalFull hs (fresh hl0 hno hroom hlen) rfl (by simp) hj
    · obtain ⟨hlo, hne⟩ := hl slot l hl1
      exact passes.journalFull hs (again slot l hl1 hlo hne hno hroom hlen) rfl (by simp) hj

/-- Settles O29: the plan past the hold it names, or with the hold gone, and the checks that refuse it or hold the scan
again. -/
theorem overrideOfAHoldIssuesPastIt : Obligations.OverrideOfAHoldIssuesPastIt := by
  intro d s q holder h ss r ho hs
  have passes : s.Passes d (.overrideHeldForOther d) (.overrideHold q holder) q (.hold holder) h r :=
    ⟨.of_takeIf rfl ho.turn rfl rfl, ho⟩
  refine ⟨passes.foreign hs, fun hlib b hb hc => passes.central hs hlib hb hc, fun hlib hb => ?_⟩
  have admits : s.deskNow.Admits q := ⟨hlib, hb⟩
  extract_lets cat rule due loan
  have named : ∀ {x : Hold}, x.holder = holder → Pass.hold holder = .hold x.holder := fun hx => by rw [hx]
  have plan : ∀ passed, s.circ.passedHolder q = passed → s.circ.loanOf q.item = none →
      (∀ p x, s.circ.holdOf q.item = some (p, x) → x.holder = holder ∧ x.holder ≠ q.borrower) →
      s.circ.loanCount q.borrower < (s.settings.category cat).limit → s.circ.loans.length < 4096 →
      ((s.circ.borrower q.borrower).isSome = true ∨ s.circ.borrowers.length < 1024) →
      s.deskNow.planIssue d q (.hold holder) =
        { recs := [issueDraft d q loan], circ := s.circ.issue q loan
          reply := .scan { verdict := .issued, due := some due, holder := passed }
          refused := verdictReply .journalFull } := fun passed hpassed hl hh h1 h2 h3 => by
    have hpickup : s.deskNow.circ.pickupDrafts d q = [] := Circ.pickupDrafts_none d fun p x hx => (hh p x hx).2
    rw [Desktop.planIssue_overridden (pass := .hold holder) d admits hl (fun p x hx => .inr (named (hh p x hx).1)) nofun
      (Desktop.limits_pass h1 h2 h3), hpickup, ← hpassed]
    rfl
  refine ⟨fun j hl h1 h2 h3 hj ha => ⟨fun p x hx hxh hne => ?_, fun hno => ?_⟩, fun slot l hl h1 => ?_,
    fun p x hl hx h1 h2 => ?_, fun slot l hl hb => passes.ownLoan hs admits hl hb, fun hl hown => ?_⟩
  · have hall : ∀ p x, s.circ.holdOf q.item = some (p, x) → x.holder = holder ∧ x.holder ≠ q.borrower :=
      fun p' x' hx' => by
        obtain ⟨-, rfl⟩ := Prod.mk.inj (Option.some.inj (hx.symm.trans hx'))
        exact ⟨hxh, hxh ▸ hne⟩
    have hpassed : s.circ.passedHolder q = some holder := hxh ▸ Circ.passedHolder_some hx (hxh ▸ hne)
    exact passes.issues hs (plan _ hpassed hl hall h1 h2 h3) rfl rfl rfl (by simp) hj ha
  · have hall : ∀ p x, s.circ.holdOf q.item = some (p, x) → x.holder = holder ∧ x.holder ≠ q.borrower :=
      fun p x hx => by rw [hno] at hx; cases hx
    have hpassed : s.circ.passedHolder q = none := Circ.passedHolder_none fun p x hx => by rw [hno] at hx; cases hx
    exact passes.issues hs (plan _ hpassed hl hall h1 h2 h3) rfl rfl rfl (by simp) hj ha
  · exact passes.stops (Desktop.stops_lent admits hl h1 nofun) rfl
  · exact passes.stops ((Desktop.stops_free admits hl).trans (Desktop.holdStop_some hx h2 (by simpa using Ne.symm h1))) rfl
  · have hstops : s.deskNow.stops q (.hold holder) = none :=
      (Desktop.stops_free admits hl).trans (Desktop.holdStop_none fun p x hx => (hown p x hx).symm.imp_right named)
    refine ⟨passes.limitReached hs hstops, fun hlim hfull => passes.tableFull hs hstops hlim ?_,
      fun h1 h2 h3 hj hne => passes.journalFull hs (plan _ rfl hl (fun p x hx => ?_) h1 h2 h3) rfl (by simp) hj⟩
    · rw [hl]
      exact hfull
    · exact ⟨(hown p x hx).resolve_right (hne p x hx), hne p x hx⟩

end Sys2Proof.Machine
end

section
/-! PROOFS. The transactions of an engine outside a session: Discharge, Renew, the borrower check and the inquiries (R20,
R22, R51 to R56, R59, R72, R73). O30, O31, O32, O33. -/

namespace Sys2Proof.Machine

/-! ### The engine's end -/

section Idle
variable {s t : State} {d : Desk} {sc : Scan} {f : Fields}

/-- The engine that has this scan in service outside a session, as the store's outcome finds it. -/
structure State.InIdle (s : State) (d : Desk) (sc : Scan) : Prop where
  service : (s.eng d).service = some (.entry sc)
  ctx : (s.eng d).ctx = .idle
  deferred : (s.eng d).deferred = []

theorem State.ServesIdle.inIdle {txn : Txn} (h : s.ServesIdle d txn sc) (ht : t.eng d = s.eng d) : t.InIdle d sc :=
  ⟨ht ▸ h.service, ht ▸ h.ctx, ht ▸ h.deferred⟩

theorem State.InIdle.result (h : s.InIdle d sc) (hf : f.verdict ≠ .returned ∨ f.holder = none) :
    s.engineScan d false f = s.setEng d ((s.eng d).ended sc.label.digits f) := by
  rw [State.engineScan_plain h.service h.deferred, State.plainDone_result hf, State.putResult, State.rested_setEng,
    Engine.restIdle_other (by simp [h.ctx])]
  rfl

theorem State.InIdle.trapped {holder : Ident} {deadline : Nat} (h : s.InIdle d sc) (hv : f.verdict = .returned)
    (hh : f.holder = some holder) (hdl : f.deadline = some deadline) :
    s.engineScan d false f =
      s.holdSlipOffered d ((s.eng d).ended sc.label.digits f)
        (.hold d sc.label.ident (holder.serial % 10000) deadline) := by
  rw [State.engineScan_plain h.service h.deferred, State.plainDone_trapped hv hh hdl, State.putResult,
    State.offerSlip_rested]
  rfl

/-- What an engine outside a session answers with a result alone. -/
theorem State.ServesIdle.answers {txn : Txn} {i : Instr} (h : s.ServesIdle d txn sc)
    (hp : s.Serves (.engine d) i txn (Plan.answer s.circ (.scan f))) (hi : txn.isIssue = false)
    (hf : f.verdict ≠ .returned ∨ f.holder = none) :
    exec i s = .next ((s.tookFrom (.engine d)).setEng d ((s.eng d).ended sc.label.digits f)) := by
  have ends := (h.inIdle (State.eng_tookFrom s (.engine d) d)).result hf
  rw [State.eng_tookFrom] at ends
  refine hp.answers.trans (congrArg _ ?_)
  change (s.tookFrom (.engine d)).engineScan d txn.isIssue f = _
  rw [hi, ends]

theorem State.ServesIdle.journalFull {txn : Txn} {i : Instr} {p : Plan} (h : s.ServesIdle d txn sc)
    (hp : s.Serves (.engine d) i txn p) (hi : txn.isIssue = false) (hf : p.refused = verdictReply .journalFull)
    (hr : p.recs ≠ []) (hj : s.journal.idle) (ha : s.journal.accept s.now p.recs = .full) :
    exec i s
      = .next ((s.tookFrom (.engine d)).setEng d ((s.eng d).ended sc.label.digits { verdict := .journalFull })) := by
  have ends := (h.inIdle (State.eng_tookFrom s (.engine d) d)).result (f := { verdict := .journalFull }) (.inl nofun)
  rw [State.eng_tookFrom] at ends
  refine (hp.full hf hr hj ha).trans (congrArg _ ?_)
  change (s.tookFrom (.engine d)).engineScan d txn.isIssue _ = _
  rw [hi, ends]

theorem State.ServesIdle.completes {txn : Txn} {i : Instr} {p : Plan} {j : Journal} (h : s.ServesIdle d txn sc)
    (hp : s.Serves (.engine d) i txn p) (hi : txn.isIssue = false) (hf : p.reply = .scan f)
    (hv : f.verdict ≠ .returned ∨ f.holder = none)
    (hr : p.recs ≠ []) (hj : s.journal.idle) (ha : s.journal.accept s.now p.recs = .done j) :
    exec i s = .next ((s.committed (.engine d) p.circ j).setEng d ((s.eng d).ended sc.label.digits f)) := by
  have ends := (h.inIdle (State.eng_committed s (.engine d) p.circ j d)).result hv
  rw [State.eng_committed] at ends
  refine (hp.accepted hf hr hj ha).trans (congrArg _ ?_)
  change (s.committed (.engine d) p.circ j).engineScan d txn.isIssue f = _
  rw [hi, ends]

theorem State.ServesIdle.traps {txn : Txn} {i : Instr} {p : Plan} {j : Journal} {holder : Ident} {deadline : Nat}
    (h : s.ServesIdle d txn sc)
    (hp : s.Serves (.engine d) i txn p) (hi : txn.isIssue = false) (hf : p.reply = .scan f) (hv : f.verdict = .returned)
    (hh : f.holder = some holder) (hdl : f.deadline = some deadline)
    (hr : p.recs ≠ []) (hj : s.journal.idle) (ha : s.journal.accept s.now p.recs = .done j) :
    exec i s
      = .next ((s.committed (.engine d) p.circ j).holdSlipOffered d ((s.eng d).ended sc.label.digits f)
          (.hold d sc.label.ident (holder.serial % 10000) deadline)) := by
  have ends := (h.inIdle (State.eng_committed s (.engine d) p.circ j d)).trapped hv hh hdl
  rw [State.eng_committed] at ends
  refine (hp.accepted hf hr hj ha).trans (congrArg _ ?_)
  change (s.committed (.engine d) p.circ j).engineScan d txn.isIssue f = _
  rw [hi, ends]

end Idle

/-! ### Discharge -/

section Discharge
variable {w : Desktop} {src : Desk} {item : Ident} {time : Time} {backdate : Option Nat} {slot place : Nat} {l : Loan} {h : Hold}

theorem Circ.waitingHold_none {c : Circ} (hh : ∀ p h, c.holdOf item = some (p, h) → h.state = .trapped) :
    c.waitingHold item = none := by
  unfold Circ.waitingHold
  split
  next p h hx => rw [hh p h hx]; rfl
  · rfl

theorem Circ.waitingHold_some {c : Circ} (hx : c.holdOf item = some (place, h)) (hs : h.state = .waiting) :
    c.waitingHold item = some (place, h) := by
  simp only [Circ.waitingHold, hx, if_pos hs]

section Return
variable {back : Time} {used : Option Nat}

theorem Desktop.planDischarge_loan (hb : effectiveReturn time backdate w.today = (back, used))
    (hl : w.circ.loanOf item = some (slot, l)) (hw : w.circ.waitingHold item = none) :
    w.planDischarge src item time backdate =
      { recs := [dischargeDraft src time l (w.fine l back) used false]
        circ := w.circ.discharge slot l (w.fine l back)
        reply := .scan { verdict := .returned, fine := some (w.fine l back), backdated := used.isSome }
        refused := verdictReply .journalFull } := by
  simp only [Desktop.planDischarge, hl, hw, hb]

theorem Desktop.planDischarge_trap (hb : effectiveReturn time backdate w.today = (back, used))
    (hl : w.circ.loanOf item = some (slot, l)) (hw : w.circ.waitingHold item = some (place, h)) :
    w.planDischarge src item time backdate =
      { recs := [dischargeDraft src time l (w.fine l back) used false, trapDraft src time h]
        circ := (w.circ.discharge slot l (w.fine l back)).trap place h (pickupDeadline w.settings w.today)
        reply := .scan
          { verdict := .returned, fine := some (w.fine l back), backdated := used.isSome, holder := some h.holder,
            deadline := some (pickupDeadline w.settings w.today) }
        refused := verdictReply .journalFull } := by
  simp only [Desktop.planDischarge, hl, hw, hb]

end Return

theorem Desktop.planDischarge_foreign (hl : w.circ.loanOf item = none) (hf : w.settings.isForeign item.lib = true) :
    w.planDischarge src item time backdate = Plan.answer w.circ (verdictReply .foreignLabel) := by
  simp only [Desktop.planDischarge, hl, hf, if_true]

theorem Desktop.planDischarge_notOnLoan (hl : w.circ.loanOf item = none) (hf : w.settings.isForeign item.lib = false)
    (hw : w.circ.waitingHold item = none) :
    w.planDischarge src item time backdate = Plan.answer w.circ (verdictReply .notOnLoan) := by
  simp only [Desktop.planDischarge, hl, hf, Bool.false_eq_true, if_false, hw]

theorem Desktop.planDischarge_hold (hl : w.circ.loanOf item = none) (hf : w.settings.isForeign item.lib = false)
    (hw : w.circ.waitingHold item = some (place, h)) :
    w.planDischarge src item time backdate =
      { recs := [trapDraft src time h]
        circ := w.circ.trap place h (pickupDeadline w.settings w.today)
        reply := .scan { verdict := .returned, holder := some h.holder,
                         deadline := some (pickupDeadline w.settings w.today) }
        refused := verdictReply .journalFull } := by
  simp only [Desktop.planDischarge, hl, hf, Bool.false_eq_true, if_false, hw]

end Discharge

/-- Settles O30: the plan of a Discharge by the item's loan and its Waiting hold, and the engine's end with it. -/
theorem dischargeReturnsAndTraps : Obligations.DischargeReturnsAndTraps := by
  intro d s item time backdate sc h
  have serves : ∀ p, s.deskNow.planDischarge d item time backdate = p →
      s.Serves (.engine d) (.discharge d) (.discharge item time backdate) p := fun p hp =>
    .of_takeIf rfl h.turn rfl (congrArg some hp)
  extract_lets t e digits deadline slip trap trapped
  refine ⟨fun slot l hl hj => ?_, fun hl => ⟨fun hf => ?_, fun hf => ⟨fun hh => ?_, fun p x hx hw hj => ?_⟩⟩⟩
  · refine ⟨fun hh => ?_, fun p x hx hw => ?_⟩
    · have plan := serves _ (Desktop.planDischarge_loan rfl hl (Circ.waitingHold_none hh))
      exact ⟨fun j ha => h.completes plan rfl rfl (.inr rfl) nofun hj ha, fun ha => h.journalFull plan rfl rfl nofun hj ha⟩
    · have plan := serves _ (Desktop.planDischarge_trap rfl hl (Circ.waitingHold_some hx hw))
      refine ⟨fun j ha => (h.traps plan rfl rfl rfl rfl rfl nofun hj ha).trans ?_,
        fun ha => h.journalFull plan rfl rfl nofun hj ha⟩
      rw [Circ.trap, Circ.discharge_holds]
      rfl
  · exact h.answers (serves _ (Desktop.planDischarge_foreign hl hf)) rfl (.inl nofun)
  · exact h.answers (serves _ (Desktop.planDischarge_notOnLoan hl hf (Circ.waitingHold_none hh))) rfl (.inl nofun)
  · have plan := serves _ (Desktop.planDischarge_hold hl hf (Circ.waitingHold_some hx hw))
    exact ⟨fun j ha => h.traps plan rfl rfl rfl rfl rfl nofun hj ha, fun ha => h.journalFull plan rfl rfl nofun hj ha⟩

end Sys2Proof.Machine
end

section
/-! PROOFS. The transactions of an engine outside a session that follow: Renew, the borrower check and the inquiries (R22,
R27, R54 to R56, R59, R72, R73). O31, O32, O33. -/

namespace Sys2Proof.Machine

/-! ### Renew -/

section Renew
variable {w : Desktop} {l : Loan} {b : Borrower} {time : Time}

theorem Circ.categoryOf_some {c : Circ} {id : Ident} {carried : Nat} (h : c.borrower id = some b) :
    c.categoryOf id carried = b.category := by
  simp only [Circ.categoryOf, h]

theorem Circ.expiryOf_some {c : Circ} {id : Ident} (h : c.borrower id = some b) : c.expiryOf id = b.expiry := by
  simp only [Circ.expiryOf, h, Option.bind_some]

theorem Desktop.renewStops_central (hb : w.circ.borrower l.borrower = some b) (hc : b.central ≠ none) :
    w.renewStops l time = some { verdict := .centralBlock, reasons := some (reasonsOf w.settings w.today b) } := by
  simp only [Desktop.renewStops, Desktop.centralOf_some hb hc]

/-- Checks 3 to 5 of R54, for a borrower with no CENTRAL reason. -/
theorem Desktop.renewStops_pass (hb : w.circ.borrower l.borrower = some b) (hc : b.central = none) :
    w.renewStops l time =
      if (w.settings.rule l.cls b.category).renewals ≤ l.renewals then some { verdict := .renewLimit }
      else if (w.circ.holdOf l.item).isSome then some { verdict := .renewHeld }
      else if l.due.earlier time ∧ (w.settings.category b.category).renewOverdue = false then
        some { verdict := .renewOverdue }
      else none := by
  have central : w.centralOf l.borrower = none :=
    Desktop.centralOf_none fun x hx => by rw [hb] at hx; cases hx; exact hc
  simp only [Desktop.renewStops, central, Circ.categoryOf_some hb]

section
variable (hb : w.circ.borrower l.borrower = some b) (hc : b.central = none)
include hb hc

theorem Desktop.renewStops_limit (h : (w.settings.rule l.cls b.category).renewals ≤ l.renewals) :
    w.renewStops l time = some { verdict := .renewLimit } := by
  rw [Desktop.renewStops_pass hb hc, if_pos h]

variable (hn : l.renewals < (w.settings.rule l.cls b.category).renewals)
include hn

theorem Desktop.renewStops_held (h : w.circ.holdOf l.item ≠ none) :
    w.renewStops l time = some { verdict := .renewHeld } := by
  rw [Desktop.renewStops_pass hb hc, if_neg (Nat.not_le.mpr hn), if_pos (Option.isSome_iff_ne_none.mpr h)]

theorem Desktop.renewStops_overdue (h : w.circ.holdOf l.item = none) (hlate : l.due.earlier time = true)
    (ho : (w.settings.category b.category).renewOverdue = false) :
    w.renewStops l time = some { verdict := .renewOverdue } := by
  rw [Desktop.renewStops_pass hb hc, if_neg (Nat.not_le.mpr hn), if_neg (by simp [h]), if_pos ⟨hlate, ho⟩]

theorem Desktop.renewStops_none (h : w.circ.holdOf l.item = none)
    (hlate : ¬ l.due.earlier time = true ∨ (w.settings.category b.category).renewOverdue = true) :
    w.renewStops l time = none := by
  rw [Desktop.renewStops_pass hb hc, if_neg (Nat.not_le.mpr hn), if_neg (by simp [h]), if_neg]
  rintro ⟨h1, h2⟩
  rcases hlate with h3 | h3
  · exact h3 h1
  · simp [h2] at h3

end

variable {src : Desk} {item : Ident} {slot : Nat}

theorem Desktop.planRenew_none (hl : w.circ.loanOf item = none) :
    w.planRenew src item time =
      Plan.answer w.circ (verdictReply (if w.settings.isForeign item.lib then .foreignLabel else .notOnLoan)) := by
  simp only [Desktop.planRenew, hl]

theorem Desktop.planRenew_stopped {f : Fields} (hl : w.circ.loanOf item = some (slot, l))
    (hs : w.renewStops l time = some f) : w.planRenew src item time = Plan.answer w.circ (.scan f) := by
  simp only [Desktop.planRenew, hl, hs]

theorem Desktop.planRenew_noExtension (hl : w.circ.loanOf item = some (slot, l)) (hs : w.renewStops l time = none)
    (hb : w.circ.borrower l.borrower = some b)
    (hd : l.due.earlier (dueFor w.settings (w.settings.rule l.cls b.category) time b.expiry) = false) :
    w.planRenew src item time = Plan.answer w.circ (verdictReply .noExtension) := by
  simp only [Desktop.planRenew, hl, hs, Circ.categoryOf_some hb, Circ.expiryOf_some hb, hd, if_true]

/-- The plan of a Renew that passes: the loan renewed, and the fine of a loan overdue charged (R55, R56). -/
theorem Desktop.planRenew_renews (hl : w.circ.loanOf item = some (slot, l)) (hs : w.renewStops l time = none)
    (hb : w.circ.borrower l.borrower = some b)
    (hd : l.due.earlier (dueFor w.settings (w.settings.rule l.cls b.category) time b.expiry) = true) :
    w.planRenew src item time =
      let rule := w.settings.rule l.cls b.category
      let due := dueFor w.settings rule time b.expiry
      let fine := fineFor w.settings rule l.unit l.due time
      let charged := if l.due.earlier time then some fine else none
      { recs := [{ source := .desk src, time := some time, flags := loanFlags l.foreign rule.unit,
                   body := .renew l.item l.borrower due charged }]
        circ := Circ.setBorrower { w.circ with loans := Table.put w.circ.loans slot (w.renewed l rule time due) } l.borrower
          (Borrower.charge { b with overdue := b.overdue - (if l.overdue then 1 else 0) }
            (if l.due.earlier time then fine else 0))
        reply := .scan { verdict := .renewed, due := some due, fine := charged }
        refused := verdictReply .journalFull } := by
  simp only [Desktop.planRenew, hl, hs, Circ.categoryOf_some hb, Circ.expiryOf_some hb, hd, Bool.true_eq_false, if_false, hb,
    Desktop.fine]

end Renew

/-- Settles O31: the checks of a Renew in their order, and the plan of one that passes them. -/
theorem renewMovesTheDue : Obligations.RenewMovesTheDue := by
  intro d s item time sc h e answers
  have serves : ∀ p, s.deskNow.planRenew d item time = p → s.Serves (.engine d) (.renew d) (.renew item time) p :=
    fun p hp => .of_takeIf rfl h.turn rfl (congrArg some hp)
  have answered : ∀ f, s.deskNow.planRenew d item time = Plan.answer s.circ (.scan f) → f.verdict ≠ .returned → answers f :=
    fun f hp hf => h.answers (serves _ hp) rfl (.inl hf)
  refine ⟨fun hl => ?_, fun slot l b hl hb => ?_⟩
  · have plan := Desktop.planRenew_none (w := s.deskNow) (src := d) (time := time) hl
    refine ⟨fun hf => answered { verdict := .foreignLabel } (plan.trans ?_) nofun,
      fun hf => answered { verdict := .notOnLoan } (plan.trans ?_) nofun⟩ <;>
    · rw [show s.deskNow.settings = s.settings from rfl, hf]
      rfl
  · have stopped := fun f hs => answered f (Desktop.planRenew_stopped (w := s.deskNow) hl hs)
    refine ⟨fun hc => stopped _ (Desktop.renewStops_central hb hc) nofun, fun hc =>
      ⟨fun hn => stopped _ (Desktop.renewStops_limit hb hc hn) nofun, fun hn =>
      ⟨fun hh => stopped _ (Desktop.renewStops_held hb hc hn hh) nofun, fun hh =>
      ⟨fun hlate ho => stopped _ (Desktop.renewStops_overdue hb hc hn hh hlate ho) nofun, fun hlate => ?_⟩⟩⟩⟩
    have stops := Desktop.renewStops_none (w := s.deskNow) (time := time) hb hc hn hh hlate
    refine ⟨fun hdue => answered { verdict := .noExtension } (Desktop.planRenew_noExtension hl stops hb hdue) nofun,
      fun hdue hj => ?_⟩
    have plan := serves _ (Desktop.planRenew_renews hl stops hb hdue)
    refine ⟨fun ha => h.journalFull plan rfl rfl (by simp) hj ha, fun j ha => ?_⟩
    refine (h.completes plan rfl rfl (.inl nofun) (by simp) hj ha).trans ?_
    have charged : (if l.due.earlier time = true then fineFor s.settings (s.settings.rule l.cls b.category) l.unit l.due time
        else 0) = (if l.due.earlier time = true then
          some (fineFor s.settings (s.settings.rule l.cls b.category) l.unit l.due time) else none).getD 0 := by
      split <;> rfl
    rw [← charged]
    rfl

end Sys2Proof.Machine
end

section
/-! PROOFS. The borrower check and the inquiries of an engine (R22, R27, R59, R71 to R73). O32, O33. -/

namespace Sys2Proof.Machine

/-! ### What the engine makes of a borrower check -/

section Check
variable {s : State} {d : Desk} {sc : Scan} {rs : List Reason}

theorem State.checkDone_refused (v : Verdict) :
    (s.checkDone d sc (.refused v)).rested d =
      s.setEng d { (s.eng d).ended sc.label.digits { verdict := v } with ctx := .idle, idleMs := none } := by
  rw [State.checkDone, State.putResult, State.toIdle_rested]
  rfl

theorem State.checkDone_clear :
    (s.checkDone d sc (.reasons [])).rested d =
      s.setEng d (((s.eng d).ended sc.label.digits { verdict := .borrowerSet }).inSession (newSession sc false)) := by
  rw [State.checkDone, State.putResult, State.toSession_rested]
  rfl

theorem State.checkDone_central (h : hasCentral rs = true) :
    (s.checkDone d sc (.reasons rs)).rested d =
      s.setEng d
        { (s.eng d).ended sc.label.digits { verdict := .centralBlock, reasons := some rs } with
          ctx := .idle, idleMs := none } := by
  cases rs with
  | nil => nomatch h
  | cons r rs =>
    rw [State.checkDone, if_pos h, State.putResult, State.toIdle_rested]
    · rfl
    · nofun

theorem State.checkDone_held (h : hasCentral rs = false) (hne : rs ≠ []) :
    (s.checkDone d sc (.reasons rs)).rested d =
      s.setEng d ((s.eng d).holding { scan := sc, stop := .blocked rs, session := none }) := by
  cases rs with
  | nil => exact absurd rfl hne
  | cons r rs =>
    have rested := State.toAwait_rested s d (s.eng d) { scan := sc, stop := .blocked (r :: rs), session := none }
    rw [State.setEng_eng] at rested
    rw [State.checkDone, if_neg (by simp [h]), rested]
    nofun

section Override
variable {h : HeldScan} {r : InProgress}

theorem State.InOverride.checkRefused (ho : s.InOverride d h r) (v : Verdict) :
    s.engineCheck d (.refused v) =
      (s.setEng d { (s.eng d).ended h.scan.label.digits { verdict := v } with ctx := .idle, idleMs := none }).replied
        (.desk d) r .ok .empty := by
  rw [State.engineCheck_override ho.service ho.ctx ho.deferred, State.overrideCheckDone, State.rested_respond,
    State.putResult, State.toIdle_rested, State.respond_setEng ho.port]
  rfl

theorem State.InOverride.checkCentral (ho : s.InOverride d h r) (hc : hasCentral rs = true) :
    s.engineCheck d (.reasons rs) =
      (s.setEng d
        { (s.eng d).ended h.scan.label.digits { verdict := .centralBlock, reasons := some rs } with
          ctx := .idle, idleMs := none }).replied (.desk d) r .ok .empty := by
  have done : s.overrideCheckDone d h (.reasons rs) =
      ((s.putResult d h.scan.label.digits { verdict := .centralBlock, reasons := some rs }).toIdle d).respond (.desk d) .ok
        .empty := by
    simp only [State.overrideCheckDone, hc, if_true]
  rw [State.engineCheck_override ho.service ho.ctx ho.deferred, done, State.rested_respond, State.putResult,
    State.toIdle_rested, State.respond_setEng ho.port]
  rfl

theorem State.InOverride.checkPassed (ho : s.InOverride d h r) (hc : hasCentral rs = false) :
    s.engineCheck d (.reasons rs) =
      (s.setEng d
        (((s.eng d).ended h.scan.label.digits { verdict := .borrowerSet, reasons := some rs }).inSession
          (newSession h.scan true))).replied (.desk d) r .ok .empty := by
  have done : s.overrideCheckDone d h (.reasons rs) =
      ((s.putResult d h.scan.label.digits { verdict := .borrowerSet, reasons := some rs }).toSession d
        (newSession h.scan true)).respond (.desk d) .ok .empty := by
    simp only [State.overrideCheckDone, hc, Bool.false_eq_true, if_false]
  rw [State.engineCheck_override ho.service ho.ctx ho.deferred, done, State.rested_respond, State.putResult,
    State.toSession_rested, State.respond_setEng ho.port]
  rfl

end Override

end Check

/-! ### The plan of a borrower check -/

section Plans
variable {w : Desktop} {id : Ident}

theorem Desktop.planCheck_foreign (h : w.settings.isForeign id.lib = true) :
    w.planCheck id = Plan.answer w.circ (.check (.refused .foreignLabel)) := by
  rw [Desktop.planCheck, if_pos h]

/-- The reasons list of a borrower, empty without a record (R72). -/
def Desktop.checkReasons (w : Desktop) (id : Ident) : List Reason :=
  match w.circ.borrower id with
  | none => []
  | some b => reasonsOf w.settings w.today b

theorem Desktop.planCheck_reasons (h : ¬ w.settings.isForeign id.lib = true) :
    w.planCheck id = Plan.answer w.circ (.check (.reasons (w.checkReasons id))) := by
  rw [Desktop.planCheck, if_neg h, Desktop.checkReasons]
  cases w.circ.borrower id <;> rfl

end Plans

/-- An engine's check, served outside a session, leaves the context Idle with the context Idle it found. -/
theorem Engine.idle_ended {e : Engine} (h : e.ctx = .idle) (label : List Nat) (f : Fields) :
    { e.ended label f with ctx := .idle, idleMs := none } = { e.ended label f with idleMs := none } := by
  rw [← h]
  rfl

/-- The reasons of a record in their order (R71, R72). -/
theorem reasonsOf_parts (c : Settings) (today : Nat) (b : Borrower) :
    ∃ l f o x k : List Reason, reasonsOf c today b = l ++ k ++ f ++ o ++ x
      ∧ (b.localBlock = none → l = []) ∧ (∀ y, b.localBlock = some y → l = [.localBlock y.code])
      ∧ (b.central = none → k = []) ∧ (∀ y, b.central = some y → k = [.central y.code])
      ∧ ((c.category b.category).threshold ≠ 0 ∧ (c.category b.category).threshold ≤ b.owed → f = [.fines])
      ∧ ((c.category b.category).threshold = 0 ∨ b.owed < (c.category b.category).threshold → f = [])
      ∧ (0 < b.overdue → o = [.overdue]) ∧ (b.overdue = 0 → o = [])
      ∧ (∀ y, b.expiry = some y → y < today → x = [.expired])
      ∧ ((b.expiry = none ∨ ∃ y, b.expiry = some y ∧ today ≤ y) → x = []) := by
  refine ⟨_, _, _, _, _, by simp only [reasonsOf, derivedReasons, ← List.append_assoc]; rfl, ?_, ?_, ?_, ?_, ?_, ?_, ?_, ?_, ?_, ?_⟩
  · intro h; rw [h]
  · intro y h; rw [h]
  · intro h; rw [h]
  · intro y h; rw [h]
  · exact fun h => if_pos h
  · exact fun h => if_neg (by omega)
  · exact fun h => if_pos h
  · exact fun h => if_neg (by omega)
  · intro y h hy; rw [h]; exact if_pos hy
  · rintro (h | ⟨y, h, hy⟩)
    · rw [h]
    · rw [h]; exact if_neg (Nat.not_lt.mpr hy)

/-- Settles O32: the reply of the check by the borrower's library and reasons, and the engine's end with it. -/
theorem borrowerCheckDecidesTheSession : Obligations.BorrowerCheckDecidesTheSession := by
  refine ⟨fun d s id => ?_, fun c today b => ?_⟩
  · intro t e rs foreign fresh
    have hrs : s.deskNow.checkReasons id = rs := rfl
    have answers : ∀ x, s.turnOf (.engine d) = some (.borrowerCheck id) →
        s.deskNow.planCheck id = Plan.answer s.circ (.check x) →
        exec (.borrowerCheck d) s = .next (t.engineCheck d x) := fun x h hp =>
      (State.Serves.of_takeIf rfl h rfl (congrArg some hp)).answers
    have refused := fun h hf => answers _ h (Desktop.planCheck_foreign (w := s.deskNow) hf)
    have listed := fun h hf => answers _ h (Desktop.planCheck_reasons (w := s.deskNow) hf)
    refine ⟨fun sc h => ?_, fun held r h => ?_⟩
    · have entry := h.inIdle (State.eng_tookFrom s (.engine d) d)
      have ends := fun x => State.engineCheck_entry entry.service entry.deferred x
      refine ⟨fun hf => ?_, fun hf hnil => ?_, fun hf hc => ?_, fun hf hne hc => ?_⟩
      · rw [refused h.turn hf, ends, State.checkDone_refused, State.eng_tookFrom, Engine.idle_ended h.ctx]
      · rw [listed h.turn hf, ends, hrs, hnil, State.checkDone_clear, State.eng_tookFrom]
        rfl
      · rw [listed h.turn hf, ends, hrs, State.checkDone_central hc, State.eng_tookFrom, Engine.idle_ended h.ctx]
      · rw [listed h.turn hf, ends, hrs, State.checkDone_held hc hne, State.eng_tookFrom]
    · have found : t.InOverride d held r := h.inOverride (State.eng_tookFrom ..) (State.port_tookFrom ..)
      have engine : t.eng d = e := State.eng_tookFrom ..
      refine ⟨fun hf => ?_, fun hf hc => ?_, fun hf hc => ?_⟩
      · rw [refused h.turn hf, found.checkRefused, engine]
      · rw [listed h.turn hf, hrs, found.checkCentral hc, engine]
      · rw [listed h.turn hf, hrs, found.checkPassed hc, engine]
        rfl
  · obtain ⟨l, f, o, x, k, parts⟩ := reasonsOf_parts c today b
    exact ⟨l, f, o, x, k, parts⟩

/-- Settles O33: the plans of the two inquiries, and the engine's end with a result alone. -/
theorem engineInquiriesAnswerInfo : Obligations.EngineInquiriesAnswerInfo := by
  intro d s id sc t e
  refine ⟨fun h => ?_, fun h => ?_⟩
  · intro answers loan hold
    have answered : ∀ f, s.deskNow.planItemInquiry id = Plan.answer s.circ (.scan f) → f.verdict ≠ .returned → answers f :=
      fun f hp hf => h.answers (.of_takeIf rfl h.turn rfl (congrArg some hp)) rfl (.inl hf)
    refine ⟨fun hl hh hf => answered { verdict := .foreignLabel } (if_pos ⟨hl, hh, hf⟩) nofun, fun hk =>
      answered _ (if_neg ?_) nofun⟩
    rintro ⟨hl, hh, hf⟩
    rcases hk with hk | hk | hk
    · exact hk hl
    · exact hk hh
    · rw [show s.settings.isForeign id.lib = true from hf] at hk
      nomatch hk
  · intro answers
    have answered : ∀ f, s.deskNow.planBorrowerInquiry id = Plan.answer s.circ (.scan f) → f.verdict ≠ .returned →
        answers f :=
      fun f hp hf => h.answers (.of_takeIf rfl h.turn rfl (congrArg some hp)) rfl (.inl hf)
    refine ⟨fun b hb => answered _ ?_ nofun, fun hb hf => answered { verdict := .info, reasons := some [] } ?_ nofun,
      fun hb hf => answered { verdict := .foreignLabel } ?_ nofun⟩
    · simp only [Desktop.planBorrowerInquiry, show s.deskNow.circ.borrower id = some b from hb]
      rfl
    · simp only [Desktop.planBorrowerInquiry, show s.deskNow.circ.borrower id = none from hb,
        show s.deskNow.settings.isForeign id.lib = false from hf]
      rfl
    · simp only [Desktop.planBorrowerInquiry, show s.deskNow.circ.borrower id = none from hb,
        show s.deskNow.settings.isForeign id.lib = true from hf]
      rfl

end Sys2Proof.Machine
end

section
/-! PROOFS. The store's transactions of a port: its inquiries, Payment and the local blocks (R41, R60, R75 to R79, R163), and
the uplink's attention line (R176, R193). O34, O35, O36. -/

namespace Sys2Proof.Machine

/-! ### The store's answer to a port -/

section Port
variable {s : State} {p : Port} {d : Desk} {r : InProgress} {i : Instr} {t : Txn} {pl : Plan} {code : RespCode} {ans : Answer}

theorem answerPort_portClaimant (p : Port) : (portClaimant p).answerPort = p := by cases p <;> rfl

/-- What a transaction without records is answered with. -/
theorem State.Serves.replies (h : s.Serves (portClaimant p) i t (Plan.answer s.circ (.port code ans)))
    (hr : (s.port p).inProgress = some r) :
    exec i s = .next ((s.tookFrom (portClaimant p)).replied p r code ans) := by
  refine h.answers.trans (congrArg _ ?_)
  change State.respond _ (portClaimant p).answerPort _ _ = _
  rw [answerPort_portClaimant, State.respond_replied (by rwa [State.port_tookFrom])]

theorem State.Serves.refuses (h : s.Serves (.port d) i t pl) (hf : pl.refused = .port code ans) (hr : pl.recs ≠ [])
    (hp : (s.port (.desk d)).inProgress = some r) (hj : s.journal.idle) (ha : s.journal.accept s.now pl.recs = .full) :
    exec i s = .next ((s.tookFrom (.port d)).replied (.desk d) r code ans) := by
  refine (h.full hf hr hj ha).trans (congrArg _ ?_)
  exact State.respond_replied (by rwa [State.port_tookFrom]) ..

theorem State.Serves.commits {j : Journal} (h : s.Serves (.port d) i t pl) (hf : pl.reply = .port code ans)
    (hr : pl.recs ≠ []) (hp : (s.port (.desk d)).inProgress = some r) (hj : s.journal.idle)
    (ha : s.journal.accept s.now pl.recs = .done j) :
    exec i s = .next ((s.committed (.port d) pl.circ j).replied (.desk d) r code ans) := by
  refine (h.accepted hf hr hj ha).trans (congrArg _ ?_)
  exact State.respond_replied (by rwa [State.port_committed]) ..

end Port

/-! ### Inquiries -/

section Inquiries
variable {s : State} {p : Port} {tag : Byte}

theorem State.inquiry_free {k : ReqKind} {body : List Byte} {kind : Txn → Bool} {t : List Byte → Option Txn}
    (h : s.free p) (hp : k.permitted p = true) (hl : k.allows body.length = true) (h1 : k ≠ .restartArm)
    (h2 : k ≠ .restart) :
    s.inquiry p k kind t (.request tag body) = State.inquired p kind (t body) (s.taken p k tag) := by
  rw [State.inquiry_request, State.request_free _ h hp hl h1 h2]

theorem exec_inquireItem {body : List Byte} (h : s.free p) (hl : body.length = 6) :
    exec (.inquireItem p (.request tag body)) s =
      .next (State.inquired p Txn.isInquireItem ((readIdentBody body).map .inquireItem) (s.taken p .inquireItem tag)) :=
  congrArg Host.Outcome.next
    (State.inquiry_free h (by cases p <;> rfl) (by simp [ReqKind.allows, hl]) nofun nofun)

theorem exec_inquireBorrower {body : List Byte} (h : s.free p) (hl : body.length = 6) :
    exec (.inquireBorrower p (.request tag body)) s =
      .next (State.inquired p Txn.isInquireBorrower ((readIdentBody body).map .inquireBorrower)
        (s.taken p .inquireBorrower tag)) :=
  congrArg Host.Outcome.next
    (State.inquiry_free h (by cases p <;> rfl) (by simp [ReqKind.allows, hl]) nofun nofun)

theorem exec_identify (h : s.free p) :
    exec (.identify p (.request tag [])) s =
      .next (((s.taken p .identify tag).sendTxn (portClaimant p) .identify).takeIf (portClaimant p) Txn.isIdentify) :=
  congrArg Host.Outcome.next (State.inquiry_free h (by cases p <;> rfl) rfl nofun nofun)

end Inquiries

theorem Desktop.planInquireItem_found {w : Desktop} {id : Ident} (h : w.circ.loanOf id ≠ none ∨ w.circ.holdOf id ≠ none) :
    w.planInquireItem id =
      Plan.answer w.circ (.port .ok (.item (w.circ.loanOf id) ((w.circ.holdOf id).map (fun e => e.2)))) := by
  unfold Desktop.planInquireItem
  split
  next hl hh => rw [hl, hh] at h; simp at h
  next => rfl

theorem Desktop.planInquireItem_none {w : Desktop} {id : Ident} (h1 : w.circ.loanOf id = none) (h2 : w.circ.holdOf id = none) :
    w.planInquireItem id = Plan.answer w.circ (.port .notFound .empty) := by
  simp only [Desktop.planInquireItem, h1, h2]

/-! ### The attention line -/

theorem Journal.low_iff (j : Journal) :
    j.low = true ↔ (j.sectors.filter (fun x => decide (x.st = .erased))).length ≤ 4 := decide_eq_true_iff

/-- A retained buffer waits for a sector while none is Erased. -/
theorem Journal.wantsSector_iff (j : Journal) :
    j.wantsSector = true ↔ (∃ b ∈ j.waiting, b.target = none) ∧ ∀ x ∈ j.sectors, x.st ≠ .erased := by
  simp [Journal.wantsSector, Journal.erasedCount, and_comm]

theorem State.uplinkAttention_iff (s : State) :
    s.uplinkAttention = true ↔
      (s.power = .running
          ∧ ((s.journal.sectors.filter (fun x => decide (x.st = .erased))).length ≤ 4 ∨ s.exch.tablesLost = true
            ∨ s.clock.valid = false))
        ∨ (s.power ≠ .off ∧ s.power ≠ .running ∧ (∃ b ∈ s.journal.waiting, b.target = none)
            ∧ ∀ x ∈ s.journal.sectors, x.st ≠ .erased) := by
  cases hp : s.power with
  | off => simp [State.uplinkAttention, hp]
  | starting k => rw [State.uplinkAttention_starting hp, Journal.wantsSector_iff]; simp
  | running => rw [← Journal.low_iff]; simp [State.uplinkAttention, hp, or_assoc]

/-- Settles O34: a request and its turn by what the store is sent, the answers by the three plans. -/
theorem portInquiriesAreAnsweredInTurn : Obligations.PortInquiriesAreAnsweredInTurn := by
  intro p s
  refine ⟨fun tag lib serial h hl hs => ⟨fun ok => ?_, fun bad => ?_⟩, fun tag h => exec_identify h, fun h => ?_,
    fun r hr => ⟨fun id h => ⟨fun hl hh => ?_, fun hk => ?_⟩, fun id h => ⟨fun hb => ?_, fun b hb => ?_⟩, fun h => ?_,
      s.uplinkAttention_iff⟩⟩
  · rw [exec_inquireItem h (by simp), exec_inquireBorrower h (by simp), readIdentBody_bytes hl hs, if_pos ok]
    exact ⟨rfl, rfl⟩
  · rw [exec_inquireItem h (by simp), exec_inquireBorrower h (by simp), readIdentBody_bytes hl hs, if_neg bad,
      ← State.respond_taken, ← State.respond_taken]
    exact ⟨rfl, rfl⟩
  · exact ⟨congrArg _ (State.takeIf_none h), congrArg _ (State.takeIf_none h), congrArg _ (State.takeIf_none h)⟩
  · exact (State.Serves.of_takeIf rfl h rfl (congrArg some (Desktop.planInquireItem_none (w := s.deskNow) hl hh))).replies hr
  · exact (State.Serves.of_takeIf rfl h rfl (congrArg some (Desktop.planInquireItem_found (w := s.deskNow) hk))).replies hr
  · have plan : s.deskNow.planInquireBorrower id = Plan.answer s.circ (.port .notFound .empty) := by
      simp only [Desktop.planInquireBorrower, show s.deskNow.circ.borrower id = none from hb]
      rfl
    exact (State.Serves.of_takeIf rfl h rfl (congrArg some plan)).replies hr
  · have plan : s.deskNow.planInquireBorrower id = Plan.answer s.circ (.port .ok
        (.borrower id b (derivedReasons s.settings s.clock.day b) (s.settings.category b.category).threshold)) := by
      simp only [Desktop.planInquireBorrower, show s.deskNow.circ.borrower id = some b from hb]
      rfl
    exact (State.Serves.of_takeIf rfl h rfl (congrArg some plan)).replies hr
  · exact (State.Serves.of_takeIf rfl h rfl rfl).replies hr

/-! ### Payment -/

section Payment
variable {w : Desktop} {src : Desk} {id : Ident} {amount : Nat} {now : Time} {b : Borrower}

theorem Desktop.planPayment_unknown (h : w.circ.borrower id = none) :
    w.planPayment src id amount now = Plan.answer w.circ (.port .notFound .empty) := by
  simp only [Desktop.planPayment, h]

theorem Desktop.planPayment_nothing (h : w.circ.borrower id = some b) (ho : b.owed = 0) :
    w.planPayment src id amount now = Plan.answer w.circ (.port .wrongState .empty) := by
  simp only [Desktop.planPayment, h, if_pos ho]

theorem Desktop.planPayment_taken (h : w.circ.borrower id = some b) (ho : b.owed ≠ 0) :
    w.planPayment src id amount now =
      { recs := [{ source := .desk src, time := some now, flags := { },
                   body := .payment id (min amount b.owed) (b.owed - min amount b.owed) }]
        circ := (w.circ.setBorrower id (b.pay (min amount b.owed))).dropEmpty id
        reply := .paid (min amount b.owed) (b.owed - min amount b.owed)
        refused := .port .journalFull .empty } := by
  simp only [Desktop.planPayment, h, if_neg ho]

/-- The record a payment leaves, or its removal when it is left empty (R66, R76). -/
theorem Circ.paid (c : Circ) (id : Ident) (b : Borrower) (taken : Nat) :
    (c.setBorrower id (b.pay taken)).dropEmpty id =
      { c with
        borrowers :=
          if b.loans = 0 ∧ b.owed - taken = 0 ∧ b.localBlock = none ∧ b.central = none then Table.del c.borrowers id.key
          else Table.put c.borrowers id.key
            { b with owed := b.owed - taken, clamped := if b.owed - taken = 0 then false else b.clamped } } := by
  have clamped : (b.clamped && decide (b.owed - taken ≠ 0)) = if b.owed - taken = 0 then false else b.clamped := by
    by_cases h : b.owed - taken = 0 <;> simp [h]
  rw [Circ.dropEmpty_setBorrower, ← clamped]
  exact congrArg (fun t => { c with borrowers := t }) (if_congr (Borrower.isEmpty_iff _) rfl rfl)

/-- A payment taken is answered with its receipt joined to the slip queue, or discarded (R76, R180). -/
theorem State.deliver_paid {u s : State} {d : Desk} {r : InProgress} {t : Txn} {p : Printer}
    (hr : (u.port (.desk d)).inProgress = some r) (hp : u.printer = p) (taken owed : Nat) :
    (p.queue.length < 8 →
        u.deliver (s.heldNow (.port d) t) (.paid taken owed) =
          State.replied { u with printer := p.join (.receipt d taken owed) } (.desk d) r .ok (.payment taken owed false))
      ∧ (8 ≤ p.queue.length →
          u.deliver (s.heldNow (.port d) t) (.paid taken owed) = u.replied (.desk d) r .ok (.payment taken owed true)) := by
  subst hp
  refine ⟨fun room => ?_, fun full => ?_⟩
  · have offered : u.offerReceipt d taken owed = ({ u with printer := u.printer.join (.receipt d taken owed) }, false) :=
      if_pos (decide_eq_true room)
    change (let (s1, dropped) := u.offerReceipt d taken owed; s1.respond (.desk d) .ok (.payment taken owed dropped)) = _
    rw [offered]
    exact State.respond_replied (by cases d <;> exact hr) ..
  · have offered : u.offerReceipt d taken owed = (u, true) :=
      if_neg (by simp [Printer.hasRoom]; omega)
    change (let (s1, dropped) := u.offerReceipt d taken owed; s1.respond (.desk d) .ok (.payment taken owed dropped)) = _
    rw [offered]
    exact State.respond_replied hr ..

end Payment

/-- Settles O35: the plan of a Payment by the record it finds; its receipt by the room in the slip queue; and the wait. -/
theorem paymentLowersWhatIsOwed : Obligations.PaymentLowersWhatIsOwed := by
  have serves : ∀ {d : Desk} {s : State} {id : Ident} {amount : Nat} {pl : Plan},
      s.turnOf (.port d) = some (.payment id amount) → s.deskNow.planPayment d id amount s.now = pl →
      s.Serves (.port d) (.paymentTransaction d) (.payment id amount) pl := fun h hp =>
    .of_takeIf rfl h rfl (congrArg some hp)
  refine ⟨fun d s id amount r h hr hj => ⟨fun hb => ?_, fun b hb => ⟨fun ho => ?_, fun ho => ?_⟩⟩,
    fun d s id amount b h hj hb ho ha => ?_⟩
  · exact State.Serves.replies (p := .desk d) (serves h (Desktop.planPayment_unknown hb)) hr
  · exact State.Serves.replies (p := .desk d) (serves h (Desktop.planPayment_nothing hb ho)) hr
  · have plan := serves h (Desktop.planPayment_taken hb ho)
    refine ⟨fun ha => plan.refuses rfl nofun hr hj ha, fun j ha => ?_⟩
    have done := plan.accepted rfl nofun hj ha
    rw [Circ.paid] at done
    have paid := fun circ => State.deliver_paid (u := s.committed (.port d) circ j) (s := s) (t := .payment id amount)
      (p := s.printer) (by rwa [State.port_committed]) (by cases d <;> rfl) (min amount b.owed) (b.owed - min amount b.owed)
    exact ⟨fun room => done.trans (congrArg _ ((paid _).1 room)), fun full => done.trans (congrArg _ ((paid _).2 full))⟩
  · have plan := serves h (Desktop.planPayment_taken hb ho)
    refine ⟨_, plan.runs, State.storeTake_waits plan.plan nofun hj ha, fun c => ?_⟩
    rw [State.storeTake_waits plan.plan nofun hj ha, State.turnOf]
    exact if_neg fun h => nomatch h.2.1

/-! ### Local blocks -/

section Local
variable {w : Desktop} {src : Desk} {id : Ident} {category code : Nat} {b : Borrower}

/-- The plan of SetLocalBlock on a record, the one it finds or a fresh one (R77). -/
def Desktop.localSet (w : Desktop) (src : Desk) (id : Ident) (code : Nat) (b : Borrower) : Plan :=
  { recs := [{ source := .desk src, time := none, flags := { }, body := .localSet id code }]
    circ := w.circ.setBorrower id { b with localBlock := some { code := code, desk := src } }
    reply := .port .ok .empty
    refused := .port .journalFull .empty }

theorem Desktop.planSetLocal_some (h : w.circ.borrower id = some b) :
    w.planSetLocal src id category code = w.localSet src id code b := by
  simp only [Desktop.planSetLocal, h]
  rfl

theorem Desktop.planSetLocal_fresh (h : w.circ.borrower id = none) (hf : w.settings.isForeign id.lib = false)
    (hr : w.circ.borrowers.length < 1024) :
    w.planSetLocal src id category code = w.localSet src id code (Borrower.fresh category) := by
  simp only [Desktop.planSetLocal, h, hf, Bool.false_eq_true, if_false, if_neg (Nat.not_le.mpr hr)]
  rfl

theorem Desktop.planSetLocal_foreign (h : w.circ.borrower id = none) (hf : w.settings.isForeign id.lib = true) :
    w.planSetLocal src id category code = Plan.answer w.circ (.port .notFound .empty) := by
  simp only [Desktop.planSetLocal, h, hf, if_true]

theorem Desktop.planSetLocal_full (h : w.circ.borrower id = none) (hf : w.settings.isForeign id.lib = false)
    (hr : 1024 ≤ w.circ.borrowers.length) :
    w.planSetLocal src id category code = Plan.answer w.circ (.port .tableFull .empty) := by
  simp only [Desktop.planSetLocal, h, hf, Bool.false_eq_true, if_false, if_pos hr]

theorem Desktop.planClearLocal_unknown (h : w.circ.borrower id = none) :
    w.planClearLocal src id = Plan.answer w.circ (.port .notFound .empty) := by
  simp only [Desktop.planClearLocal, h]

theorem Desktop.planClearLocal_unset (h : w.circ.borrower id = some b) (hl : b.localBlock = none) :
    w.planClearLocal src id = Plan.answer w.circ (.port .wrongState .empty) := by
  simp only [Desktop.planClearLocal, h, hl]

theorem Desktop.planClearLocal_clears {l : LocalReason} (h : w.circ.borrower id = some b) (hl : b.localBlock = some l) :
    w.planClearLocal src id =
      { recs := [{ source := .desk src, time := none, flags := { }, body := .localClear id l.code }]
        circ := { w.circ with
          borrowers :=
            if b.loans = 0 ∧ b.owed = 0 ∧ b.central = none then Table.del w.circ.borrowers id.key
            else Table.put w.circ.borrowers id.key { b with localBlock := none } }
        reply := .port .ok (.localCleared l.code l.desk)
        refused := .port .journalFull .empty } := by
  have empty : Borrower.isEmpty { b with localBlock := none } = true ↔ b.loans = 0 ∧ b.owed = 0 ∧ b.central = none := by
    rw [Borrower.isEmpty_iff]
    simp
  simp only [Desktop.planClearLocal, h, hl, Circ.dropEmpty_setBorrower, empty]

end Local

/-- Settles O36: the plans of the two transactions by the record each finds. -/
theorem localBlocksAreSetAndCleared : Obligations.LocalBlocksAreSetAndCleared := by
  intro d s r hr hj
  refine ⟨fun id category code h => ?_, fun id h => ?_⟩
  · have serves : ∀ pl, s.deskNow.planSetLocal d id category code = pl →
        s.Serves (.port d) (.setLocalBlockTransaction d) (.setLocal id category code) pl := fun pl hp =>
      .of_takeIf rfl h rfl (congrArg some hp)
    refine ⟨fun hb hf => ?_, fun hb hf hfull => ?_, fun hroom => ⟨fun ha => ?_, fun j ha => ⟨fun b hb => ?_, fun hb => ?_⟩⟩⟩
    · exact State.Serves.replies (p := .desk d) (serves _ (Desktop.planSetLocal_foreign hb hf)) hr
    · exact State.Serves.replies (p := .desk d) (serves _ (Desktop.planSetLocal_full hb hf hfull)) hr
    · cases hb : s.circ.borrower id with
      | some b => exact (serves _ (Desktop.planSetLocal_some hb)).refuses rfl nofun hr hj ha
      | none =>
        obtain ⟨hf, hlen⟩ := hroom.resolve_left (by simp [hb])
        exact (serves _ (Desktop.planSetLocal_fresh hb hf hlen)).refuses rfl nofun hr hj ha
    · exact (serves _ (Desktop.planSetLocal_some hb)).commits rfl nofun hr hj ha
    · obtain ⟨hf, hlen⟩ := hroom.resolve_left (by simp [hb])
      exact (serves _ (Desktop.planSetLocal_fresh hb hf hlen)).commits rfl nofun hr hj ha
  · have serves : ∀ pl, s.deskNow.planClearLocal d id = pl →
        s.Serves (.port d) (.clearLocalBlockTransaction d) (.clearLocal id) pl := fun pl hp =>
      .of_takeIf rfl h rfl (congrArg some hp)
    refine ⟨fun hb => ?_, fun b hb => ⟨fun hl => ?_, fun l hl => ?_⟩⟩
    · exact State.Serves.replies (p := .desk d) (serves _ (Desktop.planClearLocal_unknown hb)) hr
    · exact State.Serves.replies (p := .desk d) (serves _ (Desktop.planClearLocal_unset hb hl)) hr
    · have plan := serves _ (Desktop.planClearLocal_clears hb hl)
      exact ⟨fun ha => plan.refuses rfl nofun hr hj ha, fun j ha => plan.commits rfl nofun hr hj ha⟩

end Sys2Proof.Machine
end

section
/-! PROOFS. The store's work for the exchange and the rollover, which is done whether its record is accepted or dropped (R88,
R133 to R136, R151). O46, O47, O48. -/

namespace Sys2Proof.Machine

/-! ### Work without a plan -/

section Unit
variable {s : State} {c : Claimant} {t : Txn} {ds : List Draft} {j : Journal}

theorem State.released_of {u : State} (h : u.store.holding = none) : u.released = u := by
  rw [State.released, ← h]

theorem State.takenFrom_holding (h : s.turnOf c = some t) : (s.takenFrom c t).store.holding = none := by
  rw [State.takenFrom, State.takeList_store, ← (State.turnOf_holding h).1]
  rcases c with (_ | _) | (_ | _) | _ | _ <;> rfl

theorem State.finishTxn_unit {u : State} {h : Held} (hu : u.store.holding = none) (hp : ∀ v : State, v.planOf h = none)
    (accepted : Bool) : u.finishTxn h accepted = u.unitEffect h := by
  have released := State.released_of hu
  rw [State.released] at released
  simp only [State.finishTxn, hp, released]

/-- The transaction of the exchange or of the rollover whose turn it is, and the records it asks for. -/
structure State.Works (s : State) (c : Claimant) (t : Txn) (ds : List Draft) : Prop where
  turn : s.turnOf c = some t
  plan : ∀ v : State, v.planOf (s.heldNow c t) = none
  records : (s.takenFrom c t).unitRecords (s.heldNow c t) = ds

theorem State.Works.txnRecords (h : s.Works c t ds) : (s.takenFrom c t).txnRecords (s.heldNow c t) = ds := by
  simp only [State.txnRecords, h.plan, h.records]

theorem State.Works.plain (h : s.Works c t []) : s.storeTake c t = (s.takenFrom c t).unitEffect (s.heldNow c t) := by
  rw [State.storeTake_plain h.txnRecords, State.finishTxn_unit (State.takenFrom_holding h.turn) h.plan]

theorem State.Works.done (h : s.Works c t ds) (hne : ds ≠ []) (hj : s.journal.idle)
    (ha : s.journal.accept s.now ds = .done j) :
    s.storeTake c t = State.unitEffect { s.takenFrom c t with journal := j } (s.heldNow c t) := by
  have hu : ({ s.takenFrom c t with journal := j } : State).store.holding = none := State.takenFrom_holding h.turn
  rw [State.storeTake_done hj (h.txnRecords ▸ hne) (h.txnRecords ▸ ha), State.released_of hu, State.finishTxn_unit hu h.plan]

theorem State.Works.dropped (h : s.Works c t ds) (hne : ds ≠ []) (hj : s.journal.idle)
    (ha : s.journal.accept s.now ds = .full) :
    s.storeTake c t = State.unitEffect { s.takenFrom c t with journal := s.journal.dropOne } (s.heldNow c t) := by
  have hu : ({ s.takenFrom c t with journal := s.journal.dropOne } : State).store.holding = none :=
    State.takenFrom_holding h.turn
  rw [State.storeTake_dropped hj (h.plan _) (h.txnRecords ▸ hne) (h.txnRecords ▸ ha), State.released_of hu,
    State.finishTxn_unit hu h.plan]

theorem State.Works.waits (h : s.Works c t ds) (hne : ds ≠ []) (hj : s.journal.idle)
    (ha : s.journal.accept s.now ds = .wait) :
    s.storeTake c t
      = { (s.takenFrom c t).withHeld (s.heldNow c t) with journal := { s.journal with queue := [.store] } } :=
  State.storeTake_wait hj (h.txnRecords ▸ hne) (h.txnRecords ▸ ha)

end Unit

/-! ### The application step -/

theorem State.takenFrom_application (s : State) :
    s.takenFrom .rollover .application =
      { s.tookFrom .rollover with
        settings := { s.settings with edits := s.roll.taken }
        roll := { s.roll with taken := s.settings.edits } } := by
  rw [State.takenFrom, State.takeList_step]
  simp only [ne_eq, reduceCtorEq, not_false_eq_true, decide_true, Bool.and_true]
  rfl

/-- An operating state that follows its inputs is derived to be what it is. -/
theorem State.deriveState_same {s : State} (h : s.stateFollows) : s.deriveState = s := by
  have same : s.derivedOp = s.opState := ((State.stateFollows_iff s).mp h).symm
  rw [State.deriveState_eq, same]
  have stays : ¬ (s.opState = .opened ∧ (s.opState = .returnsOnly ∨ s.opState = .closed)) := by
    rintro ⟨h1, h2 | h2⟩ <;> rw [h1] at h2 <;> cases h2
  simp only [if_neg stays]

/-- Settles O46: the step with an empty list, and with edits, whose record the journal accepts, drops or makes wait. -/
theorem applicationStepAppliesTheEdits : Obligations.ApplicationStepAppliesTheEdits := by
  intro s h t roll es left
  have runs : exec .applicationStep s = .next (s.storeTake .rollover .application) :=
    congrArg _ (State.takeIf_turn h rfl)
  have taken := State.takenFrom_application s
  have records : (s.takenFrom .rollover .application).unitRecords (s.heldNow .rollover .application) =
      if es = [] then [] else
        [{ source := .unit, time := none, flags := { },
           body := .edits (left.applyAll s.clock.day es).2 (es.length - (left.applyAll s.clock.day es).2) }] := by
    rw [taken]
    rfl
  refine ⟨fun hes hf => ?_, fun hes hj => ?_⟩
  · have works : s.Works .rollover .application [] := ⟨h, fun _ => rfl, records.trans (if_pos hes)⟩
    have follows : ({ t with settings := left, roll := roll } : State).stateFollows := hf
    rw [runs, works.plain, taken]
    refine congrArg _ (.trans ?_ (State.deriveState_same follows))
    change State.deriveState { t with settings := (left.applyAll s.clock.day es).1, roll := roll } = _
    rw [hes]
    rfl
  · have works : s.Works .rollover .application _ := ⟨h, fun _ => rfl, records.trans (if_neg hes)⟩
    refine ⟨left.applyAll_edits s.clock.day es, fun j ha => ?_, fun ha => ?_, fun ha => ?_⟩
    · rw [runs, works.done nofun hj ha, taken]
      rfl
    · rw [runs, works.dropped nofun hj ha, taken]
      rfl
    · rw [runs, works.waits nofun hj ha, taken]
      rfl

/-! ### The hold pass -/

theorem Circ.expiredHold_none {c : Circ} {place today : Nat}
    (h : ∀ x, Table.get c.holds place = some x →
      x.state = .waiting ∨ x.deadline = none ∨ ∃ y, x.deadline = some y ∧ today ≤ y) :
    c.expiredHold place today = none := by
  unfold Circ.expiredHold
  split
  next x hx =>
    split
    next y hs hd =>
      refine if_neg (Nat.not_lt.mpr ?_)
      rcases h x hx with h | h | ⟨z, h, hz⟩
      · rw [h] at hs; cases hs
      · rw [h] at hd; cases hd
      · rw [h] at hd; cases hd; exact hz
    next => rfl
  next => rfl

theorem Circ.expiredHold_some {c : Circ} {place today x : Nat} {h : Hold} (hg : Table.get c.holds place = some h)
    (hs : h.state = .trapped) (hd : h.deadline = some x) (hx : x < today) : c.expiredHold place today = some h := by
  simp only [Circ.expiredHold, hg, hs, hd, if_pos hx]

/-- The rollover after a visit of the hold pass that counts `n` (R133). -/
def Rollover.holdVisited (r : Rollover) (place n : Nat) : Rollover :=
  if place < 511 then { r with expired := r.expired + n, place := place + 1 }
  else { r with expired := r.expired + n, place := 512, phase := .sweep, cursor := 0 }

theorem State.visitHold_none {s : State} {h : Held} {place : Nat} (hn : s.circ.expiredHold place h.now.day = none)
    (hs : h.silent = false) : s.visitHold h place = { s with roll := s.roll.holdVisited place 0 } := by
  simp only [State.visitHold, hn, hs, Bool.false_eq_true, if_false]
  rfl

theorem State.visitHold_some {s : State} {h : Held} {place : Nat} {x : Hold}
    (hx : s.circ.expiredHold place h.now.day = some x) (hs : h.silent = false) :
    s.visitHold h place =
      { s with
        circ := { s.circ with holds := Table.del s.circ.holds place }
        roll := s.roll.holdVisited place 1 } := by
  simp only [State.visitHold, hx, hs, Bool.false_eq_true, if_false]
  rfl

theorem State.waits_holdVisit {s : State} {place : Nat} (h : s.waitingTxn .rollover = some (.holdVisit place)) :
    place = s.roll.place := by
  cases hp : s.roll.phase <;> simp [State.waitingTxn, hp] at h
  exact h.symm

theorem State.waits_sweepVisit {s : State} {slot : Nat} (h : s.waitingTxn .rollover = some (.sweepVisit slot)) :
    slot = s.roll.cursor := by
  cases hp : s.roll.phase <;> simp [State.waitingTxn, hp] at h
  exact h.symm

/-- Settles O47: the visit of a place with nothing to expire, and of one whose hold has expired. -/
theorem holdPassExpiresTrappedHolds : Obligations.HoldPassExpiresTrappedHolds := by
  intro s place h t roll
  have runs : exec .holdPassVisit s = .next (s.storeTake .rollover (.holdVisit place)) :=
    congrArg _ (State.takeIf_turn h rfl)
  have taken : s.takenFrom .rollover (.holdVisit place) = t := State.takenFrom_eq nofun nofun
  have records : (s.takenFrom .rollover (.holdVisit place)).unitRecords (s.heldNow .rollover (.holdVisit place)) =
      match s.circ.expiredHold place s.clock.day with
      | some x => [{ source := .unit, time := none, flags := { }, body := .holdExpire x.item x.holder }]
      | none => [] := by
    rw [taken]
    exact rfl
  refine ⟨State.waits_holdVisit (State.turnOf_holding h).2.2.2, fun hno => ?_, fun x y hx hst hd hy hj => ?_⟩
  · have none := Circ.expiredHold_none hno
    have works : s.Works .rollover (.holdVisit place) [] := ⟨h, fun _ => rfl, by rw [records, none]⟩
    rw [runs, works.plain, taken]
    exact congrArg _ (State.visitHold_none (s := t) (h := s.heldNow .rollover (.holdVisit place)) none rfl)
  · have gone := Circ.expiredHold_some hx hst hd hy
    have works : s.Works .rollover (.holdVisit place)
        [{ source := .unit, time := none, flags := { }, body := .holdExpire x.item x.holder }] :=
      ⟨h, fun _ => rfl, by rw [records, gone]⟩
    refine ⟨fun j ha => ?_, fun ha => ?_⟩
    · rw [runs, works.done nofun hj ha, taken]
      exact congrArg _ (State.visitHold_some (s := { t with journal := j }) (h := s.heldNow .rollover (.holdVisit place)) gone rfl)
    · rw [runs, works.dropped nofun hj ha, taken]
      exact congrArg _ (State.visitHold_some (s := { t with journal := s.journal.dropOne })
        (h := s.heldNow .rollover (.holdVisit place)) gone rfl)

/-! ### The sweep -/

section Sweep
variable {c : Circ} {x : Settings} {today gen slot : Nat} {l : Loan} {b : Borrower}

theorem Circ.visit_left (h : ∀ l, Table.get c.loans slot = some l → l.gen = gen) :
    c.visit x today gen slot = (c, (0, 0, 0)) := by
  unfold Circ.visit
  split
  next => rfl
  next l hl => exact if_pos (h l hl)

/-- A visit of a loan of another generation: its due as moved, its flag, its borrower's count (R135, R136). -/
theorem Circ.visit_loan (hl : Table.get c.loans slot = some l) (hg : l.gen ≠ gen)
    (hb : c.borrower l.borrower = some b) :
    c.visit x today gen slot =
      let due := (x.movedDue today l).getD l.due
      let want := x.wantsFlag today b.category due.day
      let c1 := { c with loans := Table.put c.loans slot { l with due := due, overdue := want, gen := gen } }
      (if want = l.overdue then c1
        else if want then c1.setBorrower l.borrower { b with overdue := b.overdue + 1 }
        else c1.setBorrower l.borrower { b with overdue := b.overdue - 1 },
       (if (x.movedDue today l).isSome then 1 else 0, if want && !l.overdue then 1 else 0,
        if !want && l.overdue then 1 else 0)) := by
  simp only [Circ.visit, hl, if_neg hg, Circ.categoryOf_some hb, hb]

theorem Settings.movedDue_some {n : Nat} (h : l.unit = .day ∧ today ≤ l.due.day ∧ x.isOpen l.due.day = false)
    (hn : x.openSearch l.due.day = some n) : x.movedDue today l = some { day := n, minute := x.closeMinute n } := by
  rw [Settings.movedDue, if_pos h, hn]
  rfl

theorem Settings.movedDue_none
    (h : ¬ (l.unit = .day ∧ today ≤ l.due.day ∧ x.isOpen l.due.day = false) ∨ x.openSearch l.due.day = none) :
    x.movedDue today l = none := by
  unfold Settings.movedDue
  split
  next hm => rw [h.resolve_left (not_not_intro hm)]; rfl
  next => rfl

theorem Settings.wantsFlag_iff (x : Settings) (today category dueDay : Nat) :
    x.wantsFlag today category dueDay = true ↔
      (x.category category).blockDays ≠ 0 ∧ min (dueDay + (x.category category).blockDays) 65535 < today := by
  simp [Settings.wantsFlag, addDays]

end Sweep

/-- The rollover after a sweep visit that moves, sets and clears so many (R134). -/
def Rollover.swept (r : Rollover) (slot m up down : Nat) : Rollover :=
  { r with
    moved := r.moved + m
    flagsSet := r.flagsSet + up
    flagsCleared := r.flagsCleared + down
    cursor := slot + 1
    phase := if slot < 4095 then r.phase else .recording }

theorem State.visitLoan_eq {s : State} {h : Held} {slot m up down : Nat} {c : Circ}
    (hv : s.circ.visit s.settings h.now.day s.roll.gen slot = (c, (m, up, down))) :
    s.visitLoan h slot = { s with circ := c, roll := s.roll.swept slot m up down } := by
  simp only [State.visitLoan, hv, Rollover.swept]
  split <;> rfl

/-- Settles O48: a visit that leaves the loan, and one that moves its due and turns its flag. -/
theorem sweepVisitsTheLoan : Obligations.SweepVisitsTheLoan := by
  intro s slot h t roll
  have taken : s.takenFrom .rollover (.sweepVisit slot) = t := State.takenFrom_eq nofun nofun
  have works : s.Works .rollover (.sweepVisit slot) [] := ⟨h, fun _ => rfl, rfl⟩
  have visits : ∀ {c m up down}, s.circ.visit s.settings s.clock.day s.roll.gen slot = (c, (m, up, down)) →
      exec .sweepVisit s = .next { t with circ := c, roll := roll m up down } := fun {c m up down} hv => by
    refine congrArg Host.Outcome.next ((State.takeIf_turn h rfl).trans ?_)
    rw [works.plain, taken]
    exact State.visitLoan_eq (s := t) (h := s.heldNow .rollover (.sweepVisit slot)) hv
  refine ⟨State.waits_sweepVisit (State.turnOf_holding h).2.2.2, fun hno => visits (Circ.visit_left hno),
    fun l b hl hg hb => ?_⟩
  intro moves category due m want hmove hstay hwant loans
  have due_eq : (s.settings.movedDue s.clock.day l).getD l.due = due
      ∧ (if (s.settings.movedDue s.clock.day l).isSome then 1 else 0) = m := by
    by_cases hm : moves
    · cases hn : s.settings.openSearch l.due.day with
      | some n =>
        obtain ⟨rfl, rfl⟩ := hmove hm n hn
        rw [Settings.movedDue_some hm hn]
        exact ⟨rfl, rfl⟩
      | none =>
        obtain ⟨rfl, rfl⟩ := hstay (.inr hn)
        rw [Settings.movedDue_none (.inr hn)]
        exact ⟨rfl, rfl⟩
    · obtain ⟨rfl, rfl⟩ := hstay (.inl hm)
      rw [Settings.movedDue_none (.inl hm)]
      exact ⟨rfl, rfl⟩
  have want_eq : s.settings.wantsFlag s.clock.day b.category due.day = want :=
    Bool.eq_iff_iff.mpr ((Settings.wantsFlag_iff ..).trans hwant.symm)
  have visit := Circ.visit_loan (x := s.settings) (today := s.clock.day) hl hg hb
  simp only [due_eq.1, due_eq.2, want_eq] at visit
  refine ⟨fun hw => visits ?_, fun hw ho => visits ?_, fun hw ho => visits ?_⟩
  · have up : (want && !l.overdue) = false := by rw [hw]; exact Bool.and_not_self _
    have down : (!want && l.overdue) = false := by rw [hw]; exact Bool.not_and_self _
    rw [visit, if_pos hw, up, down]
    rfl
  · have turns : want ≠ l.overdue := by rw [hw, ho]; nofun
    have up : (want && !l.overdue) = true := by rw [hw, ho]; rfl
    have down : (!want && l.overdue) = false := by rw [hw]; rfl
    rw [visit, if_neg turns, if_pos hw, up, down]
    rfl
  · have turns : want ≠ l.overdue := by rw [hw, ho]; nofun
    have up : (want && !l.overdue) = false := by rw [hw]; rfl
    have down : (!want && l.overdue) = true := by rw [hw, ho]; rfl
    rw [visit, if_neg turns, if_neg (by rw [hw]; nofun), up, down]
    rfl

end Sys2Proof.Machine
end

section
/-! PROOFS. The exchange's requests at the port (R167 to R169, R172, R173). O52. -/

namespace Sys2Proof.Machine

/-! ### Bodies -/

/-- A block entry in 12.6's encoding. -/
def BlockEntry.bytes (e : BlockEntry) : List Byte :=
  identBytes e.borrower ++ byte1 e.category ++ optBytes be2 e.expiry ++ byte1 e.code

/-- The numbers of a block entry fit their bytes. -/
structure BlockEntry.Fits (e : BlockEntry) : Prop where
  borrower : e.borrower.lib < 65536 ∧ e.borrower.serial < 4294967296
  category : e.category < 256
  expiry : optOk (· < 65536) e.expiry
  code : e.code < 256

/-- The fields of a block entry, read in their order. -/
def readBlockFields (bs : List Byte) : Option (BlockEntry × List Byte) := do
  let (id, bs) ← readIdent bs
  let (category, bs) ← readNum 1 bs
  let (expiry, bs) ← readOpt (readNum 2) bs
  let (code, bs) ← readNum 1 bs
  return ({ borrower := id, category := category, expiry := expiry, code := code }, bs)

theorem reads_blockEntry : Reads readBlockFields BlockEntry.bytes BlockEntry.Fits := by
  intro bs x rest
  simp only [readBlockFields, Option.bind_eq_bind, Option.bind_eq_some_iff, Prod.exists, reads_ident _ _ _, reads_byte _ _ _,
    reads_be2.opt _ _ _, Option.pure_def, Option.some.injEq, Prod.mk.injEq]
  constructor
  · rintro ⟨id, _, ⟨hid, rfl⟩, category, _, ⟨hc, rfl⟩, expiry, _, ⟨he, rfl⟩, code, _, ⟨hcode, rfl⟩, rfl, rfl⟩
    exact ⟨⟨hid, hc, he, hcode⟩, by simp [BlockEntry.bytes]⟩
  · rintro ⟨⟨hid, hc, he, hcode⟩, rfl⟩
    exact ⟨x.borrower, _, ⟨hid, by simp only [BlockEntry.bytes, List.append_assoc]⟩, x.category, _, ⟨hc, rfl⟩, x.expiry, _,
      ⟨he, rfl⟩, x.code, _, ⟨hcode, rfl⟩, rfl, rfl⟩

theorem readBlockEntry_bytes {e : BlockEntry} (h : e.Fits) :
    readBlockEntry e.bytes =
      if e.borrower.lib ≤ 999 ∧ e.borrower.serial ≤ 9999999 ∧ e.category ≤ 7 ∧ 1 ≤ e.code then some e else none := by
  refine (reads_blockEntry.whole_filter h _).trans (if_congr ?_ rfl rfl)
  simp [Ident.inRange, and_assoc]

/-- A block entry is 9 bytes without an expiry and 11 with one, its presence byte the eighth. -/
theorem readBlockEntry_form {body : List Byte} {e : BlockEntry} (h : readBlockEntry body = some e) :
    (body.length = 9 ∧ body[7]? = some 0#8) ∨ (body.length = 11 ∧ body[7]? = some 1#8) := by
  obtain ⟨hw, -⟩ := Option.filter_eq_some_iff.mp h
  obtain ⟨-, rfl⟩ := (reads_blockEntry.whole_eq_some body e).mp hw
  cases hx : e.expiry with
  | none => exact .inl (by simp [BlockEntry.bytes, identBytes, optBytes, hx, be2, be4, byte1])
  | some n => exact .inr (by simp [BlockEntry.bytes, identBytes, optBytes, hx, be2, be4, byte1])

/-- The fields of a hold entry, read in their order. -/
def readHoldFields (bs : List Byte) : Option ((Ident × Ident) × List Byte) := do
  let (item, bs) ← readIdent bs
  let (holder, bs) ← readIdent bs
  return ((item, holder), bs)

theorem reads_holdEntry :
    Reads readHoldFields (fun x => identBytes x.1 ++ identBytes x.2)
      (fun x => (x.1.lib < 65536 ∧ x.1.serial < 4294967296) ∧ (x.2.lib < 65536 ∧ x.2.serial < 4294967296)) :=
  reads_ident.pair reads_ident (mk := Prod.mk) (fst := Prod.fst) (snd := Prod.snd) (fun _ => rfl) (fun _ _ => rfl)
    (fun _ _ => rfl)

theorem readHoldEntry_bytes {a b : Ident} (ha : a.lib < 65536 ∧ a.serial < 4294967296)
    (hb : b.lib < 65536 ∧ b.serial < 4294967296) :
    readHoldEntry (identBytes a ++ identBytes b) =
      if a.lib ≤ 999 ∧ a.serial ≤ 9999999 ∧ b.lib ≤ 999 ∧ b.serial ≤ 9999999 then some (a, b) else none := by
  refine (reads_holdEntry.whole_filter (x := (a, b)) ⟨ha, hb⟩ _).trans (if_congr ?_ rfl rfl)
  simp [Ident.inRange, and_assoc]

theorem readHoldEntry_length {body : List Byte} {x : Ident × Ident} (h : readHoldEntry body = some x) : body.length = 12 := by
  obtain ⟨hw, -⟩ := Option.filter_eq_some_iff.mp h
  obtain ⟨-, rfl⟩ := (reads_holdEntry.whole_eq_some body x).mp hw
  simp [identBytes]

theorem readListKind_byte (k : ListKind) :
    whole (readNamed ListKind.ofNumber [BitVec.ofNat 8 k.number]) = some k :=
  (reads_listKind.whole_eq_some _ k).mpr ⟨trivial, rfl⟩

/-! ### A session and its requests -/

section Requests
variable {s : State} {tag : Byte}

theorem Exchange.current_of {x : Exchange} {k : ListKind} (he : x.expired = false) (hs : x.session = some k) :
    x.current = some k := by rw [Exchange.current, he, ← hs]; rfl

theorem Exchange.current_none {x : Exchange} (h : ¬ (x.expired = false ∧ x.session ≠ none)) : x.current = none := by
  rw [← Exchange.current_isSome] at h
  exact Option.not_isSome_iff_eq_none.mp h

/-- A request that finds no session is TOO_LATE once after an expiry, else WRONG_STATE (R168). -/
theorem State.noSession_taken {k : ReqKind} {code : RespCode}
    (h : code = if s.exch.late = true then RespCode.tooLate else RespCode.wrongState) :
    (s.taken .uplink k tag).noSession =
      { s.answered .uplink k tag code .empty with exch := { s.exch with late := false } } := by
  cases hl : s.exch.late with
  | true =>
    rw [h, hl, if_pos rfl, State.noSession, State.taken_exch, hl, if_pos rfl]
    rfl
  | false =>
    have same : { s.exch with late := false } = s.exch := by rw [← hl]
    rw [h, hl, if_neg nofun, State.noSession, State.taken_exch, hl, if_neg nofun, State.respond_taken, same]
    rfl

theorem exec_beginDownload (h : s.free .uplink) {body : List Byte} (hl : body.length = 1) :
    exec (.beginDownload .uplink tag body) s = .next (State.beginDownload body (s.taken .uplink .beginDownload tag)) :=
  congrArg _ (State.request_free (k := .beginDownload) (State.beginDownload body) h rfl (by rw [hl]; rfl) nofun nofun)

theorem exec_downloadEntry (h : s.free .uplink) {body : List Byte}
    (hl : ReqKind.allows .downloadEntry body.length = true) :
    exec (.downloadEntry .uplink tag body) s = .next (State.downloadEntry body (s.taken .uplink .downloadEntry tag)) :=
  congrArg _ (State.request_free (k := .downloadEntry) (State.downloadEntry body) h rfl hl nofun nofun)

theorem exec_endDownload (h : s.free .uplink) :
    exec (.endDownload .uplink tag []) s =
      .next (State.finishDownload .downloadEnd (s.taken .uplink .endDownload tag)) :=
  congrArg _ (State.request_free (k := .endDownload) (body := []) (State.finishDownload .downloadEnd) h rfl rfl nofun nofun)

theorem exec_abortDownload (h : s.free .uplink) :
    exec (.abortDownload .uplink tag []) s =
      .next (State.finishDownload (.downloadAbort .request) (s.taken .uplink .abortDownload tag)) :=
  congrArg _ (State.request_free (k := .abortDownload) (body := []) (State.finishDownload (.downloadAbort .request)) h rfl
    rfl nofun nofun)

theorem State.finishDownload_none {k : ReqKind} (t : Txn) (h : s.exch.current = none) :
    State.finishDownload t (s.taken .uplink k tag) = (s.taken .uplink k tag).noSession := by
  simp only [State.finishDownload, State.taken_exch, h]

theorem State.finishDownload_sends {k : ReqKind} {l : ListKind} (t : Txn) (h : s.exch.current = some l) :
    State.finishDownload t (s.taken .uplink k tag) =
      { (s.taken .uplink k tag).sendTxn .uplink t with exch := { s.exch with gapMs := none } } := by
  simp only [State.finishDownload, State.taken_exch, h]
  rfl

/-- An Entry that fits the session's kind and ranges goes to the store with the gap timer stopped (R169). -/
theorem exec_downloadEntry_sends (h : s.free .uplink) {body : List Byte} {k : ListKind} {t : Txn}
    (hl : ReqKind.allows .downloadEntry body.length = true) (hc : s.exch.current = some k)
    (hr : readEntry k body = some t) :
    exec (.downloadEntry .uplink tag body) s =
      .next { (s.taken .uplink .downloadEntry tag).sendTxn .uplink t with exch := { s.exch with gapMs := none } } := by
  rw [exec_downloadEntry h hl]
  simp only [State.downloadEntry, State.taken_exch, hc, hr]
  rfl

/-- An Entry of a length that is none, or that fits no entry of the session's kind, is refused and the session goes on. -/
theorem exec_downloadEntry_refused (h : s.free .uplink) {body : List Byte} {k : ListKind} (hc : s.exch.current = some k)
    (hr : readEntry k body = none) : exec (.downloadEntry .uplink tag body) s = .next (s.entryRefused tag) := by
  cases hl : ReqKind.allows .downloadEntry body.length with
  | true =>
    rw [exec_downloadEntry h hl]
    simp only [State.downloadEntry, State.taken_exch, hc, hr]
    rfl
  | false =>
    refine congrArg Host.Outcome.next ((State.request_length _ h rfl hl).trans ((if_pos ⟨rfl, ?_⟩).trans ?_))
    · exact State.refuseEntry_taken s tag
    · rw [State.taken_exch, hc]
      rfl

theorem State.gapExpiry_none (h : s.exch.current = none ∨ ∀ ms, s.exch.gapMs = some ms → ms < 30000) : s.gapExpiry = s := by
  unfold State.gapExpiry
  split
  next k ms hk hm =>
    rcases h with h | h
    · rw [h] at hk; cases hk
    · exact if_neg (Nat.not_le.mpr (h ms hm))
  next => rfl

theorem State.gapExpiry_due {k : ListKind} {ms : Nat} (hc : s.exch.current = some k) (hm : s.exch.gapMs = some ms)
    (hms : 30000 ≤ ms) :
    s.gapExpiry =
      { s.sendTxn .uplink (.downloadAbort .timer) with
        exch := { s.exch with gapMs := none, late := true, expired := true } } := by
  simp only [State.gapExpiry, hc, hm, if_pos hms]
  rfl

end Requests

/-- Settles O52: each request by the session it finds, an entry by what its body reads as, and the gap timer. -/
theorem downloadRequestsReachTheStore : Obligations.DownloadRequestsReachTheStore := by
  intro tag s x current sends
  have session : current → ∃ k, x.current = some k := fun ⟨he, hs⟩ => by
    obtain ⟨k, hk⟩ := Option.ne_none_iff_exists'.mp hs
    exact ⟨k, Exchange.current_of he hk⟩
  refine ⟨fun h => ⟨fun k hc => ?_, fun k hc => ?_, fun b h1 h2 => ?_, fun hc => ?_, fun hc code hcode => ?_,
    fun he hs => ⟨fun lib serial lib2 serial2 hl hser hl2 hser2 => ?_, fun body hlen => ?_⟩,
    fun he hs => ⟨fun lib serial category code expiry hl hser hcat hcode hexp => ?_, fun body h9 h11 => ?_⟩⟩,
    fun hp => ⟨fun ms hc hm hms => ?_, fun hno => ?_⟩⟩
  · rw [exec_beginDownload h rfl, State.beginDownload, readListKind_byte]
    simp only [State.taken_exch, show s.exch.current = none from Exchange.current_none hc]
    rfl
  · obtain ⟨l, hl⟩ := session hc
    rw [exec_beginDownload h rfl, State.beginDownload, readListKind_byte]
    simp only [State.taken_exch, show s.exch.current = some l from hl, State.respond_taken]
  · have unknown : whole (readNamed ListKind.ofNumber [b]) = none := Option.eq_none_iff_forall_ne_some.mpr fun k hk => by
      obtain ⟨-, hb⟩ := (reads_listKind.whole_eq_some _ k).mp hk
      cases k <;> simp [ListKind.number, byte1, byteOf] at hb <;> contradiction
    rw [exec_beginDownload h rfl, State.beginDownload, unknown]
    exact congrArg _ (State.respond_taken ..)
  · obtain ⟨l, hl⟩ := session hc
    rw [exec_endDownload h, exec_abortDownload h, State.finishDownload_sends _ hl, State.finishDownload_sends _ hl]
    exact ⟨rfl, rfl⟩
  · have none : s.exch.current = none := Exchange.current_none hc
    refine ⟨fun body hlen => ?_, ?_, ?_⟩
    · rw [exec_downloadEntry h (by rcases hlen with hl | hl | hl <;> rw [hl] <;> rfl)]
      simp only [State.downloadEntry, State.taken_exch, none]
      exact congrArg _ (State.noSession_taken hcode)
    · rw [exec_endDownload h, State.finishDownload_none _ none, State.noSession_taken hcode]
    · rw [exec_abortDownload h, State.finishDownload_none _ none, State.noSession_taken hcode]
  · intro body inside
    have reads : readEntry .holds body = if inside then
        some (.holdEntry { lib := lib, serial := serial } { lib := lib2, serial := serial2 }) else none := by
      have bytes : body = identBytes ⟨lib, serial⟩ ++ identBytes ⟨lib2, serial2⟩ := List.append_assoc ..
      rw [readEntry, bytes, readHoldEntry_bytes ⟨hl, hser⟩ ⟨hl2, hser2⟩]
      split <;> rfl
    refine ⟨fun hin => ?_, fun hout => ?_⟩
    · exact exec_downloadEntry_sends h rfl (Exchange.current_of he hs) (reads.trans (if_pos hin))
    · exact exec_downloadEntry_refused h (Exchange.current_of he hs) (reads.trans (if_neg hout))
  · refine exec_downloadEntry_refused h (Exchange.current_of he hs) ?_
    have noEntry : readHoldEntry body = none :=
      Option.eq_none_iff_forall_ne_some.mpr fun e hr => hlen (readHoldEntry_length hr)
    rw [readEntry, noEntry]
    rfl
  · intro body inside
    have fits : BlockEntry.Fits { borrower := ⟨lib, serial⟩, category := category, expiry := expiry, code := code } := by
      refine ⟨⟨hl, hser⟩, hcat, ?_, hcode⟩
      cases expiry with
      | none => trivial
      | some e => exact Nat.lt_succ_of_le (hexp e rfl)
    have bytes : body = BlockEntry.bytes { borrower := ⟨lib, serial⟩, category := category, expiry := expiry, code := code } := by
      cases expiry <;> rfl
    have reads : readEntry .blocks body = if inside then
        some (.blockEntry { borrower := ⟨lib, serial⟩, category := category, expiry := expiry, code := code }) else none := by
      rw [readEntry, bytes, readBlockEntry_bytes fits]
      split <;> rfl
    have allowed : ReqKind.allows .downloadEntry body.length = true := by cases expiry <;> rfl
    refine ⟨fun hin => ?_, fun hout => ?_⟩
    · exact exec_downloadEntry_sends h allowed (Exchange.current_of he hs) (reads.trans (if_pos hin))
    · exact exec_downloadEntry_refused h (Exchange.current_of he hs) (reads.trans (if_neg hout))
  · refine exec_downloadEntry_refused h (Exchange.current_of he hs) ?_
    have noEntry : readBlockEntry body = none :=
      Option.eq_none_iff_forall_ne_some.mpr fun e hr => (readBlockEntry_form hr).elim h9 h11
    rw [readEntry, noEntry]
    rfl
  · obtain ⟨l, hl⟩ := session hc
    exact congrArg Host.Outcome.next ((if_pos hp).trans (State.gapExpiry_due hl hm hms))
  · exact congrArg Host.Outcome.next ((if_pos hp).trans (State.gapExpiry_none (hno.imp_left Exchange.current_none)))

end Sys2Proof.Machine
end

section
/-! PROOFS. The store's part in the exchange: a Begin, the entries, and what ends a session (R70, R89, R167, R170 to R175).
O53, O54. -/

namespace Sys2Proof.Machine

/-! ### Answers to the uplink -/

/-- The state with the answer to a download request joining the uplink's responses, after which the gap timer starts. -/
def State.answersGap (u : State) (r : InProgress) (ans : Answer) : State :=
  u.setPort .uplink { u.portU with tx := u.portU.tx ++ [{ ownFrame r.tag .ok ans with startsGap := true }] }

section Answers
variable {u : State} {h : Held} {r : InProgress}

theorem State.answerDownload_gap (hs : h.silent = false) (hr : u.portU.inProgress = some r) (ans : Answer) :
    u.answerDownload h ans = u.answersGap r ans := by
  have port : (u.port .uplink).inProgress = some r := hr
  rw [State.answerDownload, if_neg (by simp [hs]), State.respondWith, port]
  rfl

theorem State.answerUplink_replied (hs : h.silent = false) (hr : u.portU.inProgress = some r) (ans : Answer) :
    u.answerUplink h ans = u.replied .uplink r .ok ans := by
  rw [State.answerUplink, if_neg (by simp [hs]), State.respond_replied (by exact hr)]

end Answers

/-- Work that needs no record is done when its claimant's turn comes. -/
theorem State.Works.runs {s : State} {c : Claimant} {t : Txn} {i : Instr} {kind : Txn → Bool} (h : s.Works c t [])
    (hi : exec i s = .next (s.takeIf c kind)) (hk : kind t = true) :
    exec i s = .next ((s.takenFrom c t).unitEffect (s.heldNow c t)) := by
  rw [hi, State.takeIf_turn h.turn hk, h.plain]

/-! ### Stale marks -/

theorem Circ.markAll_marked (c : Circ) (k : ListKind) (stale : Bool) : c.markAll k stale = c.marked k stale := by
  cases k with
  | blocks => rfl
  | holds =>
    refine congrArg (fun t => { c with holds := t }) (congrArg (fun f => c.holds.map f) (funext fun e => ?_))
    cases hs : e.2.state <;> simp [Hold.markStale, hs]

theorem Borrower.isStale_eq (b : Borrower) : b.isStale = b.central.any CentralReason.stale := by
  cases hc : b.central <;> simp [Borrower.isStale, hc]

/-- A record that loses its CENTRAL reason is left empty when it has nothing else. -/
theorem Borrower.liftStale_isEmpty (b : Borrower) (h : b.isStale = true) :
    b.liftStale.isEmpty = decide (b.loans = 0 ∧ b.owed = 0 ∧ b.localBlock = none) := by
  rw [Borrower.liftStale, if_pos h, Bool.eq_iff_iff, Borrower.isEmpty_iff, decide_eq_true_iff]
  simp

theorem Circ.endList_cleared (c : Circ) (k : ListKind) : (c.endList k).1 = c.cleared k := by
  cases k with
  | holds => rfl
  | blocks =>
    have goes : ∀ b : Borrower, (b.isStale && b.liftStale.isEmpty)
        = (b.central.any CentralReason.stale && decide (b.loans = 0 ∧ b.owed = 0 ∧ b.localBlock = none)) := fun b => by
      cases hb : b.isStale with
      | true => rw [Borrower.liftStale_isEmpty b hb, ← Borrower.isStale_eq, hb]
      | false => rw [← Borrower.isStale_eq, hb, Bool.false_and, Bool.false_and]
    have lifted : ∀ b : Borrower,
        b.liftStale = if b.central.any CentralReason.stale then { b with central := none } else b := fun b => by
      rw [Borrower.liftStale, Borrower.isStale_eq]
    simp only [Circ.endList, Circ.cleared, Table.mapEntries, goes]
    simp only [lifted]

/-- How many reasons or holds an End removes (R172). -/
def Circ.staleCount (c : Circ) : ListKind → Nat
  | .blocks => (c.borrowers.filter (fun e => e.2.central.any CentralReason.stale)).length
  | .holds => (c.holds.filter (fun e => e.2.stale && decide (e.2.state = .waiting))).length

theorem Circ.endList_count (c : Circ) (k : ListKind) : (c.endList k).2 = c.staleCount k := by
  cases k with
  | holds => rfl
  | blocks => simp only [Circ.endList, Circ.staleCount, Borrower.isStale_eq]

/-! ### Begin -/

theorem State.beginSession_eq {s : State} {h : Held} {r : InProgress} (hh : h.silent = false)
    (hr : s.portU.inProgress = some r) (k : ListKind) :
    s.beginSession h k =
      State.answersGap
        { s with
          circ := s.circ.marked k true
          exch := { s.exch with session := some k, stored := 0, notStored := 0, gapMs := none } } r .empty := by
  rw [State.beginSession, State.answerDownload_gap hh (by exact hr), Circ.markAll_marked]

/-! ### Entries -/

/-- The session's counts after an entry (R169). -/
theorem State.countEntry_eq {s : State} {h : Held} {r : InProgress} (hs : s.exch.session ≠ none) (hh : h.silent = false)
    (hr : s.portU.inProgress = some r) (circ : Circ) (stored : Bool) :
    s.countEntry h circ stored =
      State.answersGap { s with circ := circ, exch := s.exch.count stored } r
        (.counts (s.exch.count stored).stored (s.exch.count stored).notStored) := by
  obtain ⟨k, hk⟩ := Option.ne_none_iff_exists'.mp hs
  simp only [State.countEntry, hk]
  exact State.answerDownload_gap (u := { s with circ := circ, exch := s.exch.count stored }) hh hr _

section Entries
variable {c : Circ} {e : BlockEntry} {item holder : Ident}

theorem Circ.blockEntry_some {b : Borrower} (h : c.borrower e.borrower = some b) :
    c.blockEntry e =
      ({ c with
        borrowers := Table.put c.borrowers e.borrower.key
          { b with category := e.category, expiry := e.expiry, central := some { code := e.code, stale := false } } },
        true) := by
  simp only [Circ.blockEntry, h]
  rfl

theorem Circ.blockEntry_fresh (h : c.borrower e.borrower = none) (room : c.borrowers.length < 1024) :
    c.blockEntry e =
      ({ c with
        borrowers := Table.put c.borrowers e.borrower.key
          { category := e.category, expiry := e.expiry, owed := 0, clamped := false, loans := 0, overdue := 0,
            localBlock := none, central := some { code := e.code, stale := false } } },
        true) := by
  simp only [Circ.blockEntry, h, if_pos room]
  rfl

theorem Circ.blockEntry_full (h : c.borrower e.borrower = none) (full : 1024 ≤ c.borrowers.length) :
    c.blockEntry e = (c, false) := by
  simp only [Circ.blockEntry, h, if_neg (Nat.not_lt.mpr full)]

theorem Circ.holdEntry_fresh (h : c.holdOf item = none) (room : c.holds.length < 512) :
    c.holdEntry item holder =
      ({ c with
        holds := Table.put c.holds (Table.lowestFree c.holds)
          { item := item, holder := holder, state := .waiting, deadline := none, stale := false } }, true) := by
  simp only [Circ.holdEntry, h, if_pos room]

theorem Circ.holdEntry_full (h : c.holdOf item = none) (full : 512 ≤ c.holds.length) :
    c.holdEntry item holder = (c, false) := by
  simp only [Circ.holdEntry, h, if_neg (Nat.not_lt.mpr full)]

theorem Circ.holdEntry_waiting {p : Nat} {x : Hold} (h : c.holdOf item = some (p, x)) (hs : x.state = .waiting) :
    c.holdEntry item holder =
      ({ c with holds := Table.put c.holds p { x with holder := holder, stale := false } }, true) := by
  simp only [Circ.holdEntry, h, hs]

theorem Circ.holdEntry_trapped {p : Nat} {x : Hold} (h : c.holdOf item = some (p, x)) (hs : x.state = .trapped) :
    c.holdEntry item holder = (c, decide (x.holder = holder)) := by
  simp only [Circ.holdEntry, h, hs]

end Entries

/-- Settles O53: a Begin, and each entry by the record or the hold it finds and the room for another. -/
theorem downloadEntriesChangeTheTables : Obligations.DownloadEntriesChangeTheTables := by
  intro s r hr t c answers
  have port : t.portU.inProgress = some r := hr
  refine ⟨fun k h => ?_, fun hs => ?_⟩
  · have works : s.Works .uplink (.markStale k) [] := ⟨h, fun _ => rfl, rfl⟩
    have taken : s.takenFrom .uplink (.markStale k) = t := State.takenFrom_eq nofun nofun
    rw [works.runs (kind := Txn.isMarkStale) rfl rfl, taken]
    exact congrArg _ (State.beginSession_eq (s := t) (h := s.heldNow .uplink (.markStale k)) rfl hr k)
  · intro counted
    refine ⟨fun e h => ?_, fun item holder h => ?_⟩
    · have works : s.Works .uplink (.blockEntry e) [] := ⟨h, fun _ => rfl, rfl⟩
      have taken : s.takenFrom .uplink (.blockEntry e) = t := State.takenFrom_eq nofun nofun
      have runs : ∀ circ stored, c.blockEntry e = (circ, stored) →
          exec .blockEntry s = .next (counted stored circ) := fun circ stored he => by
        rw [works.runs (kind := Txn.isBlockEntry) rfl rfl, taken]
        change Host.Outcome.next (t.countEntry _ (c.blockEntry e).1 (c.blockEntry e).2) = _
        rw [he, State.countEntry_eq (s := t) hs rfl hr]
        cases stored <;> rfl
      exact ⟨fun b hb => runs _ _ (Circ.blockEntry_some hb), fun hb room => runs _ _ (Circ.blockEntry_fresh hb room),
        fun hb full => runs _ _ (Circ.blockEntry_full hb full)⟩
    · have works : s.Works .uplink (.holdEntry item holder) [] := ⟨h, fun _ => rfl, rfl⟩
      have taken : s.takenFrom .uplink (.holdEntry item holder) = t := State.takenFrom_eq nofun nofun
      have runs : ∀ circ stored, c.holdEntry item holder = (circ, stored) →
          exec .holdEntry s = .next (counted stored circ) := fun circ stored he => by
        rw [works.runs (kind := Txn.isHoldEntry) rfl rfl, taken]
        change Host.Outcome.next (t.countEntry _ (c.holdEntry item holder).1 (c.holdEntry item holder).2) = _
        rw [he, State.countEntry_eq (s := t) hs rfl hr]
        cases stored <;> rfl
      refine ⟨fun hh room => runs _ _ (Circ.holdEntry_fresh hh room), fun hh full => runs _ _ (Circ.holdEntry_full hh full),
        fun p x hx => ⟨fun hw => runs _ _ (Circ.holdEntry_waiting hx hw), fun ht hsame => runs _ _ ?_, fun ht hne => runs _ _ ?_⟩⟩
      · rw [Circ.holdEntry_trapped hx ht, decide_eq_true hsame]
      · rw [Circ.holdEntry_trapped hx ht, decide_eq_false hne]

/-! ### The end of a session -/

/-- What the journal leaves of a record that is made whatever it answers (R151). -/
def Journal.leaves (j : Journal) (now : Time) (ds : List Draft) (k : Journal) : Prop :=
  j.accept now ds = .done k ∨ j.accept now ds = .full ∧ k = { j with drops := min (j.drops + 1) 255 }

theorem State.Works.leaves {s : State} {c : Claimant} {t : Txn} {ds : List Draft} {k : Journal} {i : Instr}
    {kind : Txn → Bool} (h : s.Works c t ds) (hne : ds ≠ []) (hj : s.journal.idle) (hl : s.journal.leaves s.now ds k)
    (hi : exec i s = .next (s.takeIf c kind)) (hk : kind t = true) :
    exec i s = .next (State.unitEffect { s.takenFrom c t with journal := k } (s.heldNow c t)) := by
  rw [hi, State.takeIf_turn h.turn hk]
  rcases hl with ha | ⟨ha, rfl⟩
  · rw [h.done hne hj ha]
  · rw [h.dropped hne hj ha]
    rfl

section Ends
variable {s : State} {h : Held} {r : InProgress} {k : ListKind}

theorem State.endSession_eq (hk : s.exch.session = some k) (hh : h.silent = false) (hr : s.portU.inProgress = some r) :
    s.endSession h =
      State.replied
        { s with
          circ := s.circ.cleared k
          exch := { s.exch with session := none, gapMs := none, expired := false,
                                tablesLost := s.exch.tablesLost && decide (k = .holds) } }
        .uplink r .ok (.ended s.exch.stored s.exch.notStored (s.circ.staleCount k)) := by
  have lost : decide (k ≠ .blocks) = decide (k = .holds) := by cases k <;> rfl
  simp only [State.endSession, hk]
  rw [State.answerUplink_replied hh (by exact hr), Circ.endList_cleared, Circ.endList_count, lost]

/-- The session over, its marks cleared (R173). -/
def State.sessionAborted (s : State) (k : ListKind) : State :=
  { s with
    circ := s.circ.marked k false
    exch := { s.exch with session := none, gapMs := none, expired := false } }

theorem State.abortSession_silent {cause : AbortCause} (hk : s.exch.session = some k) (hc : cause ≠ .request) :
    s.abortSession h cause = s.sessionAborted k := by
  simp only [State.abortSession, hk, if_neg hc, Circ.markAll_marked]
  rfl

theorem State.abortSession_request (hk : s.exch.session = some k) (hh : h.silent = false)
    (hr : s.portU.inProgress = some r) :
    s.abortSession h .request = (s.sessionAborted k).replied .uplink r .ok .empty := by
  simp only [State.abortSession, hk, if_true, Circ.markAll_marked]
  exact State.answerUplink_replied (u := s.sessionAborted k) hh hr .empty

end Ends

/-- An abort opens a port that a reset shut (R177). -/
theorem State.takenFrom_abort (s : State) (cause : AbortCause) :
    s.takenFrom .uplink (.downloadAbort cause) =
      { s.tookFrom .uplink with exch := { s.exch with shut := s.exch.shut && decide (cause ≠ .reset) } } := by
  rw [State.takenFrom, State.takeList_ne (t := .downloadAbort cause) _ nofun]
  cases cause <;> rfl

/-- Settles O54: the store's end of a session, asked for by an End or by an abort of any cause. -/
theorem downloadsEndOrAbort : Obligations.DownloadsEndOrAbort := by
  intro s kind k hs hj x t drafts leaves removed
  have hremoved : s.circ.staleCount kind = removed := by cases kind <;> rfl
  refine ⟨fun r h hr hl => ?_, fun cause h hl => ?_⟩
  · have taken : s.takenFrom .uplink .downloadEnd = t := State.takenFrom_eq nofun nofun
    have works : s.Works .uplink .downloadEnd (drafts removed false) := by
      refine ⟨h, fun _ => rfl, ?_⟩
      rw [taken, ← hremoved, ← Circ.endList_count]
      simp only [State.unitRecords, show t.exch.session = some kind from hs]
      rfl
    rw [works.leaves nofun hj hl (kind := Txn.isDownloadEnd) rfl rfl, taken, ← hremoved]
    exact congrArg _ (State.endSession_eq (s := { t with journal := k }) (h := s.heldNow .uplink .downloadEnd) hs rfl hr)
  · have taken := State.takenFrom_abort s cause
    have works : s.Works .uplink (.downloadAbort cause) (drafts 0 true) := by
      refine ⟨h, fun _ => rfl, ?_⟩
      rw [taken]
      simp only [State.unitRecords, hs]
      rfl
    have runs := works.leaves nofun hj hl (i := .downloadAbort) (kind := Txn.isDownloadAbort) rfl rfl
    rw [taken] at runs
    refine ⟨fun hc => runs.trans (congrArg _ ?_), fun r hc hr => runs.trans (congrArg _ ?_)⟩
    · exact State.abortSession_silent (h := s.heldNow .uplink (.downloadAbort cause)) hs hc
    · subst hc
      exact State.abortSession_request (h := s.heldNow .uplink (.downloadAbort .request)) hs rfl hr

end Sys2Proof.Machine
end

section
/-! PROOFS. The OPEN line, a context that leaves Open, and the events that waited for a context while an entry was in service
(R16, R30, R128). O23. -/

namespace Sys2Proof.Machine

/-! ### The OPEN line -/

section Line
variable {s : State}

theorem State.derivedOp_unset (h : s.clock.valid = false ∨ s.settings.config.home = none) : s.derivedOp = .unset := if_pos h

theorem State.derivedOp_open (hv : s.clock.valid = true) (hh : s.settings.config.home ≠ none) (ho : s.openLine = true) :
    s.derivedOp = .opened := by
  simp [State.derivedOp, deriveOp, hv, hh, ho]

theorem State.derivedOp_shut (hv : s.clock.valid = true) (hh : s.settings.config.home ≠ none) (ho : s.openLine = false) :
    s.derivedOp = if s.settings.config.policy = .returns then .returnsOnly else .closed := by
  cases hp : s.settings.config.policy <;> simp [State.derivedOp, deriveOp, hv, hh, ho, hp]

/-- An operating state derived from Open to Open or Unset, or from another, changes and no more. -/
theorem State.deriveState_stays {o : OpState} (h : s.derivedOp = o)
    (hs : s.opState ≠ .opened ∨ o = .opened ∨ o = .unset) : s.deriveState = { s with opState := o } := by
  rw [State.deriveState_eq, h]
  have stays : ¬ (s.opState = .opened ∧ (o = .returnsOnly ∨ o = .closed)) := by
    rintro ⟨h1, h2⟩
    rcases hs with hs | hs | hs
    · exact hs h1
    all_goals rcases h2 with h2 | h2 <;> rw [hs] at h2 <;> cases h2
  simp only [if_neg stays]

theorem Engine.leaveArrives_new {e : Engine} (h : .leaveOpen ∉ e.deferred) :
    e.leaveArrives = { e with deferred := e.deferred ++ [.leaveOpen] } := by
  rw [Engine.leaveArrives, if_neg (by simpa using h)]

theorem State.deriveState_leaves {o : OpState} (h : s.derivedOp = o) (hs : s.opState = .opened)
    (ho : o = .returnsOnly ∨ o = .closed) (ha : .leaveOpen ∉ s.engA.deferred) (hb : .leaveOpen ∉ s.engB.deferred) :
    s.deriveState =
      { s with
        opState := o
        engA := { s.engA with deferred := s.engA.deferred ++ [.leaveOpen] }
        engB := { s.engB with deferred := s.engB.deferred ++ [.leaveOpen] } } := by
  rw [State.deriveState_eq, h]
  simp only [if_pos (show s.opState = .opened ∧ (o = .returnsOnly ∨ o = .closed) from ⟨hs, ho⟩),
    Engine.leaveArrives_new ha, Engine.leaveArrives_new hb]

theorem exec_openLine (high : Bool) (h : s.power ≠ .off) :
    exec (.openLine high) s = .next (State.deriveState { s with openLine := high }) := congrArg _ (if_neg h)

end Line

/-! ### Leaving Open -/

section Leaving
variable (s : State) (d : Desk) (e : Engine)

theorem State.withDeferred_declineHeld (q : List CtxEvent) (h : HeldScan) (late : Bool) :
    (s.withDeferred d q).declineHeld d h late = (s.declineHeld d h late).withDeferred d q := by
  unfold State.declineHeld State.leaveHeld
  cases h.session <;> cases d <;> rfl

theorem State.withDeferred_leaveOpen (q : List CtxEvent) :
    (s.withDeferred d q).leaveOpen d = (s.leaveOpen d).withDeferred d q := by
  unfold State.leaveOpen
  rw [State.withDeferred_ctx]
  split
  · rfl
  · exact State.withDeferred_closeSession ..
  · split
    · exact State.withDeferred_declineHeld ..
    · rw [State.withDeferred_declineHeld]
      exact State.withDeferred_closeSession ..
  · cases d <;> rfl
  · rfl

theorem State.service_sessionClosed (ss : Session) : ((s.sessionClosed d ss e).eng d).service = e.service := by
  unfold State.sessionClosed
  split
  · rw [State.eng_setEng]
  · split <;> cases d <;> rfl

theorem State.service_leaveOpen : ((s.leaveOpen d).eng d).service = (s.eng d).service := by
  have closes : ∀ (u : State) ss, ((u.closeSession d ss .idle).eng d).service = (u.eng d).service := fun u ss => by
    have close := State.closeSession_idle u d (u.eng d) ss
    rw [State.setEng_eng] at close
    rw [close, State.service_sessionClosed]
  have declines : ∀ h, ((s.declineHeld d h true).eng d).service = (s.eng d).service := fun h => by
    unfold State.declineHeld State.leaveHeld
    cases h.session <;> cases d <;> rfl
  unfold State.leaveOpen
  split
  · rfl
  · exact closes _ _
  · split
    · exact declines _
    · exact (closes _ _).trans (declines _)
  · rw [State.eng_setEng]
  · rfl

end Leaving

/-! ### Events that waited for the end of service -/

section Waited
variable {s : State} {d : Desk}

@[simp] theorem State.withDeferred_withDeferred (q q' : List CtxEvent) :
    (s.withDeferred d q').withDeferred d q = s.withDeferred d q := by
  cases d <;> rfl

/-- What `f` makes of the state does not read the events that wait for the desk's context: either the service goes on, or it
ends and those events are acted on after it. -/
def State.RestsThen (d : Desk) (f : State → State) (s : State) : Prop :=
  ((f (s.withDeferred d [])).eng d).service ≠ none
    ∨ ∀ q, f (s.withDeferred d q) = State.runDeferred d true q.length ((f (s.withDeferred d [])).withDeferred d q)

/-- An operation that commutes with the events that wait, followed by the end of service. -/
theorem State.restsThen_endService {f : State → State}
    (h : ∀ q, f (s.withDeferred d q) = (f s).withDeferred d q) :
    State.RestsThen d (fun s => (f s).endService d) s := by
  refine .inr fun q => ?_
  have ends : ∀ q, (f (s.withDeferred d q)).endService d
      = State.runDeferred d true q.length (((f s).rested d).withDeferred d q) := fun q => by
    rw [h, State.endService_withDeferred]
  simp only [ends, List.length_nil, State.runDeferred, State.withDeferred_withDeferred]

/-- An operation that leaves the service as it is. -/
theorem State.restsThen_service {f : State → State} (h : (s.eng d).service ≠ none)
    (hf : ((f (s.withDeferred d [])).eng d).service = (s.eng d).service) : State.RestsThen d f s :=
  .inl (hf ▸ h)

theorem State.engineScan_rests (h : (s.eng d).service ≠ none) (i : Bool) (f : Fields) :
    State.RestsThen d (fun s => s.engineScan d i f) s := by
  cases hs : (s.eng d).service with
  | none => exact absurd hs h
  | some x =>
    cases x with
    | entry sc =>
      have eq : ∀ q, (s.withDeferred d q).engineScan d i f =
          (if i then (s.withDeferred d q).issueDone d sc f else (s.withDeferred d q).plainDone d sc f).endService d := fun q => by
        simp only [State.engineScan, State.withDeferred_service, hs]
      have rests := State.restsThen_endService (s := s) (d := d)
        (f := fun s => if i then s.issueDone d sc f else s.plainDone d sc f) fun q => by
          cases i
          · exact State.withDeferred_plainDone ..
          · exact State.withDeferred_issueDone ..
      simpa only [State.RestsThen, eq] using rests
    | overriding =>
      by_cases hc : ∃ held, (s.eng d).ctx = .awaitOverride held
      · obtain ⟨held, hc⟩ := hc
        have eq : ∀ q, (s.withDeferred d q).engineScan d i f = ((s.withDeferred d q).overrideDone d held f).endService d :=
          fun q => by
            simp only [State.engineScan, State.withDeferred_service, State.withDeferred_ctx, hs, hc]
        have rests := State.restsThen_endService (s := s) (d := d) (f := fun s => s.overrideDone d held f) fun q =>
          State.withDeferred_overrideDone ..
        simpa only [State.RestsThen, eq] using rests
      · refine State.restsThen_service h ?_
        have same : (s.withDeferred d []).engineScan d i f = s.withDeferred d [] := by
          unfold State.engineScan
          rw [State.withDeferred_service, State.withDeferred_ctx, hs]
          split
          next hx => cases hx
          next hx => exact absurd ⟨_, hx⟩ hc
          next => rfl
        rw [same, State.withDeferred_service]

theorem State.engineCheck_rests (h : (s.eng d).service ≠ none) (r : CheckReply) :
    State.RestsThen d (fun s => s.engineCheck d r) s := by
  cases hs : (s.eng d).service with
  | none => exact absurd hs h
  | some x =>
    cases x with
    | entry sc =>
      have eq : ∀ q, (s.withDeferred d q).engineCheck d r = ((s.withDeferred d q).checkDone d sc r).endService d :=
        fun q => by simp only [State.engineCheck, State.withDeferred_service, hs]
      have rests := State.restsThen_endService (s := s) (d := d) (f := fun s => s.checkDone d sc r) fun q =>
        State.withDeferred_checkDone ..
      simpa only [State.RestsThen, eq] using rests
    | overriding =>
      by_cases hc : ∃ held, (s.eng d).ctx = .awaitOverride held
      · obtain ⟨held, hc⟩ := hc
        have eq : ∀ q, (s.withDeferred d q).engineCheck d r = ((s.withDeferred d q).overrideCheckDone d held r).endService d :=
          fun q => by
            simp only [State.engineCheck, State.withDeferred_service, State.withDeferred_ctx, hs, hc]
        have rests := State.restsThen_endService (s := s) (d := d) (f := fun s => s.overrideCheckDone d held r) fun q =>
          State.withDeferred_overrideCheckDone ..
        simpa only [State.RestsThen, eq] using rests
      · refine State.restsThen_service h ?_
        have same : (s.withDeferred d []).engineCheck d r = s.withDeferred d [] := by
          unfold State.engineCheck
          rw [State.withDeferred_service, State.withDeferred_ctx, hs]
          split
          next hx => cases hx
          next hx => exact absurd ⟨_, hx⟩ hc
          next => rfl
        rw [same, State.withDeferred_service]

/-- An outcome of the store for a desk engine: the service ends with it, or goes on. -/
theorem State.deliver_rests {h : Held} (hs : (s.eng d).service ≠ none) (hh : h.silent = false)
    (hc : h.claimant = .engine d) (r : Reply) : State.RestsThen d (fun s => s.deliver h r) s := by
  have desk : h.claimant.desk = d := by rw [hc]; rfl
  cases r with
  | scan f =>
    have eq : ∀ u : State, u.deliver h (.scan f) = u.engineScan d h.txn.isIssue f := fun u => by
      simp only [State.deliver, hh, Bool.false_eq_true, if_false, desk]
    simpa only [State.RestsThen, eq] using State.engineScan_rests hs h.txn.isIssue f
  | check c =>
    have eq : ∀ u : State, u.deliver h (.check c) = u.engineCheck d c := fun u => by
      simp only [State.deliver, hh, Bool.false_eq_true, if_false, desk]
    simpa only [State.RestsThen, eq] using State.engineCheck_rests hs c
  | port code ans =>
    refine State.restsThen_service hs ?_
    simp only [State.deliver, hh, Bool.false_eq_true, if_false, State.eng_respond, State.withDeferred_service]
  | paid taken owed =>
    refine State.restsThen_service hs ?_
    simp only [State.deliver, hh, Bool.false_eq_true, if_false, State.eng_respond, State.offerReceipt]
    split <;> cases d <;> rfl

/-! ### The store's transaction of an engine -/

theorem State.turnOf_withDeferred (q : List CtxEvent) (c : Claimant) : (s.withDeferred d q).turnOf c = s.turnOf c := by
  cases d <;> rfl

theorem State.planOf_withDeferred (q : List CtxEvent) (h : Held) : (s.withDeferred d q).planOf h = s.planOf h := by
  obtain ⟨c, t, now, silent⟩ := h
  cases d <;> cases t <;> rfl

theorem State.heldNow_withDeferred (q : List CtxEvent) (c : Claimant) (t : Txn) :
    (s.withDeferred d q).heldNow c t = s.heldNow c t := by
  cases d <;> rfl

theorem State.journal_withDeferred (q : List CtxEvent) : (s.withDeferred d q).journal = s.journal := by cases d <;> rfl

theorem State.now_withDeferred (q : List CtxEvent) : (s.withDeferred d q).now = s.now := by cases d <;> rfl

theorem State.tookFrom_withDeferred (q : List CtxEvent) :
    (s.withDeferred d q).tookFrom (.engine d) = (s.tookFrom (.engine d)).withDeferred d q := by
  cases d <;> rfl

theorem State.committed_withDeferred (q : List CtxEvent) (circ : Circ) (j : Journal) :
    (s.withDeferred d q).committed (.engine d) circ j = (s.committed (.engine d) circ j).withDeferred d q := by
  cases d <;> rfl

/-- The store's transaction of an engine that has an entry in service: the service goes on, or ends and the events that
waited are acted on after it. -/
theorem State.takeIf_rests {kind : Txn → Bool} (hs : (s.eng d).service ≠ none) (hj : s.journal.idle)
    (hk : ∀ t, kind t = true → ∀ u : State, (u.planOf (u.heldNow (.engine d) t)).isSome = true) :
    State.RestsThen d (fun s => s.takeIf (.engine d) kind) s := by
  have stays : ∀ f : State → State, f (s.withDeferred d []) = s.withDeferred d [] → State.RestsThen d f s := fun f hf =>
    State.restsThen_service hs (by rw [hf, State.withDeferred_service])
  cases ht : s.turnOf (.engine d) with
  | none => exact stays _ (State.takeIf_none ((State.turnOf_withDeferred ..).trans ht))
  | some t =>
    cases hkt : kind t with
    | false =>
      refine stays _ ?_
      simp only [State.takeIf, State.turnOf_withDeferred, ht, hkt, Bool.false_eq_true, if_false]
    | true =>
      obtain ⟨p, hp⟩ := Option.isSome_iff_exists.mp (hk t hkt s)
      have turn : ∀ q, (s.withDeferred d q).turnOf (.engine d) = some t := fun q => (State.turnOf_withDeferred ..).trans ht
      have plan : ∀ q, (s.withDeferred d q).planOf ((s.withDeferred d q).heldNow (.engine d) t) = some p := fun q => by
        rw [State.planOf_withDeferred, State.heldNow_withDeferred, hp]
      have idle : ∀ q, (s.withDeferred d q).journal.idle := fun q => by rwa [State.journal_withDeferred]
      have accept : ∀ q, (s.withDeferred d q).journal.accept (s.withDeferred d q).now p.recs
          = s.journal.accept s.now p.recs := fun q => by rw [State.journal_withDeferred, State.now_withDeferred]
      have delivers : ∀ (u : State) (r : Reply), (u.eng d) = s.eng d →
          (∀ q, (s.withDeferred d q).takeIf (.engine d) kind
            = (u.withDeferred d q).deliver (s.heldNow (.engine d) t) r) →
          State.RestsThen d (fun s => s.takeIf (.engine d) kind) s := fun u r hu eq => by
        have rests := State.deliver_rests (s := u) (d := d) (h := s.heldNow (.engine d) t) (hu ▸ hs) rfl rfl r
        simpa only [State.RestsThen, eq] using rests
      by_cases hr : p.recs = []
      · refine delivers { s.tookFrom (.engine d) with circ := p.circ } p.reply (by cases d <;> rfl) fun q => ?_
        rw [State.takeIf_turn (turn q) hkt, State.storeTake_answered (turn q) (plan q) hr, State.heldNow_withDeferred]
        cases d <;> rfl
      · cases ha : s.journal.accept s.now p.recs with
        | done j =>
          refine delivers (s.committed (.engine d) p.circ j) p.reply (State.eng_committed ..) fun q => ?_
          rw [State.takeIf_turn (turn q) hkt, State.storeTake_accepted (turn q) (plan q) hr (idle q) ((accept q).trans ha),
            State.heldNow_withDeferred, State.committed_withDeferred]
        | full =>
          refine delivers (s.tookFrom (.engine d)) p.refused (State.eng_tookFrom ..) fun q => ?_
          rw [State.takeIf_turn (turn q) hkt, State.storeTake_full (turn q) (plan q) hr (idle q) ((accept q).trans ha),
            State.heldNow_withDeferred, State.tookFrom_withDeferred]
        | wait =>
          refine State.restsThen_service hs ?_
          rw [State.takeIf_turn (turn []) hkt, State.storeTake_waits (plan []) hr (idle []) ((accept []).trans ha)]
          cases d <;> rfl

/-! ### What the events leave waiting -/

theorem State.deferred_follow (f : FollowOn) (e : Engine) (s : State) :
    (((s.setEng d e).follow d f).eng d).deferred = e.deferred := by
  cases f with
  | idle => rw [State.follow_idle, State.eng_setEng]
  | resume ss => rw [State.follow_resume, State.eng_setEng]
  | serveBorrower sc =>
    by_cases ho : s.opState = .opened
    · rw [State.follow_serve_opened _ _ _ _ ho, State.eng_sendTxn, State.eng_setEng]
    · rw [State.follow_serve_notOpen _ _ _ _ ho, State.eng_setEng]
  | closeResumed ss =>
    rw [State.follow_closeResumed, State.sessionClosed]
    split
    · rw [State.eng_setEng]
    · split <;> cases d <;> rfl

theorem State.deferred_follow_same (u : State) (f : FollowOn) : ((u.follow d f).eng d).deferred = (u.eng d).deferred := by
  have follows := State.deferred_follow (d := d) f (u.eng d) u
  rwa [State.setEng_eng] at follows

theorem State.deferred_refuseHeld (code : RespCode) : ((s.refuseHeld d code).eng d).deferred = (s.eng d).deferred := by
  rw [State.refuseHeld, State.eng_respond, State.eng_setEng]

/-- A request of the terminal leaves the events behind it waiting. -/
theorem State.deferred_actOn {ev : CtxEvent} (h : ev ≠ .leaveOpen) :
    ((s.actOn d ev).eng d).deferred = (s.eng d).deferred := by
  cases ev with
  | leaveOpen => exact absurd rfl h
  | override =>
    simp only [State.actOn, State.doOverride]
    split
    · exact State.deferred_refuseHeld _
    · split
      · rw [State.eng_respond]
      · rw [State.eng_sendTxn, State.eng_setEng]
  | decline =>
    simp only [State.actOn, State.doDecline]
    split
    · exact State.deferred_refuseHeld _
    next held _ =>
      rw [State.eng_respond]
      unfold State.declineHeld State.leaveHeld
      cases held.session <;> cases d <;> rfl
  | dropSlip =>
    simp only [State.actOn, State.doDropSlip]
    split
    · rw [State.eng_respond]
    · split
      · rw [State.eng_respond]
      · split
        · exact (State.deferred_follow_same _ _).trans (by rw [State.eng_withPrinter, State.eng_respond])
        · rw [State.eng_respond]

/-- An event that reaches the context of a state with nothing in service meets it as R36 says. -/
theorem State.actOn_meets {t : State} {e : Engine} {r : InProgress} (hr : (t.port (.desk d)).inProgress = some r)
    (ev : CtxEvent) : t.eventMeets d ev e r ((t.setEng d e).actOn d ev) := by
  refine ⟨fun h => ?_, fun h => ?_, fun h => ?_⟩ <;> subst h
  · exact State.doOverride_meets hr
  · exact State.doDecline_meets hr
  · exact State.doDropSlip_meets hr

/-- The service ended: a change of operating state waits on. -/
theorem State.runDeferred_leaveOpen {t : State} {rest : List CtxEvent} (n : Nat)
    (hd : (t.eng d).deferred = .leaveOpen :: rest) : State.runDeferred d true n t = t := by
  cases n with
  | zero => rfl
  | succ n =>
    unfold State.runDeferred
    split
    · rfl
    · simp only [hd, true_and, if_true]

/-- The service ended: a request that waited is acted on, and what came behind it is none or a change of operating state. -/
theorem State.runDeferred_request {t : State} {ev : CtxEvent} {rest : List CtxEvent} (hs : (t.eng d).service = none)
    (hd : (t.eng d).deferred = ev :: rest) (hev : ev ≠ .leaveOpen) (hrest : rest = [] ∨ rest = [.leaveOpen]) :
    State.runDeferred d true (ev :: rest).length t = (t.setEng d { t.eng d with deferred := rest }).actOn d ev := by
  have behind : (((t.setEng d { t.eng d with deferred := rest }).actOn d ev).eng d).deferred = rest := by
    rw [State.deferred_actOn hev, State.eng_setEng]
  have acts : State.runDeferred d true (ev :: rest).length t
      = State.runDeferred d true rest.length ((t.setEng d { t.eng d with deferred := rest }).actOn d ev) := by
    rw [List.length_cons, State.runDeferred, hs, if_neg nofun]
    simp only [hd, hev, and_false, if_false]
  rcases hrest with rfl | rfl
  · exact acts
  · exact acts.trans (State.runDeferred_leaveOpen _ behind)

end Waited

/-- What the commands of the store that serve an engine run (R41). -/
theorem exec_engineTxn {d : Desk} {c : Instr}
    (h : c ∈ [.issue d, .overrideOnLoanElsewhere d, .overrideHeldForOther d, .discharge d, .renew d, .itemInquiry d,
      .borrowerCheck d, .borrowerInquiry d]) :
    ∃ kind : Txn → Bool, (∀ s, exec c s = .next (s.takeIf (.engine d) kind))
      ∧ ∀ t, kind t = true → ∀ u : State, (u.planOf (u.heldNow (.engine d) t)).isSome = true := by
  simp only [List.mem_cons, List.not_mem_nil, or_false] at h
  rcases h with rfl | rfl | rfl | rfl | rfl | rfl | rfl | rfl
  · exact ⟨Txn.isPlainIssue, fun _ => rfl, fun t ht u => by cases t <;> first | rfl | nomatch ht⟩
  · exact ⟨Txn.isOverrideLoan, fun _ => rfl, fun t ht u => by cases t <;> first | rfl | nomatch ht⟩
  · exact ⟨Txn.isOverrideHold, fun _ => rfl, fun t ht u => by cases t <;> first | rfl | nomatch ht⟩
  · exact ⟨Txn.isDischarge, fun _ => rfl, fun t ht u => by cases t <;> first | rfl | nomatch ht⟩
  · exact ⟨Txn.isRenew, fun _ => rfl, fun t ht u => by cases t <;> first | rfl | nomatch ht⟩
  · exact ⟨Txn.isItemInquiry, fun _ => rfl, fun t ht u => by cases t <;> first | rfl | nomatch ht⟩
  · exact ⟨Txn.isBorrowerCheck, fun _ => rfl, fun t ht u => by cases t <;> first | rfl | nomatch ht⟩
  · exact ⟨Txn.isBorrowerInquiry, fun _ => rfl, fun t ht u => by cases t <;> first | rfl | nomatch ht⟩

/-- Settles O23: the level of the line, a context that leaves Open, and the events the end of service acts on. -/
theorem openLineSetsTheStateAndContextsLeaveOpen : Obligations.OpenLineSetsTheStateAndContextsLeaveOpen := by
  refine ⟨fun high s hp => ⟨fun hu => ?_, fun hv hh hl => ?_, fun hv hh hl => ?_⟩, fun d s hp hs hd => ?_,
    fun d c s t ev rest hc hs hd hj ht hts => ?_, fun d s t ev r hp hs hd hev ht hr => ?_⟩
  · rw [exec_openLine high hp]
    exact congrArg _ (State.deriveState_stays (State.derivedOp_unset hu) (.inr (.inr rfl)))
  · rw [exec_openLine high hp, hl]
    exact congrArg _ (State.deriveState_stays (State.derivedOp_open (s := { s with openLine := true }) hv hh rfl)
      (.inr (.inl rfl)))
  · intro o
    have derived : ({ s with openLine := high } : State).derivedOp = o := State.derivedOp_shut hv hh hl
    have ho : o = .returnsOnly ∨ o = .closed := by
      by_cases h : s.settings.config.policy = .returns
      · exact .inl (if_pos h)
      · exact .inr (if_neg h)
    rw [exec_openLine high hp]
    subst hl
    exact ⟨fun hn => congrArg _ (State.deriveState_stays derived (.inl hn)),
      fun hopen ha hb => congrArg _ (State.deriveState_leaves derived hopen ho ha hb)⟩
  · intro e
    have runs : exec (.leaveOpen d) s = .next ((s.setEng d e).leaveOpen d) :=
      congrArg Host.Outcome.next ((if_pos hp).trans (State.settle_one hs hd))
    refine ⟨fun hc => ?_, fun ss hc => ?_, fun h hc => ?_, fun x ss hc => ?_, fun x f hc hf => ?_⟩
    · rw [runs, State.leaveOpen, State.eng_setEng, hc]
    · rw [runs, State.leaveOpen, State.eng_setEng, hc]
      exact congrArg _ (State.closeSession_idle ..)
    · intro e1
      refine ⟨fun hn => ?_, fun ss hss => ?_⟩
      · rw [runs, State.leaveOpen, State.eng_setEng, hc]
        simp only [hn, State.declineHeld_none s d e true hn]
        rfl
      · rw [runs, State.leaveOpen, State.eng_setEng, hc]
        simp only [hss, State.declineHeld_some s d e true hss, State.closeSession_idle]
        rfl
    · rw [runs, State.leaveOpen, State.eng_setEng, hc]
      exact congrArg _ (State.setEng_setEng ..)
    · rw [runs, State.leaveOpen, State.eng_setEng, hc]
      cases f with
      | resume ss => exact absurd rfl (hf ss)
      | idle | serveBorrower | closeResumed => rfl
  · obtain ⟨kind, hexec, hk⟩ := exec_engineTxn hc
    have took : (s.withDeferred d []).takeIf (.engine d) kind = t := Host.Outcome.next.inj ((hexec _).symm.trans ht)
    have same : s.withDeferred d (ev :: rest) = s := by rw [State.withDeferred, ← hd, State.setEng_eng]
    have rests : exec c s = .next (State.runDeferred d true (ev :: rest).length (t.withDeferred d (ev :: rest))) := by
      rcases State.takeIf_rests hs hj hk with h | h
      · exact absurd hts (took ▸ h)
      · rw [hexec, ← took, ← h, same]
    have waiting : ((t.withDeferred d (ev :: rest)).eng d).deferred = ev :: rest := by
      rw [State.withDeferred, State.eng_setEng]
    refine ⟨fun hev => ?_, fun r hev hrest hr => ⟨_, rests, ?_⟩⟩
    · subst hev
      rw [rests, State.runDeferred_leaveOpen _ waiting]
      rfl
    · rw [State.runDeferred_request ((State.withDeferred_service ..).trans hts) waiting hev hrest, State.withDeferred,
        State.eng_setEng, State.setEng_setEng]
      exact State.actOn_meets hr ev
  · have one := State.settle_one (s := s.withDeferred d [.leaveOpen]) (ev := .leaveOpen)
      ((State.withDeferred_service ..).trans hs) (by rw [State.withDeferred, State.eng_setEng])
    have leaves : (s.withDeferred d []).leaveOpen d = t := by
      have runs : exec (.leaveOpen d) (s.withDeferred d [.leaveOpen]) = .next ((s.withDeferred d [.leaveOpen]).settle d) :=
        congrArg Host.Outcome.next (if_pos ((State.setEng_power ..).trans hp))
      rw [← Host.Outcome.next.inj (runs.symm.trans ht), one]
      exact congrArg (fun u : State => u.leaveOpen d)
        (State.withDeferred_withDeferred (s := s) (d := d) [] [.leaveOpen]).symm
    have service : (t.eng d).service = none := by
      rw [← leaves, State.service_leaveOpen, State.withDeferred_service, hs]
    have deferred : (t.eng d).deferred = [] := by
      have kept := State.deferred_of_withDeferred (s := s.withDeferred d []) (f := fun u => u.leaveOpen d)
        fun q => State.withDeferred_leaveOpen ..
      rw [← leaves, kept, State.withDeferred, State.eng_setEng]
    have settles : s.settle d = (t.withDeferred d [ev]).settle d := by
      have first : s.settle d = State.runDeferred d false 1 ((s.withDeferred d [ev]).leaveOpen d) := by
        rw [State.settle, hd, List.length_cons, State.runDeferred, hs, if_neg nofun, hd]
        rfl
      have second : (s.withDeferred d [ev]).leaveOpen d = t.withDeferred d [ev] := by
        rw [← leaves, ← State.withDeferred_leaveOpen, State.withDeferred_withDeferred]
      rw [first, second, State.settle, State.withDeferred, State.eng_setEng]
      rfl
    have runs : exec (.leaveOpen d) s = .next ((t.withDeferred d [ev]).settle d) :=
      congrArg Host.Outcome.next ((if_pos hp).trans settles)
    refine ⟨_, runs, ?_⟩
    have same : { t.eng d with deferred := [] } = t.eng d := by rw [← deferred]
    rw [State.settle_one ((State.withDeferred_service ..).trans service) (by rw [State.withDeferred, State.eng_setEng]),
      State.withDeferred, State.eng_setEng, State.setEng_setEng]
    simp only [same]
    exact State.actOn_meets hr ev

end Sys2Proof.Machine
end

section
/-! PROOFS. The printer's answers and its two timers (R181 to R184). O55. -/

namespace Sys2Proof.Machine

/-! ### The receive line -/

theorem keptChars_cons (c : WandChar) (chars : List WandChar) :
    keptChars (c :: chars) = keptChars [c] ++ keptChars chars :=
  List.filterMap_append (l := [c]) (l' := chars)

theorem noReturn_cons {c : WandChar} {chars : List WandChar} (h : noReturn (c :: chars) = true) :
    c ≠ .char 0x0D#8 ∧ noReturn chars = true := by
  rw [noReturn, List.contains_cons, Bool.not_or, Bool.and_eq_true, Bool.not_eq_true', beq_eq_false_iff_ne] at h
  exact ⟨h.1.symm, h.2⟩

/-- Characters without a carriage return join the message under way, those a message keeps. -/
theorem State.heard_kept {chars : List WandChar} (h : noReturn chars = true) (s : State) :
    chars.foldl State.printerChar s = s.setPrinterRx (s.printer.rx ++ keptChars chars) := by
  induction chars generalizing s with
  | nil => exact congrArg s.setPrinterRx (List.append_nil _).symm
  | cons c chars ih =>
    obtain ⟨hc, hrest⟩ := noReturn_cons h
    rw [List.foldl_cons, ih hrest, keptChars_cons, ← List.append_assoc]
    cases c with
    | lineError => rw [State.printerChar_lineError, show keptChars [WandChar.lineError] = [] from rfl, List.append_nil]
    | char b =>
      by_cases hb : b = 0x0A#8
      · subst hb
        rw [State.printerChar_lineFeed, show keptChars [WandChar.char 0x0A#8] = [] from rfl, List.append_nil]
      · have kept : keptChars [WandChar.char b] = [b] := by simp [keptChars, hb]
        rw [State.printerChar_kept s hb fun e => hc (congrArg WandChar.char e), kept]
        rfl

/-- The carriage return after them ends the message. -/
theorem State.heard_return {chars : List WandChar} (h : noReturn chars = true) (s : State) :
    (chars ++ [WandChar.char 0x0D#8]).foldl State.printerChar s =
      (s.setPrinterRx []).printerMessage (s.printer.rx ++ keptChars chars) := by
  rw [List.foldl_append, State.heard_kept h]
  rfl

section Answers
variable {s : State}

/-- One letter and a carriage return are taken as a message, behind what was received before. -/
theorem State.hears_letter {b : Byte} (h : s.power = .running) (h1 : b ≠ 0x0A#8) (h2 : b ≠ 0x0D#8) :
    s.printerHears [.char b, .char 0x0D#8] = (s.setPrinterRx []).printerMessage (s.printer.rx ++ [b]) := by
  rw [State.printerHears_running h]
  simp only [List.foldl_cons, List.foldl_nil, State.printerChar_kept s h1 h2, State.printerChar_return]
  rfl

theorem exec_printerMessageDiscard (h : s.power = .running) (chars : List WandChar) :
    exec (.printerMessageDiscard chars) s = .next (chars.foldl State.printerChar s) :=
  congrArg Host.Outcome.next (State.printerHears_running h chars)

theorem exec_printerDone (h : s.power = .running) :
    exec .printerDone s = .next ((s.setPrinterRx []).printerMessage (s.printer.rx ++ [0x44#8])) :=
  congrArg Host.Outcome.next (State.hears_letter h (by decide) (by decide))

theorem exec_printerPaperOut (h : s.power = .running) :
    exec .printerPaperOut s = .next ((s.setPrinterRx []).printerMessage (s.printer.rx ++ [0x50#8])) :=
  congrArg Host.Outcome.next (State.hears_letter h (by decide) (by decide))

theorem exec_printerReady (h : s.power = .running) :
    exec .printerReady s = .next ((s.setPrinterRx []).printerMessage (s.printer.rx ++ [0x52#8])) :=
  congrArg Host.Outcome.next (State.hears_letter h (by decide) (by decide))

/-- A letter behind characters received before is none of the three messages. -/
theorem State.printerMessage_behind {rx : List Byte} (s : State) (h : rx ≠ []) (b : Byte) :
    s.printerMessage (rx ++ [b]) = s := by
  have other (c : Byte) : rx ++ [b] ≠ [c] := fun e => h (List.append_inj_left' (t₁ := [b]) (t₂ := [c]) e rfl)
  exact State.printerMessage_other s (other _) (other _) (other _)

/-! ### What each answer does -/

theorem Printer.expects_iff {p : Printer} {m : PrinterMsg} :
    p.expects m = true ↔ p.outstanding = some m ∧ p.sending = none := by
  simp [Printer.expects]

theorem State.printerMessage_done (h : s.printer.expects .slip = true) : s.printerMessage [0x44#8] = s.printed :=
  if_pos ⟨rfl, h⟩

theorem State.printerMessage_done_early (h : s.printer.expects .slip = false) : s.printerMessage [0x44#8] = s := by
  simp [State.printerMessage, h]

theorem State.printerMessage_paperOut (h : s.printer.expects .slip = true ∨ s.printer.expects .inquiry = true) :
    s.printerMessage [0x50#8] = { s with printer := s.printer.waitInquiry .paperOut } := by
  simp [State.printerMessage, h]

theorem State.printerMessage_ready (h : s.printer.expects .inquiry = true) :
    s.printerMessage [0x52#8] = { s with printer := s.printer.sendFront } := by
  simp [State.printerMessage, h]

theorem State.printerMessage_ready_early (h : s.printer.expects .inquiry = false) : s.printerMessage [0x52#8] = s := by
  simp [State.printerMessage, h]

theorem State.setPrinterRx_same (h : s.printer.rx = []) : s.setPrinterRx [] = s := by
  obtain ⟨⟩ := s
  simp_all [State.setPrinterRx]
  rw [← h]

/-- DONE with no desk waiting: the front slip is gone and the next is sent. -/
theorem State.printed_free (h : s.printer.waitList = []) :
    s.printed = { s with printer := Printer.sendFront { s.printer with queue := s.printer.queue.tail } } := by
  have settled : s.settleWaiting = s := by rw [State.settleWaiting, h]
  rw [State.printed, settled, State.frontLeaves]
  simp only [h]

/-- DONE with a desk waiting on which nothing is deferred: its slip takes the freed place and its follow-on is performed. -/
theorem State.printed_waiting {d : Desk} {rest : List Desk} {x : Slip} {f : FollowOn} (h : s.printer.waitList = d :: rest)
    (hctx : (s.eng d).ctx = .slipWait x f) (hd : (s.eng d).deferred = []) :
    s.printed =
      State.follow
        { s with printer := Printer.sendFront { s.printer with queue := s.printer.queue.tail ++ [x], waitList := rest } }
        d f := by
  have settled : s.settleWaiting = s := by rw [State.settleWaiting, h]; exact State.settle_nil hd
  rw [State.printed, settled, State.frontLeaves]
  simp only [h, hctx, Ctx.waitingSlip]

end Answers

/-! ### The timers -/

section Timers
variable {s : State}

theorem hasRun_some {limit ms : Nat} (h : limit ≤ ms) : hasRun limit (some ms) = true := decide_eq_true h

theorem not_hasRun {limit : Nat} {t : Option Nat} (h : ∀ ms, t = some ms → ms < limit) : ¬ hasRun limit t = true := by
  cases t with
  | none => nofun
  | some ms => simpa [hasRun] using h ms rfl

end Timers

/-- Settles O55: the characters of a message first, then what each of the three answers does, then the timers. -/
theorem printerAnswersAndTimers : Obligations.PrinterAnswersAndTimers := by
  unfold Obligations.PrinterAnswersAndTimers
  refine ⟨?_, ?_⟩
  · intro s run p heard answers after
    have sent : ∀ q w, Printer.sendFront { p with queue := q, waitList := w } = after q w := by
      intro q w; cases q <;> rfl
    have early {m : List Byte} (h : p.outstanding = none ∨ p.sending ≠ none) : s.printerMessage m = s :=
      State.printerMessage_unexpected h m
    refine ⟨?_, ?_, ?_⟩
    · intro chars hchars m ends
      have ended : exec (.printerMessageDiscard ends) s = .next ((heard []).printerMessage m) :=
        (exec_printerMessageDiscard run _).trans (congrArg Host.Outcome.next (State.heard_return hchars s))
      refine ⟨(exec_printerMessageDiscard run _).trans (congrArg Host.Outcome.next (State.heard_kept hchars s)),
        ?_, ?_, ?_, ?_⟩
      · intro hm
        rw [ended, exec_printerDone (s := heard []) run, hm]; exact congrArg Host.Outcome.next (by rfl)
      · intro hm
        rw [ended, exec_printerPaperOut (s := heard []) run, hm]; exact congrArg Host.Outcome.next (by rfl)
      · intro hm
        rw [ended, exec_printerReady (s := heard []) run, hm]; exact congrArg Host.Outcome.next (by rfl)
      · intro h1 h2 h3
        rw [ended, State.printerMessage_other _ h1 h2 h3]
    · intro c hc hrx
      have gone (b : Byte) : (s.setPrinterRx []).printerMessage (s.printer.rx ++ [b]) = heard [] :=
        State.printerMessage_behind _ hrx b
      simp only [answers, List.mem_cons, List.not_mem_nil, or_false] at hc
      rcases hc with rfl | rfl | rfl
      · rw [exec_printerDone run, gone]
      · rw [exec_printerPaperOut run, gone]
      · rw [exec_printerReady run, gone]
    · intro hrx
      have clear : s.setPrinterRx [] = s := State.setPrinterRx_same hrx
      have hdone : exec .printerDone s = .next (s.printerMessage [0x44#8]) := by
        rw [exec_printerDone run, clear, show s.printer.rx = [] from hrx, List.nil_append]
      have hpaper : exec .printerPaperOut s = .next (s.printerMessage [0x50#8]) := by
        rw [exec_printerPaperOut run, clear, show s.printer.rx = [] from hrx, List.nil_append]
      have hready : exec .printerReady s = .next (s.printerMessage [0x52#8]) := by
        rw [exec_printerReady run, clear, show s.printer.rx = [] from hrx, List.nil_append]
      refine ⟨?_, fun hs => ⟨fun hi => ?_, fun ho => ?_, fun hp => ⟨?_, ?_, ?_⟩⟩⟩
      · intro c hc hearly
        simp only [answers, List.mem_cons, List.not_mem_nil, or_false] at hc
        rcases hc with rfl | rfl | rfl
        · rw [hdone, early hearly]
        · rw [hpaper, early hearly]
        · rw [hready, early hearly]
      · have slip : s.printer.expects .slip = false := by simp [Printer.expects, show s.printer.outstanding = _ from hi]
        rw [hdone, State.printerMessage_done_early slip, hready,
          State.printerMessage_ready (Printer.expects_iff.mpr ⟨hi, hs⟩), ← sent]
        exact ⟨rfl, rfl⟩
      · have expected : s.printer.expects .slip = true ∨ s.printer.expects .inquiry = true := by
          cases hm : s.printer.outstanding with
          | none => exact absurd hm ho
          | some m =>
            cases m with
            | slip => exact .inl (Printer.expects_iff.mpr ⟨hm, hs⟩)
            | inquiry => exact .inr (Printer.expects_iff.mpr ⟨hm, hs⟩)
        rw [hpaper, State.printerMessage_paperOut expected]
        rfl
      · have inquiry : s.printer.expects .inquiry = false := by
          simp [Printer.expects, show s.printer.outstanding = _ from hp]
        rw [hready, State.printerMessage_ready_early inquiry]
      · intro hw
        rw [hdone, State.printerMessage_done (Printer.expects_iff.mpr ⟨hp, hs⟩), State.printed_free hw, ← sent, ← hw]
      · intro d rest x f hw hctx hd t
        have printed : exec .printerDone s = .next ((t.setEng d (s.eng d)).follow d f) := by
          rw [hdone, State.printerMessage_done (Printer.expects_iff.mpr ⟨hp, hs⟩), State.printed_waiting hw hctx hd, sent]
          exact congrArg (fun u : State => Host.Outcome.next (u.follow d f)) (t.setEng_eng d).symm
        rw [printed]
        refine ⟨?_, ?_, ?_, ?_, ?_⟩
        · rintro rfl; exact congrArg Host.Outcome.next (State.follow_idle ..)
        · rintro ss rfl; exact congrArg Host.Outcome.next (State.follow_resume ..)
        · rintro sc rfl h; exact congrArg Host.Outcome.next (State.follow_serve_opened t d _ sc h)
        · rintro sc rfl h; exact congrArg Host.Outcome.next (State.follow_serve_notOpen t d _ sc h)
        · rintro ss rfl; exact congrArg Host.Outcome.next (State.follow_closeResumed ..)
  · intro s run p
    refine ⟨fun h => ?_, fun h => ?_, fun ms h hms => ?_, fun h => ?_, fun ms h hms => ?_, fun h => ?_⟩
    · exact congrArg Host.Outcome.next (if_pos ⟨run, Option.isSome_iff_ne_none.mpr h⟩)
    · exact congrArg Host.Outcome.next (if_neg fun hc => absurd h (Option.isSome_iff_ne_none.mp hc.2))
    · exact congrArg Host.Outcome.next (if_pos ⟨run, (congrArg _ h).trans (hasRun_some hms)⟩)
    · exact congrArg Host.Outcome.next (if_neg fun hc => not_hasRun h hc.2)
    · exact congrArg Host.Outcome.next (if_pos ⟨run, (congrArg _ h).trans (hasRun_some hms)⟩)
    · exact congrArg Host.Outcome.next (if_neg fun hc => not_hasRun h hc.2)

end Sys2Proof.Machine
end

section
/-! PROOFS. What one acceptance does to the journal's page buffers, and how the acceptance that waited is taken up again
(R146, R147, R149, R150, R152, R154). -/

namespace Sys2Proof.Machine

/-! ### Records placed in the page buffers -/

/-- What placing records leaves of a journal: all but the sectors and the buffers. -/
def Journal.placedFrom (j k : Journal) : Prop :=
  k = { j with sectors := k.sectors, active := k.active, page := k.page, filling := k.filling, fillMs := k.fillMs,
               waiting := k.waiting }

theorem Journal.placedFrom.trans {i j k : Journal} (h : i.placedFrom j) (h2 : j.placedFrom k) : i.placedFrom k :=
  calc k = { j with sectors := k.sectors, active := k.active, page := k.page, filling := k.filling, fillMs := k.fillMs,
                    waiting := k.waiting } := h2
    _ = _ := by rw [h]

theorem Journal.closeFilling_eq (j : Journal) : j.closeFilling = j.withClosed := by
  unfold Journal.closeFilling Journal.withClosed
  cases hf : j.filling with
  | none => obtain ⟨⟩ := j; simp_all
  | some b => rfl

theorem Journal.withClosed_placed (j : Journal) : j.placedFrom j.withClosed := by rfl

theorem Journal.placedFrom.programming {j k : Journal} (h : j.placedFrom k) : k.programming = j.programming := by rw [h]

theorem Journal.placedFrom.u {j k : Journal} (h : j.placedFrom k) : k.u = j.u := by rw [h]

theorem Journal.withClosed_buffered (j : Journal) : j.withClosed.buffered = j.buffered := by
  simp [Journal.withClosed, Journal.buffered]

theorem Journal.openSector_placed {j k : Journal} {seq : Nat} {t : Nat × Nat} (h : j.openSector seq = .done (k, t)) :
    j.placedFrom k ∧ k.filling = j.filling ∧ k.waiting = j.waiting := by
  revert h
  unfold Journal.openSector
  dsimp only
  split
  · cases j.active <;> rintro ⟨⟩ <;> exact ⟨rfl, rfl, rfl⟩
  · rintro ⟨⟩
  · rintro ⟨⟩

theorem Journal.givePage_placed {j k : Journal} {seq : Nat} {t : Nat × Nat} (h : j.givePage seq = .done (k, t)) :
    j.placedFrom k ∧ k.filling = j.filling ∧ k.waiting = j.waiting := by
  revert h
  unfold Journal.givePage
  split
  · exact Journal.openSector_placed
  · split
    · rintro ⟨⟩
      exact ⟨rfl, rfl, rfl⟩
    · exact Journal.openSector_placed

theorem Journal.putRec_placed (j : Journal) (b : PageBuf) (r : Rec) : j.placedFrom (j.putRec b r) := by
  unfold Journal.putRec Journal.placedFrom
  cases b.target <;> dsimp only <;> split <;> rfl

/-- The record stands behind all those of the buffer it is put in, and that buffer is the last. -/
theorem Journal.putRec_buffered (j : Journal) (b : PageBuf) (r : Rec) :
    (j.putRec b r).buffered = (j.programming.toList ++ j.waiting).flatMap (fun x => x.recs) ++ (b.recs ++ [r]) := by
  unfold Journal.putRec Journal.buffered
  cases b.target <;> dsimp only [Journal.setSector] <;> split <;> simp

/-- Placing one record puts it behind those accepted before. -/
theorem Journal.placeNew_done {j k : Journal} {r : Rec} (h : j.placeNew r = .done k) :
    j.placedFrom k ∧ k.buffered = j.buffered ++ [r] := by
  revert h
  unfold Journal.placeNew
  split
  · rintro ⟨⟩
  · split
    · rintro ⟨⟩
    · rintro ⟨⟩
    · next j1 t hg =>
      rw [Journal.closeFilling_eq] at hg
      obtain ⟨hp, hf, hw⟩ := Journal.givePage_placed hg
      rintro ⟨⟩
      refine ⟨(j.withClosed_placed.trans hp).trans (Journal.putRec_placed ..), ?_⟩
      rw [Journal.putRec_buffered, hw, hp.programming, ← j.withClosed_buffered]
      simp [Journal.withClosed, Journal.buffered]

theorem Journal.placeOne_done {j k : Journal} {r : Rec} (h : j.placeOne r = .done k) :
    j.placedFrom k ∧ k.buffered = j.buffered ++ [r] := by
  revert h
  unfold Journal.placeOne
  split
  · exact Journal.placeNew_done
  · next b hb =>
    split
    · rintro ⟨⟩
      refine ⟨Journal.putRec_placed .., ?_⟩
      rw [Journal.putRec_buffered, Journal.buffered, hb]
      simp
    · exact Journal.placeNew_done

theorem Journal.placeAll_done (rs : List Rec) {j k : Journal} (h : j.placeAll rs = .done k) :
    j.placedFrom k ∧ k.buffered = j.buffered ++ rs := by
  induction rs generalizing j with
  | nil =>
    cases h
    exact ⟨rfl, (List.append_nil _).symm⟩
  | cons r rs ih =>
    revert h
    unfold Journal.placeAll
    split
    · rintro ⟨⟩
    · rintro ⟨⟩
    · next j1 h1 =>
      intro h
      obtain ⟨hp1, hb1⟩ := Journal.placeOne_done h1
      obtain ⟨hp, hb⟩ := ih h
      exact ⟨hp1.trans hp, by rw [hb, hb1, List.append_assoc]; rfl⟩

/-! ### One acceptance -/

theorem length_numberDrafts (now : Time) (seq : Nat) (ds : List Draft) : (numberDrafts now seq ds).length = ds.length := by
  induction ds generalizing seq with
  | nil => rfl
  | cons d ds ih => exact congrArg (· + 1) (ih (seq + 1))

/-- The records of an acceptance are numbered one after another. -/
theorem getElem?_numberDrafts (now : Time) (seq : Nat) (ds : List Draft) (i : Nat) {r : Rec} {d : Draft}
    (hr : (numberDrafts now seq ds)[i]? = some r) (hd : ds[i]? = some d) :
    r = { seq := seq + i, source := d.source, time := d.time.getD now, flags := d.flags, body := d.body } := by
  induction ds generalizing seq i with
  | nil => cases hd
  | cons d0 ds ih =>
    cases i with
    | zero =>
      cases hd
      cases hr
      rfl
    | succ i =>
      rw [ih (seq + 1) i hr hd]
      simp only [Nat.add_assoc, Nat.add_comm 1]

theorem Source.isDesk_iff {x : Source} : x.isDesk = true ↔ ∃ d, x = .desk d := by
  cases x <;> simp [Source.isDesk]

theorem Journal.erasedCount_eq (j : Journal) :
    j.erasedCount = (j.sectors.filter (fun x => decide (x.st = .erased))).length := by
  refine congrArg (fun p => (j.sectors.filter p).length) (funext fun x => ?_)
  cases x.st <;> rfl

/-- An acceptance that is done has placed its records and met the space test. -/
theorem Journal.accept_done {j k : Journal} {now : Time} {ds : List Draft} (h : j.accept now ds = .done k) :
    ∃ j1, j.placeAll (numberDrafts now j.next ds) = .done j1 ∧ j.next + ds.length ≤ 4294967295
      ∧ ¬ (ds.any (fun d => d.source.isDesk) = true ∧ j1.erasedCount = 0) ∧ k = { j1 with next := j.next + ds.length } := by
  revert h
  unfold Journal.accept
  split
  · rintro ⟨⟩
  · rintro ⟨⟩
  · next j1 hp =>
    split
    · rintro ⟨⟩
    · next hseq =>
      split
      · rintro ⟨⟩
      · next hspace =>
        rintro ⟨⟩
        exact ⟨j1, hp, Nat.le_of_not_lt hseq, hspace, rfl⟩

/-- What an acceptance keeps: U above all. -/
theorem Journal.accept_u {j k : Journal} {now : Time} {ds : List Draft} (h : j.accept now ds = .done k) : k.u = j.u := by
  obtain ⟨j1, hp, -, -, rfl⟩ := Journal.accept_done h
  exact (Journal.placeAll_done _ hp).1.u

/-- What an acceptance of one record comes to, once placing it leaves the journal at `k`. -/
def Journal.comesTo (j : Journal) (now : Time) (d : Draft) (k : Journal) : Prop :=
  (4294967295 ≤ j.next → j.accept now [d] = .full)
    ∧ (j.next < 4294967295 →
        ((∃ x, d.source = .desk x) → (∀ x ∈ k.sectors, x.st ≠ .erased) → j.accept now [d] = .full)
          ∧ ((∃ x ∈ k.sectors, x.st = .erased) ∨ d.source = .uplink ∨ d.source = .unit →
              j.accept now [d] = .done { k with next := j.next + 1 }))

/-- The record a draft becomes, offered alone. -/
def Journal.recOf (j : Journal) (now : Time) (d : Draft) : Rec :=
  { seq := j.next, source := d.source, time := d.time.getD now, flags := d.flags, body := d.body }

section One
variable {j k : Journal} {now : Time} {d : Draft}

theorem Journal.placeAll_one (j : Journal) (r : Rec) : j.placeAll [r] = j.placeOne r := by
  unfold Journal.placeAll
  cases j.placeOne r <;> rfl

theorem Journal.accept_one_wait (h : j.placeOne (j.recOf now d) = .wait) : j.accept now [d] = .wait := by
  rw [Journal.accept, show numberDrafts now j.next [d] = [j.recOf now d] from rfl, Journal.placeAll_one, h]

theorem Journal.accept_one_full (h : j.placeOne (j.recOf now d) = .full) : j.accept now [d] = .full := by
  rw [Journal.accept, show numberDrafts now j.next [d] = [j.recOf now d] from rfl, Journal.placeAll_one, h]

theorem Journal.erasedCount_zero : k.erasedCount = 0 ↔ ∀ x ∈ k.sectors, x.st ≠ .erased := by
  rw [Journal.erasedCount_eq, List.length_eq_zero_iff, List.filter_eq_nil_iff]
  simp

theorem Journal.accept_one_placed (h : j.placeOne (j.recOf now d) = .done k) : j.comesTo now d k := by
  have e : j.accept now [d] =
      if 4294967295 < j.next + 1 then .full
      else if d.source.isDesk = true ∧ k.erasedCount = 0 then .full
      else .done { k with next := j.next + 1 } := by
    rw [Journal.accept, show numberDrafts now j.next [d] = [j.recOf now d] from rfl, Journal.placeAll_one, h]
    simp
  refine ⟨fun hn => e.trans (if_pos (by omega)), fun hn => ⟨fun hd hx => ?_, fun hx => ?_⟩⟩
  · exact e.trans ((if_neg (by omega)).trans
      (if_pos ⟨Source.isDesk_iff.mpr hd, Journal.erasedCount_zero.mpr hx⟩))
  · refine e.trans ((if_neg (by omega)).trans (if_neg ?_))
    rintro ⟨hd, h0⟩
    obtain ⟨x, hsrc⟩ := Source.isDesk_iff.mp hd
    rcases hx with ⟨y, hy, hst⟩ | hu | hu
    · exact Journal.erasedCount_zero.mp h0 y hy hst
    · rw [hsrc] at hu; cases hu
    · rw [hsrc] at hu; cases hu

end One

/-! ### Where one record goes -/

theorem RecBody.size_pos (b : RecBody) : 0 < b.size := Nat.add_pos_left (by decide) _

/-- A record put behind others in the buffer of a page. -/
theorem Journal.putRec_eq (j : Journal) (n p : Nat) (rs : List Rec) (r : Rec) :
    j.putRec { target := some (n, p), recs := rs } r = j.withRecord n p rs r := by
  unfold Journal.putRec Journal.withRecord
  have room : PageBuf.free { target := some (n, p), recs := rs ++ [r] } < 12 ↔ pageRoom p < recsSize (rs ++ [r]) + 12 := by
    unfold PageBuf.free
    have : 238 ≤ pageRoom p := by unfold pageRoom; split <;> decide
    dsimp only
    omega
  exact if_congr room rfl rfl

/-- The next sector, opened: the one that was Active is full. -/
theorem Journal.openSector_erased {j : Journal} (seq : Nat) (h : (j.sector j.nextSector.1).st = .erased) :
    j.openSector seq = .done (j.withOpened j.nextSector.1 j.nextSector.2 seq, (j.nextSector.1, 0)) := by
  unfold Journal.openSector Journal.withOpened
  dsimp only
  rw [h]
  cases j.active <;> rfl

theorem Journal.openSector_erasing {j : Journal} (seq : Nat) (h : (j.sector j.nextSector.1).st = .erasing) :
    j.openSector seq = .wait := by
  unfold Journal.openSector
  dsimp only
  rw [h]

theorem Journal.openSector_used {j : Journal} (seq : Nat) (h : (j.sector j.nextSector.1).st = .active
      ∨ (j.sector j.nextSector.1).st = .sealed ∨ (j.sector j.nextSector.1).st = .reclaimable) :
    j.openSector seq = .full := by
  unfold Journal.openSector
  dsimp only
  rcases h with h | h | h <;> rw [h]

theorem Journal.givePage_next {j : Journal} {a : Nat} (seq : Nat) (ha : j.active = some a) (hp : j.page ≤ 15) :
    j.givePage seq = .done ({ j with page := j.page + 1 }, (a, j.page)) := by
  unfold Journal.givePage
  rw [ha]
  exact if_pos hp

theorem Journal.givePage_open {j : Journal} (seq : Nat) (h : j.active = none ∨ 15 < j.page) :
    j.givePage seq = j.openSector seq := by
  unfold Journal.givePage
  cases ha : j.active with
  | none => rfl
  | some a => exact if_neg (Nat.not_le.mpr (h.resolve_left (by simp [ha])))

section Place
variable {j j1 : Journal} {r : Rec} {t : Nat × Nat}

theorem Journal.placeOne_fits {b : PageBuf} {n p : Nat} (hf : j.filling = some b) (ht : b.target = some (n, p))
    (h : recsSize b.recs + r.body.size ≤ pageRoom p) : j.placeOne r = .done (j.withRecord n p b.recs r) := by
  obtain ⟨target, recs⟩ := b
  subst ht
  have room : r.body.size ≤ PageBuf.free { target := some (n, p), recs := recs } := by
    unfold PageBuf.free
    have := r.body.size_pos
    dsimp only at *
    omega
  unfold Journal.placeOne
  rw [hf]
  exact (if_pos room).trans (congrArg Placed.done (Journal.putRec_eq ..))

/-- No buffer is Filling, or its page has no room for the record. -/
def Journal.fullFor (j : Journal) (r : Rec) : Prop :=
  ∀ b n p, j.filling = some b → b.target = some (n, p) → pageRoom p < recsSize b.recs + r.body.size

theorem Journal.placeOne_new (h : j.fullFor r) : j.placeOne r = j.placeNew r := by
  unfold Journal.placeOne
  split
  · rfl
  · next b hb =>
    refine if_neg fun hfit => ?_
    unfold PageBuf.free at hfit
    have := r.body.size_pos
    cases ht : b.target with
    | none => rw [ht] at hfit; dsimp only at hfit; omega
    | some t =>
      obtain ⟨n, p⟩ := t
      have := h b n p hb ht
      rw [ht] at hfit
      dsimp only at hfit
      omega

/-- The number of page buffers in use. -/
def Journal.inUse (j : Journal) : Nat := j.filling.toList.length + j.waiting.length + j.programming.toList.length

theorem Journal.placeNew_wait (r : Rec) (h : 2 ≤ j.inUse ∨ ∃ b ∈ j.waiting, b.target = none) : j.placeNew r = .wait := by
  refine if_pos (h.imp (fun h => ?_) fun ⟨b, hb, ht⟩ => ?_)
  · exact Nat.sub_eq_zero_of_le h
  · exact List.any_eq_true.mpr ⟨b, hb, by simp [ht]⟩

/-- A buffer is Free, and none that waits is without its page. -/
def Journal.canPlace (j : Journal) : Prop := j.inUse < 2 ∧ ∀ b ∈ j.waiting, b.target ≠ none

theorem Journal.canPlace.not_blocked (h : j.canPlace) :
    ¬ (j.freeBuffers = 0 ∨ j.waiting.any (fun b => b.target.isNone) = true) := by
  rintro (h0 | hb)
  · exact absurd h.1 (Nat.not_lt.mpr (Nat.le_of_sub_eq_zero h0))
  · obtain ⟨b, hb, ht⟩ := List.any_eq_true.mp hb
    exact h.2 b hb (Option.isNone_iff_eq_none.mp ht)

theorem Journal.placeNew_given (h : j.canPlace) (hg : j.withClosed.givePage r.seq = .done (j1, t)) :
    j.placeNew r = .done (j1.withRecord t.1 t.2 [] r) := by
  rw [Journal.placeNew, if_neg h.not_blocked, Journal.closeFilling_eq, hg, ← Journal.putRec_eq]

theorem Journal.placeNew_erasing (h : j.canPlace) (hg : j.withClosed.givePage r.seq = .wait) : j.placeNew r = .wait := by
  rw [Journal.placeNew, if_neg h.not_blocked, Journal.closeFilling_eq, hg]

theorem Journal.placeNew_full (h : j.canPlace) (hg : j.withClosed.givePage r.seq = .full) : j.placeNew r = .full := by
  rw [Journal.placeNew, if_neg h.not_blocked, Journal.closeFilling_eq, hg]

end Place

/-! ### The acceptance that waited, taken up again -/

/-- What a transaction asks of the journal does not depend on the journal's own state. -/
theorem State.txnRecords_journal (s : State) (k : Journal) (h : Held) :
    State.txnRecords { s with journal := k } h = s.txnRecords h := by
  cases ht : h.txn <;> simp [State.txnRecords, State.planOf, State.unitRecords, ht, State.desktop, Plan.answer]

theorem State.planOf_journal (s : State) (k : Journal) (h : Held) :
    (State.planOf { s with journal := k } h).isSome = (s.planOf h).isSome := by
  cases ht : h.txn <;> simp [State.planOf, ht]

/-- What an acceptance comes to at a journal: its end, or its wait at the front of the queue. -/
def State.frontAt (s : State) (a : Acceptance) (k : Journal) : State :=
  (State.acceptFront { s with journal := k } a).getD { s with journal := { k with queue := [a] } }

/-- The one acceptance offered, taken up again. -/
theorem State.pump_takenUp {s : State} {j : Journal} {a : Acceptance} {f : Journal → State} (hq : j.queue = [a])
    (hf : ∀ k : Journal, k.queue = [] → k.u = j.u → s.frontAt a k = f k) :
    State.pump { s with journal := j } = s.takenUp j a f := by
  rw [State.pump_single hq]
  unfold State.takenUp
  by_cases ho : j.owedAck = true
  · rw [if_pos ho, Journal.offerOwed_owed ho]
    dsimp only [Journal.ackDraft]
    cases ha : j.accept s.now [{ source := .uplink, time := none, flags := { }, body := .ack j.u }] with
    | wait =>
      rw [show State.now { s with journal := j } = s.now from rfl, ha]
      exact congrArg (fun q => ({ s with journal := { j with queue := q } } : State)) hq
    | full =>
      rw [show State.now { s with journal := j } = s.now from rfl, ha]
      exact hf { j with queue := [] } rfl rfl
    | done k =>
      rw [show State.now { s with journal := j } = s.now from rfl, ha]
      have hu := Journal.accept_u ha
      exact hf { k with owedAck := false, queue := [] } rfl hu
  · rw [if_neg ho, show j.offerOwed (State.now { s with journal := j }) = .done j from if_neg ho]
    exact hf { j with queue := [] } rfl rfl

/-- The store's own acceptance. -/
theorem State.frontAt_store {s : State} {h : Held} (hh : s.store.holding = some h) (k : Journal) :
    s.frontAt .store k = s.heldMeets h k := by
  have front : State.acceptFront { s with journal := k } .store = State.acceptHeld { s with journal := k } h := by
    rw [State.acceptFront, hh]
  rw [State.frontAt, front]
  unfold State.heldMeets
  cases ha : k.accept s.now (s.txnRecords h) with
  | done k1 =>
    rw [State.acceptHeld_done (s := { s with journal := k }) ((congrArg _ (s.txnRecords_journal k h)).trans ha)]
    exact Option.getD_some
  | wait =>
    rw [State.acceptHeld_wait (s := { s with journal := k }) ((congrArg _ (s.txnRecords_journal k h)).trans ha)]
    exact Option.getD_none
  | full =>
    rw [State.acceptHeld_full (s := { s with journal := k }) ((congrArg _ (s.txnRecords_journal k h)).trans ha),
      ← State.planOf_journal s k h]
    cases State.planOf { s with journal := k } h <;> rfl

end Sys2Proof.Machine
end

section
/-! PROOFS. The page buffers' events, a page program's completion, and one acceptance of one record (R146 to R156). O49. -/

namespace Sys2Proof.Machine

/-! ### Events of the page buffers -/

section Buffers
variable {s : State}

theorem exec_bufferTimer_due {b : PageBuf} (h : s.power ≠ .off) (hb : s.journal.filling = some b)
    (ht : 5000 ≤ s.journal.fillMs) :
    exec .bufferTimer s
      = .next { s with journal :=
          { s.journal with filling := none, waiting := s.journal.waiting ++ [b], fillMs := 0 } } := by
  refine congrArg Host.Outcome.next ((if_pos ⟨h, by rw [hb]; rfl, ht⟩).trans ?_)
  rw [Journal.closeFilling, hb]

theorem exec_bufferTimer_early (h : s.journal.filling = none ∨ s.journal.fillMs < 5000) :
    exec .bufferTimer s = .next s := by
  refine congrArg Host.Outcome.next (if_neg ?_)
  rintro ⟨-, hb, ht⟩
  rcases h with h | h
  · rw [h] at hb; cases hb
  · omega

theorem letProgram_free {e : Option EraseRun} (h : e = none ∨ ∃ r, e = some r ∧ r.suspended = true) :
    letProgram e = some e := by
  rcases h with rfl | ⟨r, rfl, hr⟩
  · rfl
  · exact if_pos hr

theorem letProgram_running {r : EraseRun} (h : r.suspended = false) :
    letProgram (some r) = if r.count < 64 then some (some { r with suspended := true, count := r.count + 1 }) else none :=
  if_neg (by simp [h])

/-- A program begins, once the erase engine lets it. -/
theorem exec_pageProgramStart {b : PageBuf} {rest : List PageBuf} {t : Nat × Nat} {e : Option EraseRun}
    (h : s.power ≠ .off) (hw : s.journal.waiting = b :: rest) (ht : b.target = some t) (hp : s.journal.programming = none)
    (he : letProgram s.journal.erase = some e) :
    exec .pageProgramStart s
      = .next { s with journal := { s.journal with waiting := rest, programming := some b, erase := e } } := by
  refine congrArg Host.Outcome.next ((if_neg h).trans ?_)
  rw [Journal.startProgram, hw, hp, he]
  exact congrArg (fun x => ({ s with journal := x } : State)) (if_pos (by rw [ht]; rfl))

theorem exec_pageProgramStart_waits
    (h : s.journal.waiting = [] ∨ s.journal.programming ≠ none ∨ letProgram s.journal.erase = none) :
    exec .pageProgramStart s = .next s := by
  refine congrArg Host.Outcome.next (ite_eq_left_iff.mpr fun _ => ?_)
  refine congrArg (fun x => ({ s with journal := x } : State)) (show s.journal.startProgram = s.journal from ?_)
  unfold Journal.startProgram
  split
  · next b rest e hw hp he =>
    rcases h with h | h | h
    · rw [h] at hw; cases hw
    · exact absurd hp h
    · rw [h] at he; cases he
  · rfl

end Buffers

/-! ### The completion of a page program -/

section Complete
variable {s : State} {b : PageBuf} {n p : Nat}

theorem Journal.finishProgram_eq {j : Journal} (h : b.target = some (n, p)) :
    j.finishProgram b =
      { j with array := Memory.writeAll j.array (pageAddr n p) (j.bufferBytes b n p), tail := lastStop j.tail b.recs,
               programming := none } := by
  rw [Journal.finishProgram, h]

theorem exec_pageProgramComplete (h : s.power ≠ .off) (hb : s.journal.programming = some b) :
    exec .pageProgramComplete s = .next (s.programDone b) := by
  refine congrArg Host.Outcome.next ?_
  rw [hb]
  exact if_neg h

theorem Journal.programReady_eq (j : Journal) : j.programReady = j.waiting.head?.any (fun y => y.target.isSome) := by
  unfold Journal.programReady
  cases j.waiting <;> rfl

theorem Journal.resumeErase_eq (j : Journal) :
    j.resumeErase = { j with erase := j.erase.map fun r =>
      { r with suspended := r.suspended && j.waiting.head?.any (fun y => y.target.isSome) } } := by
  rw [← Journal.programReady_eq]
  obtain ⟨⟩ := j
  unfold Journal.resumeErase
  dsimp only
  split
  · next r =>
    obtain ⟨sector, suspended, count⟩ := r
    cases suspended
    · rfl
    · split
      · next h => rw [h.2]; rfl
      · next h =>
        rw [Bool.eq_true_of_not_eq_false fun h0 => h ⟨rfl, h0⟩]
        rfl
  · rfl

theorem State.programDone_resumed (h : b.target = some (n, p)) (s : State) :
    s.programDone b =
      (State.pump { s with journal :=
        { s.journal with array := Memory.writeAll s.journal.array (pageAddr n p) (s.journal.bufferBytes b n p)
                         tail := lastStop s.journal.tail b.recs
                         programming := none } }).resumed := by
  rw [State.programDone, Journal.finishProgram_eq h, Journal.resumeErase_eq]
  rfl

theorem State.pump_empty {s : State} (h : s.journal.queue = []) : s.pump = s := by
  rw [State.pump, h]
  rfl

end Complete

/-! ### The acceptances that wait for a page program -/

section Front
variable {s : State}

/-- The record of a CLOCK acceptance. -/
def State.clockDraft (s : State) (day minute : Nat) : Draft :=
  { source := .uplink, time := none, flags := { }, body := .clock s.now { day := day, minute := minute } }

section Clock
variable {day minute second : Nat} {k k1 : Journal}

/-- A CLOCK acceptance whose day is not before the clock's. -/
theorem State.acceptFront_clock (h : s.clock.day ≤ day) (k : Journal) :
    State.acceptFront { s with journal := k } (.clock day minute second) =
      State.offerOne { s with journal := k } (s.clockDraft day minute)
        (fun s => (s.setClock day minute second).respond .uplink .ok .empty) :=
  if_neg (Nat.not_lt.mpr h)

theorem State.frontAt_clock_done (h : s.clock.day ≤ day) (ha : k.accept s.now [s.clockDraft day minute] = .done k1) :
    s.frontAt (.clock day minute second) k =
      (State.setClock { s with journal := k1 } day minute second).respond .uplink .ok .empty := by
  rw [State.frontAt, State.acceptFront_clock h, State.offerOne_done (s := { s with journal := k }) ha, Option.getD_some]

theorem State.frontAt_clock_full (h : s.clock.day ≤ day) (ha : k.accept s.now [s.clockDraft day minute] = .full) :
    s.frontAt (.clock day minute second) k =
      (State.setClock { s with journal := { k with drops := min (k.drops + 1) 255 } } day minute second).respond .uplink
        .ok .empty := by
  rw [State.frontAt, State.acceptFront_clock h, State.offerOne_full (s := { s with journal := k }) ha, Option.getD_some]

theorem State.frontAt_clock_wait (h : s.clock.day ≤ day) (ha : k.accept s.now [s.clockDraft day minute] = .wait) :
    s.frontAt (.clock day minute second) k = { s with journal := { k with queue := [.clock day minute second] } } := by
  rw [State.frontAt, State.acceptFront_clock h, State.offerOne_wait (s := { s with journal := k }) ha, Option.getD_none]

end Clock

section Ack
variable {clamped : Bool} {f : State → State} {k : Journal}

theorem State.acceptAck_done (ha : s.journal.accept s.now [s.journal.ackDraft] = .done k) :
    s.acceptAck f = some (f { s with journal := k }) := by rw [State.acceptAck, ha]

theorem State.acceptAck_full (ha : s.journal.accept s.now [s.journal.ackDraft] = .full) :
    s.acceptAck f = some (f { s with journal := { s.journal with owedAck := true } }) := by rw [State.acceptAck, ha]

theorem State.acceptAck_wait (ha : s.journal.accept s.now [s.journal.ackDraft] = .wait) : s.acceptAck f = none := by
  rw [State.acceptAck, ha]

/-- An AckJournal's own ACK record. -/
theorem State.acceptFront_ack (s : State) (clamped : Bool) :
    s.acceptFront (.ack clamped true) =
      s.acceptAck (fun s => s.respond .uplink .ok (.ack s.journal.u clamped)) := by
  unfold State.acceptFront
  exact if_pos rfl

theorem State.frontAt_ack_done {k1 : Journal} (ha : k.accept s.now [k.ackDraft] = .done k1) :
    s.frontAt (.ack clamped true) k = State.respond { s with journal := k1 } .uplink .ok (.ack k.u clamped) := by
  rw [State.frontAt, State.acceptFront_ack, State.acceptAck_done (s := { s with journal := k }) ha, Option.getD_some,
    Journal.accept_u ha]

theorem State.frontAt_ack_full (ha : k.accept s.now [k.ackDraft] = .full) :
    s.frontAt (.ack clamped true) k =
      State.respond { s with journal := { k with owedAck := true } } .uplink .ok (.ack k.u clamped) := by
  rw [State.frontAt, State.acceptFront_ack, State.acceptAck_full (s := { s with journal := k }) ha, Option.getD_some]

theorem State.frontAt_ack_wait (ha : k.accept s.now [k.ackDraft] = .wait) :
    s.frontAt (.ack clamped true) k = { s with journal := { k with queue := [.ack clamped true] } } := by
  rw [State.frontAt, State.acceptFront_ack, State.acceptAck_wait (s := { s with journal := k }) ha, Option.getD_none]

end Ack

end Front

/-- Settles O49: the buffers' events, a program's completion with nothing and with one acceptance waiting, what an
acceptance does, and where one record goes. -/
theorem pageBuffersCloseAndAreProgrammed : Obligations.PageBuffersCloseAndAreProgrammed := by
  unfold Obligations.PageBuffersCloseAndAreProgrammed
  refine ⟨?_, ?_, ?_, ?_, ?_⟩
  · intro s on j
    refine ⟨fun b hb ht => exec_bufferTimer_due on hb ht, exec_bufferTimer_early, fun b rest t hw ht hp => ⟨fun he => ?_,
      fun r he hr => ⟨fun hc => ?_, fun hc => ?_⟩⟩, fun h => ?_⟩
    · exact exec_pageProgramStart on hw ht hp (letProgram_free he)
    · exact exec_pageProgramStart on hw ht hp
        ((congrArg letProgram he).trans ((letProgram_running hr).trans (if_pos hc)))
    · exact exec_pageProgramStart_waits
        (.inr (.inr ((congrArg letProgram he).trans ((letProgram_running hr).trans (if_neg (Nat.not_lt.mpr hc))))))
    · exact exec_pageProgramStart_waits (h.imp_right .inl)
  · intro s b n p on hb ht hn hp hwf hq j x content
    have fits : pageAddr n p + (pageBytes content).length ≤ arraySize := by
      rw [length_pageBytes]; exact pageAddr_fits hn hp
    refine ⟨Memory.writeAll j.array (pageAddr n p) (pageBytes content), ?_, Memory.wf_writeAll hwf fits, fun i hi => ?_,
      fun a ha => ?_⟩
    · rw [exec_pageProgramComplete on hb, State.programDone_resumed ht]
      exact congrArg (fun u => Host.Outcome.next (State.resumed u)) (State.pump_empty (by exact hq))
    · rw [Memory.read_writeAll _ hwf fits, length_pageBytes, pageAddr, if_pos (by omega), Nat.add_sub_cancel_left]
    · rw [Memory.read_writeAll _ hwf fits, length_pageBytes, pageAddr, if_neg (by omega)]
  · intro s b n p a on hb ht hq j x content done goesOn
    have goes {f : Journal → State} (hf : ∀ k : Journal, k.queue = [] → k.u = done.u → s.frontAt a k = f k) : goesOn f := by
      refine (exec_pageProgramComplete on hb).trans ?_
      rw [State.programDone_resumed ht]
      exact congrArg (fun u => Host.Outcome.next (State.resumed u)) (State.pump_takenUp (j := done) hq hf)
    refine ⟨fun h ha hh => goes fun k _ _ => ?_, fun day minute second ha hd => goes fun k _ _ => ?_,
      fun clamped ha => goes fun k _ hu => ?_⟩
    · rw [ha]; exact State.frontAt_store hh k
    · rw [ha]
      dsimp only
      split
      · next k1 hk => exact State.frontAt_clock_done hd hk
      · next hk => exact State.frontAt_clock_full hd hk
      · next hk => exact State.frontAt_clock_wait hd hk
    · have same : k.u = j.u := hu
      rw [ha]
      dsimp only
      split
      · next k1 hk => rw [← same]; exact State.frontAt_ack_done hk
      · next hk => rw [← same]; exact State.frontAt_ack_full hk
      · next hk => exact State.frontAt_ack_wait hk
  · intro j k now ds h
    obtain ⟨j1, hplace, hseq, hspace, rfl⟩ := Journal.accept_done h
    obtain ⟨hplaced, hbuf⟩ := Journal.placeAll_done _ hplace
    refine ⟨⟨_, hbuf, length_numberDrafts .., fun i r d hr hd => getElem?_numberDrafts _ _ _ i hr hd⟩, ?_, hseq, ?_⟩
    · exact congrArg (fun x : Journal => { x with next := j.next + ds.length }) hplaced
    · rintro ⟨d, hd, x, hx⟩
      refine Nat.pos_of_ne_zero fun h0 => hspace ⟨?_, (Journal.erasedCount_eq j1).trans h0⟩
      exact List.any_eq_true.mpr ⟨d, hd, Source.isDesk_iff.mpr ⟨x, hx⟩⟩
  · intro j now d r comesTo full closed
    have placed {k : Journal} (h : j.placeOne r = .done k) : comesTo k := Journal.accept_one_placed h
    refine ⟨fun b n p hb ht hfit => placed (Journal.placeOne_fits hb ht hfit), fun hfull h => ?_,
      fun hfull huse hwait => ⟨fun a ha hpage => ?_, fun hnext => ?_⟩⟩
    · exact Journal.accept_one_wait ((Journal.placeOne_new hfull).trans (Journal.placeNew_wait r h))
    · exact placed ((Journal.placeOne_new hfull).trans
        (Journal.placeNew_given ⟨huse, hwait⟩ (Journal.givePage_next r.seq (j := closed) ha hpage)))
    · intro n
      have opens := Journal.givePage_open r.seq (j := closed) hnext
      refine ⟨fun hst => ?_, fun hst => ?_, fun hst => ?_⟩
      · exact Journal.accept_one_wait ((Journal.placeOne_new hfull).trans (Journal.placeNew_erasing ⟨huse, hwait⟩
          (opens.trans (Journal.openSector_erasing r.seq (j := closed) hst))))
      · exact placed ((Journal.placeOne_new hfull).trans (Journal.placeNew_given ⟨huse, hwait⟩
          (opens.trans (Journal.openSector_erased r.seq (j := closed) hst))))
      · exact Journal.accept_one_full ((Journal.placeOne_new hfull).trans (Journal.placeNew_full ⟨huse, hwait⟩
          (opens.trans (Journal.openSector_used r.seq (j := closed) hst))))

end Sys2Proof.Machine
end

section
/-! PROOFS. The erase engine and the acknowledgements of the journal (R143, R154, R155, R158, R166). O50, O51. -/

namespace Sys2Proof.Machine

/-! ### The first of a ring of places -/

theorem find?_first {f : Nat → Nat} {p : Nat → Bool} {n i : Nat} (hi : i < n) (hp : p (f i) = true)
    (hfirst : ∀ k, k < i → p (f k) = false) : ((List.range n).map f).find? p = some (f i) := by
  have h : (List.range n).find? (p ∘ f) = some i :=
    List.find?_range_eq_some.mpr ⟨hp, List.mem_range.mpr hi, fun k hk => by simp [hfirst k hk]⟩
  rw [List.find?_map, h]
  rfl

theorem find?_none {f : Nat → Nat} {p : Nat → Bool} {n : Nat} (h : ∀ i, i < n → p (f i) = false) :
    ((List.range n).map f).find? p = none := by
  rw [List.find?_eq_none]
  intro x hx
  obtain ⟨i, hi, rfl⟩ := List.mem_map.mp hx
  simp [h i (List.mem_range.mp hi)]

/-! ### The sector the erase engine takes -/

/-- A sector whose records are served still. -/
def Journal.live (j : Journal) (n : Nat) : Prop :=
  (j.sector n).st = .active ∨ (j.sector n).st = .sealed ∨ (j.sector n).st = .reclaimable

theorem SectorState.isLive_iff {x : SectorState} : x.isLive = true ↔ x = .active ∨ x = .sealed ∨ x = .reclaimable := by
  cases x <;> simp [SectorState.isLive]

theorem Journal.isLive_iff {j : Journal} {n : Nat} : (j.sector n).st.isLive = true ↔ j.live n := SectorState.isLive_iff

theorem Journal.not_live {j : Journal} {n : Nat} (h : ¬ j.live n) : (j.sector n).st.isLive = false :=
  Bool.eq_false_iff.mpr fun h2 => h (Journal.isLive_iff.mp h2)

section Start
variable {j : Journal} {n : Nat}

/-- A sector that is being erased is live no more; the others are what they were. -/
theorem Journal.isLive_erasing (hn : n < j.sectors.length) (k : Nat) :
    ((j.setSector n { j.sector n with st := .erasing }).sector k).st.isLive =
      if k = n then false else (j.sector k).st.isLive := by
  rw [Journal.sector_setSector _ _ _ _ hn]
  split <;> rfl

/-- The n-th place of the ring, from the one after the Active sector. -/
def Journal.ringAt (j : Journal) (i : Nat) : Nat := ((j.active.map (· + 1)).getD 0 + i) % 128

theorem Journal.ring_eq (j : Journal) : j.ring = (List.range 128).map j.ringAt := by
  unfold Journal.ring Journal.ringAt
  cases j.active <;> rfl

theorem Journal.oldestFirst_some {i : Nat} (hi : i < 128) (hl : (j.sector (j.ringAt i)).st.isLive = true)
    (hfirst : ∀ k, k < i → (j.sector (j.ringAt k)).st.isLive = false) :
    j.oldestFirst = (j.sector (j.ringAt i)).first := by
  rw [Journal.oldestFirst, Journal.ring_eq, find?_first (f := j.ringAt) hi hl hfirst]

theorem Journal.oldestFirst_none (h : ∀ i, i < 128 → (j.sector (j.ringAt i)).st.isLive = false) :
    j.oldestFirst = j.head := by
  rw [Journal.oldestFirst, Journal.ring_eq, find?_none (f := j.ringAt) h]

/-- Head advances to the oldest sector that is left. -/
theorem Journal.startErase_some {i : Nat} (hn : n < j.sectors.length) (hi : i < 128) (hl : j.live (j.ringAt i))
    (hne : j.ringAt i ≠ n) (hfirst : ∀ k, k < i → ¬ j.live (j.ringAt k) ∨ j.ringAt k = n) :
    j.startErase n =
      { j with sectors := j.sectors.set n { j.sector n with st := .erasing }
               erase := some { sector := n, suspended := false, count := 0 }
               head := max j.head (j.sector (j.ringAt i)).first } := by
  have oldest : Journal.oldestFirst (j.setSector n { j.sector n with st := .erasing }) =
      (j.sector (j.ringAt i)).first := by
    refine (Journal.oldestFirst_some hi ?_ fun k hk => ?_).trans ?_
    · rw [Journal.isLive_erasing hn]; exact (if_neg hne).trans (Journal.isLive_iff.mpr hl)
    · rw [Journal.isLive_erasing hn]
      rcases hfirst k hk with h | h
      · exact ite_eq_left_iff.mpr fun _ => Journal.not_live h
      · exact if_pos h
    · rw [Journal.sector_setSector _ _ _ _ hn]
      exact congrArg Sector.first (if_neg hne)
  rw [Journal.startErase, oldest]
  rfl

theorem Journal.startErase_none (hn : n < j.sectors.length)
    (h : ∀ i, i < 128 → ¬ j.live (j.ringAt i) ∨ j.ringAt i = n) :
    j.startErase n =
      { j with sectors := j.sectors.set n { j.sector n with st := .erasing }
               erase := some { sector := n, suspended := false, count := 0 } } := by
  have oldest : Journal.oldestFirst (j.setSector n { j.sector n with st := .erasing }) = j.head := by
    refine Journal.oldestFirst_none fun i hi => ?_
    rw [Journal.isLive_erasing hn]
    rcases h i hi with h | h
    · exact ite_eq_left_iff.mpr fun _ => Journal.not_live h
    · exact if_pos h
  rw [Journal.startErase, oldest, show (j.setSector n { j.sector n with st := .erasing }).head = j.head from rfl,
    Nat.max_self]
  rfl

theorem Journal.queuedErase_some {i : Nat} (hi : i < 128) (h : (j.sector ((j.eraseFrom + i) % 128)).st = .erasing)
    (hfirst : ∀ k, k < i → (j.sector ((j.eraseFrom + k) % 128)).st ≠ .erasing) :
    j.eraseCandidate = some ((j.eraseFrom + i) % 128) := by
  have q : j.queuedErase = some ((j.eraseFrom + i) % 128) :=
    find?_first (f := fun i => (j.eraseFrom + i) % 128) hi (by simp [h]) fun k hk => by simp [hfirst k hk]
  rw [Journal.eraseCandidate, q]

theorem Journal.queuedErase_none (h : ∀ n, n < 128 → (j.sector n).st ≠ .erasing) : j.queuedErase = none :=
  find?_none (f := fun i => (j.eraseFrom + i) % 128) fun i _ => by
    simp [h ((j.eraseFrom + i) % 128) (Nat.mod_lt _ (by decide))]

theorem Journal.eraseCandidate_some {i : Nat} (hq : ∀ n, n < 128 → (j.sector n).st ≠ .erasing) (hi : i < 128)
    (h : (j.sector (j.ringAt i)).st = .reclaimable)
    (hfirst : ∀ k, k < i → (j.sector (j.ringAt k)).st ≠ .reclaimable) : j.eraseCandidate = some (j.ringAt i) := by
  rw [Journal.eraseCandidate, Journal.queuedErase_none hq, Journal.ring_eq]
  exact find?_first (f := j.ringAt) hi (by simp [h]) fun k hk => by simp [hfirst k hk]

theorem Journal.eraseCandidate_none (hq : ∀ n, n < 128 → (j.sector n).st ≠ .erasing)
    (h : ∀ n, n < 128 → (j.sector n).st ≠ .reclaimable) : j.eraseCandidate = none := by
  rw [Journal.eraseCandidate, Journal.queuedErase_none hq, Journal.ring_eq]
  exact find?_none (f := j.ringAt) fun i _ => by simp [h (j.ringAt i) (Nat.mod_lt _ (by decide))]

/-- A sector that is not blank is one of the journal's. -/
theorem Journal.sector_lt (h : (j.sector n).st ≠ .erased) : n < j.sectors.length := by
  refine Nat.lt_of_not_le fun hn => h ?_
  rw [Journal.sector, List.getD_eq_default _ _ hn]
  rfl

theorem Journal.programReady_iff : j.programReady = true ↔ ∃ b rest, j.waiting = b :: rest ∧ b.target ≠ none := by
  unfold Journal.programReady
  cases j.waiting <;> simp [Option.isSome_iff_ne_none]

theorem exec_eraseStart {s : State} (h : s.power ≠ .off) (he : s.journal.erase = none) (hp : s.journal.programming = none)
    (hr : ¬ s.journal.programReady = true) (hc : s.journal.eraseCandidate = some n) :
    exec .eraseStart s = .next { s with journal := s.journal.startErase n } := by
  refine congrArg Host.Outcome.next ((if_neg ?_).trans ?_)
  · rintro (h2 | h2 | h2 | h2)
    · exact h h2
    · rw [he] at h2; cases h2
    · rw [hp] at h2; cases h2
    · exact hr h2
  · rw [hc]

theorem exec_eraseStart_idle {s : State} (hc : s.journal.eraseCandidate = none) :
    exec .eraseStart s = .next s := by
  refine congrArg Host.Outcome.next (ite_eq_left_iff.mpr fun _ => ?_)
  rw [hc]

theorem exec_eraseStart_waits {s : State} (h : s.journal.erase ≠ none ∨ s.journal.programming ≠ none
    ∨ s.journal.programReady = true) : exec .eraseStart s = .next s :=
  congrArg Host.Outcome.next (if_pos (.inr (h.imp Option.isSome_iff_ne_none.mpr (.imp_left Option.isSome_iff_ne_none.mpr))))

end Start

/-! ### The bytes an erase leaves -/

section Bytes
variable {m : List Host.Cell} {a n k : Nat} {cs : List Host.Cell}

/-- Cells written inside a range leave the bytes outside it. -/
theorem Memory.read_writeCells_outside (h : Memory.wf m = true) (ha : a + n ≤ arraySize) (hc : ∀ c ∈ cs, c.1 < n)
    (hk : k < a ∨ a + n ≤ k) : Memory.read (Memory.writeCells m a cs) k = Memory.read m k := by
  induction cs generalizing m with
  | nil => rfl
  | cons c cs ih =>
    have hlt : c.1 < n := hc c List.mem_cons_self
    rw [Memory.writeCells, ih (Memory.wf_write h (by omega)) fun x hx => hc x (List.mem_cons_of_mem c hx),
      Memory.read_write _ _ _ (Memory.rising_of_wf h), if_neg (by omega)]

/-- Erased bytes written over erased bytes change nothing that can be read. -/
theorem Memory.read_writeCells_erased (h : Memory.wf m = true) (ha : a + n ≤ arraySize) (hc : ∀ c ∈ cs, c.1 < n)
    (hff : ∀ c ∈ cs, c.2 = 0xFF#8) (hk : Memory.read m k = 0xFF#8) :
    Memory.read (Memory.writeCells m a cs) k = 0xFF#8 := by
  induction cs generalizing m with
  | nil => exact hk
  | cons c cs ih =>
    have hlt : c.1 < n := hc c List.mem_cons_self
    refine ih (Memory.wf_write h (by omega)) (fun x hx => hc x (List.mem_cons_of_mem c hx))
      (fun x hx => hff x (List.mem_cons_of_mem c hx)) ?_
    rw [Memory.read_write _ _ _ (Memory.rising_of_wf h), hff c List.mem_cons_self, hk, ite_self]

/-- The array once the `n` bytes from `a` up have been erased, but for the bytes `cs`. -/
theorem Memory.read_erased_outside (h : Memory.wf m = true) (ha : a + n ≤ arraySize) (hc : ∀ c ∈ cs, c.1 < n)
    (hk : k < a ∨ a + n ≤ k) : Memory.read (Memory.writeCells (Memory.erase m a n) a cs) k = Memory.read m k := by
  rw [Memory.read_writeCells_outside (Memory.wf_erase a n h) ha hc hk, Memory.read_erase, if_neg (by omega)]

theorem Memory.read_erased (h : Memory.wf m = true) (ha : a + n ≤ arraySize) (hc : ∀ c ∈ cs, c.1 < n)
    (hff : ∀ c ∈ cs, c.2 = 0xFF#8) :
    Memory.read (Memory.writeCells (Memory.erase m a n) a cs) k = if a ≤ k ∧ k < a + n then 0xFF#8 else Memory.read m k := by
  by_cases hk : a ≤ k ∧ k < a + n
  · rw [if_pos hk]
    refine Memory.read_writeCells_erased (Memory.wf_erase a n h) ha hc hff ?_
    rw [Memory.read_erase, if_pos hk]
  · rw [if_neg hk, Memory.read_erased_outside h ha hc (by omega)]

end Bytes

/-! ### The queue of acceptances plays no part in one -/

/-- What placing comes to, carried on to something made of it. -/
def Placed.map {α β : Type} (f : α → β) : Placed α → Placed β
  | .wait => .wait
  | .full => .full
  | .done x => .done (f x)

section Queue
variable (j : Journal) (q : List Acceptance)

def Journal.withQueue : Journal := { j with queue := q }

theorem Journal.openSector_withQueue (seq : Nat) :
    (j.withQueue q).openSector seq = (j.openSector seq).map fun x => (x.1.withQueue q, x.2) := by
  unfold Journal.openSector
  simp only [show (j.withQueue q).nextSector = j.nextSector from rfl,
    show (j.withQueue q).sector = j.sector from rfl, show (j.withQueue q).active = j.active from rfl]
  cases (j.sector j.nextSector.1).st <;> cases j.active <;> rfl

theorem Journal.givePage_withQueue (seq : Nat) :
    (j.withQueue q).givePage seq = (j.givePage seq).map fun x => (x.1.withQueue q, x.2) := by
  unfold Journal.givePage
  simp only [show (j.withQueue q).active = j.active from rfl, show (j.withQueue q).page = j.page from rfl]
  cases j.active with
  | none => exact j.openSector_withQueue q seq
  | some a =>
    by_cases hp : j.page ≤ 15
    · simp only [if_pos hp]; rfl
    · simp only [if_neg hp]; exact j.openSector_withQueue q seq

theorem Journal.putRec_withQueue (b : PageBuf) (r : Rec) :
    (j.withQueue q).putRec b r = (j.putRec b r).withQueue q := by
  unfold Journal.putRec
  cases b.target <;> dsimp only <;> split <;> rfl

theorem Journal.placeNew_withQueue (r : Rec) : (j.withQueue q).placeNew r = (j.placeNew r).map (·.withQueue q) := by
  have closed : (j.withQueue q).withClosed = j.withClosed.withQueue q := rfl
  unfold Journal.placeNew
  simp only [Journal.closeFilling_eq, closed, Journal.givePage_withQueue,
    show (j.withQueue q).freeBuffers = j.freeBuffers from rfl, show (j.withQueue q).waiting = j.waiting from rfl]
  split
  · rfl
  · cases j.withClosed.givePage r.seq with
    | wait => rfl
    | full => rfl
    | done x => exact congrArg Placed.done (x.1.putRec_withQueue q _ r)

theorem Journal.placeOne_withQueue (r : Rec) : (j.withQueue q).placeOne r = (j.placeOne r).map (·.withQueue q) := by
  unfold Journal.placeOne
  simp only [show (j.withQueue q).filling = j.filling from rfl]
  cases j.filling with
  | none => exact j.placeNew_withQueue q r
  | some b =>
    by_cases hb : r.body.size ≤ b.free
    · simp only [if_pos hb]; exact congrArg Placed.done (j.putRec_withQueue q b r)
    · simp only [if_neg hb]; exact j.placeNew_withQueue q r

theorem Journal.placeAll_withQueue (rs : List Rec) :
    (j.withQueue q).placeAll rs = (j.placeAll rs).map (·.withQueue q) := by
  induction rs generalizing j with
  | nil => rfl
  | cons r rs ih =>
    unfold Journal.placeAll
    rw [Journal.placeOne_withQueue]
    cases j.placeOne r with
    | wait => rfl
    | full => rfl
    | done j1 => exact ih j1

theorem Journal.accept_withQueue (now : Time) (ds : List Draft) :
    (j.withQueue q).accept now ds = (j.accept now ds).map (·.withQueue q) := by
  unfold Journal.accept
  simp only [show (j.withQueue q).next = j.next from rfl, Journal.placeAll_withQueue]
  cases j.placeAll (numberDrafts now j.next ds) with
  | wait => rfl
  | full => rfl
  | done j1 =>
    simp only [Placed.map, show (j1.withQueue q).erasedCount = j1.erasedCount from rfl]
    split
    · rfl
    · split <;> rfl

/-- What takes up an acceptance at a journal does not depend on the journal's queue. -/
theorem State.takenUp_withQueue (s : State) (a : Acceptance) (f : Journal → State) :
    s.takenUp (j.withQueue q) a f = s.takenUp j a f := by
  unfold State.takenUp
  simp only [Journal.accept_withQueue, show (j.withQueue q).owedAck = j.owedAck from rfl,
    show (j.withQueue q).u = j.u from rfl]
  split
  · cases j.accept s.now [{ source := .uplink, time := none, flags := { }, body := .ack j.u }] <;> rfl
  · rfl

end Queue

/-! ### The end of an erase -/

section Done
variable {s : State} {r : EraseRun} {left : List Host.Cell}

theorem exec_eraseComplete (hl : ∀ c ∈ left, c.1 < 4096) (hr : s.journal.erase = some r) (hs : r.suspended = false)
    (h : s.power ≠ .off) : exec (.eraseComplete left) s = .next (s.eraseDone r left) := by
  refine (if_neg ?_).trans (congrArg Host.Outcome.next ?_)
  · simpa using hl
  · rw [hr]
    exact if_neg (by simp [h, hs])

theorem exec_eraseComplete_none (hl : ∀ c ∈ left, c.1 < 4096)
    (h : s.journal.erase = none ∨ ∃ r, s.journal.erase = some r ∧ r.suspended = true) :
    exec (.eraseComplete left) s = .next s := by
  refine (if_neg ?_).trans (congrArg Host.Outcome.next ?_)
  · simpa using hl
  · rcases h with h | ⟨r, h, hr⟩ <;> rw [h]
    exact if_pos (.inr hr)

/-- Buffers that have their pages keep them. -/
theorem Journal.retarget_same (n : Nat) (j : Journal) (pre todo : List PageBuf) (h : ∀ b ∈ todo, b.target ≠ none) :
    Journal.retarget n j pre todo = { j with waiting := pre ++ todo } := by
  induction n generalizing pre todo with
  | zero => rfl
  | succ n ih =>
    cases todo with
    | nil => rw [Journal.retarget, List.append_nil]
    | cons b bs =>
      obtain ⟨t, ht⟩ := Option.ne_none_iff_exists'.mp (h b List.mem_cons_self)
      unfold Journal.retarget
      simp only [ht]
      rw [ih _ _ fun x hx => h x (List.mem_cons_of_mem b hx), List.append_assoc]
      rfl

/-- The journal once a sector's erase has left it blank. -/
def Journal.erasedAt (j : Journal) (n : Nat) (left : List Host.Cell) : Journal :=
  { j with
    array := Memory.writeCells (Memory.erase j.array (n * 4096) 4096) (n * 4096) left
    sectors := j.sectors.set n { st := .erased, lap := 0, first := 0, stop := 0 }
    erase := none }

theorem Journal.finishErase_blank {j : Journal} (hff : ∀ c ∈ left, c.2 = 0xFF#8) (hw : ∀ b ∈ j.waiting, b.target ≠ none) :
    j.finishErase r left = j.erasedAt r.sector left := by
  have all : left.all (fun c => c.2 == 0xFF#8) = true := by simpa using hff
  exact (if_pos all).trans (Journal.retarget_same 6 _ [] _ hw)

theorem Journal.finishErase_again {j : Journal} (hff : ∃ c ∈ left, c.2 ≠ 0xFF#8) :
    j.finishErase r left =
      { j with array := Memory.writeCells (Memory.erase j.array (r.sector * 4096) 4096) (r.sector * 4096) left,
               erase := some { r with count := 0 } } :=
  if_neg (by simpa using hff)

theorem State.eraseDone_again (hff : ∃ c ∈ left, c.2 ≠ 0xFF#8) :
    s.eraseDone r left = { s with journal := s.journal.finishErase r left } := if_neg (by simpa using hff)

/-- A sector left blank: an ACK owed goes first. -/
theorem State.eraseDone_blank (hff : ∀ c ∈ left, c.2 = 0xFF#8) (hw : ∀ b ∈ s.journal.waiting, b.target ≠ none) :
    s.eraseDone r left =
      if s.journal.owedAck = true ∧ s.journal.queue = [] then
        State.offer { s with journal := s.journal.erasedAt r.sector left } .owed
      else State.pump { s with journal := s.journal.erasedAt r.sector left } := by
  have all : left.all (fun c => c.2 == 0xFF#8) = true := by simpa using hff
  rw [← Journal.finishErase_blank (r := r) hff hw]
  refine (if_pos all).trans ?_
  rw [Journal.finishErase_blank hff hw]
  rfl

/-- The owed ACK, offered alone. -/
theorem State.offer_owed {j : Journal} (hq : j.queue = []) :
    State.offer { s with journal := j } .owed = s.takenUp j .owed fun k => { s with journal := k } := by
  rw [← State.takenUp_withQueue j [.owed]]
  refine (congrArg State.pump ?_).trans (State.pump_takenUp (j := j.withQueue [.owed]) rfl fun k _ _ => rfl)
  exact congrArg (fun x => ({ s with journal := { j with queue := x ++ [.owed] } } : State)) hq

end Done

/-- Settles O50: which sector the erase engine takes and where head then stands, and what the erase's end leaves. -/
theorem erasesBlankTheirSector : Obligations.ErasesBlankTheirSector := by
  unfold Obligations.ErasesBlankTheirSector
  intro s on j ready live ring left
  have hring : ring = j.ringAt := by
    funext i
    show (_ + i) % 128 = (_ + i) % 128
    cases j.active <;> rfl
  have hready : ready ↔ j.programReady = true := Journal.programReady_iff.symm
  refine ⟨fun he hp hr => ?_, fun h => ?_, fun cells hl he => exec_eraseComplete_none hl (.inl he),
    fun r cells he hl => ⟨fun hs => exec_eraseComplete_none hl (.inr ⟨r, he, hs⟩), fun hs hn hwf => ⟨?_, ?_⟩⟩⟩
  · intro takes
    have hr' : ¬ j.programReady = true := fun h => hr (hready.mpr h)
    have taken {n : Nat} (hc : j.eraseCandidate = some n) (hn : n < j.sectors.length) : takes n := by
      refine ⟨fun i hi hl hne hfirst => ?_, fun hnone => ?_⟩
      · rw [exec_eraseStart on he hp hr' hc]
        rw [hring] at hl hne hfirst ⊢
        exact congrArg (fun x => Host.Outcome.next { s with journal := x }) (Journal.startErase_some hn hi hl hne hfirst)
      · rw [exec_eraseStart on he hp hr' hc]
        rw [hring] at hnone
        exact congrArg (fun x => Host.Outcome.next { s with journal := x }) (Journal.startErase_none hn hnone)
    refine ⟨fun i hi hst hfirst => ?_, fun hq => ⟨fun i hi hst hfirst => ?_, fun hnone => ?_⟩⟩
    · exact taken (Journal.queuedErase_some hi hst hfirst) (Journal.sector_lt (by rw [hst]; nofun))
    · rw [hring] at hst hfirst ⊢
      exact taken (Journal.eraseCandidate_some hq hi hst hfirst) (Journal.sector_lt (by rw [hst]; nofun))
    · exact exec_eraseStart_idle (Journal.eraseCandidate_none hq hnone)
  · exact exec_eraseStart_waits (h.imp_right (.imp_right hready.mp))
  · intro hff hw
    have runs := (exec_eraseComplete hl he hs on).trans (congrArg Host.Outcome.next (State.eraseDone_blank (r := r) hff hw))
    refine ⟨_, ⟨Memory.wf_writeCells (Memory.wf_erase _ _ hwf) (Journal.Held.sectorBase_fits hn) hl, fun a =>
      Memory.read_erased hwf (Journal.Held.sectorBase_fits hn) hl hff⟩, fun hq ho => ?_, fun hq ho => ?_, fun h hq hh => ?_⟩
    · rw [runs, if_neg (by simp [show s.journal.owedAck = false from ho])]
      exact congrArg Host.Outcome.next (State.pump_empty (by exact hq))
    · rw [runs, if_pos ⟨ho, hq⟩]
      exact congrArg Host.Outcome.next (State.offer_owed (j := s.journal.erasedAt r.sector cells) hq)
    · rw [runs, if_neg (by simp [show s.journal.queue = _ from hq])]
      exact congrArg Host.Outcome.next
        (State.pump_takenUp (j := s.journal.erasedAt r.sector cells) hq fun k _ _ => State.frontAt_store hh k)
  · intro hff
    refine ⟨_, ?_, fun a ha => Memory.read_erased_outside hwf (Journal.Held.sectorBase_fits hn) hl ha⟩
    rw [exec_eraseComplete hl he hs on, State.eraseDone_again hff, Journal.finishErase_again hff]

/-! ### Acknowledgements -/

theorem exec_ackJournal {s : State} {tag : Byte} {seq : Nat} (h : s.free .uplink) (hs : seq < 4294967296) :
    exec (.ackJournal .uplink tag (be4 seq)) s = .next ((s.taken .uplink .ackJournal tag).acknowledge seq) := by
  have body : whole (readNum 4 (be4 seq)) = some seq := (reads_be4.whole_eq_some _ seq).mpr ⟨hs, rfl⟩
  refine congrArg Host.Outcome.next
    ((State.request_free (k := .ackJournal) (body := be4 seq) _ h rfl (by simp; rfl) nofun nofun).trans ?_)
  simp only [body]

/-- The answer, from a state whose journal the request has moved on. -/
theorem State.respond_acknowledged (s : State) (tag : Byte) (ans : Answer) (k : Journal) :
    State.respond { s.taken .uplink .ackJournal tag with journal := k } .uplink .ok ans =
      { s.answered .uplink .ackJournal tag .ok ans with journal := k } :=
  State.respond_taken { s with journal := k } .uplink .ackJournal tag .ok ans

/-- Settles O51: U stands, or moves with its ACK record accepted or owed. -/
theorem acknowledgementsMoveUForward : Obligations.AcknowledgementsMoveUForward := by
  unfold Obligations.AcknowledgementsMoveUForward
  intro tag seq s hfree hseq j u clamped c answered
  have runs : exec c s = .next ((s.taken .uplink .ackJournal tag).acknowledge seq) := exec_ackJournal hfree hseq
  refine ⟨fun hu => ?_, fun hu hidle => ?_⟩
  · rw [runs]
    exact congrArg Host.Outcome.next ((if_pos hu).trans (State.respond_taken ..))
  · intro moved drafts
    have owed : (!j.owedAck) = true := by simp [show j.owedAck = false from hidle.2]
    have offered : exec c s =
        .next ((State.acceptFront { s.taken .uplink .ackJournal tag with journal := moved } (.ack clamped true)).getD
          { s.taken .uplink .ackJournal tag with journal := { moved with queue := [.ack clamped true] } }) := by
      rw [runs]
      refine congrArg Host.Outcome.next ((if_neg hu).trans ?_)
      refine Eq.trans ?_ (State.offer_idle (s := { s.taken .uplink .ackJournal tag with journal := moved }) hidle)
      exact congrArg (fun b => State.offer { s.taken .uplink .ackJournal tag with journal := moved } (.ack clamped b)) owed
    refine ⟨fun k ha => ?_, fun ha => ?_⟩
    · have same : k.u = u := Journal.accept_u ha
      rw [offered, State.acceptFront_ack, State.acceptAck_done (by exact ha), Option.getD_some]
      exact congrArg Host.Outcome.next ((State.respond_acknowledged s tag _ k).trans
        (congrArg (fun x => { s.answered .uplink .ackJournal tag .ok (.ack x clamped) with journal := k }) same))
    · rw [offered, State.acceptFront_ack, State.acceptAck_full (by exact ha), Option.getD_some]
      exact congrArg Host.Outcome.next (State.respond_acknowledged s tag _ { moved with owedAck := true })

end Sys2Proof.Machine
end

section
/-! PROOFS. Power loss and unit restart (R42, R148, R155, R158, R161, R191). O58, O60. -/

namespace Sys2Proof.Machine

/-! ### Power loss -/

section Torn
variable {j : Journal} {page sector : List Host.Cell} {a : Nat}

/-- Only the page being programmed is torn. -/
theorem Journal.read_tearPage (h : j.Held) (hc : ∀ c ∈ page, c.1 < 256)
    (ha : ∀ b n p, j.programming = some b → b.target = some (n, p) →
      a < n * 4096 + p * 256 ∨ n * 4096 + p * 256 + 256 ≤ a) :
    Memory.read (j.tearPage page) a = Memory.read j.array a := by
  unfold Journal.tearPage
  split
  · next n p ht =>
    obtain ⟨b, hb, hbt⟩ := Option.bind_eq_some_iff.mp ht
    obtain ⟨hn, hp⟩ := h.programming b hb n p hbt
    exact Memory.read_erased_outside h.array (pageAddr_fits hn hp) hc (ha b n p hb hbt)
  · rfl

theorem Journal.wf_tearPage (h : j.Held) (hc : ∀ c ∈ page, c.1 < 256) : Memory.wf (j.tearPage page) = true := by
  unfold Journal.tearPage
  split
  · next n p ht =>
    obtain ⟨b, hb, hbt⟩ := Option.bind_eq_some_iff.mp ht
    obtain ⟨hn, hp⟩ := h.programming b hb n p hbt
    exact Memory.wf_writeCells (Memory.wf_erase _ _ h.array) (pageAddr_fits hn hp) hc
  · exact h.array

/-- Only the sector being erased is torn. -/
theorem Journal.read_tearSector (h : Memory.wf j.array = true) (hr : ∀ r, j.erase = some r → r.sector < 128)
    (hc : ∀ c ∈ sector, c.1 < 4096)
    (ha : ∀ r, j.erase = some r → a < r.sector * 4096 ∨ r.sector * 4096 + 4096 ≤ a) :
    Memory.read (j.tearSector sector) a = Memory.read j.array a := by
  unfold Journal.tearSector
  split
  · next r he => exact Memory.read_erased_outside h (Journal.Held.sectorBase_fits (hr r he)) hc (ha r he)
  · rfl

end Torn

theorem any_le_false {n : Nat} {cs : List Host.Cell} (h : ∀ c ∈ cs, c.1 < n) :
    cs.any (fun c => decide (n ≤ c.1)) = false := by
  rw [List.any_eq_false]
  exact fun c hc => by simpa using h c hc

theorem exec_powerLoss {page sector : List Host.Cell} (s : State) (hp : ∀ c ∈ page, c.1 < 256)
    (hs : ∀ c ∈ sector, c.1 < 4096) :
    exec (.powerLoss page sector) s =
      .next (if s.power = .off then s
        else { s.undoStep with power := .off, restartDue := false, store := Store.initial,
                               journal := s.journal.lostPower page sector }) :=
  if_neg (by rw [any_le_false hp, any_le_false hs]; simp)

/-- Settles O60: the step the store held undone, and an array torn in the page and the sector under way alone. -/
theorem powerLossTearsOnlyWorkInProgress : Obligations.PowerLossTearsOnlyWorkInProgress := by
  unfold Obligations.PowerLossTearsOnlyWorkInProgress
  intro page sector s hp hs
  refine ⟨fun off => (exec_powerLoss s hp hs).trans (congrArg Host.Outcome.next (if_pos off)), fun on hj => ?_⟩
  intro held es
  refine ⟨Journal.tearSector { s.journal with array := s.journal.tearPage page } sector, ?_,
    (hj.lostPower hp hs).array, fun a hpage hsector => ?_⟩
  · rw [exec_powerLoss s hp hs, if_neg on]
    cases hstep : s.store.holdsStep with
    | true =>
      have hheld : held = true := hstep
      rw [State.undoStep, if_pos hstep, hheld]
      rfl
    | false =>
      have hheld : held = false := hstep
      rw [State.undoStep_none hstep, hheld]
      rfl
  · exact (Journal.read_tearSector (j := { s.journal with array := s.journal.tearPage page })
      (Journal.wf_tearPage hj hp) hj.erase hs hsector).trans (Journal.read_tearPage hj hp hpage)

/-! ### What a transaction asks of the journal after a restart -/

/-- Records are made of tables, settings, generation, edits taken and the session's counts, which a restart keeps. -/
theorem State.txnRecords_restarted {s t : State} {h : Held} (hc : t.circ = s.circ) (hs : t.settings = s.settings)
    (hg : t.roll.gen = s.roll.gen) (ht : t.roll.taken = s.roll.taken) (hx : t.exch = s.exch.afterReset) :
    t.txnRecords { h with silent := true } = s.txnRecords h := by
  cases hk : h.txn <;>
    simp [State.txnRecords, State.planOf, State.unitRecords, hk, State.desktop, hc, hs, hg, ht, hx, Plan.answer,
      Exchange.afterReset, Exchange.draft]

theorem Rollover.goOn_eq (r : Rollover) :
    r.goOn = { r with place := if r.phase = .holdPass then 0 else r.place,
                      cursor := if r.phase = .sweep then 0 else r.cursor } := by
  obtain ⟨gen, phase⟩ := r
  cases phase <;> rfl

/-! ### Acceptances while no page buffer is Free -/

section Waits
variable {s : State} {j : Journal}

theorem Journal.accept_wait (hf : j.filling = none) (hw : 2 ≤ j.inUse) (now : Time) {ds : List Draft} (hd : ds ≠ []) :
    j.accept now ds = .wait := by
  cases ds with
  | nil => exact absurd rfl hd
  | cons d ds =>
    have first : ∀ r, j.placeOne r = .wait := fun r => by
      rw [Journal.placeOne, hf]; exact Journal.placeNew_wait r (.inl hw)
    rw [Journal.accept, numberDrafts, Journal.placeAll, first]

/-- Whether an acceptance, taken up, asks for records. -/
def State.asksFor (s : State) (a : Acceptance) : Prop :=
  (∃ h, a = .store ∧ s.store.holding = some h ∧ s.txnRecords h ≠ []) ∨ a = .edits ∨ a = .rollover
    ∨ ∃ clamped, a = .ack clamped true

theorem State.acceptFront_waits {a : Acceptance} (hf : s.journal.filling = none) (hw : 2 ≤ s.journal.inUse)
    (ha : s.asksFor a) : s.acceptFront a = none := by
  have wait {ds : List Draft} (hd : ds ≠ []) : s.journal.accept s.now ds = .wait := Journal.accept_wait hf hw _ hd
  rcases ha with ⟨h, rfl, hh, hr⟩ | rfl | rfl | ⟨clamped, rfl⟩
  · rw [State.acceptFront, hh]
    exact State.acceptHeld_wait (wait hr)
  · rw [State.acceptFront]; exact State.offerOne_wait (wait (List.cons_ne_nil _ _))
  · rw [State.acceptFront]; exact State.offerOne_wait (wait (List.cons_ne_nil _ _))
  · rw [State.acceptFront_ack]; exact State.acceptAck_wait (wait (List.cons_ne_nil _ _))

/-- Nothing goes on while the front acceptance waits. -/
theorem State.pump_waits {a : Acceptance} {rest : List Acceptance} (hq : s.journal.queue = a :: rest)
    (hf : s.journal.filling = none) (hw : 2 ≤ s.journal.inUse) (ha : s.asksFor a) : s.pump = s := by
  rw [State.pump, hq, List.length_cons, State.pumpN, hq]
  by_cases ho : s.journal.owedAck = true
  · have owed : s.journal.offerOwed s.now = .wait := by
      rw [Journal.offerOwed_owed ho, Journal.accept_wait hf hw _ (List.cons_ne_nil _ _)]
    simp only [owed]
  · have owed : s.journal.offerOwed s.now = .done s.journal := if_neg ho
    have front : State.acceptFront { s with journal := { s.journal with queue := rest } } a = none := by
      refine State.acceptFront_waits hf hw (ha.imp_left ?_)
      rintro ⟨h, h1, h2, h3⟩
      exact ⟨h, h1, h2, (State.txnRecords_journal s _ h).symm ▸ h3⟩
    simp only [owed, front]
    rw [← hq]

end Waits

/-! ### Unit restart -/

section Restart
variable {s : State}

theorem exec_unitRestart (hp : s.power = .running) (hd : s.restartDue = true) :
    exec .unitRestart s = .next (s.restarting.offer (.restart .restart)) :=
  congrArg Host.Outcome.next (if_pos ⟨hp, hd⟩)

/-- The RESTART record, once it is accepted or dropped: start-up ends. -/
theorem State.offer_restart {t : State} {k : StartKind} {ds : List Draft} {j : Journal} (hidle : t.journal.idle)
    (hds : ds = [{ source := .unit, time := none, flags := { }, body := .restart k t.journal.drops }])
    (ha : t.journal.accept t.now ds = .done j
      ∨ t.journal.accept t.now ds = .full ∧ j = { t.journal with drops := min (t.journal.drops + 1) 255 }) :
    t.offer (.restart k) = State.finishStartup { t with journal := j } := by
  subst hds
  rcases ha with ha | ⟨ha, rfl⟩
  · exact State.offer_done (f := State.finishStartup) hidle rfl ha
  · exact State.offer_full (f := State.finishStartup) hidle rfl ha

theorem Acceptance.isStore_eq : Acceptance.isStore = fun b => decide (b = .store) := by
  funext b; cases b <;> rfl

theorem Acceptance.countsDropped_eq : Acceptance.countsDropped = fun b => decide (b = .edits) := by
  funext b; cases b <;> rfl

/-- A transaction whose outcome is discarded changes the tables alone (R62, R191). -/
theorem State.finishTxn_silent {h : Held} {p : Plan} (hh : h.silent = true) (hp : s.planOf h = some p) :
    s.finishTxn h true = { s with circ := p.circ, store := { s.store with holding := none } } := by
  rw [State.finishTxn_planned hp true]
  exact if_pos hh

end Restart

/-- Settles O58: a restart whose RESTART record is accepted or dropped at once, one that waits behind what the journal has
taken, and what then becomes of the transaction kept. -/
theorem unitRestartKeepsTheTables : Obligations.UnitRestartKeepsTheTables := by
  unfold Obligations.UnitRestartKeepsTheTables
  refine ⟨fun s hd => congrArg Host.Outcome.next (if_neg (by simp [hd])), ?_, fun s h p => State.finishTxn_silent⟩
  intro s hp hd hdrops starting kept drafts
  rw [exec_unitRestart hp hd]
  have begun : s.restarting = { starting with
      store := { Store.initial with holding := s.store.holding.map (fun h => { h with silent := true }) }
      journal := s.journal.restarted } := by
    rw [State.restarting, Rollover.goOn_eq]
    rfl
  refine ⟨fun j hh hq ho ha => ?_, fun a rest hq hf hw ha => ?_⟩
  · have journal : s.journal.restarted = kept := by
      rw [Journal.restarted, hq]
      simp [kept, keptQueue, hq, Nat.min_eq_left hdrops]
    have clear : s.restarting = { starting with journal := kept } := by
      rw [begun, journal, hh]
      rfl
    rw [clear]
    refine congrArg Host.Outcome.next ((State.offer_restart (t := { starting with journal := kept }) (ds := drafts)
      ⟨hq, ho⟩ rfl ha).trans ?_)
    unfold State.finishStartup
    cases hx : s.exch.session with
    | none => simp [starting, hx, Printer.sendInquiry, inquiryMessage, Store.initial]
    | some k => simp [starting, hx, Printer.sendInquiry, inquiryMessage, Store.initial]
  · have journal : s.journal.restarted = { kept with
        queue := a :: (rest.filter Acceptance.ownsAck ++ rest.filter (fun b => decide (b = .store)))
        drops := min (s.journal.drops + (rest.filter (fun b => decide (b = .edits))).length) 255 } := by
      rw [Journal.restarted, hq, ← Acceptance.isStore_eq, ← Acceptance.countsDropped_eq]
      rfl
    rw [begun, journal]
    refine congrArg Host.Outcome.next (State.pump_waits (a := a) rfl hf ?_ ?_)
    · rw [Journal.inUse, show kept.filling = none from hf]
      simpa using hw
    · refine ha.imp_left ?_
      rintro ⟨h, h1, h2, h3⟩
      refine ⟨{ h with silent := true }, h1, congrArg (Option.map fun h : Held => { h with silent := true }) h2, ?_⟩
      refine fun e => h3 (Eq.trans (Eq.symm ?_) e)
      exact State.txnRecords_restarted rfl rfl rfl rfl rfl

end Sys2Proof.Machine
end

section
/-! PROOFS. A power-on (R125, R140, R158 to R160, R192). O59. -/

namespace Sys2Proof.Machine

/-! ### The steps of a power-on -/

/-- The scan leaves nothing offered to the journal. -/
theorem Journal.scan_queue (j : Journal) (warm : Bool) : (j.scan warm).queue = [] := by
  obtain ⟨same, -⟩ := Journal.retarget_spec 6
    (j.scanned warm (j.foundU warm (j.headed warm)) (keptSectors (j.foundU warm (j.headed warm)) (j.headed warm))) []
    (j.openBuffers warm (foundTail j.array (keptSectors (j.foundU warm (j.headed warm)) (j.headed warm))))
    (by simp [Journal.scanned]) scanned_active
  exact (congrArg Journal.queue same).trans rfl

section On
variable (s : State) (broke high : Bool)

/-- The rollover of a warm power-on: it goes on, and a day that passed without power is a day change (R131, R140). -/
def State.warmRoll : Rollover :=
  if (s.warmClock broke).valid = true ∧ s.roll.day < (s.warmClock broke).day then
    if s.roll.phase = .none then
      { s.roll with phase := .applying, day := (s.warmClock broke).day, place := 0, cursor := 0, moved := 0, flagsSet := 0,
                    flagsCleared := 0, expired := 0 }
    else { s.roll.goOn with pending := true }
  else s.roll.goOn

theorem Rollover.goOn_none {r : Rollover} (h : r.phase = .none) : r.goOn = r := by rw [Rollover.goOn, h]

theorem Rollover.goOn_phase (r : Rollover) : r.goOn.phase = r.phase := by rw [Rollover.goOn_eq]

theorem Rollover.goOn_day (r : Rollover) : r.goOn.day = r.day := by rw [Rollover.goOn_eq]

theorem State.warmStart_eq :
    s.warmStart broke =
      { s with clock := s.warmClock broke, journal := s.journal.scan true, exch := s.exch.afterReset,
               roll := s.warmRoll broke } := by
  unfold State.warmStart State.warmRoll
  dsimp only
  have day : s.roll.goOn.day = s.roll.day := s.roll.goOn_day
  by_cases h : (s.warmClock broke).valid = true ∧ s.roll.day < (s.warmClock broke).day
  · rw [if_pos (day.symm ▸ h), if_pos h]
    by_cases hp : s.roll.phase = .none
    · rw [if_pos hp, Rollover.goOn_none hp]
      exact State.dayChange_none hp
    · rw [if_neg hp]
      have inFlight : s.roll.goOn.phase ≠ .none := fun h2 => hp ((Rollover.goOn_phase _).symm.trans h2)
      exact if_neg inFlight
  · rw [if_neg (day.symm ▸ h), if_neg h]

/-- What a power-on leaves of retained memory: all of it, or its values when it has been lost. -/
theorem State.poweringOn_false :
    s.poweringOn false broke high =
      { s.resetDesks with
        clock := s.warmClock broke, journal := s.journal.scan true, exch := s.exch.afterReset, roll := s.warmRoll broke
        power := .starting .warm, store := Store.initial, openLine := high
        opState := deriveOp (s.warmClock broke).valid s.settings.config.home high s.settings.config.policy } := by
  rw [State.poweringOn, if_neg Bool.false_ne_true, State.warmStart_eq]
  rfl

theorem State.finishStartup_eq {s : State} (hu : s.store.uplink = []) (hs : s.exch.shut = false) :
    s.finishStartup =
      { s with
        power := .running
        printer := s.printer.sendInquiry
        store := { s.store with uplink := if s.exch.session.isSome then [.downloadAbort .reset] else [] }
        exch := { s.exch with shut := s.exch.session.isSome } } := by
  unfold State.finishStartup
  cases hx : s.exch.session with
  | some k => rfl
  | none =>
    have store : ({ s.store with uplink := [] } : Store) = s.store := by rw [← hu]
    have exch : ({ s.exch with shut := false } : Exchange) = s.exch := by rw [← hs]
    exact congrArg₂ (fun x y => { s with power := .running, printer := s.printer.sendInquiry, store := x, exch := y })
      store.symm exch.symm

/-- A power-on is cold when the backup supply fell below 2.0 V and when retained memory has never been written. -/
theorem State.not_retains (v : Nat) : (!s.retains v) = (decide (v < 2000) || !s.written) := by
  by_cases hv : v < 2000
  · simp [State.retains, hv, Nat.not_le.mpr hv]
  · simp [State.retains, hv, Nat.le_of_not_lt hv]

variable {s}

theorem exec_powerOn_off {v : Nat} (h : s.power = .off) :
    exec (.powerOn v high) s =
      .next ((s.poweringOn (!s.retains v) (decide (v < 2200)) high).offer
        (.restart (if (!s.retains v) = true then .cold else .warm))) :=
  congrArg Host.Outcome.next (if_pos h)

theorem State.warmRoll_gen : (s.warmRoll broke).gen = s.roll.gen := by
  unfold State.warmRoll
  rw [Rollover.goOn_eq]
  split
  · split <;> rfl
  · rfl

end On

/-- What becomes of a journal the RESTART record is offered to: accepted, or dropped. -/
def Journal.startsWith (k : Journal) (clock : Clock) (kind : StartKind) (j : Journal) : Prop :=
  let now : Time := { day := clock.day, minute := clock.minute }
  let drafts : List Draft := [{ source := .unit, time := none, flags := { }, body := .restart kind k.drops }]
  k.accept now drafts = .done j ∨ k.accept now drafts = .full ∧ j = { k with drops := min (k.drops + 1) 255 }

theorem State.offer_startsWith {t : State} {k : StartKind} {j : Journal} (hq : t.journal.queue = [])
    (ho : t.journal.owedAck = false) (h : t.journal.startsWith t.clock k j) :
    t.offer (.restart k) = State.finishStartup { t with journal := j } :=
  State.offer_restart ⟨hq, ho⟩ rfl h

section Ends
variable {s : State} {v : Nat} {high : Bool} {j : Journal}

theorem exec_powerOn_cold (off : s.power = .off) (hc : (!s.retains v) = true)
    (ho : (s.journal.scan false).owedAck = false) (hj : (s.journal.scan false).startsWith Clock.cold .cold j) :
    exec (.powerOn v high) s =
      .next { (s.poweringOn true (decide (v < 2200)) high) with
        power := .running, journal := j, printer := Printer.initial.sendInquiry } := by
  rw [exec_powerOn_off high off, hc]
  exact congrArg Host.Outcome.next ((State.offer_startsWith (s.journal.scan_queue false) ho hj).trans
    (State.finishStartup_eq rfl rfl))

theorem exec_powerOn_warm (off : s.power = .off) (hc : (!s.retains v) = false)
    (ho : (s.journal.scan true).owedAck = false)
    (hj : (s.journal.scan true).startsWith (s.warmClock (decide (v < 2200))) .warm j) :
    exec (.powerOn v high) s =
      .next { s.resetDesks with
        clock := s.warmClock (decide (v < 2200))
        journal := j
        roll := s.warmRoll (decide (v < 2200))
        openLine := high
        opState := deriveOp (s.warmClock (decide (v < 2200))).valid s.settings.config.home high s.settings.config.policy
        power := .running
        printer := Printer.initial.sendInquiry
        store := { Store.initial with uplink := if s.exch.session.isSome then [.downloadAbort .reset] else [] }
        exch := { s.exch.afterReset with shut := s.exch.session.isSome } } := by
  rw [exec_powerOn_off high off, hc, State.poweringOn_false]
  exact congrArg Host.Outcome.next ((State.offer_startsWith (s.journal.scan_queue true) ho hj).trans
    (State.finishStartup_eq rfl rfl))

end Ends

/-- Settles O59: the command with power on, the scan, and a power-on whose RESTART record is accepted or dropped at once. -/
theorem powerOnIsColdOrWarm : Obligations.PowerOnIsColdOrWarm := by
  unfold Obligations.PowerOnIsColdOrWarm
  refine ⟨fun v high s on => congrArg Host.Outcome.next (if_neg on),
    fun s warm hwf => ⟨_, s.journal.scan_spec warm hwf⟩, ?_⟩
  intro v high s j off cold found clock drafts ho ha
  have kind : (!s.retains v) = cold := s.not_retains v
  have starts : found.startsWith clock (if cold = true then .cold else .warm) j := ha
  cases hc : cold with
  | true =>
    have hfound : found = s.journal.scan false := congrArg (fun b => s.journal.scan (!b)) hc
    have hclock : clock = Clock.cold := if_pos hc
    rw [hfound] at ho
    rw [hfound, hclock, if_pos hc] at starts
    refine ⟨_, exec_powerOn_cold off (kind.trans hc) ho starts, ?_⟩
    rw [hclock]
    exact ⟨rfl, rfl, rfl, rfl, rfl, rfl, rfl, rfl, rfl, rfl, rfl, rfl, rfl, rfl, rfl, fun _ => ⟨rfl, rfl, rfl, rfl, rfl⟩,
      nofun⟩
  | false =>
    have hfound : found = s.journal.scan true := congrArg (fun b => s.journal.scan (!b)) hc
    have hclock : clock = s.warmClock (decide (v < 2200)) := by
      refine (if_neg (by simp [hc])).trans ?_
      unfold State.warmClock
      simp only [decide_eq_true_eq]
    have written : s.written = true := by
      have h : (decide (v < 2000) || !s.written) = false := hc
      simpa using (Bool.or_eq_false_iff.mp h).2
    rw [hfound] at ho
    rw [hfound, hclock, if_neg (by simp [hc])] at starts
    refine ⟨_, exec_powerOn_warm off (kind.trans hc) ho starts, ?_⟩
    rw [hclock]
    refine ⟨rfl, written, rfl, rfl, rfl, rfl, rfl, rfl, rfl, rfl, rfl, rfl, rfl, rfl, rfl, nofun,
      fun _ => ⟨rfl, rfl, State.warmRoll_gen _, rfl, fun hp hv hd => ?_, fun hp hv hd => ?_, fun h => ?_⟩⟩
    · have roll : s.warmRoll (decide (v < 2200)) = _ := (if_pos ⟨hv, hd⟩).trans (if_pos hp)
      exact ⟨congrArg Rollover.phase roll, congrArg Rollover.day roll⟩
    · have roll : s.warmRoll (decide (v < 2200)) = _ := (if_pos ⟨hv, hd⟩).trans (if_neg hp)
      exact ⟨(congrArg Rollover.phase roll).trans s.roll.goOn_phase, congrArg Rollover.pending roll⟩
    · have roll : s.warmRoll (decide (v < 2200)) = s.roll.goOn := if_neg fun hc => by
        rcases h with h | h
        · rw [h] at hc; cases hc.1
        · exact absurd hc.2 (Nat.not_lt.mpr h)
      refine ⟨(congrArg Rollover.phase roll).trans s.roll.goOn_phase,
        (congrArg Rollover.day roll).trans s.roll.goOn_day, (congrArg Rollover.pending roll).trans ?_⟩
      rw [Rollover.goOn_eq]

end Sys2Proof.Machine
end
